-- ==== Sys2Proof/Word.lean ====
section
/-!
DEFINITION. The widths the Ramexis Z1 specification names: bytes, 16-bit code parcels (R58), 32-bit
scalar registers (R88), 512-byte vector register images (R127) and 128-bit masks.
-/
namespace Sys2Proof

/-- One byte of any memory. -/
abbrev Byte := BitVec 8
/-- One 16-bit parcel of code (R58). -/
abbrev Parcel := BitVec 16
/-- A 32-bit scalar register or lane (R88). -/
abbrev Word := BitVec 32
/-- A 64-bit pair of scalar registers or a 64-bit system register. -/
abbrev DWord := BitVec 64
/-- The 512-byte image of a vector register: 128 lanes of 32 bits (R127). -/
abbrev VReg := BitVec 4096
/-- A mask register: one bit per lane. -/
abbrev Mask := BitVec 128

end Sys2Proof
end

