-- ==== Sys2Proof/Syntax.lean ====
section
/-!
DEFINITION. The operations and events of spec/opcode_table.json, one constructor per row (R58–R81 for the bundle
instructions, the chapters named at each group for the device's own steps). An instruction's E bit belongs to its
bundle (R58) and is no operand.
-/
namespace Sys2Proof

/-- Fields of a V instruction (R65). -/
structure VOps where
  t   : BitVec 4
  pk  : BitVec 2
  a   : BitVec 8
  ka  : BitVec 2
  kb  : BitVec 2
  fn  : BitVec 4
  b   : BitVec 8
  vd  : BitVec 7
  sat : BitVec 1
  deriving DecidableEq, Repr

/-- Fields of an M instruction (R66). -/
structure MOps where
  zd  : BitVec 6
  xa  : BitVec 6
  xb  : BitVec 6
  f4  : BitVec 4
  tda : BitVec 8
  tdb : BitVec 8
  deriving DecidableEq, Repr

/-- Fields of an L instruction (R67). -/
structure LOps where
  sz    : BitVec 3
  view  : BitVec 1
  pk    : BitVec 2
  d     : BitVec 7
  bp    : BitVec 5
  imm   : BitVec 24
  xi    : BitVec 6
  ord   : BitVec 2
  scope : BitVec 2
  aux   : BitVec 2
  deriving DecidableEq, Repr

/-- Fields of an X instruction (R68); `fl` holds FL[3:0] with RESUME in bit 0. -/
structure XOps where
  tag : BitVec 2
  fl  : BitVec 4
  bp  : BitVec 5
  td0 : BitVec 8
  td1 : BitVec 8
  td2 : BitVec 8
  p3  : BitVec 16
  deriving DecidableEq, Repr

/-- A link message: the header of R403 and its data. -/
structure Msg where
  opc  : BitVec 8
  attr : BitVec 8
  rid  : BitVec 16
  spkg : BitVec 16
  dpkg : BitVec 16
  addr : BitVec 64
  len  : BitVec 32
  aux  : BitVec 32
  data : List Byte
  deriving DecidableEq, Repr

/-- What an uncorrectable error strikes (R426). -/
inductive ErrTarget where
  | line (key : Nat)                   -- a memory line, by tier and physical address
  | pool (core : Nat) (line : Nat)     -- a 128-byte line of a core's pool
  | xreg (core : Nat) (r : BitVec 6)
  | kreg (core : Nat) (r : BitVec 3)
  deriving DecidableEq, Repr

/-- One constructor per row of the opcode table, in the table's order but for those without operands, which stand last. -/
inductive Instr where
  -- S class (R75)
  | add (d a b : BitVec 6) | sub (d a b : BitVec 6) | and (d a b : BitVec 6) | or (d a b : BitVec 6)
  | xor (d a b : BitVec 6) | shl (d a b : BitVec 6) | shr (d a b : BitVec 6) | sra (d a b : BitVec 6)
  | addImm (d a : BitVec 6) (i : BitVec 10) | subImm (d a : BitVec 6) (i : BitVec 10)
  | andImm (d a : BitVec 6) (i : BitVec 10) | orImm (d a : BitVec 6) (i : BitVec 10)
  | xorImm (d a : BitVec 6) (i : BitVec 10) | shlImm (d a : BitVec 6) (i : BitVec 10)
  | shrImm (d a : BitVec 6) (i : BitVec 10) | sraImm (d a : BitVec 6) (i : BitVec 10)
  | mul (d a b : BitVec 6) | mulh (d a b : BitVec 6) | mulhn (d a b : BitVec 6)
  | div (d a b : BitVec 6) | divn (d a b : BitVec 6) | rem (d a b : BitVec 6) | remn (d a b : BitVec 6)
  | min (d a b : BitVec 6) | max (d a b : BitVec 6) | minn (d a b : BitVec 6) | maxn (d a b : BitVec 6)
  | seq (d a b : BitVec 6) | sne (d a b : BitVec 6) | slt (d a b : BitVec 6) | sltn (d a b : BitVec 6)
  | sel (d a b : BitVec 6)
  | clz (d a : BitVec 6) | popc (d a : BitVec 6)
  | addp (d a b : BitVec 6) | subp (d a b : BitVec 6)
  | callx (a : BitVec 6) | ret (a : BitVec 6) | jx (a : BitVec 6)
  | lmark (i : BitVec 10)
  -- SL class (R76)
  | li (d : BitVec 6) (imm : BitVec 32) | la (d : BitVec 6) (imm : BitVec 32)
  | bra (imm : BitVec 32)
  | beq (a b : BitVec 6) (imm : BitVec 32) | bne (a b : BitVec 6) (imm : BitVec 32)
  | blt (a b : BitVec 6) (imm : BitVec 32) | bge (a b : BitVec 6) (imm : BitVec 32)
  | bltn (a b : BitVec 6) (imm : BitVec 32) | bgen (a b : BitVec 6) (imm : BitVec 32)
  | call (imm : BitVec 32) | calli (imm : BitVec 32)
  | loop (f4 : BitVec 4) (a : BitVec 6) (imm : BitVec 32)
  | loopx (f4 : BitVec 4) (a b : BitVec 6) (imm : BitVec 32)
  -- Y class (R81)
  | mfs (d : BitVec 6) (sys : BitVec 12) | mts (d : BitVec 6) (sys : BitVec 12)
  | trap (code : BitVec 12)
  | waitq (d : BitVec 6) | fwait (d : BitVec 6) | carve (d : BitVec 6)
  -- V class (R77)
  | vadd (o : VOps) | vsub (o : VOps) | vmul (o : VOps) | vfma (o : VOps) | vfms (o : VOps) | vfnma (o : VOps)
  | vmin (o : VOps) | vmax (o : VOps) | vabs (o : VOps) | vneg (o : VOps) | vcmp (o : VOps) | vsel (o : VOps)
  | vrcp (o : VOps) | vrsq (o : VOps) | vexp2 (o : VOps) | vlog2 (o : VOps) | vsinp (o : VOps) | vcosp (o : VOps)
  | vcvt (o : VOps) | vpackbx (o : VOps) | vunpbx (o : VOps) | vmulh (o : VOps)
  | vshl (o : VOps) | vshr (o : VOps) | vsra (o : VOps) | vfshl (o : VOps) | vfshr (o : VOps) | vtlog (o : VOps)
  | vpopc (o : VOps) | vclz (o : VOps) | vmov (o : VOps) | vperm (o : VOps) | vrot (o : VOps) | viota (o : VOps)
  | vred (o : VOps) | vscan (o : VOps) | vcmul (o : VOps) | vklog (o : VOps) | vkpop (o : VOps)
  -- M class (R78)
  | zzero (zd : BitVec 6)
  | zld (zd xa : BitVec 6) (f4 : BitVec 4) | zst (zd xa : BitVec 6) (f4 : BitVec 4)
  | zrd (zd xa xb : BitVec 6) (f4 : BitVec 4) | zrds (zd xa xb : BitVec 6) (f4 : BitVec 4)
  | zwm (zd xa : BitVec 6)
  | zmma (o : MOps)
  | bfset (zd xa : BitVec 6) (f4 : BitVec 4)
  | bfly (o : MOps) | bfch (o : MOps)
  | fmtw (xa : BitVec 6)
  -- L class (R79)
  | sld (o : LOps) | sst (o : LOps) | sldx (o : LOps) | sstx (o : LOps) | slw (o : LOps) | ssw (o : LOps)
  | samo (o : LOps) | gld (o : LOps) | gst (o : LOps) | gamo (o : LOps) | enq (o : LOps) | deq (o : LOps)
  | fetch (o : LOps) | fetchLand (d : BitVec 7) (n : BitVec 3) | wback (o : LOps)
  | fence (ord scope : BitVec 2) | xfence (p q : BitVec 4) (scope : BitVec 2)
  | retain (d : BitVec 7) (bp : BitVec 5) (imm : BitVec 24) (xi : BitVec 6)
  | unpin (d : BitVec 7) (bp : BitVec 5) (imm : BitVec 24) (xi : BitVec 6)
  | barm (o : LOps) | bara (o : LOps) | barw (o : LOps)
  -- X class (R80)
  | mconv (o : XOps) | mmul (o : XOps) | mattn (o : XOps) | mpool (o : XOps) | msort (o : XOps) | mcopy (o : XOps)
  | mgath (o : XOps) | mmap (o : XOps) | mbfly (o : XOps)
  | xcp (o : XOps) | xmc (o : XOps) | mxt (o : XOps)
  | mwait (tag : BitVec 2) (fl : BitVec 4) | mstat (tag : BitVec 2) (bp : BitVec 5)
  | tdw (bp : BitVec 5) (td0 : BitVec 8) (p3 : BitVec 16) | tdr (bp : BitVec 5) (td0 : BitVec 8) (p3 : BitVec 16)
  | tdinv (td0 : BitVec 8)
  | mgate (o : XOps) | mixch (o : XOps) | mcoll (o : XOps)
  -- steps of a core's variable-latency agents
  | pendingLoadReturn (core job : Nat) | vectorFillDone (core job : Nat) | codeCacheFill (core : Nat)
  | fetchEngineComplete (core job : Nat)
  | onDieCopyStart (core id : Nat) | onDieCopyLand (core id dst : Nat)
  | mxtEntryStart (core tag : Nat) | timing (core tag : Nat)
  -- the macro sequencer
  | macroStep (core slot : Nat) | macroWritesAck (core slot : Nat) | macroHalt (core slot reason : Nat)
  | exchangeStep (core slot : Nat) | mcollStep (core slot : Nat)
  -- barriers and waits
  | barrierArrival (id : Nat) | engineArrival (id : Nat) | barwWake (core job : Nat)
  | syncRelease (gid : Nat) | waitqWake (core : Nat)
  -- groups and the dispatcher
  | groupPreempt (gid : Nat) | groupResume (gid : Nat) | placement (gid : Nat) | claim (core : Nat)
  | agingReservation (gid : Nat) | quantExpiry (gid : Nat)
  -- queues and the command processor
  | notify (q : Nat) | threadBind (th : Nat) | bindingQuantumExpiry (th : Nat) | monitorChange (q : Nat)
  | packetComplete (q idx : Nat)
  -- admin commands (operands in the order of R434's entry)
  | create (ctx addr : Nat) | suspend (ctx : Nat) | resume (ctx : Nat) | destroy (ctx : Nat)
  | taskgo (ctx core : Nat) | groupend (ctx core : Nat)
  | mapq (ctx q cb prio : Nat) | unmapq (q : Nat) | resetq (q : Nat)
  | sheet (ctx addr clear : Nat) | shoot (ctx va cnt : Nat) | migrate (ctx va tier addr : Nat)
  | winset (w v pkg rtier rbase rlen : Nat) | exportWin (e spkg tier base len : Nat) | snagrd (addr : Nat)
  | route (pkg link : Nat) | linkreset (link : Nat) | linkfence (link : Nat) | linkrd (addr : Nat)
  | confack (entry : Nat) | ckpt (list cnt win : Nat) | restore (win : Nat)
  | cfgw (addr : Nat) | pwrset (w : Nat) | clkset (die u : Nat) | unknownAdminCommand (code : Nat)
  -- the host port
  | mgmtRegisterWrite (off bytes val : Nat)
  | hostMemoryAccess (wr : Bool) (tier addr len : Nat) (data : List Byte)
  | getCertificate (off len : Nat) | challenge (req : List Byte) | getMeasurements (req : List Byte)
  | keyExchange (req : List Byte) | finish (req : List Byte)
  | powerWindow (power : List Nat) | powerRaise (power : List Nat) | thermalStep (die temp : Nat)
  | thermalTrip (die temp : Nat)
  -- cruise and reliability
  | cruiseComplete (pass : Bool)
  | correctedError (tier addr : Nat) | frameFailingRepeat (tier addr : Nat) | frameRetire (tier addr : Nat)
  -- links
  | flit (link : Nat) (bytes : List Byte) | replayRequest (link seq : Nat) | retrain (link : Nat)
  | trainingDone (link lanes : Nat)
  | read (link : Nat) (m : Msg) | write (link : Nat) (m : Msg) | atomic (link : Nat) (m : Msg)
  | reply (link : Nat) (m : Msg) | land (link : Nat) (m : Msg) | piece (link : Nat) (m : Msg)
  | xchg (link : Nat) (m : Msg) | need (link : Nat) (m : Msg) | retry (link : Nat) (m : Msg)
  | fenceMessage (link : Nat) | retryTimer (link rid : Nat) | ackTimeout (core slot peer : Nat)
  | switchForward (link : Nat) (m : Msg)
  -- global memory
  | globalAccessPerformed (id : Nat) | storeAcknowledged (id : Nat) | sstxLands (core id : Nat)
  | parameterBlockRead (core : Nat) | uncorrectableError (t : ErrTarget)
  -- instructions and steps without operands
  | nop | endTask | blaze | sync | vjoin | admn | getDigests | moduleReset | cruiseStart
  deriving DecidableEq, Repr

end Sys2Proof
end

