-- ==== Sys2Proof/WellFormed.lean ====
section
/-!
DEFINITION. The encoding rules an instruction alone can break (R62 causes 3, 4, 7 and 8, R70, R73, R80, R90, R101–R108,
R116, R130, R173, R182, R184–R186, R206, R211, R240, R359, R411). Rules that need the bundle, the partition or a
register's contents are checked when the bundle is decoded or issues.
-/
namespace Sys2Proof

/-- A broken rule: whether it is broken, and its cause code in R62. -/
abbrev Violation := Bool × Nat

def isOdd (r : BitVec 6) : Bool := r.getLsbD 0

/-- The system registers of R90: width in bits and whether MTS may write it; none when unassigned. -/
def sysRegInfo (n : BitVec 12) : Option (Nat × Bool) :=
  let v := n.toNat
  if v = 0x000 then some (32, false) else if v = 0x001 then some (32, true)
  else if v = 0x002 then some (32, false) else if v = 0x003 then some (32, false)
  else if v = 0x004 then some (32, true) else if v = 0x005 then some (32, true)
  else if v = 0x006 then some (64, false) else if v = 0x007 then some (32, false)
  else if v = 0x008 then some (64, false) else if v = 0x009 then some (64, false)
  else if v = 0x00A then some (64, false) else if v = 0x00B then some (64, false)
  else if v = 0x00C then some (32, false) else if v = 0x00D then some (32, false)
  else if v = 0x00E then some (64, false)
  else if 0x010 ≤ v ∧ v ≤ 0x015 then some (32, true)
  else if 0x020 ≤ v ∧ v ≤ 0x043 then some (64, false)
  else if 0x080 ≤ v ∧ v ≤ 0x09F then some (64, false)
  else if 0x0A0 ≤ v ∧ v ≤ 0x0A3 then some (32, false)
  else none

/-! ### V instructions (R130) -/

/-- Sets of type codes. -/
def tFloat (t : Nat) : Bool := t ≤ 2
def tInt (t : Nat) : Bool := 3 ≤ t && t ≤ 8
def tC32 (t : Nat) : Bool := t == 9
def tBx (t : Nat) : Bool := 10 ≤ t && t ≤ 12

/-- Whether a source field of kind `k` has a RES0 bit set (R71): bit 7 of a vector register, bits 7 and 6 of a scalar one. -/
def srcRes0 (k : BitVec 2) (f : BitVec 8) : Bool := (k == 0#2 || k == 1#2) && f.getLsbD 7 || k == 1#2 && f.getLsbD 6
/-- Broken rules of a source field of kind `k` (R71): RES0 bits, and an odd number where c32 needs a pair. -/
def srcViol (t : Nat) (k : BitVec 2) (f : BitVec 8) : List Violation :=
  [(srcRes0 k f, 3), (tC32 t && (k == 1#2 || k == 2#2) && f.getLsbD 0, 7)]

/-- Shape of a V opcode in the table of R130: legal types, FN bits in use for float and integer types, SAT in use for
float and integer types, and whether source B is used. -/
structure VShape where
  types : Nat → Bool
  fnF   : BitVec 4
  fnI   : BitVec 4
  satF  : Bool
  satI  : Bool
  two   : Bool

/-- Rules of a V instruction of shape `s`. FN and SAT are judged apart from T: a bit the table marks in use for some
type is no RES0 bit under an illegal one, so that T alone is reported (cause 4); on an integer T the sentence after the
table keeps FN[1:0] RES0, and "int only" keeps SAT RES0 on every other T (R130). -/
def vCommon (s : VShape) (o : VOps) : List Violation :=
  let t := o.t.toNat
  let fl := !tInt t
  [(!s.types t, 4), ((o.fn &&& ~~~(if fl then s.fnF else s.fnI)) != 0#4, 3),
   (o.sat == 1#1 && !(if fl then s.satF else s.satI), 3)] ++ srcViol t o.ka o.a ++
  (if s.two then srcViol t o.kb o.b else [(o.kb != 0#2 || o.b != 0#8, 3)])

def tFI (t : Nat) : Bool := tFloat t || tInt t
def tFIC (t : Nat) : Bool := tFloat t || tInt t || tC32 t
def t09 (t : Nat) : Bool := t ≤ 9
/-- Broken rules of a mask operand field (R130). -/
def maskViol (k : BitVec 2) (f : BitVec 8) : List Violation := [(f.extractLsb' 3 5 != 0#5, 3), (k != 0#2, 4)]
def wideT (t : Nat) : Bool := t == 0 || t == 3 || t == 4
def bxSlots (t : Nat) : Nat := if t = 10 then 3 else if t = 11 then 4 else 7
/-- Width in bits of the types VCVT names. -/
def cvtW (t : Nat) : Nat :=
  if t = 0 || t = 3 || t = 4 then 32 else if t = 7 || t = 8 then 8 else if t = 13 || t = 14 then 4 else 16
def cvtLegal (t : Nat) : Bool := t ≤ 8 || t == 13 || t == 14

def arithShape (t : Nat → Bool) : VShape := ⟨t, 3#4, 0#4, true, true, true⟩
def transcShape : VShape := ⟨tFloat, 3#4, 0#4, true, true, false⟩
def bitShape (two sat : Bool) : VShape := ⟨tInt, 0#4, 0#4, sat, sat, two⟩

/-- VCVT's rules (R140). -/
def cvtViol (o : VOps) : List Violation :=
  let td := o.t.toNat
  let ts := (o.b.extractLsb' 0 4).toNat
  let wd := cvtW td
  let ws := cvtW ts
  let q := (o.fn.extractLsb' 2 2).toNat
  let r := if wd < ws then ws / wd else wd / ws
  [(srcRes0 o.ka o.a, 3), (o.kb != 0#2 || o.b.extractLsb' 4 4 != 0#4, 3),
   (!cvtLegal td || !cvtLegal ts || td == ts, 4),
   (wd == 4 && (ws == 4 || ws == 32) || ws == 4 && wd == 32, 4), (o.ka != 0#2, 4), (decide (r ≤ q), 4)]

/-! ### L and X instructions -/

def scalarSz (o : LOps) : Bool := o.sz.toNat ≤ 3

/-- Rules of the data operand and AUX of a load or store (R67, R173). A mask access whose D is 8 or more names no mask
register: R67 and R173 forbid it and name no cause, and the model gives cause 7, a register number out of its file
(DESIGN CHOICE, log 84). -/
def accessViol (o : LOps) : List Violation :=
  let sz := o.sz.toNat
  [(decide (5 < sz), 4),
   (decide (sz ≤ 3) && o.pk != 0#2, 3),
   (decide (sz ≤ 1) && o.aux.getLsbD 1, 3),
   (sz == 2 && o.aux != 0#2, 3), (sz == 3 && o.aux != 0#2, 3), (sz == 5 && o.aux != 0#2, 3),
   (sz == 4 && o.aux == 3#2, 4),
   (decide (sz ≤ 3) && o.d.getLsbD 6, 7), (sz == 3 && o.d.getLsbD 0, 7),
   (sz == 5 && decide (8 ≤ o.d.toNat), 7)]

def noOrd (o : LOps) : List Violation := [(o.ord != 0#2 || o.scope != 0#2, 3)]

/-- Rules of SAMO and GAMO's operands (R173, R177). -/
def atomicViol (o : LOps) : List Violation :=
  let sz := o.sz.toNat
  [(sz != 2 && sz != 3, 4), (o.pk != 0#2, 3), (o.d.getLsbD 6, 7), (sz == 3 && o.d.getLsbD 0, 7),
   (o.aux == 3#2 && (o.d.getLsbD 0 || (sz == 3 && o.d.getLsbD 1)), 7)]

/-- Rules of ENQ and DEQ (R173): SZ 011, SCOPE dev or sys, an even pair. -/
def ringViol (o : LOps) : List Violation :=
  [(o.sz != 3#3, 4), (o.view != 0#1 || o.pk != 0#2, 3), (o.aux != 0#2, 3), (!o.scope.getLsbD 1, 4),
   (o.d.getLsbD 6 || o.d.getLsbD 0, 7)]

/-- Rules of FETCH and WBACK (R173, R182). FETCH with AUX = 01 stands here only with an illegal SZ (the landing form
decodes to its own instruction); the fields that form does not use are RES0 in it. -/
def xferViol (rel : Bool) (o : LOps) : List Violation :=
  [(o.sz != 3#3, 4), (o.pk != 0#2, 3), (o.aux != 0#2, 4),
   (!rel && o.aux == 1#2 && (o.view != 0#1 || o.bp != 0#5 || o.imm.extractLsb' 3 21 != 0#21 || o.xi != 0#6 ||
     o.ord != 0#2 || o.scope != 0#2), 3),
   (o.ord != 0#2 && o.ord != (if rel then 2#2 else 1#2), 4), (o.d.getLsbD 6 || o.d.getLsbD 0, 7)]

def retainViol (d : BitVec 7) : List Violation := [(d.getLsbD 6 || d.getLsbD 0 || d == 0#7, 7)]

/-- Fields that are RES0 in the barrier instructions (R359). -/
def barViol (o : LOps) : List Violation :=
  [(o.sz != 0#3 || o.view != 0#1 || o.pk != 0#2 || o.aux != 0#2, 3), (o.scope == 0#2, 4)]

def flx (o : XOps) : Nat := (o.fl.extractLsb' 1 3).toNat

/-- Rules of a macro with a fixed set of FL[3:1] bits and unused descriptors (R211). -/
def macroViol (flMask : BitVec 3) (use1 use2 : Bool) (o : XOps) : List Violation :=
  [((o.fl.extractLsb' 1 3 &&& ~~~flMask) != 0#3, 3), (!use1 && o.td1 != 0#8, 3), (!use2 && o.td2 != 0#8, 3)]

/-- The broken rules of an instruction. -/
def Instr.violations : Instr → List Violation
  | .shlImm _ _ i => [(decide (31 < i.toNat), 4)]
  | .shrImm _ _ i => [(decide (31 < i.toNat), 4)]
  | .sraImm _ _ i => [(decide (31 < i.toNat), 4)]
  | .addp d a b => [(isOdd d || isOdd a || isOdd b || d == 0#6, 7)]
  | .subp d a b => [(isOdd d || isOdd a || isOdd b || d == 0#6, 7)]
  | .callx a => [(isOdd a || a == 0#6, 7)]
  | .ret a => [(isOdd a, 7)]
  | .jx a => [(isOdd a || a == 0#6, 7)]
  | .lmark i => [(decide (i.toNat < 1 ∨ 64 < i.toNat), 4)]
  | .la d _ => [(isOdd d || d == 0#6, 7)]
  | .loop f4 _ _ => [(f4.extractLsb' 2 2 != 0#2, 3)]
  | .loopx f4 _ _ _ => [(f4.extractLsb' 2 2 != 0#2, 3)]
  | .mfs d n =>
    match sysRegInfo n with
    | none => [(true, 8)]
    | some (64, _) => [(isOdd d || d == 0#6, 7)]
    | some _ => []
  | .mts _ n =>
    match sysRegInfo n with
    | some (32, true) => []
    | _ => [(true, 8)]
  | .waitq d => [(isOdd d || d == 0#6, 7)]
  | .fwait d => [(isOdd d, 7)]
  | .vadd o => vCommon (arithShape tFIC) o
  | .vsub o => vCommon (arithShape tFIC) o
  | .vmul o => vCommon (arithShape tFI) o
  | .vfma o => vCommon (arithShape tFI) o
  | .vfms o => vCommon (arithShape tFI) o
  | .vfnma o => vCommon (arithShape tFI) o
  | .vmin o => vCommon ⟨tFI, 0#4, 0#4, false, false, true⟩ o
  | .vmax o => vCommon ⟨tFI, 0#4, 0#4, false, false, true⟩ o
  | .vabs o => vCommon ⟨tFI, 0#4, 0#4, false, true, false⟩ o
  | .vneg o => vCommon ⟨tFIC, 0#4, 0#4, false, true, false⟩ o
  | .vcmp o => vCommon ⟨tFI, 15#4, 15#4, false, false, true⟩ o ++
      [(wideT o.t.toNat && o.fn.getLsbD 3, 3), (tInt o.t.toNat && decide (6 ≤ (o.fn.extractLsb' 0 3).toNat), 4),
       (o.vd.extractLsb' 3 4 != 0#4, 3)]
  | .vsel o => vCommon ⟨t09, 7#4, 7#4, false, false, true⟩ o
  | .vrcp o => vCommon transcShape o
  | .vrsq o => vCommon transcShape o
  | .vexp2 o => vCommon transcShape o
  | .vlog2 o => vCommon transcShape o
  | .vsinp o => vCommon transcShape o
  | .vcosp o => vCommon transcShape o
  | .vcvt o => cvtViol o
  | .vpackbx o => [(!tBx o.t.toNat, 4), (o.sat == 1#1, 3), (srcRes0 o.ka o.a, 3), (o.ka != 0#2, 4),
      (o.kb != 0#2 || o.b != 0#8, 3),
      (!o.fn.getLsbD 3 && decide (bxSlots o.t.toNat < (o.fn.extractLsb' 0 3).toNat), 4)]
  | .vunpbx o => [(!tBx o.t.toNat, 4), (o.sat == 1#1, 3), (o.fn.getLsbD 3, 3),
      (srcRes0 o.ka o.a || srcRes0 o.kb o.b, 3), (o.ka != 0#2 || o.kb != 0#2, 4),
      (decide (bxSlots o.t.toNat < (o.fn.extractLsb' 0 3).toNat), 4)]
  | .vmulh o => vCommon (bitShape true false) o
  | .vshl o => vCommon (bitShape true true) o
  | .vshr o => vCommon (bitShape true false) o
  | .vsra o => vCommon ⟨fun t => t == 3 || t == 5 || t == 7, 0#4, 0#4, false, false, true⟩ o
  | .vfshl o => vCommon (bitShape true false) o
  | .vfshr o => vCommon (bitShape true false) o
  | .vtlog o => [(!tInt o.t.toNat, 4), (o.sat == 1#1, 3), (o.a.getLsbD 7 || o.b.getLsbD 7, 3)]
  | .vpopc o => vCommon (bitShape false false) o
  | .vclz o => vCommon (bitShape false false) o
  | .vmov o => vCommon ⟨t09, 0#4, 0#4, false, false, false⟩ o
  | .vperm o =>
    let m : BitVec 4 := if o.t == 7#4 || o.t == 8#4 || !t09 o.t.toNat then 1#4 else 0#4
    vCommon ⟨t09, m, m, false, false, true⟩ o
  | .vrot o => vCommon ⟨t09, 0#4, 0#4, false, false, true⟩ o ++ [(o.kb == 0#2, 4)]
  | .viota o => vCommon (bitShape true true) o
  | .vred o => vCommon ⟨tFIC, 15#4, 12#4, false, true, false⟩ o ++
      [(o.fn.extractLsb' 2 2 == 3#2, 4), (tC32 o.t.toNat && o.fn.extractLsb' 2 2 != 0#2, 4)]
  | .vscan o => vCommon ⟨tFI, 15#4, 12#4, false, true, false⟩ o ++ [(o.fn.extractLsb' 2 2 == 3#2, 4)]
  | .vcmul o => vCommon ⟨tC32, 15#4, 12#4, true, true, true⟩ o
  | .vklog o => [(o.t != 0#4, 4), (o.sat == 1#1, 3), (o.vd.extractLsb' 3 4 != 0#4, 3)] ++
      maskViol o.ka o.a ++ maskViol o.kb o.b
  | .vkpop o => [(o.t != 0#4, 4), (o.sat == 1#1, 3), (o.vd.getLsbD 6 || o.pk != 0#2, 3),
      (o.fn.extractLsb' 1 3 != 0#3, 3), (o.kb != 0#2 || o.b != 0#8, 3)] ++ maskViol o.ka o.a
  | .zld _ _ f4 => [(f4.extractLsb' 2 2 != 0#2, 3)]
  | .zst _ _ f4 => [(f4.extractLsb' 2 2 != 0#2, 3)]
  | .zrd _ _ _ f4 => [(f4.extractLsb' 2 2 != 0#2, 3)]
  | .zrds _ _ _ f4 => [(f4.extractLsb' 2 2 != 0#2, 3)]
  | .zmma o => [(o.f4.extractLsb' 1 3 != 0#3, 3)]
  | .bfset zd _ f4 => [(zd.extractLsb' 3 3 != 0#3 || f4.extractLsb' 2 2 != 0#2, 3), (f4.extractLsb' 0 2 == 3#2, 4)]
  | .bfly o => [(!o.f4.getLsbD 3 && (o.xb != 0#6 || o.tdb != 0#8), 3)]
  | .bfch o => [(!o.f4.getLsbD 3 && (o.xb != 0#6 || o.tdb != 0#8), 3)]
  | .sld o => accessViol o ++ noOrd o
  | .sst o => accessViol o ++ noOrd o
  | .sldx o => accessViol o ++ noOrd o
  | .sstx o => accessViol o ++ noOrd o
  | .slw o => (o.sz != 4#3, 4) :: accessViol o ++ noOrd o
  | .ssw o => (o.sz != 4#3, 4) :: accessViol o ++ noOrd o
  | .samo o => atomicViol o ++ noOrd o
  | .gld o => accessViol o ++ [(o.view != 0#1, 3), (o.ord.getLsbD 1, 4)]
  | .gst o => accessViol o ++ [(o.view != 0#1, 3), (o.ord.getLsbD 0, 4)]
  | .gamo o => atomicViol o ++ [(o.view != 0#1, 3)]
  | .enq o => ringViol o
  | .deq o => ringViol o
  | .fetch o => xferViol false o
  | .fetchLand d _ => [(d.getLsbD 6 || d.getLsbD 0, 7)]
  | .wback o => xferViol true o
  | .fence ord _ => [(ord == 0#2, 4)]
  | .xfence p q _ => [(decide (7 ≤ p.toNat) || decide (7 ≤ q.toNat) || p == q, 4)]
  | .retain d _ _ _ => retainViol d
  | .unpin d _ _ _ => [(d.getLsbD 6, 7)]
  | .barm o => barViol o ++ [(o.ord.getLsbD 0, 4), (o.d.getLsbD 6 || o.d.getLsbD 0 || o.d == 0#7, 7)]
  | .bara o => barViol o ++ [(o.ord != 2#2, 4), (o.d.getLsbD 6, 7)]
  | .barw o => barViol o ++ [(o.ord != 1#2, 4), (o.d.getLsbD 6 || o.d == 0#7, 7)]
  | .mconv o => macroViol 0#3 true true o
  | .mmul o => macroViol 0#3 true true o
  | .mattn o => macroViol 0#3 true true o
  | .mpool o => macroViol 1#3 true (o.fl.getLsbD 1) o
  | .msort o => macroViol 0#3 true true o
  | .mcopy o => macroViol 0#3 true false o
  | .mgath o => macroViol 7#3 true true o ++ [(decide (5 ≤ flx o), 4), (flx o == 1 && o.td0 != 0#8, 3)]
  | .mmap o => macroViol 0#3 true true o
  | .mbfly o => macroViol 0#3 true true o
  | .xcp o => [(o.fl != 0#4 || o.td0.extractLsb' 6 2 != 0#2 || o.td2 != 0#8, 3)]
  | .xmc o => [(o.fl != 0#4 || o.td0.extractLsb' 6 2 != 0#2 || o.td2 != 0#8, 3), (o.td1 == 0#8, 4)]
  | .mxt o => [(o.fl != 0#4 || o.td0 != 0#8 || o.td1 != 0#8 || o.td2 != 0#8, 3)]
  | .mwait tag fl => [(fl.getLsbD 0 || fl.getLsbD 3, 3), (fl.getLsbD 1 && tag != 0#2, 3)]
  | .mstat _ bp => [(bp == 0#5, 7)]
  | .mgate o => macroViol 0#3 false false o
  | .mixch o => macroViol 0#3 false false o
  | .mcoll o => macroViol 7#3 true false o ++ [(decide (6 ≤ flx o), 4), (flx o == 5 && o.td1 != 0#8, 3)]
  | _ => []

/-- The lowest cause code among the broken rules (R62), if any. -/
def Instr.cause (i : Instr) : Option Nat :=
  i.violations.foldl (fun acc v =>
    if v.1 then
      match acc with
      | none => some v.2
      | some c => some (if v.2 < c then v.2 else c)
    else acc) none

/-- A well-formed instruction breaks none of the rules of R62 that concern it alone. -/
def Instr.WellFormed (i : Instr) : Prop := i.cause = none

/-- R61: TRAP, END and SYNC must be the last instruction of their bundle. -/
def Instr.mustEnd : Instr → Bool
  | .trap _ => true
  | .endTask => true
  | .sync => true
  | _ => false

end Sys2Proof
end

