-- ==== Sys2Proof/Decode.lean ====
section
/-!
DEFINITION. Decoding and encoding of bundle instructions (R58, R63–R69, R75–R81). A first parcel gives class, OP and E; the
class's fields give a `Raw` record; the opcode map turns the record into an instruction. An instruction whose
re-encoding differs from the words read has a RES0 bit or an unused field that is nonzero (cause 3).
-/
namespace Sys2Proof

/-- The fields of a class's format, before the opcode map is applied (R63–R69). -/
inductive Raw where
  | s (op d a : BitVec 6) (f4 : BitVec 4) (b : BitVec 6)
  | sl (op d a : BitVec 6) (f4 : BitVec 4) (b : BitVec 6) (imm : BitVec 32)
  | v (op : BitVec 6) (o : VOps)
  | m (op : BitVec 6) (o : MOps)
  | l (op : BitVec 6) (o : LOps)
  | x (op : BitVec 6) (o : XOps) (res : BitVec 3)
  | y (op d : BitVec 6) (sys : BitVec 12) (f : BitVec 4)
  deriving DecidableEq, Repr

/-- The first parcel of every class (R58, R63). -/
def parcel0 (e : Bool) (cls : BitVec 3) (op low : BitVec 6) : Parcel :=
  (if e then 1#1 else 0#1) ++ cls ++ op ++ low

/-- The parcels of a format record (R63–R69). -/
def Raw.words (e : Bool) : Raw → List Parcel
  | .s op d a f4 b => [parcel0 e 0#3 op d, a ++ f4 ++ b]
  | .sl op d a f4 b imm => [parcel0 e 1#3 op d, a ++ f4 ++ b, imm.extractLsb' 0 16, imm.extractLsb' 16 16]
  | .v op o => [parcel0 e 2#3 op (o.t ++ o.pk), o.a ++ o.ka ++ o.kb ++ o.fn, o.b ++ o.vd ++ o.sat]
  | .m op o => [parcel0 e 3#3 op o.zd, o.xa ++ o.xb ++ o.f4, o.tda ++ o.tdb]
  | .l op o => [parcel0 e 4#3 op (o.sz ++ o.view ++ o.pk), o.d ++ o.bp ++ o.imm.extractLsb' 20 4,
      o.imm.extractLsb' 4 16, o.imm.extractLsb' 0 4 ++ o.xi ++ o.ord ++ o.scope ++ o.aux]
  | .x op o res => [parcel0 e 5#3 op (o.tag ++ o.fl), o.bp ++ res ++ o.td0, o.td1 ++ o.td2, o.p3]
  | .y op d sys f => [parcel0 e 6#3 op d, sys ++ f]

/-- Number of parcels by class (R58); class 111 is reserved. -/
def classLen (cls : BitVec 3) : Option Nat :=
  match cls.toNat with
  | 0 => some 2 | 1 => some 4 | 2 => some 3 | 3 => some 3 | 4 => some 4 | 5 => some 4 | 6 => some 2
  | _ => none

/-- Reads a format record from four parcels (those past the class's length are not used): E and the record. -/
def Raw.read (p0 p1 p2 p3 : Parcel) : Option (Bool × Raw) :=
  let e := p0.getLsbD 15
  let op := p0.extractLsb' 6 6
  let low := p0.extractLsb' 0 6
  match (p0.extractLsb' 12 3).toNat with
  | 0 => some (e, .s op low (p1.extractLsb' 10 6) (p1.extractLsb' 6 4) (p1.extractLsb' 0 6))
  | 1 => some (e, .sl op low (p1.extractLsb' 10 6) (p1.extractLsb' 6 4) (p1.extractLsb' 0 6) (p3 ++ p2))
  | 2 => some (e, .v op
      { t := low.extractLsb' 2 4, pk := low.extractLsb' 0 2, a := p1.extractLsb' 8 8, ka := p1.extractLsb' 6 2,
        kb := p1.extractLsb' 4 2, fn := p1.extractLsb' 0 4, b := p2.extractLsb' 8 8, vd := p2.extractLsb' 1 7,
        sat := p2.extractLsb' 0 1 })
  | 3 => some (e, .m op
      { zd := low, xa := p1.extractLsb' 10 6, xb := p1.extractLsb' 4 6, f4 := p1.extractLsb' 0 4,
        tda := p2.extractLsb' 8 8, tdb := p2.extractLsb' 0 8 })
  | 4 => some (e, .l op
      { sz := low.extractLsb' 3 3, view := low.extractLsb' 2 1, pk := low.extractLsb' 0 2, d := p1.extractLsb' 9 7,
        bp := p1.extractLsb' 4 5, imm := p1.extractLsb' 0 4 ++ p2 ++ p3.extractLsb' 12 4, xi := p3.extractLsb' 6 6,
        ord := p3.extractLsb' 4 2, scope := p3.extractLsb' 2 2, aux := p3.extractLsb' 0 2 })
  | 5 => some (e, .x op
      { tag := low.extractLsb' 4 2, fl := low.extractLsb' 0 4, bp := p1.extractLsb' 11 5, td0 := p1.extractLsb' 0 8,
        td1 := p2.extractLsb' 8 8, td2 := p2.extractLsb' 0 8, p3 := p3 } (p1.extractLsb' 8 3))
  | 6 => some (e, .y op low (p1.extractLsb' 4 12) (p1.extractLsb' 0 4))
  | _ => none

/-- The S-class opcodes (R75). -/
def decodeS (op d a : BitVec 6) (f4 : BitVec 4) (b : BitVec 6) : Option Instr :=
  let i : BitVec 10 := f4 ++ b
  match op.toNat with
  | 0x00 => some .nop
  | 0x01 => some (.add d a b) | 0x02 => some (.sub d a b) | 0x03 => some (.and d a b) | 0x04 => some (.or d a b)
  | 0x05 => some (.xor d a b) | 0x06 => some (.shl d a b) | 0x07 => some (.shr d a b) | 0x08 => some (.sra d a b)
  | 0x09 => some (.addImm d a i) | 0x0A => some (.subImm d a i) | 0x0B => some (.andImm d a i)
  | 0x0C => some (.orImm d a i) | 0x0D => some (.xorImm d a i) | 0x0E => some (.shlImm d a i)
  | 0x0F => some (.shrImm d a i) | 0x10 => some (.sraImm d a i)
  | 0x11 => some (.mul d a b) | 0x12 => some (.mulh d a b) | 0x13 => some (.mulhn d a b)
  | 0x14 => some (.div d a b) | 0x15 => some (.divn d a b) | 0x16 => some (.rem d a b) | 0x17 => some (.remn d a b)
  | 0x18 => some (.min d a b) | 0x19 => some (.max d a b) | 0x1A => some (.minn d a b) | 0x1B => some (.maxn d a b)
  | 0x1C => some (.seq d a b) | 0x1D => some (.sne d a b) | 0x1E => some (.slt d a b) | 0x1F => some (.sltn d a b)
  | 0x20 => some (.sel d a b) | 0x21 => some (.clz d a) | 0x22 => some (.popc d a)
  | 0x23 => some (.addp d a b) | 0x24 => some (.subp d a b)
  | 0x25 => some (.callx a) | 0x26 => some (.ret a) | 0x27 => some (.jx a) | 0x28 => some (.lmark i)
  | _ => none

/-- The SL-class opcodes (R76). -/
def decodeSL (op d a : BitVec 6) (f4 : BitVec 4) (b : BitVec 6) (imm : BitVec 32) : Option Instr :=
  match op.toNat with
  | 0x00 => some (.li d imm) | 0x01 => some (.la d imm) | 0x02 => some (.bra imm)
  | 0x03 => some (.beq a b imm) | 0x04 => some (.bne a b imm) | 0x05 => some (.blt a b imm)
  | 0x06 => some (.bge a b imm) | 0x07 => some (.bltn a b imm) | 0x08 => some (.bgen a b imm)
  | 0x09 => some (.call imm) | 0x0A => some (.calli imm)
  | 0x0B => some (.loop f4 a imm) | 0x0C => some (.loopx f4 a b imm)
  | _ => none

/-- The V-class opcodes (R77). -/
def decodeV (op : BitVec 6) (o : VOps) : Option Instr :=
  match op.toNat with
  | 0x00 => some (.vadd o) | 0x01 => some (.vsub o) | 0x02 => some (.vmul o) | 0x03 => some (.vfma o)
  | 0x04 => some (.vfms o) | 0x05 => some (.vfnma o) | 0x06 => some (.vmin o) | 0x07 => some (.vmax o)
  | 0x08 => some (.vabs o) | 0x09 => some (.vneg o) | 0x0A => some (.vcmp o) | 0x0B => some (.vsel o)
  | 0x0C => some (.vrcp o) | 0x0D => some (.vrsq o) | 0x0E => some (.vexp2 o) | 0x0F => some (.vlog2 o)
  | 0x10 => some (.vsinp o) | 0x11 => some (.vcosp o) | 0x12 => some (.vcvt o) | 0x13 => some (.vpackbx o)
  | 0x14 => some (.vunpbx o) | 0x15 => some (.vmulh o) | 0x16 => some (.vshl o) | 0x17 => some (.vshr o)
  | 0x18 => some (.vsra o) | 0x19 => some (.vfshl o) | 0x1A => some (.vfshr o) | 0x1B => some (.vtlog o)
  | 0x1C => some (.vpopc o) | 0x1D => some (.vclz o) | 0x1E => some (.vmov o) | 0x1F => some (.vperm o)
  | 0x20 => some (.vrot o) | 0x21 => some (.viota o) | 0x22 => some (.vred o) | 0x23 => some (.vscan o)
  | 0x24 => some (.vcmul o) | 0x25 => some (.vklog o) | 0x26 => some (.vkpop o)
  | _ => none

/-- The M-class opcodes (R78). -/
def decodeM (op : BitVec 6) (o : MOps) : Option Instr :=
  match op.toNat with
  | 0x00 => some (.zzero o.zd) | 0x01 => some (.zld o.zd o.xa o.f4) | 0x02 => some (.zst o.zd o.xa o.f4)
  | 0x03 => some (.zrd o.zd o.xa o.xb o.f4) | 0x04 => some (.zrds o.zd o.xa o.xb o.f4) | 0x05 => some (.zwm o.zd o.xa)
  | 0x06 => some (.zmma o) | 0x07 => some (.bfset o.zd o.xa o.f4) | 0x08 => some (.bfly o) | 0x09 => some (.bfch o)
  | 0x0A => some (.fmtw o.xa)
  | _ => none

/-- The L-class opcodes (R79); FETCH with AUX = 01 and the legal SZ is the landing form (R182). -/
def decodeL (op : BitVec 6) (o : LOps) : Option Instr :=
  match op.toNat with
  | 0x00 => some (.sld o) | 0x01 => some (.sst o) | 0x02 => some (.sldx o) | 0x03 => some (.sstx o)
  | 0x04 => some (.slw o) | 0x05 => some (.ssw o) | 0x06 => some (.samo o) | 0x07 => some (.gld o)
  | 0x08 => some (.gst o) | 0x09 => some (.gamo o) | 0x0A => some (.enq o) | 0x0B => some (.deq o)
  | 0x0C => some (if o.aux == 1#2 && o.sz == 3#3 then .fetchLand o.d (o.imm.extractLsb' 0 3) else .fetch o)
  | 0x0D => some (.wback o) | 0x0E => some (.fence o.ord o.scope)
  | 0x0F => some (.xfence (o.imm.extractLsb' 4 4) (o.imm.extractLsb' 0 4) o.scope) | 0x10 => some .vjoin
  | 0x11 => some (.retain o.d o.bp o.imm o.xi) | 0x12 => some (.unpin o.d o.bp o.imm o.xi)
  | 0x13 => some (.barm o) | 0x14 => some (.bara o) | 0x15 => some (.barw o)
  | _ => none

/-- The X-class opcodes (R80). -/
def decodeX (op : BitVec 6) (o : XOps) : Option Instr :=
  match op.toNat with
  | 0x00 => some (.mconv o) | 0x01 => some (.mmul o) | 0x02 => some (.mattn o) | 0x03 => some (.mpool o)
  | 0x04 => some (.msort o) | 0x05 => some (.mcopy o) | 0x06 => some (.mgath o) | 0x07 => some (.mmap o)
  | 0x08 => some (.mbfly o) | 0x09 => some (.xcp o) | 0x0A => some (.xmc o) | 0x0B => some (.mxt o)
  | 0x0C => some (.mwait o.tag o.fl) | 0x0D => some (.mstat o.tag o.bp)
  | 0x0E => some (.tdw o.bp o.td0 o.p3) | 0x0F => some (.tdr o.bp o.td0 o.p3) | 0x10 => some (.tdinv o.td0)
  | 0x11 => some (.mgate o) | 0x12 => some (.mixch o) | 0x13 => some (.mcoll o)
  | _ => none

/-- The Y-class opcodes (R81). -/
def decodeY (op d : BitVec 6) (sys : BitVec 12) : Option Instr :=
  match op.toNat with
  | 0x00 => some (.mfs d sys) | 0x01 => some (.mts d sys) | 0x02 => some (.trap sys) | 0x03 => some .endTask
  | 0x04 => some .blaze | 0x05 => some (.waitq d) | 0x06 => some (.fwait d) | 0x07 => some .sync | 0x08 => some (.carve d)
  | _ => none

/-- The opcode map over format records; none for an unassigned OP (cause 2). -/
def Raw.instr : Raw → Option Instr
  | .s op d a f4 b => decodeS op d a f4 b
  | .sl op d a f4 b imm => decodeSL op d a f4 b imm
  | .v op o => decodeV op o
  | .m op o => decodeM op o
  | .l op o => decodeL op o
  | .x op o _ => decodeX op o
  | .y op d sys _ => decodeY op d sys

/-- A register-form S instruction. -/
def sReg (op : BitVec 6) (d a b : BitVec 6) : Raw := .s op d a 0#4 b
/-- An immediate-form S instruction. -/
def sImm (op : BitVec 6) (d a : BitVec 6) (i : BitVec 10) : Raw := .s op d a (i.extractLsb' 6 4) (i.extractLsb' 0 6)
/-- An M record with the given fields, the others zero. -/
def mRaw (op zd xa xb : BitVec 6) (f4 : BitVec 4) : Raw := .m op ⟨zd, xa, xb, f4, 0#8, 0#8⟩
def lZero : LOps := ⟨0#3, 0#1, 0#2, 0#7, 0#5, 0#24, 0#6, 0#2, 0#2, 0#2⟩
def xZero : XOps := ⟨0#2, 0#4, 0#5, 0#8, 0#8, 0#8, 0#16⟩

/-- The format record of an instruction; none for the device's own steps, which have no encoding. -/
def Instr.raw : Instr → Option Raw
  | .nop => some (sReg 0x00#6 0#6 0#6 0#6)
  | .add d a b => some (sReg 0x01#6 d a b) | .sub d a b => some (sReg 0x02#6 d a b)
  | .and d a b => some (sReg 0x03#6 d a b) | .or d a b => some (sReg 0x04#6 d a b)
  | .xor d a b => some (sReg 0x05#6 d a b) | .shl d a b => some (sReg 0x06#6 d a b)
  | .shr d a b => some (sReg 0x07#6 d a b) | .sra d a b => some (sReg 0x08#6 d a b)
  | .addImm d a i => some (sImm 0x09#6 d a i) | .subImm d a i => some (sImm 0x0A#6 d a i)
  | .andImm d a i => some (sImm 0x0B#6 d a i) | .orImm d a i => some (sImm 0x0C#6 d a i)
  | .xorImm d a i => some (sImm 0x0D#6 d a i) | .shlImm d a i => some (sImm 0x0E#6 d a i)
  | .shrImm d a i => some (sImm 0x0F#6 d a i) | .sraImm d a i => some (sImm 0x10#6 d a i)
  | .mul d a b => some (sReg 0x11#6 d a b) | .mulh d a b => some (sReg 0x12#6 d a b)
  | .mulhn d a b => some (sReg 0x13#6 d a b) | .div d a b => some (sReg 0x14#6 d a b)
  | .divn d a b => some (sReg 0x15#6 d a b) | .rem d a b => some (sReg 0x16#6 d a b)
  | .remn d a b => some (sReg 0x17#6 d a b) | .min d a b => some (sReg 0x18#6 d a b)
  | .max d a b => some (sReg 0x19#6 d a b) | .minn d a b => some (sReg 0x1A#6 d a b)
  | .maxn d a b => some (sReg 0x1B#6 d a b) | .seq d a b => some (sReg 0x1C#6 d a b)
  | .sne d a b => some (sReg 0x1D#6 d a b) | .slt d a b => some (sReg 0x1E#6 d a b)
  | .sltn d a b => some (sReg 0x1F#6 d a b) | .sel d a b => some (sReg 0x20#6 d a b)
  | .clz d a => some (sReg 0x21#6 d a 0#6) | .popc d a => some (sReg 0x22#6 d a 0#6)
  | .addp d a b => some (sReg 0x23#6 d a b) | .subp d a b => some (sReg 0x24#6 d a b)
  | .callx a => some (sReg 0x25#6 0#6 a 0#6) | .ret a => some (sReg 0x26#6 0#6 a 0#6)
  | .jx a => some (sReg 0x27#6 0#6 a 0#6) | .lmark i => some (sImm 0x28#6 0#6 0#6 i)
  | .li d imm => some (.sl 0x00#6 d 0#6 0#4 0#6 imm) | .la d imm => some (.sl 0x01#6 d 0#6 0#4 0#6 imm)
  | .bra imm => some (.sl 0x02#6 0#6 0#6 0#4 0#6 imm)
  | .beq a b imm => some (.sl 0x03#6 0#6 a 0#4 b imm) | .bne a b imm => some (.sl 0x04#6 0#6 a 0#4 b imm)
  | .blt a b imm => some (.sl 0x05#6 0#6 a 0#4 b imm) | .bge a b imm => some (.sl 0x06#6 0#6 a 0#4 b imm)
  | .bltn a b imm => some (.sl 0x07#6 0#6 a 0#4 b imm) | .bgen a b imm => some (.sl 0x08#6 0#6 a 0#4 b imm)
  | .call imm => some (.sl 0x09#6 0#6 0#6 0#4 0#6 imm) | .calli imm => some (.sl 0x0A#6 0#6 0#6 0#4 0#6 imm)
  | .loop f4 a imm => some (.sl 0x0B#6 0#6 a f4 0#6 imm) | .loopx f4 a b imm => some (.sl 0x0C#6 0#6 a f4 b imm)
  | .mfs d n => some (.y 0x00#6 d n 0#4) | .mts d n => some (.y 0x01#6 d n 0#4)
  | .trap n => some (.y 0x02#6 0#6 n 0#4) | .endTask => some (.y 0x03#6 0#6 0#12 0#4)
  | .blaze => some (.y 0x04#6 0#6 0#12 0#4) | .waitq d => some (.y 0x05#6 d 0#12 0#4)
  | .fwait d => some (.y 0x06#6 d 0#12 0#4) | .sync => some (.y 0x07#6 0#6 0#12 0#4)
  | .carve d => some (.y 0x08#6 d 0#12 0#4)
  | .vadd o => some (.v 0x00#6 o) | .vsub o => some (.v 0x01#6 o) | .vmul o => some (.v 0x02#6 o)
  | .vfma o => some (.v 0x03#6 o) | .vfms o => some (.v 0x04#6 o) | .vfnma o => some (.v 0x05#6 o)
  | .vmin o => some (.v 0x06#6 o) | .vmax o => some (.v 0x07#6 o) | .vabs o => some (.v 0x08#6 o)
  | .vneg o => some (.v 0x09#6 o) | .vcmp o => some (.v 0x0A#6 o) | .vsel o => some (.v 0x0B#6 o)
  | .vrcp o => some (.v 0x0C#6 o) | .vrsq o => some (.v 0x0D#6 o) | .vexp2 o => some (.v 0x0E#6 o)
  | .vlog2 o => some (.v 0x0F#6 o) | .vsinp o => some (.v 0x10#6 o) | .vcosp o => some (.v 0x11#6 o)
  | .vcvt o => some (.v 0x12#6 o) | .vpackbx o => some (.v 0x13#6 o) | .vunpbx o => some (.v 0x14#6 o)
  | .vmulh o => some (.v 0x15#6 o) | .vshl o => some (.v 0x16#6 o) | .vshr o => some (.v 0x17#6 o)
  | .vsra o => some (.v 0x18#6 o) | .vfshl o => some (.v 0x19#6 o) | .vfshr o => some (.v 0x1A#6 o)
  | .vtlog o => some (.v 0x1B#6 o) | .vpopc o => some (.v 0x1C#6 o) | .vclz o => some (.v 0x1D#6 o)
  | .vmov o => some (.v 0x1E#6 o) | .vperm o => some (.v 0x1F#6 o) | .vrot o => some (.v 0x20#6 o)
  | .viota o => some (.v 0x21#6 o) | .vred o => some (.v 0x22#6 o) | .vscan o => some (.v 0x23#6 o)
  | .vcmul o => some (.v 0x24#6 o) | .vklog o => some (.v 0x25#6 o) | .vkpop o => some (.v 0x26#6 o)
  | .zzero zd => some (mRaw 0x00#6 zd 0#6 0#6 0#4) | .zld zd xa f4 => some (mRaw 0x01#6 zd xa 0#6 f4)
  | .zst zd xa f4 => some (mRaw 0x02#6 zd xa 0#6 f4) | .zrd zd xa xb f4 => some (mRaw 0x03#6 zd xa xb f4)
  | .zrds zd xa xb f4 => some (mRaw 0x04#6 zd xa xb f4) | .zwm zd xa => some (mRaw 0x05#6 zd xa 0#6 0#4)
  | .zmma o => some (.m 0x06#6 o) | .bfset zd xa f4 => some (mRaw 0x07#6 zd xa 0#6 f4)
  | .bfly o => some (.m 0x08#6 o) | .bfch o => some (.m 0x09#6 o) | .fmtw xa => some (mRaw 0x0A#6 0#6 xa 0#6 0#4)
  | .sld o => some (.l 0x00#6 o) | .sst o => some (.l 0x01#6 o) | .sldx o => some (.l 0x02#6 o)
  | .sstx o => some (.l 0x03#6 o) | .slw o => some (.l 0x04#6 o) | .ssw o => some (.l 0x05#6 o)
  | .samo o => some (.l 0x06#6 o) | .gld o => some (.l 0x07#6 o) | .gst o => some (.l 0x08#6 o)
  | .gamo o => some (.l 0x09#6 o) | .enq o => some (.l 0x0A#6 o) | .deq o => some (.l 0x0B#6 o)
  | .fetch o => some (.l 0x0C#6 o)
  | .fetchLand d n => some (.l 0x0C#6 { lZero with sz := 3#3, d := d, imm := n.setWidth 24, aux := 1#2 })
  | .wback o => some (.l 0x0D#6 o) | .fence ord sc => some (.l 0x0E#6 { lZero with ord := ord, scope := sc })
  | .xfence p q sc => some (.l 0x0F#6 { lZero with imm := (p ++ q).setWidth 24, scope := sc })
  | .vjoin => some (.l 0x10#6 lZero)
  | .retain d bp imm xi => some (.l 0x11#6 { lZero with d := d, bp := bp, imm := imm, xi := xi })
  | .unpin d bp imm xi => some (.l 0x12#6 { lZero with d := d, bp := bp, imm := imm, xi := xi })
  | .barm o => some (.l 0x13#6 o) | .bara o => some (.l 0x14#6 o) | .barw o => some (.l 0x15#6 o)
  | .mconv o => some (.x 0x00#6 o 0#3) | .mmul o => some (.x 0x01#6 o 0#3) | .mattn o => some (.x 0x02#6 o 0#3)
  | .mpool o => some (.x 0x03#6 o 0#3) | .msort o => some (.x 0x04#6 o 0#3) | .mcopy o => some (.x 0x05#6 o 0#3)
  | .mgath o => some (.x 0x06#6 o 0#3) | .mmap o => some (.x 0x07#6 o 0#3) | .mbfly o => some (.x 0x08#6 o 0#3)
  | .xcp o => some (.x 0x09#6 o 0#3) | .xmc o => some (.x 0x0A#6 o 0#3) | .mxt o => some (.x 0x0B#6 o 0#3)
  | .mwait tag fl => some (.x 0x0C#6 { xZero with tag := tag, fl := fl } 0#3)
  | .mstat tag bp => some (.x 0x0D#6 { xZero with tag := tag, bp := bp } 0#3)
  | .tdw bp td p3 => some (.x 0x0E#6 { xZero with bp := bp, td0 := td, p3 := p3 } 0#3)
  | .tdr bp td p3 => some (.x 0x0F#6 { xZero with bp := bp, td0 := td, p3 := p3 } 0#3)
  | .tdinv td => some (.x 0x10#6 { xZero with td0 := td } 0#3)
  | .mgate o => some (.x 0x11#6 o 0#3) | .mixch o => some (.x 0x12#6 o 0#3) | .mcoll o => some (.x 0x13#6 o 0#3)
  | _ => none

/-- The parcels of an instruction, with E set when it is its bundle's last; none for the device's own steps. -/
def encode (e : Bool) (i : Instr) : Option (List Parcel) := i.raw.map (Raw.words e)

/-- What decoding one instruction gives: the instruction, its E bit and its length in parcels, or the cause code of R62. -/
inductive DecodeResult where
  | ok (i : Instr) (e : Bool) (len : Nat)
  | bad (cause : Nat)
  deriving DecidableEq, Repr

/-- Decodes the instruction at the head of four parcels (R62): class, OP, RES0, then the instruction's own rules, the
lowest cause reported. -/
def decodeParcels (p0 p1 p2 p3 : Parcel) : DecodeResult :=
  match Raw.read p0 p1 p2 p3 with
  | none => .bad 1
  | some (e, r) =>
    match r.instr with
    | none => .bad 2
    | some i =>
      if i.raw ≠ some r then .bad 3
      else
        match i.cause with
        | some c => .bad c
        | none => .ok i e ((classLen (p0.extractLsb' 12 3)).getD 0)

/-- Decodes the instruction at the head of a list of parcels, absent parcels read as zero. -/
def decode (ps : List Parcel) : DecodeResult :=
  decodeParcels (ps.getD 0 0#16) (ps.getD 1 0#16) (ps.getD 2 0#16) (ps.getD 3 0#16)

/-- The parcels of an instruction whose bits are `w`, bit 0 the least significant bit of the first parcel; bits at and
above `nbits` are zero. -/
def parcelsOfWord (nbits w : Nat) : List Parcel :=
  let v := w % 2 ^ nbits
  [BitVec.ofNat 16 v, BitVec.ofNat 16 (v / 2 ^ 16), BitVec.ofNat 16 (v / 2 ^ 32), BitVec.ofNat 16 (v / 2 ^ 48)]

/-- The instruction the decoder reads from a table row's word; none where it refuses, TRAP, END and SYNC without E
included (R61). -/
def decodeTableWord (nbits w : Nat) : Option Instr :=
  match decode (parcelsOfWord nbits w) with
  | .ok i e _ => if i.mustEnd && !e then none else some i
  | .bad _ => none

end Sys2Proof
end

