-- ==== Sys2Proof/Config.lean ====
section
/-!
DEFINITION. What the specification leaves open or each module fixes: free values without a body, so that no
proof can rest on any of them.
-/
namespace Sys2Proof.Config

/-- The choice the device makes among enabled variable-latency events and issuing cores (R9, R94, R365): a fresh
choice for every value of the counter `State.fresh`. Free value. -/
opaque schedule : Nat → Nat
/-- One bit of a value the specification leaves open between two (R165, R255, R321, R322, R389), fresh for every value of
the counter. Free value. -/
opaque freeBit : Nat → Nat → Bool
/-- A fresh byte of storage whose contents the specification leaves to the device (R227's work regions). Free value. -/
opaque freeByte : Nat → Nat → BitVec 8
/-- The set of its slice that a line falls into (R14), taken modulo 2,048: the specification counts the sets and does not name the bits that choose one. Free
value. -/
opaque l2Set : Nat → Nat
/-- The credits a flit returns (R401), taken modulo 64, by the SEQ before it and the ACK it carries: the specification names the field and gives no rule for it. Free
value. -/
opaque creditsReturned : Nat → Nat → Nat
/-- A transcendental result that the interval evaluation could not separate: function number, mode number,
format number and operand bits. Free value: the evaluation separates every known operand. -/
opaque transcFallback : Nat → Nat → Nat → Nat → Nat
/-- SHA-384/512 style digest of a byte string, whose algorithm the specification only names. Free value. -/
opaque digest : List (BitVec 8) → BitVec 512
/-- The boot ROM's contents (R436, R438). Free value. -/
opaque romImage : List (BitVec 8)
/-- Whether a signature over a byte string verifies under a key (R436–R438). Free value. -/
opaque signatureValid : List (BitVec 8) → List (BitVec 8) → Bool
/-- Bytes the root of trust answers to a request it signs or keys (R438). Free value. -/
opaque rootOfTrust : Nat → List (BitVec 8) → List (BitVec 8)

end Sys2Proof.Config
end

