-- ==== Sys2Proof/Machine/Bits.lean ====
section
/-!
DEFINITION. Bit-field, sign-extension and byte-order helpers (R82), shared by every meaning.
-/
namespace Sys2Proof.Machine

/-- Bits `lo` up to `lo + n − 1` of a natural number. -/
def natBits (v lo n : Nat) : Nat := v / 2 ^ lo % 2 ^ n

/-- The little-endian bytes of `v`, `n` of them. -/
def natToBytes : Nat → Nat → List Byte
  | 0, _ => []
  | n + 1, v => BitVec.ofNat 8 v :: natToBytes n (v / 256)

/-- The number that a little-endian list of bytes stands for. -/
def bytesToNat : List Byte → Nat
  | [] => 0
  | b :: bs => b.toNat + 256 * bytesToNat bs

/-- SInt of the low `n` bits of `v` (R82). -/
def sInt (n v : Nat) : Int :=
  let u := v % 2 ^ n
  if u < 2 ^ (n - 1) then (u : Int) else (u : Int) - (2 ^ n : Nat)

/-- A value modulo `2^n`, as the bits of an `n`-bit element. -/
def intBits (n : Nat) (v : Int) : Nat := (v % ((2 ^ n : Nat) : Int)).toNat

/-- Number of one bits among the low `n` bits. -/
def popCount : Nat → Nat → Nat
  | 0, _ => 0
  | n + 1, v => v % 2 + popCount n (v / 2)

/-- Number of leading zero bits of the low `n` bits (`n` for zero). -/
def leadingZeros (n v : Nat) : Nat :=
  let u := v % 2 ^ n
  if u = 0 then n else n - 1 - Nat.log2 u

/-- The least bit at or above `i` that is set, searching `fuel` places. -/
def firstSet : Nat → Nat → Nat → Option Nat
  | 0, _, _ => none
  | f + 1, i, v => if v.testBit i then some i else firstSet f (i + 1) v

/-- The first field of a pair of 32-bit registers is the low half (R88). -/
def joinPair (lo hi : Word) : DWord := hi ++ lo

/-- Rounds up to a multiple of `k`. -/
def ceilDiv (a k : Nat) : Nat := (a + k - 1) / k

end Sys2Proof.Machine
end

