-- ==== Sys2Proof/Machine/Float.lean ====
section
/-!
DEFINITION. The numbers of the chapter "Numbers and arithmetic" (R23–R32): exact values, the three binary
formats, the four rounding modes, and one rounding of an exact value (RoundFmt of R82).
-/
namespace Sys2Proof.Machine

/-- Exception flags as a six-bit word in the bit order of R52: NX 0, UF 1, OF 2, DZ 3, IV 4, SA 5. -/
abbrev Flags := BitVec 6
def fNX : Flags := 0x01#6
def fUF : Flags := 0x02#6
def fOF : Flags := 0x04#6
def fDZ : Flags := 0x08#6
def fIV : Flags := 0x10#6
def fSA : Flags := 0x20#6

/-- Rounding modes of R27. -/
inductive RMode where
  | rne | rtz | rup | rdn
  deriving DecidableEq, Repr

/-- Decodes SYS.FPC.RM (R28). -/
def RMode.ofFpc (rm : BitVec 2) : RMode :=
  match rm with
  | 0#2 => .rne
  | 1#2 => .rtz
  | 2#2 => .rup
  | _ => .rdn

/-- The mode FN[1:0] selects, given the default mode (R29). -/
def RMode.ofFn (fn : BitVec 2) (dflt : RMode) : RMode :=
  match fn with
  | 0#2 => dflt
  | 1#2 => .rne
  | 2#2 => .rtz
  | _ => .rup

/-- The float formats of R24. -/
inductive FFmt where
  | f32 | bf16 | f16
  deriving DecidableEq, Repr

/-- Width in bits. -/
def FFmt.width : FFmt → Nat
  | .f32 => 32 | .bf16 => 16 | .f16 => 16
/-- Significand bits, the hidden one included. -/
def FFmt.prec : FFmt → Nat
  | .f32 => 24 | .bf16 => 8 | .f16 => 11
/-- Exponent bias. -/
def FFmt.bias : FFmt → Nat
  | .f32 => 127 | .bf16 => 127 | .f16 => 15
/-- The biased exponent of infinities and NaNs. -/
def FFmt.expMax (f : FFmt) : Nat := 2 * f.bias + 1
/-- Canonical NaN (R24). -/
def FFmt.qnan : FFmt → Nat
  | .f32 => 0x7FC00000 | .bf16 => 0x7FC0 | .f16 => 0x7E00
/-- The bit pattern of +∞. -/
def FFmt.infBits (f : FFmt) : Nat := f.expMax * 2 ^ (f.prec - 1)
/-- The sign bit of a pattern, when `neg`. -/
def FFmt.signBit (f : FFmt) (neg : Bool) : Nat := if neg then 2 ^ (f.width - 1) else 0
/-- Exponent of the least significant bit of a subnormal. -/
def FFmt.qMin (f : FFmt) : Int := 1 - (f.bias : Int) - ((f.prec : Int) - 1)

/-- An exact number: NaN (with whether reading or forming it raises IV), an infinity, or
`(−1)^neg · mag · 2^exp`. -/
inductive FVal where
  | nan (iv : Bool)
  | inf (neg : Bool)
  | fin (neg : Bool) (mag : Nat) (exp : Int)
  deriving DecidableEq, Repr

/-- An integer as an exact number. -/
def FVal.ofInt (i : Int) : FVal := .fin (decide (i < 0)) i.natAbs 0

/-- The exact value of a bit pattern (R24); a signalling NaN is marked for IV (R25). -/
def FFmt.decode (f : FFmt) (b : Nat) : FVal :=
  let neg := b.testBit (f.width - 1)
  let frac := natBits b 0 (f.prec - 1)
  let e := natBits b (f.prec - 1) (f.width - f.prec)
  if e = f.expMax then
    if frac = 0 then .inf neg else .nan (!frac.testBit (f.prec - 2))
  else if e = 0 then .fin neg frac f.qMin
  else .fin neg (frac + 2 ^ (f.prec - 1)) (f.qMin + (e : Int) - 1)

def FVal.negate : FVal → FVal
  | .nan iv => .nan iv
  | .inf n => .inf (!n)
  | .fin n m e => .fin (!n) m e

/-- `mag · 2^e` rounded to a multiple of `2^q`, as the multiple, with whether it was inexact (R27). -/
def roundAt (mode : RMode) (neg : Bool) (mag : Nat) (e q : Int) : Nat × Bool :=
  if q ≤ e then (mag * 2 ^ (e - q).toNat, false)
  else
    let s := (q - e).toNat
    let n := mag / 2 ^ s
    let r := mag % 2 ^ s
    if r = 0 then (n, false)
    else
      let up := match mode with
        | .rne => if 2 * r = 2 ^ s then n % 2 == 1 else decide (2 ^ s < 2 * r)
        | .rtz => false
        | .rup => !neg
        | .rdn => neg
      (if up then n + 1 else n, true)

/-- RoundFmt of a finite exact value (R24–R27, R31): the bit pattern and the flags. `sat` is the SAT bit. -/
def FFmt.roundFin (f : FFmt) (mode : RMode) (sat : Bool) (neg : Bool) (mag : Nat) (e : Int) : Nat × Flags :=
  if mag = 0 then (f.signBit neg, 0#6)
  else
    let top := (Nat.log2 mag : Int) + e
    let qFree := top - ((f.prec : Int) - 1)
    let q := if qFree < f.qMin then f.qMin else qFree
    let (n, nx) := roundAt mode neg mag e q
    let pat := (q - f.qMin).toNat * 2 ^ (f.prec - 1) + n
    if f.infBits ≤ pat then
      let big := match mode with
        | .rne => !sat
        | .rtz => false
        | .rup => !neg && !sat
        | .rdn => neg && !sat
      (f.signBit neg + (if big then f.infBits else f.infBits - 1), fOF ||| fNX)
    else
      let (n', _) := roundAt mode neg mag e qFree
      -- tiny: below the smallest normal after rounding with an unbounded exponent (R31)
      let tiny := decide (qFree < f.qMin) && !(n' == 2 ^ f.prec && qFree + 1 == f.qMin)
      (f.signBit neg + pat, (if nx then fNX else 0#6) ||| (if nx && tiny then fUF else 0#6))

/-- RoundFmt of any exact value. -/
def FFmt.round (f : FFmt) (mode : RMode) (sat : Bool) : FVal → Nat × Flags
  | .nan iv => (f.qnan, if iv then fIV else 0#6)
  | .inf neg => (f.signBit neg + f.infBits, 0#6)
  | .fin neg m e => f.roundFin mode sat neg m e

/-- The exact product of two values (R25, R26): 0·∞ is a NaN that raises IV. -/
def FVal.mul : FVal → FVal → FVal
  | .nan a, .nan b => .nan (a || b)
  | .nan a, _ => .nan a
  | _, .nan b => .nan b
  | .inf a, .inf b => .inf (xor a b)
  | .inf a, .fin b m _ => if m = 0 then .nan true else .inf (xor a b)
  | .fin a m _, .inf b => if m = 0 then .nan true else .inf (xor a b)
  | .fin a m e, .fin b n g => .fin (xor a b) (m * n) (e + g)

/-- Whether a term is a NaN, and whether it raises IV. -/
def FVal.isNan : FVal → Bool
  | .nan _ => true
  | _ => false
def FVal.raisesIV : FVal → Bool
  | .nan iv => iv
  | _ => false
def FVal.isInf : FVal → Bool
  | .inf _ => true
  | _ => false
def FVal.isNeg : FVal → Bool
  | .inf n => n
  | .fin n _ _ => n
  | .nan _ => false
def FVal.isZero : FVal → Bool
  | .fin _ m _ => m == 0
  | _ => false

/-- The least exponent among finite nonzero terms, from `e0`. -/
def minExp (e0 : Int) : List FVal → Int
  | [] => e0
  | .fin _ m e :: ts => minExp (if m ≠ 0 ∧ e < e0 then e else e0) ts
  | _ :: ts => minExp e0 ts

/-- The exact sum of the finite terms in units of `2^q`, where `q` is at most every exponent. -/
def sumAt (q : Int) : List FVal → Int
  | [] => 0
  | .fin n m e :: ts =>
    let v : Int := ((m * 2 ^ (e - q).toNat : Nat) : Int)
    (if n then -v else v) + sumAt q ts
  | _ :: ts => sumAt q ts

/-- The exact sum of terms (R26, R43, R151). A NaN term gives a NaN; infinities of both signs give a NaN and raise IV, beside a
quiet NaN too; an exact zero takes its sign by R26. -/
def exactSum (mode : RMode) (ts : List FVal) : FVal :=
  let pInf := ts.any (fun t => t.isInf && !t.isNeg)
  let nInf := ts.any (fun t => t.isInf && t.isNeg)
  if ts.any FVal.isNan then .nan (ts.any FVal.raisesIV || (pInf && nInf))
  else
    if pInf && nInf then .nan true
    else if pInf then .inf false
    else if nInf then .inf true
    else
      let q := minExp 4096 ts
      let s := sumAt q ts
      if s = 0 then
        let allZero := ts.all FVal.isZero
        if allZero && ts.all FVal.isNeg && !ts.isEmpty then .fin true 0 0
        else if allZero && ts.all (fun t => !t.isNeg) then .fin false 0 0
        else .fin (mode == .rdn) 0 0
      else .fin (decide (s < 0)) s.natAbs q

/-- Compares two values: `some .lt/.eq/.gt`, or none when either is a NaN. +0 and −0 are equal (R26). -/
def FVal.cmp : FVal → FVal → Option Ordering
  | .nan _, _ => none
  | _, .nan _ => none
  | .inf a, .inf b => some (if a = b then .eq else if a then .lt else .gt)
  | .inf a, .fin .. => some (if a then .lt else .gt)
  | .fin .., .inf b => some (if b then .gt else .lt)
  | .fin a m e, .fin b n g =>
    let q := if e < g then e else g
    let x := sumAt q [.fin a m e]
    let y := sumAt q [.fin b n g]
    some (if x < y then .lt else if x = y then .eq else .gt)

/-- SatS and SatU (R82): the clamped value and SA when clamped. -/
def satS (v : Int) (n : Nat) : Int × Flags :=
  let hi : Int := ((2 ^ (n - 1) : Nat) : Int) - 1
  let lo : Int := -((2 ^ (n - 1) : Nat) : Int)
  if hi < v then (hi, fSA) else if v < lo then (lo, fSA) else (v, 0#6)
def satU (v : Int) (n : Nat) : Int × Flags :=
  let hi : Int := ((2 ^ n : Nat) : Int) - 1
  if hi < v then (hi, fSA) else if v < 0 then (0, fSA) else (v, 0#6)
/-- SatSym clamps to [−m, m] and raises the flag `fl` when it clamps (OF by R82, SA where R201 says so). -/
def satSym (v : Int) (m : Nat) (fl : Flags) : Int × Flags :=
  if (m : Int) < v then ((m : Int), fl) else if v < -(m : Int) then (-(m : Int), fl) else (v, 0#6)

/-- RoundInt (R82): a finite exact value rounded to an integer, with whether it was inexact. -/
def roundInt (mode : RMode) (neg : Bool) (mag : Nat) (e : Int) : Int × Bool :=
  let (n, nx) := roundAt mode neg mag e 0
  (if neg then -(n : Int) else (n : Int), nx)

end Sys2Proof.Machine
end

