-- ==== Sys2Proof/Machine/Formats.lean ====
section
/-!
DEFINITION. Element formats (R23), their values and conversions (R32, R38–R41), the BX block formats
(R36–R39) and the WQ wide fixed point (R48–R51), with SYS.FMTE's fields (R33).
-/
namespace Sys2Proof.Machine

/-- The element formats of R23 by type code. -/
inductive ElemT where
  | f32 | bf16 | f16 | i32 | n32 | i16 | n16 | i8 | n8 | c32 | bx8 | bx6 | bx4 | i4 | n4
  deriving DecidableEq, Repr

/-- The type codes of R23; code 15 is reserved. -/
def ElemT.ofCode (t : BitVec 4) : Option ElemT :=
  match t.toNat with
  | 0 => some .f32 | 1 => some .bf16 | 2 => some .f16 | 3 => some .i32 | 4 => some .n32
  | 5 => some .i16 | 6 => some .n16 | 7 => some .i8 | 8 => some .n8 | 9 => some .c32
  | 10 => some .bx8 | 11 => some .bx6 | 12 => some .bx4 | 13 => some .i4 | 14 => some .n4
  | _ => none

/-- Width of one element (c32 counts its two lanes). -/
def ElemT.bits : ElemT → Nat
  | .f32 => 32 | .bf16 => 16 | .f16 => 16 | .i32 => 32 | .n32 => 32 | .i16 => 16 | .n16 => 16
  | .i8 => 8 | .n8 => 8 | .c32 => 64 | .bx8 => 8 | .bx6 => 6 | .bx4 => 4 | .i4 => 4 | .n4 => 4

def ElemT.float? : ElemT → Option FFmt
  | .f32 => some .f32 | .bf16 => some .bf16 | .f16 => some .f16 | .c32 => some .f32
  | _ => none

/-- Signedness of an integer format. -/
def ElemT.int? : ElemT → Option Bool
  | .i32 => some true | .i16 => some true | .i8 => some true | .i4 => some true
  | .n32 => some false | .n16 => some false | .n8 => some false | .n4 => some false
  | _ => none

def ElemT.isBx : ElemT → Bool
  | .bx8 => true | .bx6 => true | .bx4 => true
  | _ => false

/-- The BX mantissa width w of R36. -/
def ElemT.bxW : ElemT → Nat
  | .bx8 => 7 | .bx6 => 5 | _ => 3

/-- SYS.FMTE's fields (R33). -/
def fmteD (f : Word) : Nat := (f.extractLsb' 12 3).toNat + 1
def fmteNsub (f : Word) : BitVec 2 := f.extractLsb' 8 2
def fmteBxrc (f : Word) : Bool := f.getLsbD 4
def fmteNiw (f : Word) : Bool := f.getLsbD 1
def fmteNis (f : Word) : Bool := f.getLsbD 0
/-- SYS.FMTE at task start (R33): BXD 3, NSUB 0, BXRC 1, NIW 0, NIS 0. -/
def fmteReset : Word := 0x00003010#32
/-- The bits of SYS.FMTE that are not RES0 (R33). -/
def fmteMask : Word := 0x00007313#32

/-- The format a descriptor's NINT names (R41). -/
def nintFormat (fmte : Word) : ElemT :=
  match fmteNiw fmte, fmteNis fmte with
  | false, false => .i8 | false, true => .n8 | true, false => .i4 | true, true => .n4

/-- An element as an exact number for arithmetic within the vector unit (R41: narrow integers are plain). -/
def ElemT.value (t : ElemT) (b : Nat) : FVal :=
  match t.float?, t.int? with
  | some f, _ => f.decode b
  | none, some true => FVal.ofInt (sInt t.bits b)
  | none, _ => FVal.ofInt ((b % 2 ^ t.bits : Nat) : Int)

/-- An element as an exact number for conversions and engine reads (R40). R40 says what the NaN code of NSUB 10 is to a float and to integer ZMMA; a conversion to
another integer type reads it as NaN too (DESIGN CHOICE, log 112). -/
def ElemT.readValue (t : ElemT) (nsub : BitVec 2) (b : Nat) : FVal :=
  let narrow := t == .i8 || t == .i4
  if narrow && b % 2 ^ t.bits == 2 ^ (t.bits - 1) && nsub == 1#2 then
    FVal.ofInt (-(((2 ^ (t.bits - 1) : Nat) : Int) - 1))
  else if narrow && b % 2 ^ t.bits == 2 ^ (t.bits - 1) && nsub == 2#2 then .nan false
  else t.value b

/-- Conversion into an integer format (R32, R40). -/
def convToInt (t : ElemT) (signed : Bool) (nsub : BitVec 2) (mode : RMode) (v : FVal) : Nat × Flags :=
  let w := t.bits
  let narrow := (t == .i8 || t == .i4) && nsub != 0#2
  let hi : Int := if signed then ((2 ^ (w - 1) : Nat) : Int) - 1 else ((2 ^ w : Nat) : Int) - 1
  let lo : Int := if signed then (if narrow then -hi else -hi - 1) else 0
  match v with
  | .nan _ => (if narrow && nsub == 2#2 then 2 ^ (w - 1) else 0, fIV)
  | .inf neg => (intBits w (if neg then lo else hi), fIV)
  | .fin neg m e =>
    let (i, nx) := roundInt mode neg m e
    let fl : Flags := if nx then fNX else 0#6
    if hi < i then (intBits w hi, fl ||| fSA)
    else if i < lo then (intBits w lo, fl ||| fSA)
    else (intBits w i, fl)

/-- Bits of a value converted to a float or integer element format (R32, R40). -/
def ElemT.ofValue (t : ElemT) (nsub : BitVec 2) (mode : RMode) (sat : Bool) (v : FVal) : Nat × Flags :=
  match t.float?, t.int? with
  | some f, _ => f.round mode sat v
  | none, some s => convToInt t s nsub mode v
  | none, none => (0, 0#6)

/-! ### BX blocks (R36–R39) -/

/-- The value of one BX element from its code and the block's scale word (R38). -/
def bxValue (bxrc : Bool) (w code scale : Nat) : FVal :=
  let m := sInt w code
  let e := if code.testBit w then natBits scale 8 8 else natBits scale 0 8
  if m = -((2 ^ (w - 1) : Nat) : Int) then (if bxrc then .nan false else .fin false 0 0)
  else if e = 0xFF then .nan false
  else if e = 0 then .fin false 0 0
  else .fin (decide (m < 0)) m.natAbs ((e : Int) - 126 - w)

/-- BXUnpack (R38): the 16 values of a block. -/
def bxUnpack (bxrc : Bool) (w block scale : Nat) : List FVal :=
  (List.range 16).map fun i => bxValue bxrc w (natBits block ((w + 1) * i) (w + 1)) scale

/-- The larger of two magnitudes `(mag, exp)`. -/
def magMax (a b : Nat × Int) : Nat × Int :=
  let q := if a.2 < b.2 then a.2 else b.2
  if a.1 * 2 ^ (a.2 - q).toNat < b.1 * 2 ^ (b.2 - q).toNat then b else a

/-- Clamp of an exponent code to 1 .. 254. -/
def bxClamp (e : Int) : Nat := if e < 1 then 1 else if 254 < e then 254 else e.toNat

/-- One element packed under exponents e0 and e1 (R39): the element code and its flags. -/
def bxPackOne (bxrc : Bool) (w : Nat) (e0 e1 : Nat) (x : FVal) : Nat × Flags :=
  let mmax := 2 ^ (w - 1) - 1
  match x with
  | .nan _ => if bxrc then (2 ^ (w - 1), 0#6) else (2 ^ w, 0#6)
  | .inf _ => if bxrc then (2 ^ (w - 1), 0#6) else (2 ^ w, 0#6)
  | .fin neg m e =>
    if e0 = 0 then (0, 0#6)
    else
      let (n0, nx0) := roundAt .rne neg m e ((e0 : Int) - 126 - w)
      if n0 ≤ mmax ∨ e1 = 0xFF then
        let sat := decide (mmax < n0)
        let n := if sat then mmax else n0
        (intBits w (if neg then -(n : Int) else n),
          (if nx0 || sat then fNX else 0#6) ||| (if sat then fOF else 0#6))
      else
        let (n1, nx1) := roundAt .rne neg m e ((e1 : Int) - 126 - w)
        let sat := decide (mmax < n1)
        let n := if sat then mmax else n1
        (2 ^ w + intBits w (if neg then -(n : Int) else n),
          (if nx1 || sat then fNX else 0#6) ||| (if sat then fOF else 0#6))

/-- BXPack (R39): the element codes, the scale word and the flags. `d` and `bxrc` come from SYS.FMTE. -/
def bxPack (fmte : Word) (w : Nat) (xs : List FVal) : List Nat × Nat × Flags :=
  let bxrc := fmteBxrc fmte
  let bad := xs.any (fun x => x.isNan || x.isInf)
  let a := xs.foldl (fun acc x => match x with | .fin _ m e => magMax acc (m, e) | _ => acc) (0, 0)
  let mmax := 2 ^ (w - 1) - 1
  let e1 : Nat :=
    if a.1 = 0 then 0
    else
      let e : Int := (Nat.log2 a.1 : Int) + a.2 + 128
      let (n, _) := roundAt .rne false a.1 a.2 (e - 126 - w)
      bxClamp (if mmax < n then e + 1 else e)
  let (e0, e1') : Nat × Nat :=
    if bad && !bxrc then (e1, 0xFF)
    else if e1 = 0 then (0, 0)
    else (bxClamp ((e1 : Int) - fmteD fmte), e1)
  let rs := xs.map (bxPackOne bxrc w e0 e1')
  (rs.map (·.1), e1' * 256 + e0, rs.foldl (fun f r => f ||| r.2) (if bad then fIV else 0#6))

/-- Codes packed little-endian with no gaps, `bits` each (R36). -/
def packCodes (bits : Nat) (cs : List Nat) : Nat := cs.foldr (fun c acc => c % 2 ^ bits + 2 ^ bits * acc) 0

/-! ### WQ (R48–R51) -/

/-- The POISON code (R48). -/
def wqPoison : Nat := 2 ^ 127

/-- ToWQ (R49): the 128-bit code of a value at binary point `p`. -/
def toWQ (v : FVal) (p : Nat) : Nat × Flags :=
  match v with
  | .nan _ => (wqPoison, fIV)
  | .inf _ => (wqPoison, fIV)
  | .fin neg m e =>
    let (n, nx) := roundAt .rne neg m e (-(p : Int))
    let fl : Flags := if nx then fNX else 0#6
    if 2 ^ 127 - 1 < n then (intBits 128 (if neg then -((2 ^ 127 - 1 : Nat) : Int) else ((2 ^ 127 - 1 : Nat) : Int)), fl ||| fOF)
    else (intBits 128 (if neg then -(n : Int) else n), fl)

/-- A WQ code as an exact number: POISON reads as a NaN that raises IV (R51). -/
def wqValue (w p : Nat) : FVal :=
  if w % 2 ^ 128 = wqPoison then .nan true
  else
    let i := sInt 128 w
    .fin (decide (i < 0)) i.natAbs (-(p : Int))

/-- FromWQ (R51): conversion out to FP32 in RNE. -/
def fromWQ (w p : Nat) : Nat × Flags := FFmt.f32.round .rne false (wqValue w p)

/-- A partial WQ sum (R50): poison flag and 128-bit residue. -/
structure WQAcc where
  poison : Bool
  residue : BitVec 128
  deriving DecidableEq, Repr

def WQAcc.zero : WQAcc := ⟨false, 0#128⟩
/-- An addend as a partial sum: POISON contributes its flag, any other code its value (R50). -/
def WQAcc.ofCode (w : BitVec 128) : WQAcc := if w.toNat = wqPoison then ⟨true, 0#128⟩ else ⟨false, w⟩
/-- Partial sums combine by OR of the flags and modular addition of the residues (R50). -/
def WQAcc.add (a b : WQAcc) : WQAcc := ⟨a.poison || b.poison, a.residue + b.residue⟩
/-- The value stored for a sum and its flags (R50). -/
def WQAcc.store (a : WQAcc) : BitVec 128 × Flags :=
  if a.poison then (BitVec.ofNat 128 wqPoison, 0#6)
  else if a.residue.toNat = wqPoison then (BitVec.ofNat 128 wqPoison, fOF)
  else (a.residue, 0#6)

end Sys2Proof.Machine
end

