-- ==== Sys2Proof/Machine/State.lean ====
section
/-!
DEFINITION. The state of one Ramexis Z1 package, as plain data, and the state after module reset. Every sparse
memory is a list of (key, value) pairs with rising keys and no entry equal to what an unlisted key reads as.
-/
namespace Sys2Proof.Machine

/-- A sparse memory: address and byte, addresses rising, no zero byte listed (an unlisted address reads zero). -/
abbrev Mem := List Host.Cell
/-- A sparse table by number, numbers rising. -/
abbrev Tab (α : Type) := List (Nat × α)

/-! ### Task-side records -/

/-- The six slots with a sticky record (R53), numbered as SYS.XA numbers them (R90). -/
inductive Slot where
  | s | v0 | v1 | m | l | x
  deriving DecidableEq, Repr

/-- The paths of a core, by the codes of R185. -/
inductive Path where
  | lsu | fe | ce | mo | sq | gu | lk | code
  deriving DecidableEq, Repr

/-- A fault record without its ring index (R283). -/
structure FaultRec where
  code   : Nat
  sub    : Nat
  flags  : Nat
  parcel : Nat
  pcore  : Nat
  tidx   : Nat
  gnum   : Nat
  baddr  : DWord
  spc    : DWord
  xinfo  : Nat
  addr   : Nat
  auxv   : Nat
  time   : Nat
  deriving DecidableEq, Repr

/-- A hardware loop level (R110). -/
structure Loop where
  active : Bool
  start  : DWord
  stop   : DWord
  stages : BitVec 2
  isX    : Bool
  depth  : Nat
  deriving DecidableEq, Repr

/-- A ZMMA between its issue and its last landing (R199–R202): operands captured so far. -/
structure ZJob where
  tile : BitVec 6
  za   : Bool
  ta   : ElemT
  tb   : ElemT
  fmte : Word
  offA : Nat
  offB : Nat
  ic   : Nat
  phase : Nat
  bufA : List Byte
  bufB : List Byte
  scA  : List Byte
  scB  : List Byte
  rows : List Byte
  flags : Flags
  deriving DecidableEq, Repr

/-- A butterfly chain between its issue and its landing (R204–R210). -/
structure BJob where
  tile  : BitVec 6
  bs    : List Word
  wfmt  : ElemT
  fmte  : Word
  tabs  : List Nat
  starts : List Nat
  rows  : List Nat
  ic    : Nat
  phase : Nat
  total : Nat
  data  : List Byte
  wbytes : List Byte
  store : Option (Nat × ElemT)
  deriving DecidableEq, Repr

/-- What a fixed-latency effect does when it lands (R92). -/
inductive Landing where
  | xreg (r : BitVec 6) (v : Word)
  | vreg (r : BitVec 7) (v : VReg) (lanes : Mask)
  | kreg (r : BitVec 3) (v en : Mask)
  | sys (n : BitVec 12) (v : Word)
  | fmte (v : Word)
  | bs (r : BitVec 3) (v : Word)
  | desc (n : BitVec 8) (v : BitVec 1024)
  | pool (ws : List (Nat × Byte))
  /-- A mask store's bytes, each with its enabled bits (R173). -/
  | poolBits (ws : List (Nat × Byte × Byte))
  | tile (t : BitVec 6) (row : Nat) (img : List Byte) (kdone : Option Bool)
  | zld (t : BitVec 6) (tr : Bool) (view : Bool) (off k : Nat) (acc : List Byte)
  | zmma (j : ZJob)
  | bfly (j : BJob)
  | nothing
  deriving DecidableEq, Repr

/-- A fixed-latency effect in flight: the issue cycle it lands in, the last cycle in which its chain is in flight, the
raising slot, bundle address and flags (R54), and the effect. -/
structure Flight where
  cyc   : Nat
  ends  : Nat
  slot  : Slot
  baddr : DWord
  flags : Flags
  what  : Landing
  deriving DecidableEq, Repr

/-- What a result lands on, for the write-port rule (R95, R190). -/
inductive WTarget where
  | x (r : BitVec 6)
  | v (r : BitVec 7)
  | k (r : BitVec 3)
  | rows (t : BitVec 6) (lo hi : Nat)
  deriving DecidableEq, Repr

structure WPort where
  cyc : Nat
  tgt : WTarget
  deriving DecidableEq, Repr

/-- One use of scratchpad bank ports in one cycle (R159, R161): bank set, direction, requester code, chunk. -/
structure BankUse where
  cyc   : Nat
  banks : BitVec 32
  write : Bool
  code  : Nat
  chunk : Nat
  deriving DecidableEq, Repr

/-- Where a transfer into a scratchpad line takes its bytes from, as far as is known before it writes them. -/
inductive FillSrc where
  | unknown
  | glob (key : Nat)
  | pool (core addr : Nat)
  | bytes (bs : List Byte)
  | cells (ws : List (Nat × Byte))
  deriving DecidableEq, Repr

/-- The transfer kinds of R164, in the order EARLY-READ reports them. -/
inductive FillKind where
  | fetch | copy | sstx | landing | seq | wback
  deriving DecidableEq, Repr

/-- One transfer's part in one line's IN or OUT bit (R164); `line` counts physical 128-byte lines of the pool.
`snap` holds old bytes that an outgoing transfer may still carry (R165). -/
structure Fill where
  id   : Nat
  line : Nat
  out  : Bool
  kind : FillKind
  src  : FillSrc
  snap : List (Nat × Byte)
  /-- Whether the bytes it brings carry poison (R426). -/
  bad  : Bool
  deriving DecidableEq, Repr

/-- A line access to global memory (R366, R372). -/
inductive AccOp where
  | read | write
  | amo (aux : BitVec 2) (w : Nat) (v cmp : Nat)
  | enq | deq
  | barm (nexp bexp : Nat) | bara (a b : Nat) | barw
  | wqadd
  | fence (acq rel : Bool)
  | xfence (p q : Path)
  deriving DecidableEq, Repr

/-- An outbound window (R387): owning package, its tier, base and length there. -/
structure Window where
  pkg   : Nat
  rtier : Nat
  rbase : Nat
  rlen  : Nat
  deriving DecidableEq, Repr

/-- An update of a reference word in another package (R329, R330): a placed task's pin, a return's or a wake's re-pin from parity `p`, an ended task's
release of parity `p`. -/
inductive RefUse where
  | pin
  | repin (p : Bool)
  | unpin (p : Bool)
  deriving DecidableEq, Repr
/-- Whose read of a line of another package it is: a claim's of a core for a group, a resumption's of a group, the fault queue's of a context. -/
inductive DevUse where
  | claim (core gid : Nat)
  | resume (gid : Nat)
  | ring (ctx : Nat)
  deriving DecidableEq, Repr
/-- What an access of the device itself to another package's memory is for (R367, R393): a write whose failure is context-fatal with a cause of R280, a read of a
line, or a reference word of core `core`. -/
inductive DevTag where
  | write (cause core : Nat)
  | line (u : DevUse)
  | ref (u : RefUse) (core : Nat)
  deriving DecidableEq, Repr
/-- A line of another package that a device read has brought; one that could not be read is empty. -/
structure DevLine where
  use  : DevUse
  key  : Nat
  data : List Byte
  deriving DecidableEq, Repr

/-- One access, or ordering point, of a path, in issue order within `State.accesses`. `key` is the key of the line's first byte,
`off` the first byte within it, `en` the bytes enabled; `bytes` holds a write's data, followed by one byte of bit enables per
data byte where the write enables single bits. `sent` marks an access on its way to another package, or a BARW that waits. `job` is the instruction or macro step it
belongs to, `part` the byte position of its first byte in that job's data, `gid` the group whose task issued it. -/
structure Access where
  id    : Nat
  core  : Nat
  path  : Path
  op    : AccOp
  ctx   : Nat
  key   : Nat
  va    : Nat
  off   : Nat
  bytes : List Byte
  en    : List Bool
  acq   : Bool
  rel   : Bool
  scope : BitVec 2
  job   : Nat
  part  : Nat
  baddr : DWord
  done  : Bool
  sent  : Bool
  gid   : Nat := 0
  /-- The accesses of one instruction share this number, and with it one release (R376); `counted` once that release has been counted. -/
  relId : Nat := 0
  counted : Bool := false
  /-- The outbound window the translation used: a later WINSET is for later walks (R394). -/
  win : Option Window := none
  /-- What an access of the device itself, whose `core` is 160, is for; and whether R380 exempts it from the race check of its home. -/
  dev : Option DevTag := none
  exempt : Bool := false
  deriving DecidableEq, Repr

/-- What an outstanding instruction of a core waits to deliver (R96, R164, R182). -/
inductive JobKind where
  | loadX (d : BitVec 6) (sz : BitVec 3) (sext pair : Bool)
  | loadV (d : BitVec 7) (lanes : Mask)
  | loadK (d : BitVec 3) (en : Mask)
  | store
  | fetch (view : Bool) (off len : Nat)
  | wback (view : Bool) (off len : Nat)
  | retain (d : BitVec 6)
  | barw (d : BitVec 6) (gen : Option Nat) (ended : Option (List (Nat × Nat)))
  | macroWrite (slot step : Nat)
  deriving DecidableEq, Repr

structure Job where
  id    : Nat
  kind  : JobKind
  baddr : DWord
  data  : List (Nat × Byte)
  deriving DecidableEq, Repr

/-- An SLDX or SSTX on its way to a target core, in issue order (R176). -/
structure Remote where
  id     : Nat
  job    : Nat
  target : Nat
  store  : Bool
  view   : Bool
  off    : Nat
  bytes  : List Byte
  en     : List Bool
  size   : Nat
  landed : Bool
  deriving DecidableEq, Repr

/-- States of a macro slot (R212). -/
inductive SlotState where
  | free | busy | halted
  deriving DecidableEq, Repr

/-- A committed step whose writes are not all acknowledged (R221): the job of its global accesses, the tile they come from, the count
of its destination bytes, its global writes as (an addition, address, bytes), its global writes of single bits as (address, byte, bit enables), the scratchpad
bytes it still has to write, those of which it writes single bits, and the WQ
additions it still has to make there, each as (core, pool address, value), whether a write failed for good, and whether only its engine
arrival is still to be acknowledged. -/
structure Out where
  step   : Nat
  job    : Nat
  tile   : Nat
  bytes  : Nat
  glob   : List (Bool × Nat × List Byte)
  bits   : List (Nat × Byte × Byte)
  cells  : List (Nat × Nat × Byte)
  cellBits : List (Nat × Nat × Byte × Byte)
  adds   : List (Nat × Nat × List Byte)
  failed : Bool
  owes   : Bool
  /-- The additions an uncorrectable error refused: known not to be applied (R223, R229). -/
  refused : List (Bool × Nat × List Byte)
  /-- The indices, the state between steps and TD0's entry the step ran with, and the biases it read: what a reissue makes the writes from
  (R225). -/
  idx    : List Nat
  work   : List Nat
  desc0  : BitVec 1024
  bias   : List (Option Nat)
  /-- The dies whose gather units serve it, where it is a step of MGATH (R239). -/
  dies   : List Nat
  deriving DecidableEq, Repr

/-- A chunk of an index exchange that has arrived from a partner (R261): where in the scratchpad it lies, the sender's peer index and TIDX, the map epoch,
the two bits, the chunk's number, the sender's PCHK, the number of the issue it belongs to, and whether the receiving step has committed it. -/
structure Arrival where
  off   : Nat
  peer  : Nat
  tidx  : Nat
  epoch : Nat
  b     : Nat
  c     : Nat
  k     : Nat
  pchk  : Word
  serial : Nat
  taken : Bool
  deriving DecidableEq, Repr

/-- A macro slot: its progress registers (R221), what it captured (R214), its hulls (R215) and the sequencer's
own state between steps. -/
structure MSlot where
  st     : SlotState
  reason : Nat
  rsm    : Bool
  oob    : Bool
  op     : Nat
  flx    : Nat
  fmte   : Word
  td0    : BitVec 8
  td1    : BitVec 8
  td2    : BitVec 8
  pchk   : Word
  done   : Nat
  idx    : Vector Nat 4
  kdone  : Nat
  zcur   : Nat
  kc     : Nat
  ostep  : Nat
  on     : Nat
  zb     : Nat
  zn     : Nat
  blkAddr : DWord
  blk    : List Byte
  descs  : List (BitVec 1024)
  baddr  : DWord
  rlo    : Nat
  rhi    : Nat
  wlo    : Nat
  whi    : Nat
  work   : List Nat
  outs   : List Out
  result : Nat
  fin    : Bool
  stop   : Option (Nat × Nat × Nat)
  lines  : List (Nat × List Byte)
  sent   : Nat
  /-- The number of the free bytes an idle slot left in its work region (R227), none while it is not idle. -/
  sealAt : Option Nat
  /-- Whether the device still has to reissue the macro since its group resumed (R226). -/
  reissue : Bool
  /-- The peer tables of an exchange macro's TD0 and TD2 as its issue read them: (piece address, place) by peer index (R259). -/
  peers  : List (List (Nat × Nat))
  /-- The number of an exchange macro's issue without RESUME, and TD0's MEPOCH then (R261, R264). -/
  serial : Nat
  epoch0 : Nat
  deriving DecidableEq, Repr

/-- A copy of the copy engine (R168, R244): `base` is the issue cycle or die cycle it starts in. -/
structure Copy where
  id      : Nat
  tag     : BitVec 2
  mxt     : Bool
  targets : List Nat
  src     : Nat
  dst     : Nat
  len     : Nat
  startIc : Nat
  inCore  : Bool
  hops    : Option Nat
  started : Bool
  startAt : Nat
  landed  : List (Nat × Nat)
  delay   : List (Nat × Nat)
  deadline : Nat
  deriving DecidableEq, Repr

/-- A timetable running on a channel (R246, R247): entries not started, as (start, target, mask, src, dst, len). -/
structure Timetable where
  tag     : BitVec 2
  baseIc  : Nat
  entries : List (Nat × Nat × Nat × Nat × Nat × Nat)
  stopped : Bool
  deriving DecidableEq, Repr

/-- A landing slot (R170): `got` has bit b set once byte b of the range has arrived. -/
structure LandSlot where
  armed : Bool
  off   : Nat
  len   : Nat
  got   : Nat
  deriving DecidableEq, Repr

/-- Watermark of a tile (R198): owner slot, K steps done, and of the most recently issued bundle write the first issue cycle in which
rows land and whether they land in groups of eight every second cycle. -/
structure TileInfo where
  owner : Option (BitVec 2)
  kdone : Nat
  first : Nat
  slow  : Bool
  deriving DecidableEq, Repr

/-- A granule tag (R275). -/
structure GTag where
  valid : Bool
  owner : Nat
  held  : Bool
  deriving DecidableEq, Repr

/-- What a core waits for between bundles (R94). -/
inductive Wait where
  /-- `seen`, of both kinds of wait: the condition held at the end of a die cycle, and the next bundle issues in the cycle after (R183, R248). -/
  | fwait (all : Bool) (off len : Nat) (seen : Bool)
  | waitq (cb : Nat)
  | mwait (all acq : Bool) (tag : BitVec 2) (seen : Bool)
  | sync (stage : Nat)
  | drain
  | ending
  /-- The die cycle in which the group's members issue first (R334). -/
  | start (die : Nat)
  /-- A re-pin of a reference word in another package is under way (R330). -/
  | ref
  deriving DecidableEq, Repr

/-- Task states of R86 as held by the core; PRE-EMPTED tasks are held by their group, ENDED ones leave the core. -/
inductive TaskState where
  | free | claiming | running | stopped
  deriving DecidableEq, Repr

/-- A pending descriptor entry another core has written (R255): entry, writer agent, the release counts of the writer's core's agents after that
release, and whether the core has since performed an acquire that makes it certain. -/
structure DescPend where
  n      : BitVec 8
  entry  : BitVec 1024
  agent  : Nat
  counts : List Nat
  sure   : Bool
  deriving DecidableEq, Repr

/-- A core and the task on it. -/
structure Core where
  -- identity (R86, R91)
  st     : TaskState
  ctx    : Nat
  gid    : Nat
  tidx   : Nat
  -- registers (R88, R90)
  x      : Vector Word 64
  k      : Vector Mask 8
  bs     : Vector Word 8
  pc     : DWord
  part   : Word
  fpc    : Word
  fmte   : Word
  blzb   : Word
  erc    : Word
  phase  : Word
  sysTile : DWord
  group  : DWord
  cwin   : DWord
  ltb    : DWord
  ltn    : Word
  xs     : Vector Flags 6
  xa     : Vector DWord 36
  raised : List (Slot × Flags × DWord)
  lc     : Vector Word 4
  loops  : Vector Loop 4
  depth  : Nat
  blaze  : Nat
  -- timing
  ic     : Nat
  flights : List Flight
  wports : List WPort
  bankUse : List BankUse
  arrayEnd : Nat
  empty  : Nat
  waits  : List Wait
  trapDue : Option Nat
  lastB  : DWord
  drainAt : Option Nat
  noReq  : Bool
  held   : Bool
  arrived : Bool
  arriveDie : Nat
  releaseAt : Nat
  -- pool (R13, R89, R156)
  pool   : Mem
  gtags  : Vector GTag 192
  viewL  : BitVec 32
  viewS  : BitVec 32
  fills  : List Fill
  regFills : List (Nat × WTarget)
  pend   : List (Nat × BitVec 6)
  carve  : Option (Nat × Nat)
  tiles  : Tab TileInfo
  -- engines
  jobs   : List Job
  remotes : List Remote
  slots  : Vector MSlot 4
  copies : List Copy
  tables : List Timetable
  lands  : Vector LandSlot 8
  param  : Nat
  rlines : List (Nat × List Byte)
  xin    : List Arrival
  -- descriptors, constants, code
  descs  : Tab (BitVec 1024)
  descNew : List DescPend
  consts : List Byte
  phases : List (DWord × Nat)
  cache  : List (Nat × Nat × List Byte)
  pin    : Option (DWord × DWord × List Byte)
  /-- The lines of another package's code and link-table slots fetched for the bundle at hand, by line number (R107, R322). -/
  rcode  : List (Nat × List Byte)
  /-- Whether the core's last turn was a stall (R94, R191). -/
  stalled : Bool
  -- race check (R377)
  acq    : Tab Nat
  tagLog : List (Word)
  -- stops owed to earlier bundles, by die cycle of detection and order of issue (R99, R381), poison (R426), reference word parity (R330)
  owed   : Tab FaultRec
  timingDue : Bool
  poison : List Nat
  xpoison : List (BitVec 6)
  kpoison : List (BitVec 3)
  refa   : Nat
  parity : Bool
  deriving DecidableEq, Repr

/-! ### Work and contexts -/

/-- Context states of R269 (FREE contexts are not listed). -/
inductive CtxState where
  | active | suspending | suspended | dying | scrubbing
  deriving DecidableEq, Repr

/-- A context: its block as captured (R271), its state and its status block (R281). -/
structure Ctx where
  st      : CtxState
  prioMax : Nat
  retW    : Nat
  blzMax  : Nat
  ptRoot  : Nat
  cwin    : Nat
  maxQ    : Nat
  tdBase  : Nat
  ltb     : Nat
  ltn     : Nat
  saveA   : Nat
  fqcb    : Nat
  statb   : Nat
  cset    : Nat
  fcause  : Nat
  fcore   : Nat
  faddr   : Nat
  dropped : Nat
  deriving DecidableEq, Repr

/-- A captured kernel record (R318, R320). -/
structure Kernel where
  entry  : DWord
  glog   : Nat
  vg     : Nat
  ab     : Nat
  blz    : Nat
  refa   : Nat
  consts : List Byte
  phases : List (DWord × Nat)
  deriving DecidableEq, Repr

/-- Group states of R334 (ENDED groups are not listed). -/
inductive GroupState where
  | queued | claiming | running | preempting | preempted | resuming
  deriving DecidableEq, Repr

/-- A group (R332–R341). `saved` holds what a PRE-EMPTED member keeps outside the eager area, by TIDX. -/
structure Group where
  st      : GroupState
  ctx     : Nat
  queue   : Nat
  packet  : Nat
  gnum    : Nat
  prio    : Nat
  entered : Nat
  since   : Nat
  size    : Nat
  kern    : Kernel
  karg    : DWord
  gx      : Nat
  gy      : Nat
  acqQv   : Option (Tab Nat)
  cores   : List Nat
  saved   : List Core
  endCnt  : Tab Nat
  /-- The last die cycle in which a member ended by END: its arrival bit is up from then on (R350, R353). -/
  endDie  : Nat
  ended   : List Nat
  reqFor  : List Nat
  reqd    : Bool
  deriving DecidableEq, Repr

/-- Queue states of R292 (UNMAPPED queues are not listed). -/
inductive QState where
  | idle | ready | bound | waiting | error | disabled
  deriving DecidableEq, Repr

/-- A started packet that has not completed (R298, R301): its groups left, the numbers its groups were given (`total` from `first` on), and what a WAIT
(kind 4: word, comparand, condition) or a COPY (kind 6: source, destination, length) still has to do; `asked` marks a decrement of a REMOTE signal
word on its way. -/
structure Packet where
  idx    : Nat
  sig    : Nat
  rel    : Nat
  acq    : Nat
  groups : Nat
  first  : Nat
  total  : Nat
  kind   : Nat
  a      : Nat
  b      : Nat
  c      : Nat
  asked  : Bool
  lines  : List (Nat × List Byte)
  /-- The address of its slot (R311). -/
  slot   : Nat
  deriving DecidableEq, Repr

/-- A user queue (R287, R292): state, context, control block address, priority, when it became READY, whether a notify came since the header was read, whether
UNMAPQ waits, QV (R378), the packets started, and the monitored key with whether its word has changed (R295). -/
structure Queue where
  st      : QState
  ctx     : Nat
  cb      : Nat
  prio    : Nat
  readySeq : Nat
  notified : Bool
  unmapping : Bool
  qv      : Tab Nat
  packets : List Packet
  monitor : Option (Nat × Bool)
  deriving DecidableEq, Repr

/-- A command-processor thread (R293): its queue, when it was bound, the remote lines at hand, and the packet in the middle of whose start it is: a compare-and-swap
of a FEED's indices or the zeroing of its header is under way in another package (R294). -/
structure Thread where
  queue : Option Nat
  since : Nat
  lines : List (Nat × List Byte)
  mid   : Option Nat
  deriving DecidableEq, Repr

/-! ### Links, pages, reliability, host -/

/-- Link states of R405. -/
inductive LinkState where
  | down | reset | training | up | degraded | fenced
  deriving DecidableEq, Repr

/-- What an outstanding request serves: an access, a macro slot's send, a slot's or a core's or a thread's read of a remote
line (by key), a code line (or a link-table slot's), a packet's signal, a packet's read (by key) or write (0), a checkpoint's, an admin command's read, or nothing that waits for it. -/
inductive Owner where
  | access (id : Nat)
  | slot (core slot : Nat)
  | slotLine (core slot key va : Nat)
  | param (core key va : Nat)
  | code (core va : Nat) (slot : Bool)
  | thread (th key : Nat)
  | signal (q idx : Nat)
  | packet (q idx key : Nat)
  | ckpt (key : Nat)
  | admin (key : Nat)
  | nothing
  deriving DecidableEq, Repr

/-- A request awaiting its reply: RID, the message, what it serves, when it was sent, and when it was refused. -/
structure Request where
  rid    : Nat
  msg    : Msg
  owner  : Owner
  sentAt : Nat
  refusedAt : Option Nat
  deriving DecidableEq, Repr

/-- A link (R401–R406, R413): state and width, the peer, counters, sequence numbers, the replay buffer as (SEQ, times sent in a row, flit), the messages for which
it has no room yet, the highest SEQ discarded since a replay was asked for, the next RID, the requests without a reply, the reply cache with the newest RID seen,
training attempts, messages partly received (nothing kept of one found malformed) and not yet served (each with whether its range was exported when it arrived,
R394), flits to go out, and the counts its arrival agent has acquired (R377). -/
structure Link where
  st      : LinkState
  width   : Nat
  plink   : Nat
  ppkg    : Nat
  replays : Nat
  crcErr  : Nat
  errors  : Nat
  fences  : Nat
  txSeq   : Nat
  rxSeq   : Nat
  replay  : List (Nat × Nat × List Byte)
  backlog : List Msg
  asked   : Option Nat
  rid     : Nat
  requests : List Request
  cache   : List (Nat × Msg)
  newest  : Option Nat
  attempts : Nat
  partials : Tab (Option (List Byte))
  inbox   : List (Msg × Bool)
  outbox  : List (List Byte)
  acq     : Tab Nat
  deriving DecidableEq, Repr

/-- An export entry (R388): the package it lets in, tier, base and length. -/
structure Export where
  spkg : Nat
  tier : Nat
  base : Nat
  len  : Nat
  deriving DecidableEq, Repr

/-- Frame states of R397. -/
inductive FrameState where
  | inUse | failing | moving | retired | withheld
  deriving DecidableEq, Repr

/-- A memory frame (R397, R398): state, times of its last corrected errors, when its event was last sent, the spare that took its place. -/
structure Frame where
  st     : FrameState
  errs   : List Nat
  lastEvent : Nat
  spare  : Nat
  deriving DecidableEq, Repr

/-- A rotation entry (R419): die-0 cycle and hub time at which its last passing cruise began. -/
structure RotEntry where
  passCycle : Nat
  passTime  : Nat
  failed    : Bool
  acked     : Bool
  withheld  : Bool
  errs      : Tab (List Nat)
  badSince  : Nat
  deriving DecidableEq, Repr

/-- A line that a second-level slice holds (R14, R368): its number, whether STRM allocated it, and the context and number of the retained range whose reserved way
it takes (R186). -/
structure L2Line where
  line : Nat
  strm : Bool
  kept : Option (Nat × Nat)
  deriving DecidableEq, Repr

/-- A BARW request of another package that waits (R362): link, generation, request; and once the wait has ended, the reply's data and the release counts then
(R377). -/
structure Waiter where
  link  : Nat
  gen   : Nat
  msg   : Msg
  ended : Option (List Byte × Tab Nat)
  deriving DecidableEq, Repr

/-- A retained range (R186). -/
structure Retain where
  ctx  : Nat
  num  : Nat
  va   : Nat
  len  : Nat
  ways : Nat
  dies : Nat
  deriving DecidableEq, Repr

/-- A cached translation or table pointer (R389): the entry of a level `lv` that a walk used for the range number `page` of that level. -/
structure TlbEntry where
  ctx  : Nat
  page : Nat
  lv   : Nat
  leaf : Nat
  deriving DecidableEq, Repr

/-- Clock, power and heat of a compute die (R441, R442). -/
structure DiePower where
  clk    : Nat
  clkSet : Nat
  pTarget : Nat
  tTarget : Nat
  temp   : Nat
  power  : Nat
  steps  : Nat
  lastStep : Nat
  hot    : Bool
  lastHot : Nat
  deriving DecidableEq, Repr

/-- Boot states of R437. -/
inductive Boot where
  | rom | firmware | ready | failed
  deriving DecidableEq, Repr

/-- Scale-sheet counters of a context (R344): key 257·core + entry. -/
abbrev Sheet := Tab (Nat × Nat)

/-- A checkpoint or restore under way, or a checkpoint not yet confirmed (R428, R429): window, stamp, slot offset, how far the command is
(0 reading the headers, 1 moving data, 2 waiting for replies, 3 waiting for SYS.CONFIRM), the bytes moved, the remote lines that have
come back, the bytes a restore has read so far, and whether a link failed it. -/
structure CkptJob where
  win    : Nat
  stamp  : Nat
  slot   : Nat
  phase  : Nat
  pos    : Nat
  lines  : List (Nat × List Byte)
  data   : List Byte
  failed : Bool
  deriving DecidableEq, Repr

/-- Why the machine stops without a next state. -/
inductive Fault where
  /-- Raised by a bundle instruction's meaning when the core whose turn it is runs no task: there is no issue for it to
  take part in. Safe: nothing is claimed of such a state. -/
  | noTask
  /-- Raised by a device step's meaning when the state does not enable that step (its event has not come about).
  Safe: no behaviour of the device is lost, since the device takes no such step there. -/
  | notEnabled (what : String)
  /-- Raised by `step` after a thermal trip or a failed boot, when only a module reset recovers the module and none is
  pending (R437, R441). Safe: the device does nothing further. -/
  | halted
  deriving DecidableEq, Repr

/-- Why an instruction has no meaning in the model. -/
inductive Refusal where
  /-- Raised by the dispatcher for an instruction without a meaning yet. Safe: nothing follows from it. -/
  | notModelled (mnemonic : String)
  deriving DecidableEq, Repr

/-- The package. -/
structure State where
  -- compute
  cores   : Vector Core 160
  turn    : Fin 160
  cycles  : Vector Nat 4
  -- memory (R365, R374, R376)
  mem     : Mem
  tags    : Tab Word
  rct     : Tab Nat
  memPoison : List Nat
  /-- The lines allocated at their home slices, most recently used first (R14, R368, R374). -/
  l2      : List L2Line
  accesses : List Access
  /-- Lines of other packages that the device's own reads have brought (R367), and the fault records waiting for their ring in another package, by context,
  oldest first (R282). -/
  devLines : List DevLine
  recq    : List (Nat × FaultRec)
  tlb     : List TlbEntry
  -- contexts, queues, groups
  ctxs    : Tab Ctx
  queues  : Tab Queue
  threads : Vector Thread 32
  groups  : Tab Group
  records : List (Nat × Nat × Kernel)
  aging   : Vector (Option Nat) 4
  retains : List Retain
  sheets  : Tab Sheet
  waiters : List Waiter
  -- pages and links
  windows : Tab Window
  exports : Tab Export
  frames  : Tab Frame
  snag    : List (Nat × Nat)
  withheld : List (Nat × Nat)
  links   : Vector Link 12
  routes  : Tab Nat
  pieces  : List (Nat × Msg)
  -- reliability
  rot     : Vector RotEntry 192
  cruise  : Option (Nat × Nat × Nat)
  confirm : Nat
  /-- The checkpoint that waits for SYS.CONFIRM, and the CKPT or RESTORE under way (R428, R429). -/
  ckpt    : Option CkptJob
  ckptRun : Option CkptJob
  -- host port (R433–R442)
  boot    : Boot
  admq    : Nat
  evq     : Nat
  adminRun : Bool
  adminCur : Option Nat
  /-- The remote lines an admin command has read (R291); one that could not be read is empty. -/
  adminLines : List (Nat × List Byte)
  intmap  : Tab Nat
  /-- The messages sent (R435), and the bytes of BAR 4 (R431). -/
  msi     : List Nat
  bar4    : Mem
  modPwr  : Nat
  plim    : Nat
  dies    : Vector DiePower 4
  lowSince : Nat
  portUp  : Bool
  tripped : Bool
  flashA  : List Byte
  flashB  : List Byte
  floor   : Nat
  cfg     : List Byte
  cfgFlash : List Byte
  runningImg : List Byte
  doe     : List Byte
  ideKeyed : Bool
  doeTranscript : List Byte
  /-- What the host's last memory access read (R289, R432). -/
  hostData : List Byte
  -- time, inputs, free choices (the model's own)
  hubTime : Nat
  inputs  : List Instr
  fresh   : Nat
  nextId  : Nat
  deriving DecidableEq, Repr

/-! ### Reset -/

def FaultRec.zero : FaultRec := ⟨0, 0, 0, 0, 0, 0, 0, 0#64, 0#64, 0, 0, 0, 0⟩
def Loop.zero : Loop := ⟨false, 0#64, 0#64, 0#2, false, 0⟩
def GTag.zero : GTag := ⟨false, 0, false⟩
def LandSlot.zero : LandSlot := ⟨false, 0, 0, 0⟩
/-- A tile no instruction has written: 64 rows final, no K steps (R87). -/
def TileInfo.zero : TileInfo := ⟨none, 0, 0, false⟩
/-- A slot at task start (R212): FREE, progress registers zero, REASON NONE. -/
def MSlot.zero : MSlot :=
  { st := .free, reason := 0, rsm := false, oob := false, op := 0, flx := 0, fmte := 0#32, td0 := 0#8, td1 := 0#8,
    td2 := 0#8, pchk := 0#32, done := 0, idx := Vector.replicate 4 0, kdone := 0, zcur := 0, kc := 0, ostep := 0, on := 0,
    zb := 0, zn := 0, blkAddr := 0#64, blk := [], descs := [], baddr := 0#64, rlo := 0, rhi := 0, wlo := 0, whi := 0,
    work := [], outs := [], result := 0, fin := false, stop := none, lines := [], sent := 0, sealAt := none, reissue := false, peers := [],
    serial := 0, epoch0 := 0 }

/-- A core with no task, every register zero and SYS.FMTE at its reset value (R33, R87, R275). -/
def Core.zero : Core :=
  { st := .free, ctx := 0, gid := 0, tidx := 0, x := Vector.replicate 64 0#32, k := Vector.replicate 8 0#128,
    bs := Vector.replicate 8 0#32, pc := 0#64, part := 0#32, fpc := 0#32, fmte := fmteReset, blzb := 0#32, erc := 0#32,
    phase := 0#32, sysTile := 0#64, group := 0#64, cwin := 0#64, ltb := 0#64, ltn := 0#32, xs := Vector.replicate 6 0#6,
    xa := Vector.replicate 36 0#64, raised := [], lc := Vector.replicate 4 0#32, loops := Vector.replicate 4 Loop.zero, depth := 0,
    blaze := 0, ic := 0, flights := [], wports := [], bankUse := [], arrayEnd := 0, empty := 0, waits := [], trapDue := none, lastB := 0#64, drainAt := none,
    noReq := false, held := false, arrived := false, arriveDie := 0, releaseAt := 0, pool := [],
    gtags := Vector.replicate 192 GTag.zero, viewL := 0#32, viewS := 0#32, fills := [], regFills := [], pend := [],
    carve := none, tiles := [], jobs := [], remotes := [], slots := Vector.replicate 4 MSlot.zero, copies := [],
    tables := [], lands := Vector.replicate 8 LandSlot.zero, param := 0, rlines := [], xin := [], descs := [], descNew := [], consts := [],
    phases := [], cache := [], pin := none, rcode := [], stalled := false, acq := [], tagLog := [], owed := [], timingDue := false, poison := [],
    xpoison := [], kpoison := [], refa := 0, parity := false }

def Thread.zero : Thread := ⟨none, 0, [], none⟩
def Link.zero : Link :=
  { st := .down, width := 0, plink := 0, ppkg := 0, replays := 0, crcErr := 0, errors := 0, fences := 0, txSeq := 0,
    rxSeq := 0, replay := [], backlog := [], asked := none, rid := 0, requests := [], cache := [], newest := none, attempts := 0,
    partials := [], inbox := [], outbox := [], acq := [] }
def RotEntry.zero : RotEntry := ⟨0, 0, false, false, false, [], 0⟩
/-- A die at its ceiling clock of 2.1 GHz, cold (R19, R441; assumption 5). -/
def DiePower.zero : DiePower := ⟨21, 21, 21, 21, 0, 0, 0, 0, false, 0⟩

/-- The package right after module reset (R275, R376, R405, R430–R442; assumption 5 for what the specification does
not state). -/
def State.reset : State :=
  { cores := Vector.replicate 160 Core.zero, turn := 0, cycles := Vector.replicate 4 0, mem := [], tags := [], rct := [],
    memPoison := [], l2 := [], accesses := [], devLines := [], recq := [], tlb := [], ctxs := [], queues := [], threads := Vector.replicate 32 Thread.zero,
    groups := [], records := [], aging := Vector.replicate 4 none, retains := [], sheets := [], waiters := [],
    windows := [], exports := [], frames := [], snag := [], withheld := [], links := Vector.replicate 12 Link.zero,
    routes := [], pieces := [], rot := Vector.replicate 192 RotEntry.zero, cruise := none, confirm := 0, ckpt := none, ckptRun := none,
    boot := .rom, admq := 0, evq := 0, adminRun := false, adminCur := none, adminLines := [], intmap := [], msi := [], bar4 := [], modPwr := 0,
    plim := 2400, dies := Vector.replicate 4 DiePower.zero, lowSince := 0, portUp := true, tripped := false, flashA := [],
    flashB := [], floor := 0, cfg := [], cfgFlash := [], runningImg := [], doe := [], ideKeyed := false, doeTranscript := [], hostData := [], hubTime := 0,
    inputs := [], fresh := 0, nextId := 16 }

end Sys2Proof.Machine
end

