-- ==== Sys2Proof/Machine/Mem.lean ====
section
/-!
DEFINITION. Operations on sparse memories and tables, all keeping the canonical form.
-/
namespace Sys2Proof.Machine

/-- What an unlisted address reads as (assumption 1). -/
def Mem.dflt : Byte := 0#8

/-- One byte of a memory. -/
def Mem.read : Mem → Nat → Byte
  | [], _ => Mem.dflt
  | (k, v) :: m, a => if k = a then v else Mem.read m a

/-- The cells that `bs` lists from address `a` on: the bytes that differ from the default. -/
def Mem.cells : Nat → List Byte → Mem
  | _, [] => []
  | a, b :: bs => if b = Mem.dflt then Mem.cells (a + 1) bs else (a, b) :: Mem.cells (a + 1) bs

/-- Writes consecutive bytes from address `a` on. -/
def Mem.write (m : Mem) (a : Nat) (bs : List Byte) : Mem :=
  m.filter (fun c => decide (c.1 < a)) ++ (Mem.cells a bs ++ m.filter (fun c => decide (a + bs.length ≤ c.1)))

/-- The canonical form: addresses rise and no default byte is listed. -/
def Mem.wf : Mem → Bool
  | [] => true
  | (a, v) :: m => v != Mem.dflt && m.all (fun c => decide (a < c.1)) && Mem.wf m

/-- `n` consecutive bytes. -/
def Mem.bytes (m : Mem) (a n : Nat) : List Byte := (List.range n).map fun i => m.read (a + i)
/-- `n` consecutive bytes as a little-endian number (R1). -/
def Mem.nat (m : Mem) (a n : Nat) : Nat := bytesToNat (m.bytes a n)
/-- Writes bytes at scattered addresses, one after another. -/
def Mem.writeMany (m : Mem) (ws : List (Nat × Byte)) : Mem := ws.foldl (fun m w => m.write w.1 [w.2]) m
/-- Writes zero to a range. -/
def Mem.clear (m : Mem) (a n : Nat) : Mem := m.filter (fun c => decide (c.1 < a ∨ a + n ≤ c.1))

/-- The entry under a number. -/
def Tab.get? {α : Type} : Tab α → Nat → Option α
  | [], _ => none
  | (k, v) :: t, n => if k = n then some v else Tab.get? t n
/-- Sets the entry under a number, keeping the numbers rising. -/
def Tab.set {α : Type} : Tab α → Nat → α → Tab α
  | [], n, a => [(n, a)]
  | (k, v) :: t, n, a => if n < k then (n, a) :: (k, v) :: t else if n = k then (n, a) :: t else (k, v) :: Tab.set t n a
/-- Removes the entry under a number. -/
def Tab.erase {α : Type} (t : Tab α) (n : Nat) : Tab α := t.filter (fun e => decide (e.1 ≠ n))
/-- Replaces the entry under a number by a function of it, if there is one. -/
def Tab.modify {α : Type} (t : Tab α) (n : Nat) (f : α → α) : Tab α :=
  t.map fun e => if e.1 = n then (e.1, f e.2) else e
/-- A count in a table of counts; unlisted counts are zero. -/
def Tab.count (t : Tab Nat) (n : Nat) : Nat := (Tab.get? t n).getD 0
/-- Sets a count; a zero count is not listed. -/
def Tab.setCount (t : Tab Nat) (n v : Nat) : Tab Nat := if v = 0 then Tab.erase t n else Tab.set t n v

end Sys2Proof.Machine
end

