-- ==== Sys2Proof/Machine/Flags.lean ====
section
/-!
DEFINITION. The sticky exception records (R52–R57) and the task's modes that the arithmetic reads.
-/
namespace Sys2Proof.Machine

/-- The number of a slot in SYS.XS and SYS.XA (R90). -/
def Slot.num : Slot → Fin 6
  | .s => 0 | .v0 => 1 | .v1 => 2 | .m => 3 | .l => 4 | .x => 5

/-- The address a bundle is recorded under in an XA register: bits [55:1] (R53). -/
def xaAddr (baddr : DWord) : DWord := baddr &&& 0x00FFFFFFFFFFFFFE#64

/-- R54: raises flags in a slot's record; a flag that was clear takes the bundle's address. -/
def Core.raise (c : Core) (sl : Slot) (fl : Flags) (baddr : DWord) : Core :=
  let i := sl.num
  let old := c.xs[i]
  let xa := (List.range 6).foldl (fun (xa : Vector DWord 36) f =>
    if fl.getLsbD f && !old.getLsbD f then xa.setIfInBounds (6 * i.val + f) (xaAddr baddr) else xa) c.xa
  if fl = 0#6 then c else { c with xs := c.xs.set i (old ||| fl), xa := xa, raised := c.raised ++ [(sl, fl, xaAddr baddr)] }

/-- The first exception recorded in the MTS's own issue cycle that raises flag `f` of slot `i`: the address it carries. -/
def Core.raisedNow (c : Core) (i : Fin 6) (f : Nat) : Option DWord :=
  (c.raised.find? fun r => r.1.num == i && r.2.1.getLsbD f).map (·.2.2)
/-- R55: an MTS to a flag word replaces the flags; a flag written from 1 to 0 clears its address register, unless an exception raises it
in the cycle of the MTS: then the flag stays set with that exception's address (assumption 42). -/
def Core.writeXs (c : Core) (i : Fin 6) (v : Word) : Core :=
  let old := c.xs[i]
  let new := v.extractLsb' 0 6
  let kept : Flags := (List.range 6).foldl (fun m f => if !new.getLsbD f && (c.raisedNow i f).isSome then m ||| (1#6 <<< f) else m) 0#6
  let xa := (List.range 6).foldl (fun (xa : Vector DWord 36) f =>
    if old.getLsbD f && !new.getLsbD f then xa.setIfInBounds (6 * i.val + f) ((c.raisedNow i f).getD 0#64) else xa) c.xa
  { c with xs := c.xs.set i (new ||| kept), xa := xa }

/-- The default rounding mode of the task (R28). -/
def Core.rmode (c : Core) : RMode := RMode.ofFpc (c.fpc.extractLsb' 0 2)

end Sys2Proof.Machine
end

