-- ==== Sys2Proof/Machine/Pool.lean ====
section
/-!
DEFINITION. The pool of a core and the registers: partition (R88, R89), banks and views (R156, R157), vector registers, tiles,
and the landing of fixed-latency effects (R92, R189).
-/
namespace Sys2Proof.Machine

/-! ### Partition (R89) -/

def partVg (p : Word) : Nat := (p.extractLsb' 0 2).toNat + 1
def partAb (p : Word) : Nat := (p.extractLsb' 8 5).toNat
/-- First granule of the scratchpad. -/
def partFirst (p : Word) : Nat := partVg p + 4 * partAb p
/-- The partition word of VG and AB, SPG included. -/
def partWord (vg ab : Nat) : Word := BitVec.ofNat 32 ((192 - (vg + 1 + 4 * ab)) * 2 ^ 24 + ab * 2 ^ 8 + vg)
def Core.padBase (c : Core) : Nat := 16384 * partFirst c.part
/-- Scratchpad size in bytes: 16,384·SPG. -/
def Core.padSize (c : Core) : Nat := 16384 * (192 - partFirst c.part)
def Core.tileBase (c : Core) (t : Nat) : Nat := 16384 * (partVg c.part + t)

/-! ### Scalar registers (R88) -/

def Core.rx (c : Core) (r : BitVec 6) : Word := if r = 0#6 then 0#32 else c.x[r.toNat]'r.isLt
def Core.wx (c : Core) (r : BitVec 6) (v : Word) : Core :=
  if r = 0#6 then c else { c with x := c.x.set r.toNat v r.isLt }
/-- The odd register of a pair. -/
def oddOf (r : BitVec 6) : BitVec 6 := r ||| 1#6
/-- A 64-bit pair by its even register: the pair's registers as they read. -/
def Core.rpair (c : Core) (r : BitVec 6) : DWord := joinPair (c.rx r) (c.rx (oddOf r))
/-- Pair(n) of R82. -/
def Core.pairAddr (c : Core) (n : BitVec 5) : DWord := if n = 0#5 then 0#64 else c.rpair (n ++ 0#1)
def Core.rk (c : Core) (r : BitVec 3) : Mask := c.k[r.toNat]'r.isLt
def Core.wk (c : Core) (r : BitVec 3) (v : Mask) : Core := { c with k := c.k.set r.toNat v r.isLt }
/-- A mask register takes the enabled bits of `v`; a write of all its bits ends its poison, a partial write keeps it (R426). -/
def Core.mergeK (c : Core) (r : BitVec 3) (v en : Mask) : Core :=
  { c.wk r ((c.rk r &&& ~~~en) ||| (v &&& en)) with kpoison := c.kpoison.filter fun q => !(q == r && en == BitVec.allOnes 128) }
def Core.rbs (c : Core) (r : BitVec 3) : Word := c.bs[r.toNat]'r.isLt

/-! ### Vector registers and tiles in the pool -/

/-- Pool bytes with `n` of them replaced from `a` on: the whole lines among them lose their poison (R426). -/
def Core.setPool (c : Core) (a : Nat) (bs : List Byte) : Core :=
  { c with pool := c.pool.write a bs
           poison := if c.poison.isEmpty then [] else c.poison.filter fun l => !(decide (a ≤ 128 * l) && decide (128 * l + 128 ≤ a + bs.length)) }
/-- Register v's image, at byte 512·(v MOD 32) of granule v/32 (R275). -/
def Core.rv (c : Core) (r : BitVec 7) : VReg := BitVec.ofNat 4096 (c.pool.nat (512 * r.toNat) 512)
/-- Writes a register's image of which `lanes` are new: a line of 32 lanes that are all new loses its poison (R426). -/
def Core.wv (c : Core) (r : BitVec 7) (v : VReg) (lanes : Mask) : Core :=
  { c with pool := c.pool.write (512 * r.toNat) (natToBytes 512 v.toNat)
           poison := if c.poison.isEmpty then [] else c.poison.filter fun l =>
             !(l / 4 == r.toNat && lanes.extractLsb' (32 * (l % 4)) 32 == BitVec.allOnes 32) }
/-- The write predicate of a PK field (R65, R82). -/
def Core.pred (c : Core) (pk : BitVec 2) : Mask := if pk = 0#2 then BitVec.allOnes 128 else c.rk (pk.setWidth 3)
/-- Element (i, j) of a tile as its 32 bits (R187). -/
def Core.tileElem (c : Core) (t i j : Nat) : Nat := c.pool.nat (c.tileBase t + 256 * i + 4 * j) 4
def Core.tileInfo (c : Core) (t : Nat) : TileInfo := (Tab.get? c.tiles t).getD TileInfo.zero

/-! ### Banks and views (R156, R157) -/

/-- The bank that offset `o` lies in. -/
def bankOf (view : Bool) (o : Nat) : Nat := if view then (o / 64 % 32) ^^^ (o / 2048 % 32) else o / 64 % 32
/-- The pool address of scratchpad offset `o` in a view. -/
def Core.padAddr (c : Core) (view : Bool) (o : Nat) : Nat :=
  c.padBase + 2048 * (o / 2048) + 64 * bankOf view o + o % 64
/-- The banks that `n` bytes from `o` touch, within one row or whole rows. -/
def bankSet (view : Bool) (o n : Nat) : BitVec 32 :=
  if n = 0 then 0#32 else
  (List.range ((o + n - 1) / 64 - o / 64 + 1)).foldl
    (fun m i => m ||| (1#32 <<< bankOf view (64 * (o / 64 + i)))) 0#32
/-- The physical lines that `n` bytes from `o` touch, each with the first offset in it. -/
def Core.padLines (c : Core) (view : Bool) (o n : Nat) : List (Nat × Nat) :=
  if n = 0 then [] else
  (List.range ((o + n - 1) / 128 - o / 128 + 1)).map fun i =>
    let o' := Nat.max o (128 * (o / 128 + i))
    (c.padAddr view o' / 128, o')
/-- The bytes at `n` offsets from `o` on. -/
def Core.padBytes (c : Core) (view : Bool) (o n : Nat) : List Byte :=
  (List.range n).map fun i => c.pool.read (c.padAddr view (o + i))
/-- The pool cells a scratchpad write touches. -/
def Core.padCells (c : Core) (view : Bool) (o : Nat) (bs : List Byte) : List (Nat × Byte) :=
  (List.range bs.length).zipWith (fun i b => (c.padAddr view (o + i), b)) bs

/-- Whether a line is unsettled for reading or for writing (R164). -/
def Core.lineIn (c : Core) (l : Nat) : Bool := c.fills.any fun f => f.line == l && !f.out
def Core.lineOut (c : Core) (l : Nat) : Bool := c.fills.any fun f => f.line == l && f.out

/-- R165: a write to a line with OUT set lets the outgoing transfer carry, word by word, the value from before the write: by a free choice it is kept whole, in
place of what had been kept of that word. -/
def snapFills (fr : Nat) (pool : Mem) (ws : List (Nat × Byte)) (fs : List Fill) : List Fill :=
  fs.map fun f =>
    if f.out then
      let words := ((ws.filter fun w => w.1 / 128 == f.line && Config.freeBit fr (w.1 / 4)).map (·.1 / 4)).eraseDups
      { f with snap := (f.snap.filter fun p => !(words.contains (p.1 / 4))) ++ words.flatMap fun q => (List.range 4).map fun i => (4 * q + i, pool.read (4 * q + i)) }
    else f

/-- Writes bytes of the pool; `fr` numbers the free choices of R165. A write of whole lines clears their poison, a
partial write keeps it (R426). -/
def Core.writePool (c : Core) (fr : Nat) (ws : List (Nat × Byte)) : Core :=
  let whole := fun (l : Nat) => (List.range 128).all fun i => ws.any fun w => w.1 == 128 * l + i
  { c with pool := c.pool.writeMany ws
           fills := if c.fills.isEmpty then [] else snapFills fr c.pool ws c.fills
           poison := if c.poison.isEmpty then [] else c.poison.filter fun l => !whole l }

/-- The bits of `new` that `e` enables over `old`. -/
def bitMerge (e new old : Byte) : Byte := (new &&& e) ||| (old &&& ~~~e)
/-- A write of single bits: the others keep their values as the write is made (R173). -/
def Core.writeBits (c : Core) (fr : Nat) (ws : List (Nat × Byte × Byte)) : Core :=
  c.writePool fr (ws.map fun w => (w.1, bitMerge w.2.2 w.2.1 (c.pool.read w.1)))
/-- A pool byte as a macro of the core sees it: stores issued before it are seen (R159, R214). -/
def poolSeen (c : Core) (p : Nat) : Byte :=
  c.flights.foldl (fun b f => match f.what with
    | .pool ws => ((ws.find? fun w => w.1 == p).map (·.2)).getD b
    | .poolBits ws => ((ws.find? fun w => w.1 == p).map fun w => bitMerge w.2.2 w.2.1 b).getD b
    | _ => b) (c.pool.read p)
/-- A line that takes data with poison, or without (R426). -/
def Core.poisonLine (c : Core) (l : Nat) (bad : Bool) : Core := if bad then { c with poison := l :: c.poison.filter (· != l) } else c
/-- The banks of pool cells. -/
def cellBanks (ws : List (Nat × Byte)) : BitVec 32 := ws.foldl (fun (m : BitVec 32) w => m ||| (1#32 <<< (w.1 / 64 % 32))) 0#32
/-- Whether an issue-side requester takes one of the ports a background requester wants in the core's next issue cycle, which a stalled core does not reach (R160): the
write ports of some banks with `write`, else their read ports. -/
def Core.portHeld (c : Core) (write : Bool) (banks : BitVec 32) : Bool :=
  c.st == .running && !c.stalled && c.bankUse.any fun u => u.write == write && u.cyc == c.ic && (u.banks &&& banks) != 0
/-! ### Work regions (R227) -/

/-- A field of a slot's captured parameter block. -/
def MSlot.f (m : MSlot) (o n : Nat) : Nat := bytesToNat ((m.blk.drop o).take n)
def MSlot.woff (m : MSlot) : Nat := m.f 4 4
/-- Macros that may exchange index bits. -/
def isExchange (op : Nat) : Bool := op == 0x08 || op == 0x11 || op == 0x12
/-- Bytes of the work region whose contents the specification gives: an exchange's two slots (R261), MCOLL's whole region (R414). -/
def MSlot.ownLayout (m : MSlot) : Nat := if m.op = 0x13 then m.f 8 4 else if isExchange m.op then 32768 else 0
/-- `k` free words. -/
def freeWords (f k : Nat) : List Nat := (List.range k).map fun i => bytesToNat ((List.range 4).map fun j => Config.freeByte f (4 * i + j))
/-- A slot the rest of whose region something else has written (R227): its state between steps and the results it staged there are free values, since the
layout is the device's own (DESIGN CHOICE, log 24). -/
def MSlot.disturbed (m : MSlot) (f : Nat) : MSlot :=
  { m with work := if m.op = 2 || (m.op == 6 && m.flx == 1) then freeWords f m.work.length else m.work,
           result := if m.op = 6 then (freeWords f (m.work.length + 1)).getLastD 0 else m.result,
           outs := m.outs.map fun o => if o.tile ≠ 255 then o else
             { o with glob := o.glob.map fun g => (g.1, g.2.1, (List.range g.2.2.length).map fun i => Config.freeByte f (g.2.1 + i)) } }
/-- Writes that reach the device's own part of a BUSY slot's work region change what it holds there. -/
def Core.disturb (c : Core) (f : Nat) (ws : List (Nat × Byte)) : Core :=
  if c.slots.all fun m => m.st != .busy then c
  else { c with slots := c.slots.map fun m =>
           if m.st == .busy && ws.any (fun w => decide (c.padBase + m.woff + m.ownLayout ≤ w.1) && decide (w.1 < c.padBase + m.woff + m.f 8 4)) then m.disturbed f else m }

/-- A background write (R160, R162): it sets the view flag of each bank it writes, and reaches the work regions it meets (R227). -/
def Core.bgWrite (c : Core) (fr : Nat) (view : Bool) (ws : List (Nat × Byte)) : Core :=
  let m := cellBanks ws
  let c1 := (c.writePool fr ws).disturb fr ws
  if view then { c1 with viewS := c1.viewS ||| m } else { c1 with viewL := c1.viewL ||| m }

/-! ### Landings (R92, R93) -/

/-- Writes a system register that MTS may write (R122); RES0 bits are discarded (R3). -/
def Core.writeSys (c : Core) (n : BitVec 12) (v : Word) : Core :=
  match n.toNat with
  | 0x001 => { c with fpc := v &&& 3#32 }
  | 0x004 => { c with erc := v &&& 3#32 }
  | 0x005 => { c with phase := v &&& 0xFF#32 }
  | 0x010 => c.writeXs 0 v
  | 0x011 => c.writeXs 1 v
  | 0x012 => c.writeXs 2 v
  | 0x013 => c.writeXs 3 v
  | 0x014 => c.writeXs 4 v
  | 0x015 => c.writeXs 5 v
  | _ => c

/-- Inserts a flight behind those that land no later, so that landings of one cycle keep issue order. -/
def insertFlight (f : Flight) : List Flight → List Flight
  | [] => [f]
  | g :: gs => if f.cyc < g.cyc then f :: g :: gs else g :: insertFlight f gs

/-- Writes to system registers land before the results of their cycle (R55); the array's reads of a cycle come after what lands in it (R189). -/
def Landing.rank : Landing → Nat
  | .sys .. => 0
  | .zld .. => 2
  | .zmma .. => 2
  | .bfly .. => 2
  | _ => 1

/-- Tile bytes written from row `row` on. -/
def Core.writeTile (c : Core) (t : BitVec 6) (row : Nat) (img : List Byte) : Core := c.setPool (c.tileBase t.toNat + 256 * row) img

/-- A ZLD or ZST image with TR = 1: element (i, j) lies at 256·j + 4·i (R196). -/
def transposeImg (img : List Byte) : List Byte :=
  (List.range 16384).map fun b =>
    let i := b / 256
    let j := b / 4 % 64
    img.getD (256 * j + 4 * i + b % 4) 0#8

end Sys2Proof.Machine
end

