-- ==== Sys2Proof/Machine/Array.lean ====
section
/-!
DEFINITION. The arithmetic of the pair array: panels and dense sums (R42–R44, R199–R201), butterfly stages and their stored images
(R45–R47, R204–R209), and the landing of every fixed-latency effect.
-/
namespace Sys2Proof.Machine

/-! ### Dense steps -/

/-- Classes of operand formats that may meet in one ZMMA (R200). -/
def zClass : ElemT → Option Nat
  | .f32 => some 0
  | .bf16 => some 1 | .f16 => some 1
  | .bx8 => some 2 | .bx6 => some 2 | .bx4 => some 2
  | .i8 => some 3 | .n8 => some 3 | .i4 => some 3 | .n4 => some 3
  | _ => none
def zPairOk (a b : ElemT) : Bool := (zClass a).isSome && zClass a == zClass b
/-- The K step of a format pair (R42, R200). -/
def kStep (a b : ElemT) : Nat :=
  match zClass a with
  | some 0 => 8
  | some 1 => 32
  | _ => if a.bits = 4 ∧ b.bits = 4 then 128 else 64
def zIsFloat (a : ElemT) : Bool := a.int?.isNone
/-- Bytes of one panel line (R199). -/
def lineBytes (t : ElemT) (k : Nat) : Nat := k * t.bits / 8
/-- Bytes of a panel's data and of its scale panel. -/
def panelBytes (t : ElemT) (k : Nat) : Nat := 64 * lineBytes t k
def scaleBytes (t : ElemT) (k : Nat) : Nat := if t.isBx then 64 * (k / 8) else 0

/-- A slice of a list. -/
def slice {α : Type} (l : List α) (lo n : Nat) : List α := (l.drop lo).take n

/-- The K values of line `i` of a panel (R38, R40, R199). -/
def panelLine (t : ElemT) (fmte : Word) (k : Nat) (buf sc : List Byte) (i : Nat) : List FVal :=
  let lb := lineBytes t k
  let v := bytesToNat (slice buf (lb * i) lb)
  if t.isBx then
    let s := bytesToNat (slice sc (k / 8 * i) (k / 8))
    (List.range (k / 16)).flatMap fun q =>
      bxUnpack (fmteBxrc fmte) t.bxW (natBits v (16 * t.bits * q) (16 * t.bits)) (natBits s (16 * q) 16)
  else (List.range k).map fun e => t.readValue (fmteNsub fmte) (natBits v (t.bits * e) t.bits)

/-- An exact integer as a value's integer part, for integer operands. -/
def FVal.toInt : FVal → Int
  | .fin n m e => let v : Int := ((m * 2 ^ e.toNat : Nat) : Int); if n then -v else v
  | _ => 0

/-- The poison code of integer tiles (R44). -/
def tilePoison : Nat := 0x80000000

/-- One element of a floating K step (R42, R43, R201); `acc` is none with ZA = 1. -/
def dotFloat (a b : List FVal) (acc : Option Nat) : Nat × Flags :=
  let ts := List.zipWith FVal.mul a b
  let ts := match acc with
    | some z => ts ++ [FFmt.f32.decode z]
    | none => ts
  FFmt.f32.round .rne false (exactSum .rne ts)

/-- One element of an integer K step (R44, R201). -/
def dotInt (a b : List FVal) (acc : Option Nat) : Nat × Flags :=
  if a.any FVal.isNan || b.any FVal.isNan then (tilePoison, fIV)
  else
    let t := (List.zipWith (fun x y => FVal.toInt x * FVal.toInt y) a b).foldl (· + ·) 0
    match acc with
    | some z =>
      if z = tilePoison then (tilePoison, 0#6)
      else
        let (r, f) := satSym (sInt 32 z + t) (2 ^ 31 - 1) fSA
        (intBits 32 r, f)
    | none =>
      let (r, f) := satSym t (2 ^ 31 - 1) fSA
      (intBits 32 r, f)

/-- Rows 8g to 8g + 7 of a K step: images and flags. `rows` holds the accumulator rows as read. -/
def zmmaGroup (za : Bool) (ta tb : ElemT) (fmte : Word) (bufA scA bufB scB rows : List Byte) (g : Nat) :
    List Byte × Flags :=
  let k := kStep ta tb
  let bs := (List.range 64).map fun j => panelLine tb fmte k bufB scB j
  let rs := (List.range 8).flatMap fun r =>
    let a := panelLine ta fmte k bufA scA (8 * g + r)
    bs.zipIdx.map fun (b, j) =>
      let acc := if za then none else some (bytesToNat (slice rows (256 * r + 4 * j) 4))
      if zIsFloat ta then dotFloat a b acc else dotInt a b acc
  (rs.flatMap fun p => natToBytes 4 p.1, rs.foldl (fun f p => f ||| p.2) 0#6)

/-! ### Butterfly stages -/

def bsLogs (w : Word) : Nat := (w.extractLsb' 0 4).toNat
def bsWp (w : Word) : Nat := (w.extractLsb' 8 4).toNat
def bsCm (w : Word) : Nat := (w.extractLsb' 16 12).toNat
def bsSh (w : Word) : Bool := w.getLsbD 28
/-- The bits of a stride register that are not RES0 (R205). -/
def bsMask : Word := 0x1FFF0F0F#32
/-- Bytes of a weight block (R207). -/
def weightBytes : ElemT → Nat
  | .bf16 => 8 | .f32 => 16 | _ => 32
def tableBytes (t : ElemT) (w : Word) : Nat := weightBytes t * (if bsSh w then 1 else 2 ^ bsWp w)

/-- The exact terms of one real output (R45). -/
def bflyReal (p q x y : FVal) : List FVal := [p.mul x, q.mul y]
/-- The exact terms of one component of a complex output p·x + q·y (R46). -/
def bflyComplex (im : Bool) (p q x y : FVal × FVal) : List FVal :=
  if im then [p.1.mul x.2, p.2.mul x.1, q.1.mul y.2, q.2.mul y.1]
  else [p.1.mul x.1, (p.2.mul x.2).negate, q.1.mul y.1, (q.2.mul y.2).negate]

/-- A pair mix in real mode: the outputs' bits and flags. `wt` gives weight number i (0 a … 3 d) as an exact value. -/
def mixReal (wt : Nat → FVal) (x y : Nat) : (Nat × Flags) × (Nat × Flags) :=
  let dx := FFmt.f32.decode x
  let dy := FFmt.f32.decode y
  (FFmt.f32.round .rne false (exactSum .rne (bflyReal (wt 0) (wt 1) dx dy)),
   FFmt.f32.round .rne false (exactSum .rne (bflyReal (wt 2) (wt 3) dx dy)))

/-- A pair mix in complex mode; elements and weights are (re, im); results are re, im of both outputs. -/
def mixComplex (wt : Nat → FVal × FVal) (x y : Nat × Nat) : List (Nat × Flags) :=
  let dx := (FFmt.f32.decode x.1, FFmt.f32.decode x.2)
  let dy := (FFmt.f32.decode y.1, FFmt.f32.decode y.2)
  let r := fun (im : Bool) (i : Nat) =>
    FFmt.f32.round .rne false (exactSum .rne (bflyComplex im (wt i) (wt (i + 1)) dx dy))
  [r false 0, r true 0, r false 2, r true 2]

/-- One stage over flat words (R204): `cplx` pairs words (2e, 2e + 1). `mixes e` says whether the pair with lower index `e` is
mixed, `blk p` gives the weight block of pair rank p, `wt blk i` the 32-bit words of the block. -/
def stageWords (cplx : Bool) (logs : Nat) (mixes : Nat → Bool) (blk : Nat → Nat) (wr : Nat → Nat → FVal)
    (wc : Nat → Nat → FVal × FVal) (d : List Nat) : List Nat × Flags :=
  let a := d.toArray
  let s := 2 ^ logs
  let n := if cplx then d.length / 2 else d.length
  let outs := (List.range n).flatMap fun e =>
    let low := e % (2 * s) < s
    let e0 := if low then e else e - s
    let keep := if cplx then [(a.getD (2 * e) 0, 0#6), (a.getD (2 * e + 1) 0, 0#6)] else [(a.getD e 0, 0#6)]
    if !mixes e0 || n ≤ e0 + s then keep
    else
      let p := e0 / (2 * s) * s + e0 % s
      let w := blk p
      if cplx then
        let r := mixComplex (wc w) (a.getD (2 * e0) 0, a.getD (2 * e0 + 1) 0)
          (a.getD (2 * (e0 + s)) 0, a.getD (2 * (e0 + s) + 1) 0)
        slice r (if low then 0 else 2) 2
      else
        let r := mixReal (wr w) (a.getD e0 0) (a.getD (e0 + s) 0)
        [if low then r.1 else r.2]
  (outs.map (·.1), outs.foldl (fun f o => f ||| o.2) 0#6)

/-- Weight number `i` of block `w` in a table of the given format (R207). -/
def weightReal (t : ElemT) (tbl : List Byte) (w i : Nat) : FVal :=
  match t with
  | .bf16 => FFmt.bf16.decode (bytesToNat (slice tbl (8 * w + 2 * i) 2))
  | _ => FFmt.f32.decode (bytesToNat (slice tbl (16 * w + 4 * i) 4))
def weightComplex (tbl : List Byte) (w i : Nat) : FVal × FVal :=
  (FFmt.f32.decode (bytesToNat (slice tbl (32 * w + 8 * i) 4)),
   FFmt.f32.decode (bytesToNat (slice tbl (32 * w + 8 * i + 4) 4)))

/-- A stage with a stride register (R204). -/
def bsStage (t : ElemT) (bs : Word) (tbl : List Byte) (d : List Nat) : List Nat × Flags :=
  let cm := bsCm bs
  stageWords (t == .c32) (bsLogs bs) (fun e => e &&& cm == cm && !cm.testBit (bsLogs bs))
    (fun p => if bsSh bs then 0 else p % 2 ^ bsWp bs) (weightReal t tbl) (weightComplex tbl) d

/-- The image of a stored result (R209). -/
def storeImage (t : ElemT) (fmte : Word) (d : List Nat) : List Byte × Flags :=
  match t with
  | .bf16 =>
    let r := d.map fun x => FFmt.bf16.round .rne false (FFmt.f32.decode x)
    (r.flatMap fun p => natToBytes 2 p.1, orL (r.map (·.2)))
  | .f16 =>
    let r := d.map fun x => FFmt.f16.round .rne false (FFmt.f32.decode x)
    (r.flatMap fun p => natToBytes 2 p.1, orL (r.map (·.2)))
  | .bx8 => bx 7 | .bx6 => bx 5 | .bx4 => bx 3
  | _ => (d.flatMap (natToBytes 4), 0#6)
where
  orL (fs : List Flags) : Flags := fs.foldl (· ||| ·) 0#6
  bx (w : Nat) : List Byte × Flags :=
    let bl := (List.range (d.length / 16)).map fun q =>
      bxPack fmte w ((slice d (16 * q) 16).map fun x => FFmt.f32.decode x)
    (bl.flatMap (fun b => natToBytes (2 * (w + 1)) (packCodes (w + 1) b.1)) ++ bl.flatMap (fun b => natToBytes 2 b.2.1),
      orL (bl.map (·.2.2)))

/-- Bytes and rows of a stored image (R209). -/
def imageBytes : ElemT → Nat
  | .bf16 => 8192 | .f16 => 8192 | .bx8 => 4096 + 512 | .bx6 => 3072 + 512 | .bx4 => 2048 + 512 | _ => 16384
def imageRows (t : ElemT) : Nat := ceilDiv (imageBytes t) 2048

/-! ### Landing -/


/-- Words of a tile image. -/
def imgWords (img : List Byte) : List Nat :=
  (List.range 4096).map fun i => bytesToNat (slice img (4 * i) 4)

/-- Advances a ZMMA by the work of one cycle (R193, R201, R202): operand rows in cycles 1 to 3, scale panels in 4 and 5, then for each
row group the accumulator read in cycle 13 + 2g and the landing in cycle 14 + 2g. -/
def Core.zmmaStep (rd : Bool → Nat → Nat → List Byte) (c : Core) (f : Flight) (j : ZJob) : Core × List Flight :=
  let k := kStep j.ta j.tb
  let pa := panelBytes j.ta k
  let pb := panelBytes j.tb k
  let row := fun (off r n : Nat) => rd false (off + 2048 * r) (Nat.min 2048 (n - 2048 * r))
  let go := fun (j' : ZJob) (cyc : Nat) => [{ f with cyc := j.ic + cyc, what := .zmma j' }]
  match j.phase with
  | 1 => (c, go { j with bufA := j.bufA ++ row j.offA 1 pa, phase := 2 } 2)
  | 2 => (c, go { j with bufB := row j.offB 0 pb, phase := 3 } 3)
  | 3 => (c, go { j with bufB := j.bufB ++ row j.offB 1 pb, phase := 4 } 4)
  | 4 => (c, go { j with scA := rd false (j.offA + pa) (scaleBytes j.ta k), phase := 5 } 5)
  | 5 => (c, go { j with scB := rd false (j.offB + pb) (scaleBytes j.tb k), phase := 6 } 13)
  | p =>
    let g := p - 6
    -- cycle 13 + 2g: read the accumulator rows and form the group, which lands in the next cycle
    let rows := c.pool.bytes (c.tileBase j.tile.toNat + 2048 * g) 2048
    let (img, fl) := zmmaGroup j.za j.ta j.tb j.fmte j.bufA j.scA j.bufB j.scB rows g
    let land : Flight :=
      { f with cyc := j.ic + 14 + 2 * g, flags := if g = 7 then j.flags ||| fl else 0#6,
               what := .tile j.tile (8 * g) img (if g = 7 then some true else none) }
    (c, land :: (if g < 7 then go { j with flags := j.flags ||| fl, phase := p + 1 } (15 + 2 * g) else []))

/-- Runs a butterfly's stages on the words read in cycle 0 with the weights collected (R208). -/
def bflyRun (wfmt : ElemT) : List Word → List Nat → List Byte → List Nat → List Nat × Flags
  | [], _, _, d => (d, 0#6)
  | b :: bs, tabs, wb, d =>
    let n := tabs.headD 0
    let (d', f) := bsStage wfmt b (wb.take n) d
    let (r, f') := bflyRun wfmt bs tabs.tail (wb.drop n) d'
    (r, f ||| f')

/-- The weight-table rows still to be read, as (cycle, offset, bytes), for a chain of stages (R210). -/
def bflyReads (off : Nat) : List Nat → List Nat → List (Nat × Nat × Nat)
  | [], _ => []
  | n :: tabs, starts =>
    let r0 := off / 2048
    let r1 := (off + n - 1) / 2048
    ((List.range (r1 - r0 + 1)).map fun i =>
      let lo := Nat.max off (2048 * (r0 + i))
      let hi := Nat.min (off + n) (2048 * (r0 + i + 1))
      (starts.headD 0 + i, lo, hi - lo)) ++ bflyReads (off + n) tabs starts.tail

/-- Advances a butterfly by one weight row (R210), or lands it in cycle F (R208, R209). -/
def Core.bflyStep (rd : Bool → Nat → Nat → List Byte) (c : Core) (f : Flight) (j : BJob) : Core × List Flight :=
  let reads := bflyReads (j.rows.headD 0) j.tabs j.starts
  match reads[j.phase]? with
  | some (_, lo, n) =>
    let j' := { j with wbytes := j.wbytes ++ rd false lo n, phase := j.phase + 1 }
    let nxt := match reads[j.phase + 1]? with
      | some (cy, _, _) => j.ic + cy
      | none => j.ic + j.total
    (c, [{ f with cyc := nxt, what := .bfly j' }])
  | none =>
    let (d, fl) := bflyRun j.wfmt j.bs j.tabs j.wbytes (imgWords j.data)
    let img := d.flatMap (natToBytes 4)
    match j.store with
    | none => ((c.writeTile j.tile 0 img).raise f.slot fl f.baddr, [])
    | some (off, t) =>
      let (im, fl') := storeImage t j.fmte d
      let c1 := (c.writeTile j.tile 0 img).raise f.slot (fl ||| fl') f.baddr
      -- row k of the image is written in cycle F + k and seen from cycle F + k + 1 on
      (c1, (List.range (imageRows t)).map fun r =>
        { f with cyc := j.ic + j.total + r + 1, flags := 0#6,
                 what := .pool (c.padCells false (off + 2048 * r) (slice im (2048 * r) 2048)) })

/-- KDONE when a write's last row lands (R188, R198): `kd` is some true for a finished ZMMA, some false for ZZERO and ZLD, which set KDONE
to 0. -/
def Core.markTile (c : Core) (t : BitVec 6) (kd : Option Bool) : Core :=
  match kd with
  | none => c
  | some add =>
    let i := c.tileInfo t.toNat
    { c with tiles := Tab.set c.tiles t.toNat { i with kdone := if add then (i.kdone + 1) % 2 ^ 16 else 0 } }

/-- The scratchpad read of one cycle of ZLD, ZMMA, BFLY or BFCH, through the reader `rd` of R165, and the flights that follow from it. -/
def Core.readOne (rd : Bool → Nat → Nat → List Byte) (c : Core) (f : Flight) : Core × List Flight :=
  match f.what with
  | .zld t tr view off k acc =>
    let acc' := acc ++ rd view (off + 2048 * k) 2048
    if k < 7 then (c, [{ f with cyc := f.cyc + 1, what := .zld t tr view off (k + 1) acc' }])
    else (c, [{ f with cyc := f.cyc + 3, what := .tile t 0 (if tr then transposeImg acc' else acc') (some false) }])
  | .zmma j => c.zmmaStep rd f j
  | .bfly j => c.bflyStep rd f j
  | _ => (c, [])

/-- Applies one landing; the reads of a cycle are made by `readOne`. -/
def Core.landOne (fr : Nat) (c : Core) (f : Flight) : Core × List Flight :=
  let c0 := c.raise f.slot f.flags f.baddr
  match f.what with
  | .xreg r v => ({ c0.wx r v with xpoison := c0.xpoison.filter (· != r) }, [])
  | .vreg r v lanes => (c0.wv r (mergeLanes' (c0.rv r) v lanes) lanes, [])
  | .kreg r v en => (c0.mergeK r v en, [])
  | .sys n v => (c0.writeSys n v, [])
  | .fmte v => ({ c0 with fmte := v &&& fmteMask }, [])
  | .bs r v => ({ c0 with bs := c0.bs.set r.toNat (v &&& bsMask) r.isLt }, [])
  | .desc n v => ({ c0 with descs := if v = 0#1024 then Tab.erase c0.descs n.toNat else Tab.set c0.descs n.toNat v }, [])
  | .pool ws => (c0.writePool fr ws, [])
  | .poolBits ws => (c0.writeBits fr ws, [])
  | .tile t row img kd =>
    ((c0.writeTile t row img).markTile t kd, [])
  | .zld .. => (c, [])
  | .zmma _ => (c, [])
  | .bfly _ => (c, [])
  | .nothing => (c0, [])
where
  /-- Merges written lanes into an old image (R128). -/
  mergeLanes' (old new : VReg) (lanes : Mask) : VReg :=
    if lanes = BitVec.allOnes 128 then new
    else BitVec.ofNat 4096 (packCodes 32 ((List.range 128).map fun i =>
      natBits (if lanes.getLsbD i then new.toNat else old.toNat) (32 * i) 32))

/-- Splits off the results due in or before cycle `n`; the reads of cycle `n` stay until its turn. -/
def dueFlights (n : Nat) (fs : List Flight) : List Flight × List Flight :=
  (fs.filter (fun f => decide (f.cyc ≤ n) && f.what.rank != 2), fs.filter (fun f => decide (n < f.cyc) || f.what.rank == 2))

/-- Applies a list of landings, in order. -/
def Core.landAll (fr : Nat) : Core → List Flight → Core
  | c, [] => c
  | c, f :: fs =>
    let (c', more) := c.landOne fr f
    Core.landAll fr { c' with flights := more.foldl (fun l g => insertFlight g l) c'.flights } fs

/-- Moves to the next issue cycle: everything due in it lands (R92). -/
def Core.advance (fr : Nat) (c : Core) : Core :=
  let n := c.ic + 1
  let (due, rest) := dueFlights n c.flights
  let c1 := { c with ic := n, blaze := c.blaze + 1, flights := rest,
                     wports := c.wports.filter (fun p => decide (n ≤ p.cyc)),
                     bankUse := c.bankUse.filter (fun u => decide (n ≤ u.cyc)) }
  -- writes to system registers see the exceptions of the cycle they were issued in
  let c2 := c1.landAll fr (due.filter fun f => f.what.rank == 0)
  ({ c2 with raised := [] } : Core).landAll fr (due.filter fun f => f.what.rank != 0)

end Sys2Proof.Machine
end

