-- ==== Sys2Proof/Machine/Translate.lean ====
section
/-!
DEFINITION. Global memory: physical keys and homes (R366, R383), page walks (R384–R390), remote windows (R387), the device's own
accesses (R393), access tags and the race check (R374–R379).
-/
namespace Sys2Proof.Machine

/-! ### Cores in the state -/

def State.core (s : State) (n : Nat) : Core := s.cores[n]?.getD Core.zero
def State.setCore (s : State) (n : Nat) (c : Core) : State := { s with cores := s.cores.setIfInBounds n c }
def State.modCore (s : State) (n : Nat) (f : Core → Core) : State := s.setCore n (f (s.core n))
/-- SYS.CYCLE of the die of package core `n` (R91). -/
def State.dieCycle (s : State) (d : Nat) : Nat := s.cycles[d]?.getD 0
def dieOf (core : Nat) : Nat := core / 40

/-! ### Physical keys -/

/-- One key space for all tiers: HBM 0, T2 1, HOST 2, DOORBELL 4 at tier·2^52; a REMOTE window and offset above 2^60. -/
def keyOf (tier pa : Nat) : Nat := tier * 2 ^ 52 + pa
def remoteKey (win off : Nat) : Nat := 2 ^ 60 + win * 2 ^ 52 + off
def keyTier (k : Nat) : Nat := if 2 ^ 60 ≤ k then 3 else k / 2 ^ 52
def keyPa (k : Nat) : Nat := k % 2 ^ 52
def keyWin (k : Nat) : Nat := (k - 2 ^ 60) / 2 ^ 52

/-- The home die of a line (R366). -/
def homeDie (k : Nat) : Nat :=
  let pa := keyPa k
  if keyTier k = 0 then pa / 2 ^ 37 else (pa / 2 ^ 11 % 4) ^^^ (pa / 2 ^ 21 % 4)
/-- The home slice within the die (R366). -/
def homeSlice (k : Nat) : Nat :=
  let pa := keyPa k
  (pa / 2 ^ 7 % 16) ^^^ (pa / 2 ^ 15 % 16) ^^^ (pa / 2 ^ 23 % 16)

/-- This package's number (R439), 0 when the operator part is not in force. -/
def State.pkgNum (s : State) : Nat := bytesToNat (slice s.cfg 518 2) % 2 ^ 14

/-- The outbound window of a REMOTE key. -/
def State.windowOf (s : State) (k : Nat) : Option Window := if keyTier k = 3 then Tab.get? s.windows (keyWin k) else none

/-! ### Page walks (R384–R386) -/

/-- Kinds of access, by the codes of R390. -/
inductive AccKind where
  | read | write | atomic | fetch | device
  deriving DecidableEq, Repr
def AccKind.code : AccKind → Nat
  | .read => 0 | .write => 1 | .atomic => 2 | .fetch => 3 | .device => 4

/-- A leaf found by a walk, or the cause and level of the failure (R390). -/
inductive Walk where
  | leaf (e lv : Nat)
  | bad (cause lv : Nat)
  deriving DecidableEq, Repr

def pteV (e : Nat) : Bool := e.testBit 0
def pteLeaf (e : Nat) : Bool := e.testBit 1
def pteW (e : Nat) : Bool := e.testBit 2
def pteX (e : Nat) : Bool := e.testBit 3
def ptePin (e : Nat) : Bool := e.testBit 4
def ptePol (e : Nat) : Nat := natBits e 5 2
def pteTier (e : Nat) : Nat := natBits e 7 3
def pteAddr (e : Nat) : Nat := natBits e 12 40 * 2 ^ 12
def pteWin (e : Nat) : Nat := natBits e 52 12

/-- The index bits of a level (R384). -/
def walkIndex (va lv : Nat) : Nat :=
  match lv with
  | 3 => va / 2 ^ 48 % 256
  | 2 => va / 2 ^ 39 % 512
  | 1 => va / 2 ^ 30 % 512
  | _ => va / 2 ^ 17 % 8192

def pageBits (lv : Nat) : Nat := if lv = 1 then 30 else 17

/-- WellFormed of R386. -/
def pteWellFormed (e lv : Nat) : Bool :=
  natBits e 10 2 == 0 &&
  (if pteLeaf e then
    (lv == 0 || lv == 1) && pteAddr e % 2 ^ pageBits lv == 0 && pteTier e ≤ 4 && ptePol e ≠ 3 &&
      (pteTier e == 3 || pteWin e == 0)
  else
    lv != 0 && natBits e 2 8 == 0 && pteWin e == 0 && pteAddr e % (if lv == 1 then 65536 else 4096) == 0 &&
      decide (pteAddr e < 2 ^ 39))

/-- The walk from table `t` at level `lv` down; `fuel` counts levels. -/
def walkFrom (s : State) (va : Nat) : Nat → Nat → Nat → Walk
  | 0, lv, _ => .bad 4 lv
  | fuel + 1, lv, t =>
    let a := t + 8 * walkIndex va lv
    if s.memPoison.any (fun l => l == keyOf 0 a / 128) then .bad 10 lv
    else
      let e := s.mem.nat (keyOf 0 a) 8
      if !pteV e then .bad 1 lv
      else if !pteWellFormed e lv then .bad 4 lv
      else if pteLeaf e then .leaf e lv
      else walkFrom s va fuel (lv - 1) (pteAddr e)

/-- The walk of a context's tables. -/
def walk (s : State) (ctx va : Nat) : Walk :=
  match Tab.get? s.ctxs ctx with
  | none => .bad 1 3
  | some c => walkFrom s va 4 3 c.ptRoot

/-- The address bits below the range one entry of a level covers (R384). -/
def levelBits (lv : Nat) : Nat :=
  match lv with
  | 3 => 48
  | 2 => 39
  | 1 => 30
  | _ => 17
/-- Whether entry `e` only widens the rights of leaf `c` (R389): bits W, X and PIN may have been added. -/
def pteWidens (c e : Nat) : Bool := pteLeaf c && e ||| 0x1C == c ||| 0x1C && (c &&& e &&& 0x1C) == c &&& 0x1C
/-- The cached entries an access may use for the entry `e` of the tables (0 where that is invalid or lost): those some agent's walk has used that differ from it,
and not by an added right alone (R389). -/
def cachedAt (s : State) (ctx va lv e : Nat) : List Nat :=
  (s.tlb.filter fun t => t.ctx == ctx && t.lv == lv && t.page == va / 2 ^ levelBits lv && !(t.leaf == e || pteWidens t.leaf e)).map (·.leaf)
/-- The walk from table `t` at level `lv` down as a translation cache may show it, and the entries it used: at each level a cached entry that the tables no longer
hold may still be used until SHOOT, by one free choice for each page and entry (R389). -/
def walkCachedFrom (s : State) (ctx va : Nat) : Nat → Nat → Nat → Walk × List TlbEntry
  | 0, lv, _ => (.bad 4 lv, [])
  | fuel + 1, lv, t =>
    let a := t + 8 * walkIndex va lv
    let bad := s.memPoison.any (fun l => l == keyOf 0 a / 128)
    let e := s.mem.nat (keyOf 0 a) 8
    let next := fun (e : Nat) =>
      let r := if pteLeaf e then (.leaf e lv, []) else walkCachedFrom s ctx va fuel (lv - 1) (pteAddr e)
      (r.1, ⟨ctx, va / 2 ^ levelBits lv, lv, e⟩ :: r.2)
    match (cachedAt s ctx va lv (if bad then 0 else e)).find? fun c => Config.freeBit (s.fresh + c * 2 ^ 64) (4 * (va / 2 ^ pageBits (Nat.min lv 1)) + lv) with
    | some c => next c
    | none =>
      if bad then (.bad 10 lv, [])
      else if !pteV e then (.bad 1 lv, [])
      else if !pteWellFormed e lv then (.bad 4 lv, [])
      else next e
/-- The walk of a context's tables as a translation cache may show it, and the entries it used. -/
def walkUsed (s : State) (ctx va : Nat) : Walk × List TlbEntry :=
  match Tab.get? s.ctxs ctx with
  | none => (.bad 1 3, [])
  | some c => walkCachedFrom s ctx va 4 3 c.ptRoot
def walkCached (s : State) (ctx va : Nat) : Walk := (walkUsed s ctx va).1

/-- Limits of the tiers (R383). -/
def tierLimit (t : Nat) : Nat := if t = 0 then 2 ^ 39 else if t = 1 then 2 ^ 40 else if t = 2 then 2 ^ 52 else 2 ^ 29

/-- Whether a frame is withheld (R400). -/
def State.isWithheld (s : State) (tier pa : Nat) : Bool :=
  s.withheld.any fun f => f.1 == tier && f.2 / 2 ^ 17 == pa / 2 ^ 17

/-- What a translation is asked for: the kind, whether the access writes, whether it is the device's own, and whether it is an access the
doorbell aperture allows (R386, R390). -/
structure Want where
  kind  : AccKind
  write : Bool
  dev   : Bool
  bell  : Bool
  deriving DecidableEq, Repr

/-- The leaf checks of R386 in their order: a physical key or the failing cause. -/
def leafCheck (s : State) (w : Want) (va e lv : Nat) : Except (Nat × Nat) Nat :=
  let pa := pteAddr e + va % 2 ^ pageBits lv
  let tier := pteTier e
  let refused : Bool :=
    match Tab.get? s.windows (pteWin e) with
    | none => true
    | some win => decide (win.rlen < pa + 2 ^ pageBits lv) || win.pkg == s.pkgNum
  if tier ≠ 3 ∧ tierLimit tier ≤ pa then .error (11, 0)
  else if tier ≤ 1 ∧ s.isWithheld tier pa then .error (9, 0)
  else if tier = 3 ∧ refused then .error (5, 0)
  else if tier = 4 ∧ !w.bell then .error (7, 0)
  else if w.dev ∧ !ptePin e then .error (8, 0)
  else if w.kind = .fetch ∧ !pteX e then .error (3, 0)
  else if w.write ∧ !pteW e then .error (2, 0)
  else .ok (if tier = 3 then remoteKey (pteWin e) pa else keyOf tier pa)

/-- Translation of one address: the key, or cause and level (R386, R390). -/
def translate (s : State) (ctx : Nat) (w : Want) (va : Nat) : Except (Nat × Nat) Nat :=
  if 2 ^ 56 ≤ va then .error (1, 3)
  else
    match walkCached s ctx va with
    | .bad c lv => .error (c, lv)
    | .leaf e lv => leafCheck s w va e lv

/-- The AUXV word of a TRANSLATION record (R390). -/
def transAuxv (cl : Nat × Nat) (kind path : Nat) : Nat := cl.1 * 2 ^ 16 + cl.2 * 2 ^ 14 + kind * 2 ^ 8 + path

/-- The first byte of each 128 KiB page that `n` bytes from `va` touch. -/
def pagesOf (va n : Nat) : List Nat :=
  if n = 0 then [] else
  (List.range ((va + n - 1) / 131072 - va / 131072 + 1)).map fun i => Nat.max va (131072 * (va / 131072 + i))

/-- Splits a virtual range at 128-byte lines: (address, bytes before it, length). -/
def lineParts : Nat → Nat → Nat → Nat → List (Nat × Nat × Nat)
  | 0, _, _, _ => []
  | fuel + 1, va, pos, n =>
    if n = 0 then []
    else
      let k := Nat.min n (128 - va % 128)
      (va, pos, k) :: lineParts fuel (va + k) (pos + k) (n - k)
def partsOf (va n : Nat) : List (Nat × Nat × Nat) := lineParts (n / 128 + 2) va 0 n
/-- The first byte of each line that `n` bytes from `va` touch: each is translated (R387 measures a window from the byte itself). -/
def lineStarts (va n : Nat) : List Nat := (partsOf va n).map (·.1)

/-- The first failing line of a range: its address and cause. -/
def firstFail (s : State) (ctx : Nat) (w : Want) : List Nat → Option (Nat × (Nat × Nat))
  | [] => none
  | p :: ps =>
    match translate s ctx w p with
    | .error e => some (p, e)
    | .ok _ => firstFail s ctx w ps

/-- Records the entries an access's walk used in the translation caches, table pointers too (R389: only walks that succeeded are cached). An entry that another
agent may still hold stays beside it. -/
def State.noteTlb (s : State) (ctx va : Nat) : State :=
  match walkUsed s ctx va with
  | (.leaf .., used) => { s with tlb := used.filter (fun t => !s.tlb.contains t) ++ s.tlb }
  | (.bad .., _) => s

/-! ### Access tags and the race check (R374–R379) -/

def Path.num : Path → Nat
  | .lsu => 0 | .fe => 1 | .ce => 2 | .mo => 3 | .sq => 4 | .gu => 5 | .lk => 6 | .code => 15
def pathOfCode (n : Nat) : Option Path :=
  match n with
  | 0 => some .lsu | 1 => some .fe | 2 => some .ce | 3 => some .mo | 4 => some .sq | 5 => some .gu | 6 => some .lk
  | _ => none
/-- Writer agent number of a path (R370); CE and MO write nothing. -/
def agentOf (core : Nat) : Path → Option Nat
  | .lsu => some (5 * core) | .fe => some (5 * core + 1) | .sq => some (5 * core + 2) | .gu => some (5 * core + 3)
  | .lk => some (5 * core + 4) | _ => none

def agNone : Nat := 1023
def agDev : Nat := 1022
def agHost : Nat := 1021
def agCp : Nat := 1020

/-- An access tag (R374). -/
def tagWord (wa rc : Nat) (sync rel : Bool) (sc : Nat) : Word :=
  BitVec.ofNat 32 (wa * 2 ^ 22 + rc % 2 ^ 14 * 2 ^ 8 + (if sync then 128 else 0) + (if rel then 64 + sc * 16 else 0))
def tagNone : Word := tagWord agNone 0 false false 0
def tagWa (t : Word) : Nat := natBits t.toNat 22 10
def tagRc (t : Word) : Nat := natBits t.toNat 8 14
def tagSync (t : Word) : Bool := t.getLsbD 7
def tagRel (t : Word) : Bool := t.getLsbD 6
def tagSc (t : Word) : Nat := natBits t.toNat 4 2

/-- The tag of a line. -/
def State.tagOf (s : State) (line : Nat) : Word := (Tab.get? s.tags line).getD tagNone
/-- The cache policy of the page an address lies in (R368); an address of another package's access has NORM. -/
def State.policyAt (s : State) (ctx va : Nat) : Nat :=
  match walkCached s ctx va with
  | .leaf e _ => ptePol e
  | .bad .. => 0
/-- The ways of a die's sets that retained ranges reserve (R186). -/
def waysOn (rs : List Retain) (d : Nat) : Nat := (rs.filter fun r => r.dies.testBit d).foldl (fun t r => t + r.ways) 0
/-- The retained range an address of a context lies in. -/
def State.rangeOf (s : State) (ctx va : Nat) : Option Retain := s.retains.find? fun r => r.ctx == ctx && decide (r.va ≤ va) && decide (va < r.va + r.len)
/-- Whether two lines fall into one set of one slice (R14, R366). -/
def sameSet (a b : Nat) : Bool :=
  homeDie (128 * a) == homeDie (128 * b) && homeSlice (128 * a) == homeSlice (128 * b) && Config.l2Set a % 2048 == Config.l2Set b % 2048
/-- The lines of a line's set that take no reserved way, most recently used first. -/
def State.others (s : State) (line : Nat) : List L2Line := s.l2.filter fun e => sameSet e.line line && !(match e.kept with
  | some (c, n) => s.retains.any fun r => r.ctx == c && r.num == n
  | none => false)
/-- A line leaves its slice; a HOST line's tag is lost with it (R374). -/
def State.evict (s : State) (line : Nat) : State :=
  { s with l2 := s.l2.filter (fun e => e.line != line), tags := if keyTier (128 * line) = 2 then Tab.erase s.tags line else s.tags }
/-- Victims go until fewer than `cap` lines of the set take no reserved way: a STRM line first, else the least recently used (R368). No set is full while the
slices together hold fewer than 8 lines. -/
def State.makeRoom (s : State) (line cap : Nat) : Nat → State
  | 0 => s
  | k + 1 =>
    if s.l2.length < 8 then s
    else
      let own := s.others line
      if own.length < cap then s
      else match (own.reverse.find? (·.strm)).or own.getLast? with
        | some e => (s.evict e.line).makeRoom line cap k
        | none => s
/-- An access reaches a line's home slice (R14, R366, R368): a line that is present is used, one that is not is allocated as its page's policy and the retained
ranges say (DESIGN CHOICE, log 114: only a NORM use makes a line the most recently used; page walks allocate nothing). -/
def State.touch (s : State) (line pol : Nat) (range : Option Retain) : State :=
  let cap := 16 - waysOn s.retains (homeDie (128 * line))
  if 3 ≤ keyTier (128 * line) then s
  else match s.l2.find? (fun e => e.line == line) with
    | some e => if pol = 0 then { s with l2 := e :: s.l2.filter fun x => x.line != line } else s
    | none =>
      let held := fun (r : Retain) => (s.l2.filter fun e => e.kept == some (r.ctx, r.num) && sameSet e.line line).length
      match range.filter fun r => decide (held r < r.ways) with
      | some r => let s1 := s.makeRoom line (cap + 1) 16; { s1 with l2 := ⟨line, false, some (r.ctx, r.num)⟩ :: s1.l2 }
      | none =>
        if pol = 2 then s
        else
          let s1 := s.makeRoom line cap 16
          if pol = 1 then { s1 with l2 := s1.l2 ++ [⟨line, true, none⟩] } else { s1 with l2 := ⟨line, false, none⟩ :: s1.l2 }
/-- An access by a context's address reaches its line. -/
def State.touchAt (s : State) (ctx va line : Nat) : State := s.touch line (s.policyAt ctx va) (s.rangeOf ctx va)
/-- The same, by a walk whose entries its agent may cache. -/
def State.useAt (s : State) (ctx va line : Nat) : State := (s.noteTlb ctx va).touchAt ctx va line
/-- A read of a context's range that the device makes for itself or for a macro step: its walks are cached, its lines in this package used. -/
def State.useRange (s : State) (ctx va n : Nat) : State :=
  (lineStarts va n).foldl (fun s a => match translate s ctx ⟨.read, false, false, false⟩ a with
    | .ok k => s.useAt ctx a (k / 128)
    | .error _ => s) s

/-- Recon of R377: the largest count not above the present one that agrees with the tag modulo 2^14. -/
def State.recon (s : State) (t : Word) : Nat :=
  let n := s.rct.count (tagWa t)
  let d := (n % 2 ^ 14 + 2 ^ 14 - tagRc t) % 2 ^ 14
  (n + 2 ^ 32 - d) % 2 ^ 32

def acqKey (p a : Nat) : Nat := p * 1024 + a

/-- Whether writer agent `w` lies in scope `sc` of a path of core `core` (R371). -/
def State.inScope (s : State) (sc core w : Nat) : Bool :=
  let wc := w / 5
  if 800 ≤ w then sc == 3
  else match sc with
    | 0 => wc == core
    | 1 => wc == core || ((s.core wc).st != .free && (s.core core).st != .free && (s.core wc).gid == (s.core core).gid)
    | _ => true

/-- Whether a core's acquires are ordered after the release that wrote an entry (R255): some path of it has the count of that release, or the count
of a later release of another path of the writer's core (DEDUCED, log 100). -/
def Core.sawEntry (c : Core) (p : DescPend) : Bool :=
  let w := p.agent / 5 * 5
  (List.range 5).any fun i => (List.range 7).any fun q =>
    decide ((if w + i = p.agent then p.counts.getD i 0 else p.counts.getD i 0 + 1) ≤ c.acq.count (acqKey q (w + i)))
/-- An acquire at device or system scope, or the completion of a SYNC or BARW, makes certain the entries whose releases it is ordered after (R255). -/
def Core.seeEntries (c : Core) : Core :=
  if c.descNew.isEmpty then c else { c with descNew := c.descNew.map fun p => if c.sawEntry p then { p with sure := true } else p }
/-- A direct acquire by path code `p` of core `core` at scope `sc` from tag `t` (R377). -/
def State.acquire (s : State) (core p sc : Nat) (t : Word) : State :=
  let w := tagWa t
  let see := fun (c : Core) => if 2 ≤ sc then c.seeEntries else c
  if tagRel t && decide (w ≤ 811) && s.inScope (tagSc t) core w && s.inScope sc core w then
    s.modCore core fun c =>
      see { c with acq := c.acq.setCount (acqKey p w) (Nat.max (c.acq.count (acqKey p w)) (s.recon t)) }
  else s.modCore core see

/-- Raises the release count of an agent, a 32-bit count (R376). -/
def State.release (s : State) (w : Nat) : State := { s with rct := s.rct.setCount w ((s.rct.count w + 1) % 2 ^ 32) }

/-- A snapshot acquire by path code `p` of a core from counts `rct` (R377). -/
def Core.acquireAll (c : Core) (p : Nat) (rct : Tab Nat) : Core :=
  ({ c with acq := rct.foldl (fun a e => if e.1 ≤ 811 then a.setCount (acqKey p e.1) (Nat.max (a.count (acqKey p e.1)) e.2) else a) c.acq } : Core).seeEntries

/-- Path `q` of a core takes path `p`'s count, as an XFENCE p, q does (R377). -/
def State.passCount (s : State) (core : Nat) (p q : Path) : State :=
  match agentOf core p with
  | none => s
  | some w =>
    if q = .ce ∨ q = .code then s
    else s.modCore core fun c => { c with acq := c.acq.setCount (acqKey q.num w) (Nat.max (c.acq.count (acqKey q.num w)) (s.rct.count w)) }

/-- The race check of R379. `own` is the accessor's writer agent, `acq` its count of the tag's writer. -/
def State.ordered (s : State) (t : Word) (own : Option Nat) (acq : Nat) (isRead sync : Bool) : Bool :=
  let w := tagWa t
  let n := s.recon t
  decide (1020 ≤ w) || own == some w || (tagSync t && (isRead || sync)) || decide (8191 < (s.rct.count w + 2 ^ 32 - n) % 2 ^ 32) ||
    decide (n < acq) || (acq == n && tagRel t)

/-- AUXV of a MEMORY-MODEL record (R381): the accessor is a core, or, of a race another package found, its link arrival. -/
def raceAuxvAt (t : Word) (write : Bool) (core : Nat) (p : Path) (far : Option Nat) : Nat :=
  (if write then 2 ^ 47 else 0) + (match far with | some l => l * 2 ^ 43 + 255 * 2 ^ 35 | none => core * 2 ^ 35) + p.num % 8 * 2 ^ 32 + t.toNat
def raceAuxv (t : Word) (write : Bool) (core : Nat) (p : Path) : Nat := raceAuxvAt t write core p none
/-- Tags a line written by agent `w` (R376); the release has already raised the count. A HOST line that is not allocated keeps no tag (R374). -/
def State.tagWrite (s : State) (line w : Nat) (sync rel : Bool) (sc : Nat) : State :=
  if keyTier (128 * line) = 2 ∧ !(s.l2.any fun e => e.line == line) then s
  else { s with tags := Tab.set s.tags line (tagWord w (s.rct.count w) sync rel sc) }

/-! ### Barrier objects (R357, R358) -/

structure BObj where
  st   : Nat
  gen  : Nat
  nexp : Nat
  bexp : Nat
  narr : Nat
  barr : Nat
  ovn  : Nat
  ovb  : Nat
  bad  : Bool
  deriving DecidableEq, Repr

def BObj.ofBytes (bs : List Byte) : BObj :=
  let f := fun o n => bytesToNat (slice bs o n)
  { st := f 0 1, gen := f 2 2, nexp := f 4 4, bexp := f 8 8, narr := f 16 4, barr := f 24 8, ovn := f 32 4, ovb := f 40 8,
    bad := f 1 1 != 0 || f 20 4 != 0 || f 36 4 != 0 || f 48 16 != 0 || decide (3 < f 0 1) }
def BObj.bytes (o : BObj) : List Byte :=
  natToBytes 1 o.st ++ natToBytes 1 0 ++ natToBytes 2 o.gen ++ natToBytes 4 o.nexp ++ natToBytes 8 o.bexp ++ natToBytes 4 o.narr ++
  natToBytes 4 0 ++ natToBytes 8 o.barr ++ natToBytes 4 o.ovn ++ natToBytes 4 0 ++ natToBytes 8 o.ovb ++ natToBytes 16 0

/-- BARM on a well-formed object (R358, R360): the object and the error kind, 0 for none. -/
def BObj.arm (o : BObj) (nexp bexp : Nat) : BObj × Nat :=
  if o.st = 1 then (o, 2)
  else ({ o with st := if nexp = 0 ∧ bexp = 0 then 2 else 1, gen := (o.gen + 1) % 2 ^ 16, nexp := nexp, bexp := bexp, narr := 0,
                 barr := 0, ovn := 0, ovb := 0 }, 0)
/-- An arrival of `a` arrivals and `b` bytes (R358). -/
def BObj.arrive (o : BObj) (a b : Nat) : BObj × Nat :=
  let n := (o.narr + a) % 2 ^ 32
  let m := (o.barr + b) % 2 ^ 64
  let p := { o with narr := n, barr := m }
  let full := { p with st := 3, ovn := (o.ovn + 1) % 2 ^ 32, ovb := (o.ovb + b) % 2 ^ 64 }
  if o.st = 1 then
    if o.nexp < n ∨ o.bexp < m then (full, 1)
    else if n = o.nexp ∧ m = o.bexp then ({ p with st := 2 }, 0)
    else (p, 0)
  else (full, if o.st = 3 then 0 else 1)
/-- The status word of BARW for an object as read, given the generation waited on (R362). -/
def BObj.status (o : BObj) (gen : Option Nat) : Word :=
  if o.bad then BitVec.ofNat 32 (2 ^ 20)
  else BitVec.ofNat 32 (o.st * 2 ^ 18 + (if (gen.getD o.gen) ≠ o.gen then 2 ^ 17 else 0) + (if o.st = 3 then 2 ^ 16 else 0) + o.gen)
/-- Whether a wait on generation `gen` ends with this object. -/
def BObj.ends (o : BObj) (gen : Nat) : Bool := o.bad || o.st != 1 || o.gen != gen

def State.bobj (s : State) (key : Nat) : BObj := BObj.ofBytes (s.mem.bytes key 64)

/-! ### What a write sets off -/

/-- What a write at a home sets off, `was` being the memory before it: the monitor of a queue whose word it changes (R292, R295); and the end of a BARW wait,
whose status and snapshot are those of the first change that ends it (R362, R377), for a waiter here and for one of another package. -/
def State.afterWrite (s : State) (was : Mem) (key n : Nat) : State :=
  let hits := fun (k len : Nat) => decide (k < key + n) && decide (key < k + len)
  let s1 := if s.queues.isEmpty then s else
    { s with queues := s.queues.map fun e => match e.2.monitor with
        | some (k, false) => if hits k 8 && was.bytes k 8 != s.mem.bytes k 8 then (e.1, { e.2 with monitor := some (k, true) }) else e
        | _ => e }
  let s2 : State := if s1.waiters.isEmpty then s1 else
    { s1 with waiters := s1.waiters.map fun w =>
        let k := w.msg.addr.toNat
        let o := s.bobj k
        if w.ended.isNone && hits k 64 && o.ends w.gen then
          { w with ended := some ([0#8, if o.bad then 3#8 else 0#8] ++ s.mem.bytes k 64 ++ natToBytes 2 w.gen, s.rct) }
        else w }
  (s2.accesses.filter fun a => a.sent && a.op == .barw && hits (a.key + a.off) 64).foldl
    (fun s a => s.modCore a.core fun c =>
      { c with jobs := c.jobs.map fun j => match j.kind with
          | .barw d (some g) none =>
            let o := s.bobj (a.key + a.off)
            if j.id = a.job ∧ o.ends g then
              { j with kind := .barw d (some g) (some s.rct), data := (natToBytes 4 (o.status (some g)).toNat).zipIdx.map fun b => (b.2, b.1) }
            else j
          | _ => j }) s2

/-! ### The device's own accesses (R380, R393) -/

def wantDev (write : Bool) : Want := ⟨.device, write, true, false⟩

/-- The lines that `n` bytes from `key` touch. -/
def linesOf (key n : Nat) : List Nat :=
  if n = 0 then [] else (List.range ((key + n - 1) / 128 - key / 128 + 1)).map (key / 128 + ·)

/-- Writes memory by physical key and tags its lines as agent `w`'s ordinary writes; whole lines lose their poison (R426). `home` says how the write uses a line
of its slice (R368). -/
def State.writeKey (s : State) (key : Nat) (bs : List Byte) (w : Nat) (home : State → Nat → State := fun s l => s.touch l 0 none) : State :=
  let s1 := { s with mem := s.mem.write key bs
                     memPoison := s.memPoison.filter fun l => !(decide (key ≤ 128 * l) && decide (128 * l + 128 ≤ key + bs.length)) }
  ((linesOf key bs.length).foldl (fun s l => (home s l).tagWrite l w false false 0) s1).afterWrite s.mem key bs.length

/-- An access of the device itself to another package's memory (R367): it goes out over the link as an access of no core, exempt from the owner's race check
(R380). -/
def State.pushDev (s : State) (ctx va key gid : Nat) (op : AccOp) (bs : List Byte) (n : Nat) (acq rel : Bool) (sc : Nat) (dev : Option DevTag) : State :=
  { s with accesses := s.accesses ++ [{ id := s.nextId, core := 160, path := .lk, op := op, ctx := ctx, key := key - key % 128, va := va, off := key % 128,
                                        bytes := bs, en := List.replicate n true, acq := acq, rel := rel, scope := BitVec.ofNat 2 sc, job := 0, part := 0,
                                        baddr := 0#64, done := false, sent := false, gid := gid, win := s.windowOf key, dev := dev, exempt := true }],
           nextId := s.nextId + 1 }
/-- A write of the device to another package's memory; the lines its own reads have brought follow it. -/
def State.postRemote (s : State) (ctx va key : Nat) (bs : List Byte) (rel : Bool) (dev : Option DevTag) : State :=
  let s1 := s.pushDev ctx va key 0 .write bs bs.length false rel 3 dev
  { s1 with devLines := s1.devLines.map fun l =>
      if l.key = key - key % 128 ∧ !l.data.isEmpty then { l with data := l.data.take (key % 128) ++ bs ++ l.data.drop (key % 128 + bs.length) } else l }

/-- Why a device read does not answer: a line of another package has to come first, or the read fails at an address. -/
inductive DevStop where
  | need (ctx key va : Nat)
  | fail (va : Nat)
  deriving DecidableEq, Repr
/-- A device read of a context's virtual range. A page of another package is read there (R367): `use` says for what, and so where its lines are at hand. -/
def devRead (s : State) (use : DevUse) (ctx va n : Nat) : Except DevStop (List Byte) :=
  match firstFail s ctx (wantDev false) (lineStarts va n) with
  | some e => .error (.fail e.1)
  | none => (partsOf va n).foldl (fun r p => r.bind fun bs =>
      match translate s ctx (wantDev false) p.1 with
      | .error _ => .error (.fail p.1)
      | .ok k =>
        if keyTier k ≠ 3 then .ok (bs ++ s.mem.bytes k p.2.2)
        else match s.devLines.find? (fun l => l.use == use && l.key == k - k % 128) with
          | some l => if l.data.isEmpty then .error (.fail p.1) else .ok (bs ++ slice l.data (k % 128) p.2.2)
          | none => .error (.need ctx (k - k % 128) (p.1 - p.1 % 128))) (.ok [])
/-- Asks for a line of another package that a device read needs, once; none when it has been asked for. -/
def askDev (s : State) (use : DevUse) (ctx key va : Nat) : Option State :=
  if s.accesses.any (fun a => a.dev == some (.line use) && a.key == key) then none
  else some (s.pushDev ctx va key 0 .read [] 128 false false 3 (some (.line use)))
/-- The lines that a device read has brought are no longer wanted. -/
def State.dropLines (s : State) (use : DevUse) : State := { s with devLines := s.devLines.filter fun l => l.use != use }

/-- A device write of a context's virtual range; the failing address, or the state. `dev` says what a write in another package is for. -/
def devWrite (s : State) (dev : Option DevTag) (ctx va : Nat) (bs : List Byte) (agent : Nat) (rel : Bool := false) : Except Nat State :=
  match firstFail s ctx (wantDev true) (lineStarts va bs.length) with
  | some e => .error e.1
  | none => .ok ((partsOf va bs.length).foldl (fun s p =>
      match translate s ctx (wantDev true) p.1 with
      | .ok k => if keyTier k = 3 then s.postRemote ctx p.1 k (slice bs p.2.1 p.2.2) rel dev
        else s.writeKey k (slice bs p.2.1 p.2.2) agent fun s l => s.useAt ctx p.1 l
      | .error _ => s) s)

/-- An access by the command processor through a context's tables, not held to pinned pages. A read of another package fails here: what may wait for its link
asks for it. -/
def cpRead (s : State) (ctx va n : Nat) : Except (Nat × (Nat × Nat)) (List Byte) :=
  let w : Want := ⟨.read, false, false, false⟩
  match firstFail s ctx w (lineStarts va n) with
  | some e => .error e
  | none =>
    let poisoned := (partsOf va n).any fun p =>
      match translate s ctx w p.1 with
      | .ok k => keyTier k == 3 || s.memPoison.any (fun l => l == k / 128)
      | .error _ => false
    if poisoned then .error (va, (10, 0))
    else .ok ((partsOf va n).flatMap fun p =>
      match translate s ctx w p.1 with
      | .ok k => s.mem.bytes k p.2.2
      | .error _ => [])
def cpWrite (s : State) (ctx va : Nat) (bs : List Byte) (sync rel : Bool) (sc : Nat) : Except (Nat × (Nat × Nat)) State :=
  let w : Want := ⟨.write, true, false, false⟩
  match firstFail s ctx w (lineStarts va bs.length) with
  | some e => .error e
  | none => .ok ((partsOf va bs.length).foldl (fun s p =>
      match translate s ctx w p.1 with
      | .ok k =>
        if keyTier k = 3 then s.postRemote ctx p.1 k (slice bs p.2.1 p.2.2) rel none
        else
          let s1 := { s with mem := s.mem.write k (slice bs p.2.1 p.2.2) }
          ((s1.useAt ctx p.1 (k / 128)).tagWrite (k / 128) agCp sync rel sc).afterWrite s.mem k p.2.2
      | .error _ => s) s)

end Sys2Proof.Machine
end

