-- ==== Sys2Proof/Machine/Ops.lean ====
section
/-!
DEFINITION. Shared operations: fault records (R282–R284), the ending of tasks and groups (R124, R280, R330, R334), and taking a fault at
a bundle and resuming from it (R97–R99, R270).
-/
namespace Sys2Proof.Machine

/-! ### Small state helpers -/

/-- Consumes a fresh number for free choices. -/
def State.tickFresh (s : State) : State := { s with fresh := s.fresh + 1 }
/-- Sends an MSI-X message (R435). -/
def State.sendMsi (s : State) (v : Nat) : State := { s with msi := s.msi ++ [v] }
/-- The vector of a context's interrupt message (R433). -/
def State.vectorOf (s : State) (ctx : Nat) : Nat := (Tab.get? s.intmap ctx).getD 2
def State.ctx? (s : State) (n : Nat) : Option Ctx := Tab.get? s.ctxs n
def State.modCtx (s : State) (n : Nat) (f : Ctx → Ctx) : State := { s with ctxs := Tab.modify s.ctxs n f }
def State.modGroup (s : State) (g : Nat) (f : Group → Group) : State := { s with groups := Tab.modify s.groups g f }
def State.modQueue (s : State) (q : Nat) (f : Queue → Queue) : State := { s with queues := Tab.modify s.queues q f }
/-- SYS.CORE (R91). -/
def sysCore (ctx n : Nat) : Word := BitVec.ofNat 32 (ctx * 2 ^ 16 + n * 2 ^ 8 + n / 40 * 2 ^ 6 + n % 40 / 8 * 2 ^ 3 + n % 8)
/-- The 64-bit agent-independent scope code of sys. -/
def scSys : Nat := 3
def scDev : Nat := 2

/-! ### Fault records -/

/-- A fault found at a bundle, before it is made a record (R98, R283). -/
structure Exc where
  code  : Nat
  sub   : Nat
  xinfo : Nat
  addr  : Nat
  auxv  : Nat
  deriving DecidableEq, Repr

/-- Position of a fault code in the order of R99. -/
def excOrder (code : Nat) : Nat :=
  match code with
  | 19 => 1 | 1 => 2 | 7 => 3 | 2 => 4 | 3 => 5 | 16 => 6 | 15 => 7 | 5 => 8 | 4 => 9 | 14 => 10 | 18 => 11 | 13 => 12
  | 12 => 13 | 9 => 14 | 10 => 15 | 11 => 16 | 21 => 17 | 6 => 18
  | _ => 19

/-- Faults after whose record the driver may resume the task (R98, R172, R250); the others end the group. -/
def excResumable (code : Nat) : Bool := code == 3 || code == 8 || code == 11 || code == 13 || code == 17

/-- The bytes of a fault record after its sequence word (R283). -/
def FaultRec.bytes (r : FaultRec) : List Byte :=
  natToBytes 1 r.code ++ natToBytes 1 r.sub ++ natToBytes 1 r.flags ++ natToBytes 1 r.parcel ++ natToBytes 1 r.pcore ++
  natToBytes 1 r.tidx ++ natToBytes 2 (r.gnum / 2 ^ 32) ++ natToBytes 8 r.baddr.toNat ++ natToBytes 8 r.spc.toNat ++
  natToBytes 4 r.gnum ++ natToBytes 4 r.xinfo ++ natToBytes 8 r.addr ++ natToBytes 8 r.auxv ++ natToBytes 8 r.time

/-- A ring append by the device (R282, R284): the new state; whether the ring accepted the record and was empty before it; or what stops it: a line of another
package to be read first, or the failing address of a context-fatal access. -/
structure RingResult where
  s     : State
  ok    : Bool
  empty : Bool
  stop  : Option DevStop

/-- Appends 56 bytes to a fault ring of a context: SEQ is written last, as a release at system scope (R282). `core` is the core of the event. -/
def appendRing (s : State) (ctx cb core : Nat) (body : List Byte) : RingResult :=
  match devRead s (.ring ctx) ctx cb 32 with
  | .error e => ⟨s, false, false, some e⟩
  | .ok h =>
    let widx := bytesToNat (slice h 0 8)
    let ridx := bytesToNat (slice h 8 8)
    let rbase := bytesToNat (slice h 16 8)
    let logn := bytesToNat (slice h 24 4)
    if logn < 1 ∨ 20 < logn ∨ rbase % 64 ≠ 0 then ⟨s, false, false, none⟩
    else
      let slot := rbase + 64 * (widx % 2 ^ logn)
      match devRead s (.ring ctx) ctx slot 8 with
      | .error e => ⟨s, false, false, some e⟩
      | .ok q =>
        if bytesToNat q ≠ widx then ⟨s, false, false, none⟩
        else
          match devWrite s (some (.write 4 core)) ctx cb (natToBytes 8 (widx + 1)) agDev with
          | .error e => ⟨s, false, false, some (.fail e)⟩
          | .ok s1 =>
            match devWrite s1 (some (.write 4 core)) ctx slot (natToBytes 8 (widx + 1) ++ body) agDev true with
            | .error e => ⟨s, false, false, some (.fail e)⟩
            | .ok s2 => ⟨s2, true, widx == ridx, none⟩

/-- The status block's state code (R281). -/
def ctxCode : CtxState → Nat
  | .active => 1 | .suspending => 2 | .suspended => 3 | .dying => 4 | .scrubbing => 5

/-- Writes the status block of a context (R281); `st` is the state code. A failing write is the caller's to handle. -/
def writeStatus (s : State) (n : Nat) (st : Nat) : Except Nat State :=
  match s.ctx? n with
  | none => .ok s
  | some c =>
    devWrite s (some (.write 4 0)) n c.statb (natToBytes 1 st ++ natToBytes 1 c.fcause ++ natToBytes 2 c.fcore ++ natToBytes 4 0 ++
        natToBytes 8 c.dropped ++ natToBytes 8 c.faddr ++ natToBytes 40 0) agDev

/-! ### Ending tasks and groups -/

/-- The end of a task counts one release for each of its core's writer paths (R376). -/
def State.releasePaths (s : State) (core : Nat) : State :=
  (List.range 5).foldl (fun s i => s.release (5 * core + i)) s

/-- What a request serves on a core whose task has ended, if it serves one of the task's engines: nothing any more (R285, R286). -/
def Owner.orphan (n : Nat) : Owner → Owner
  | .slot k t => if k = n then .nothing else .slot k t
  | .slotLine k t key va => if k = n then .nothing else .slotLine k t key va
  | .param k key va => if k = n then .nothing else .param k key va
  | .code k va tab => if k = n then .nothing else .code k va tab
  | o => o
/-- The replies to what a core's task has asked for reach no later task. -/
def State.orphan (s : State) (n : Nat) : State :=
  { s with links := s.links.map fun (l : Link) => { l with requests := l.requests.map fun r => { r with owner := r.owner.orphan n } } }
/-- The scratchpad writes still in a core's pipes are made (R62: earlier bundles complete). -/
def Core.flushPool (fr : Nat) (c : Core) : Core :=
  c.flights.foldl (fun c f => match f.what with
    | .pool ws => c.writePool fr ws
    | .poolBits ws => c.writeBits fr ws
    | _ => c) c
/-- A core whose task has ended: pool, tags, view flags and code cache stay (R86, R188, R124). -/
def Core.vacate (c : Core) : Core :=
  { Core.zero with pool := c.pool, gtags := c.gtags, viewL := c.viewL, viewS := c.viewS, cache := c.cache,
                   poison := c.poison, ic := 0 }



/-- A reference word with the count of parity `p` one higher or one lower; the other fields keep their bits (R329). -/
def refBump (v : Nat) (p up : Bool) : Nat :=
  let sh := if p then 32 else 0
  let old := natBits v sh 31
  v - old * 2 ^ sh + (old + (if up then 1 else 2 ^ 31 - 1)) % 2 ^ 31 * 2 ^ sh
/-- What an update makes of a reference word, none where it leaves it as it is (R330). -/
def RefUse.next (u : RefUse) (v : Nat) : Option Nat :=
  match u with
  | .pin => some (refBump v (v.testBit 63) true)
  | .repin p => if v.testBit 63 = p then none else some (refBump (refBump v p false) (!p) true)
  | .unpin p => some (refBump v p false)
/-- Where a reference word lies, if its pages allow the update (R393). -/
def refKey (s : State) (ctx refa : Nat) : Option Nat := (translate s ctx (wantDev true) refa).toOption
/-- One atomic of CP on a reference word of this package, an acquire and release at device scope (R329): the new state and the word before; the line's tag is the
caller's to acquire. -/
def refAtomic (s : State) (key : Nat) (u : RefUse) : State × Nat :=
  let v := s.mem.nat key 8
  (match u.next v with
   | some w => (s.writeKey key (natToBytes 8 w) agCp).tagWrite (key / 128) agCp true true scDev
   | none => s, v)
/-- Asks for a reference word of another package: it is read, then moved by compare-and-swap until one succeeds, so that the update is atomic there. -/
def askRef (s : State) (core gid ctx refa key : Nat) (u : RefUse) : State :=
  s.pushDev ctx refa key gid .read [] 8 true false scDev (some (.ref u core))
/-- Whether an update of a task's reference word is under way at its owner. -/
def State.refUnder (s : State) (core gid : Nat) : Bool :=
  s.accesses.any fun a => a.gid == gid && (match a.dev with
    | some (.ref _ n) => n == core
    | _ => false)
/-- The reference-word update at a task's end (R330); a translation fault gives a queue error record, which the caller sends. Where an update of the task is under
way in another package, that one releases what it has counted when it is done. -/
def refRelease (s : State) (core gid ctx refa : Nat) (parity : Bool) : State × Bool :=
  if refa = 0 ∨ s.refUnder core gid then (s, true)
  else match refKey s ctx refa with
    | none => (s, false)
    | some k => (if keyTier k = 3 then askRef s core gid ctx refa k (.unpin parity) else (refAtomic s k (.unpin parity)).1, true)

/-- Drops the outstanding accesses of a core that only a task could still receive; its posted stores stay (assumption 9). -/
def State.dropLoads (s : State) (core : Nat) : State :=
  { s with accesses := s.accesses.filter fun a =>
      !(a.core == core && match a.op with
        | .read => true
        | .barw => true
        | .fence .. => true
        | .xfence .. => true
        | _ => false) }

/-- One member of a group ends (R86, R330, R376). -/
def endMember (s : State) (n : Nat) : State × Bool :=
  let c := s.core n
  let (s1, ok) := refRelease s n c.gid c.ctx c.refa c.parity
  ((((s1.releasePaths n).dropLoads n).orphan n).setCore n (c.flushPool s.fresh).vacate, ok)

/-- The record of an event on a core (R283). -/
def recordOf (s : State) (n : Nat) (e : Exc) (flags parcel : Nat) (baddr spc : DWord) : FaultRec :=
  let c := s.core n
  { code := e.code, sub := e.sub, flags := flags, parcel := parcel, pcore := n, tidx := c.tidx,
    gnum := c.group.toNat / 2 ^ 16, baddr := baddr, spc := spc, xinfo := e.xinfo, addr := e.addr, auxv := e.auxv,
    time := s.dieCycle (dieOf n) }

/-- Appends a record to a context's fault queue (R282, R284), dropped and counted when the ring is full or malformed; and what stops it: a line of another package
to come first, or the address at which the ring or the status block cannot be reached. -/
def putRecord (s : State) (n : Nat) (r : FaultRec) : State × Option DevStop :=
  match s.ctx? n with
  | none => (s, none)
  | some c =>
    let a := appendRing s n c.fqcb r.pcore r.bytes
    match a.stop with
    | some e => (s, some e)
    | none =>
      if a.ok then (if a.empty then a.s.sendMsi (a.s.vectorOf n) else a.s, none)
      else
        let s1 := s.modCtx n fun c => { c with dropped := c.dropped + 1 }
        match writeStatus s1 n (ctxCode c.st) with
        | .ok s' => (s', none)
        | .error addr => (s1, some (.fail addr))
/-- A record goes to its ring, or waits for the records before it and for the ring's lines (R282, R367); and the address at which ring or status block cannot be
reached. -/
def queueRecord (s : State) (n : Nat) (r : FaultRec) : State × Option Nat :=
  if s.recq.any (fun e => e.1 == n) then ({ s with recq := s.recq ++ [(n, r)] }, none)
  else match putRecord s n r with
    | (s', none) => (s', none)
    | (s', some (.fail addr)) => (s', some addr)
    | (_, some (.need ctx key va)) =>
      let s1 := { s with recq := s.recq ++ [(n, r)] }
      ((askDev s1 (.ring n) ctx key va).getD s1, none)
/-- The queue error record of a member whose reference word could not be updated (R330). -/
def refRecord (s : State) (n : Nat) (c : Core) (gnum : Nat) : FaultRec :=
  { recordOf s n ⟨34, 2, 0, c.refa, 0⟩ 0 0 c.pc c.pc with tidx := c.tidx, gnum := gnum }
/-- The members of a group whose reference words cannot be updated, on their cores or PRE-EMPTED (R330). -/
def refRecords (s : State) (g : Nat) (gr : Group) : List FaultRec :=
  ((gr.cores.filter fun n => (s.core n).gid = g ∧ (s.core n).st ≠ .free ∧ !(refRelease s n g gr.ctx (s.core n).refa (s.core n).parity).2).map
    fun n => refRecord s n (s.core n) gr.gnum) ++
  ((gr.saved.filter fun c => !(refRelease s (gr.cores.getD c.tidx 0) g gr.ctx c.refa c.parity).2).map fun c => refRecord s (gr.cores.getD c.tidx 0) c gr.gnum)

/-- The bytes a copy's line still brings: as read from its source, else as the source has them now. -/
def copyBytes (s : State) (n t : Nat) (k : Copy) (i : Nat) : List Byte :=
  let d := (s.core t).padAddr false (k.dst + 128 * i) / 128
  match ((s.core t).fills.find? fun f => f.id == k.id && !f.out && f.line == d).map Fill.src with
  | some (.bytes b) => b
  | _ => (s.core n).pool.bytes ((s.core n).padAddr false (k.src + 128 * i)) 128
/-- A copy that has started is completed though its task has ended (R247): its remaining lines land before their cores are left. -/
def finishCopy (n : Nat) (s : State) (k : Copy) : State :=
  if !k.started then s
  else k.targets.foldl (fun s t =>
    (List.range' (Tab.count k.landed t) (k.len / 128 - Tab.count k.landed t)).foldl (fun s i =>
      s.modCore t fun c => c.bgWrite s.fresh false ((copyBytes s n t k i).zipIdx.map fun w => (c.padAddr false (k.dst + 128 * i) + w.2, w.1))) s) s
def finishCopies (s : State) (n : Nat) : State := (s.core n).copies.foldl (finishCopy n) s

/-- Ends every member of a group still on its core and counts it as ended for its packet (R334, R335). With `fatal` the context is
dying and the packet's signal will not move (R269). -/
def killGroup (s0 : State) (g : Nat) (fatal : Bool) : State :=
  match Tab.get? s0.groups g with
  | none => s0
  | some gr =>
    let s := gr.cores.foldl (fun s n => if (s.core n).gid = g ∧ (s.core n).st ≠ .free then finishCopies s n else s) s0
    let s1 := gr.cores.foldl (fun s n => if (s.core n).gid = g ∧ (s.core n).st ≠ .free then (endMember s n).1 else s) s
    -- a PRE-EMPTED member leaves the core reserved and its granules HELD: the tags stay its context's, no longer HELD
    let s1 := gr.saved.foldl (fun s c => ((refRelease s (gr.cores.getD c.tidx 0) g gr.ctx c.refa c.parity).1).releasePaths (gr.cores.getD c.tidx 0)) s1
    let s2 := gr.cores.foldl (fun s n =>
      if gr.st = .preempted then s.modCore n fun c => { c with gtags := c.gtags.map fun t => if t.owner = gr.ctx then { t with held := false } else t }
      else s) s1
    let s3 := { s2 with groups := Tab.erase s2.groups g
                        aging := s2.aging.map fun a => if a = some g then none else a }
    if fatal then s3
    else s3.modQueue gr.queue fun q =>
      { q with packets := q.packets.map fun p => if p.idx = gr.packet then { p with groups := p.groups - 1 } else p }

/-- The monitor of a queue that has no thread any more: a WAIT it has started is still looked at (R291, R311). -/
def Queue.parked (q : Queue) : Option (Nat × Bool) := if q.packets.any (fun p => p.kind == 4) then some (q.monitor.getD (0, true)) else none
/-- What a request of thread `th` serves, once the thread is free: nothing (R291, R292). -/
def Owner.ofThread (th : Nat) : Owner → Owner
  | .thread t key => if t = th then .nothing else .thread t key
  | o => o
def State.thread (s : State) (th : Nat) : Thread := s.threads[th]?.getD Thread.zero
def State.setThread (s : State) (th : Nat) (t : Thread) : State := { s with threads := s.threads.setIfInBounds th t }
/-- Frees a thread; what it has read or asked for reaches no later binding. -/
def State.dropThread (s : State) (th : Nat) : State :=
  { s with threads := s.threads.setIfInBounds th Thread.zero
           links := s.links.map fun (l : Link) => { l with requests := l.requests.map fun r => { r with owner := r.owner.ofThread th } } }
/-- Frees the threads of the queues that `p` names, but one in the middle of another packet's start than `idx`: that start is completed first (R294). -/
def State.dropThreads (s : State) (idx : Option Nat) (p : Nat → Bool) : State :=
  (List.range 32).foldl (fun s th => match (s.thread th).queue with
    | some q => if p q && ((s.thread th).mid.isNone || (s.thread th).mid == idx) then s.dropThread th else s
    | none => s) s
/-- Whether a thread is in the middle of the start of a packet of queue `q`. -/
def State.starting (s : State) (q : Nat) : Bool := s.threads.toList.any fun t => t.queue == some q && t.mid.isSome
/-- A queue that UNMAPQ disabled is UNMAPPED once the last packet it has started is complete (R292). -/
def State.settleUnmap (s : State) (q : Nat) : State :=
  match Tab.get? s.queues q with
  | some v => if v.unmapping ∧ v.packets.isEmpty ∧ !s.starting q then { s with queues := Tab.erase s.queues q } else s
  | none => s
/-- Disables the queues of a context that dies (R292); packets whose groups ended with it never complete (R269). -/
def disableQueues (s : State) (ctx : Nat) : State :=
  let mine := (s.queues.filter fun e => e.2.ctx == ctx).map (·.1)
  let s1 : State := { s with queues := s.queues.map fun (e : Nat × Queue) =>
    if e.2.ctx = ctx then (e.1, { e.2 with st := .disabled, monitor := e.2.parked, packets := e.2.packets.filter fun p => p.groups == 0 }) else e }
  mine.foldl State.settleUnmap (s1.dropThreads none mine.contains)

/-- Ends every group of a context (R269, R286); what its members owe their reference words that cannot be reached is recorded, and no such record is
context-fatal again. -/
def endGroupsOf (s : State) (ctx : Nat) (fatal : Bool) : State :=
  (s.groups.filter fun e => e.2.ctx = ctx).foldl (fun s e =>
    (refRecords s e.1 e.2).foldl (fun s r => (queueRecord s ctx r).1) (killGroup s e.1 fatal)) s

/-- The context-fatal record (R283, code 48). It is lost where that queue is what failed (DEDUCED, log 104). -/
def fatalRecord (s : State) (n core addr : Nat) : State :=
  (queueRecord s n { FaultRec.zero with code := 48, pcore := core, addr := addr, time := s.dieCycle (dieOf core) }).1
/-- A context-fatal event (R280): the status block is written first, then the context is DYING. Ignored in DYING and SCRUBBING. -/
def ctxFatal (s : State) (n cause core addr : Nat) : State :=
  match s.ctx? n with
  | none => s
  | some c =>
    if c.st = .dying ∨ c.st = .scrubbing then s
    else
      let s1 := s.modCtx n fun c => { c with st := .dying, fcause := cause, fcore := core, faddr := addr }
      let s2 := match writeStatus s1 n 4 with
        | .ok s' => s'
        | .error _ => s1
      disableQueues (endGroupsOf (fatalRecord s2 n core addr) n true) n

/-- Appends a record to a context's fault queue (R282, R284): dropped and counted when the ring is full or malformed, context-fatal when
it cannot be reached. -/
def sendRecord (s : State) (n : Nat) (r : FaultRec) : State :=
  match queueRecord s n r with
  | (s', none) => s'
  | (s', some addr) => ctxFatal s' n 4 r.pcore addr
/-- The records of a context that wait for its ring go out as far as its lines are at hand; `k` bounds their number (R282). -/
def pumpRecords (s : State) (n : Nat) : Nat → State
  | 0 => s
  | k + 1 =>
    match s.recq.find? fun e => e.1 == n with
    | none => s.dropLines (.ring n)
    | some e =>
      match putRecord s n e.2 with
      | (_, some (.need ctx key va)) => (askDev s (.ring n) ctx key va).getD s
      | (s', none) => pumpRecords ({ s' with recq := s'.recq.erase e }.dropLines (.ring n)) n k
      | (s', some (.fail addr)) => pumpRecords ((ctxFatal { s' with recq := s'.recq.erase e } n 4 e.2.pcore addr).dropLines (.ring n)) n k

/-- A SUSPENDING context whose groups are all PRE-EMPTED or ended, or have not been placed, is SUSPENDED (R269). -/
def settleSuspend (s : State) (n : Nat) : State :=
  match s.ctx? n with
  | some c =>
    if c.st = .suspending ∧ s.groups.all (fun g => g.2.ctx ≠ n ∨ g.2.st = .queued ∨ g.2.st = .preempted) then
      let s1 := s.modCtx n fun c => { c with st := .suspended }
      match writeStatus s1 n 3 with
      | .ok s' => s'
      | .error a => ctxFatal s1 n 4 0 a
    else s
  | none => s

/-- Ends a group (R334, R335); a member whose reference word cannot be updated sends a queue error record with SUB 2 (R330). -/
def endGroup (s : State) (g : Nat) (fatal : Bool) : State :=
  match Tab.get? s.groups g with
  | none => s
  | some gr =>
    settleSuspend ((refRecords s g gr).foldl (fun s r => sendRecord s gr.ctx r) (killGroup s g fatal)) gr.ctx

/-! ### Taking a fault and resuming -/

/-- Takes a fault at a bundle of core `n` (R97, R98): the pipes keep their contents, and so do the waits of a bundle that has taken effect (MACRO, TRAP), the
program counter is saved, the record goes to the context's fault queue; the task is STOPPED, or its group ends. -/
def takeFault (s : State) (n : Nat) (e : Exc) (parcel : Nat) (baddr spc : DWord) : State :=
  let c := s.core n
  if excResumable e.code then
    let s1 := s.modCore n fun c => { c with st := .stopped, pc := spc, rcode := [], param := 0, rlines := [] }
    sendRecord s1 c.ctx (recordOf s1 n e 1 parcel baddr spc)
  else
    let r := recordOf s n e 2 parcel baddr spc
    endGroup (sendRecord s c.ctx r) c.gid false

/-- A core comes to owe a stop to an earlier bundle, detected now; `id` orders those of one cycle by issue (R99, R381). -/
def State.owe (s : State) (n id : Nat) (r : FaultRec) : State :=
  s.modCore n fun c => { c with owed := Tab.set c.owed (s.dieCycle (dieOf n) * 2 ^ 64 + id) r }
/-- Takes the stops owed to earlier bundles (R99, R381): their records were formed at detection and go out in that order; the group
ends. -/
def takeOwed (s : State) (n : Nat) : State :=
  let c := s.core n
  endGroup (c.owed.foldl (fun s r => sendRecord s c.ctx { r.2 with spc := c.pc, flags := 2 }) s) c.gid false

/-- The first die cycle in which every core of a die can issue from its start: the one at hand before its first turn, else the next (R334). -/
def State.startDie (s : State) (n : Nat) : Nat := s.dieCycle (dieOf n) + (if s.turn = 0 then 0 else 1)
/-- A core's task is to issue from the next full die cycle on (R334). -/
def State.startTask (s : State) (n : Nat) : State :=
  s.modCore n fun c => { c with st := .running, arrived := false, waits := [.start (s.startDie n)] }

/-- TASKGO's resumption of a STOPPED task (R86, R97): issue restarts at the saved program counter with the pipe image as kept. -/
def resumeTask (s : State) (n : Nat) : State := s.modCore n fun c => { c with st := .running }

/-! ### Times (R168) -/

/-- The count a copy's lines are timed by: its own core's issue cycles, or die cycles. -/
def copyNow (s : State) (core : Nat) (k : Copy) : Nat := if k.inCore then (s.core core).ic else s.dieCycle (dieOf core)
/-- The fixed part of a copy's time, and its cycles per line. -/
def Copy.lead (k : Copy) : Nat := if k.inCore then 16 else match k.hops with
  | none => 24
  | some h => 40 + 2 * h
def Copy.perLine (k : Copy) : Nat := if k.hops.isSome then 2 else 1
def Copy.lines (k : Copy) : Nat := k.len / 128
def Copy.delayOf (k : Copy) (t : Nat) : Nat := Tab.count k.delay t
def Copy.doneLines (k : Copy) (t : Nat) : Nat := Tab.count k.landed t
/-- When the next line for target `t` lands, delays counted. -/
def Copy.dueTime (k : Copy) (t : Nat) : Nat := k.startAt + k.lead + k.perLine * (k.doneLines t + 1) + k.delayOf t
def Copy.complete (k : Copy) : Bool := k.started && k.targets.all fun t => k.doneLines t == k.lines
/-- The banks of a copy's line `i` at its destination. -/
def Copy.lineBanks (k : Copy) (i : Nat) : BitVec 32 := bankSet false (k.dst + 128 * i) 128
/-- The scratchpad banks a core's issue-side writes take in its next issue cycle (R159). -/
def writeBanks (c : Core) : BitVec 32 := (c.bankUse.filter fun u => u.write && u.cyc == c.ic).foldl (fun m u => m ||| u.banks) 0#32
/-- Whether a fill of core `n` is an on-die copy whose line lands no later than `k` cycles from now (R168, R169). -/
def copyLandsBy (s : State) (n : Nat) (f : Fill) (k : Nat) : Bool :=
  (List.range 40).any fun i =>
    let m := 40 * dieOf n + i
    (s.core m).copies.any fun q => q.id == f.id && q.started && (List.range q.lines).any fun j =>
      (s.core n).padAddr false (q.dst + 128 * j) / 128 == f.line &&
        decide (q.startAt + q.lead + q.perLine * (j + 1) + q.delayOf n ≤ copyNow s m q + k)
/-- Whether a line is settled for a read made `k` cycles after the issue cycle: later reads count the landings whose cycle is fixed. -/
def settledAt (s : State) (n l k : Nat) : Bool :=
  (s.core n).fills.all fun f => f.line != l || f.out || (k != 0 && f.kind == .copy && copyLandsBy s n f k)

end Sys2Proof.Machine
end

