-- ==== Sys2Proof/Machine/Bundle.lean ====
section
/-!
DEFINITION. The issue of a bundle (R58–R62, R92–R99, R105–R119): what an instruction asks of its issue cycle (`Issue`), the checks of
a whole bundle in the order of R99, its effects, and the loop engine.
-/
namespace Sys2Proof.Machine

/-- Where an instruction stands: core, bundle address, bundle length in parcels, the instruction's own slot and parcel offset. -/
structure At where
  n      : Nat
  addr   : DWord
  len    : Nat
  slot   : Slot
  parcel : Nat
  deriving DecidableEq, Repr

/-- How a bundle's control instruction picks the next bundle (R105–R113). -/
inductive Ctl where
  | seq
  | jump (t : DWord)
  | call (t : DWord)
  | ret (t : DWord)
  | setup (l : Nat) (lp : Loop) (lc : Word)
  | skip (t : DWord)

/-- One use of the scratchpad or of a register file that the checks of R162, R165–R167 and R426 look at. -/
structure Uses where
  viewR  : List (Bool × BitVec 32) := []
  viewW  : List (Bool × BitVec 32) := []
  rlines : List (Nat × Nat) := []
  /-- Lines read in a later cycle, with how many cycles after issue (R193, R210). -/
  late   : List (Nat × Nat × Nat) := []
  wlines : List (Nat × Nat) := []
  rregs  : List WTarget := []
  wregs  : List WTarget := []

/-- What one instruction asks of its issue cycle. -/
structure Issue where
  /-- Scalar registers it reads, and those it writes: a pending one stalls the bundle (R94, R96). -/
  reads   : List (BitVec 6) := []
  writes  : List (BitVec 6) := []
  /-- A stall source other than pending registers (R94). -/
  stall   : Bool := false
  /-- A cause of ILLEGAL found with the registers or the partition (R70). -/
  ill     : Option Nat := none
  excs    : List Exc := []
  flights : List Flight := []
  wports  : List WPort := []
  banks   : List BankUse := []
  uses    : Uses := {}
  /-- Scalar registers whose fixed-latency results a variable-latency load cancels (R96). -/
  cancels : List (BitVec 6) := []
  ctl     : Ctl := .seq
  /-- Effects on engines and memory queues once the bundle takes effect. -/
  eff     : State → State := id
  waits   : List Wait := []
  /-- First issue cycle in which the pair array is free again (R190). -/
  array   : Nat := 0
  /-- Issue cycles with no bundle that follow (LOOPX, R114). -/
  empty   : Nat := 0
  isBlaze : Bool := false
  isSync  : Bool := false
  vjoin   : Bool := false
  trap    : Option Nat := none

/-- An operation: what an instruction asks, read off the state at the bundle's issue. -/
abbrev Op := State → At → Issue

/-- An instruction of a bundle with its place and operation. -/
structure Item where
  parcel : Nat
  slot   : Slot
  op     : Op

/-! ### Loop engine (R110–R113) -/

/-- The innermost active loop of the current call depth. -/
def Core.innermost (c : Core) : Option Nat :=
  ([3, 2, 1, 0] : List Nat).find? fun l =>
    match c.loops[l]? with
    | some lp => lp.active && lp.depth == c.depth
    | none => false
def Core.loopAt (c : Core) (l : Nat) : Loop := c.loops[l]?.getD Loop.zero
def Core.freeLoop (c : Core) (l : Nat) : Core :=
  { c with loops := c.loops.setIfInBounds l { c.loopAt l with active := false } }
def Core.lcAt (c : Core) (l : Nat) : Word := c.lc[l]?.getD 0#32
def Core.setLc (c : Core) (l : Nat) (v : Word) : Core := { c with lc := c.lc.setIfInBounds l v }

/-- What the loop engine does at a bundle (R111): the core, the next bundle if it takes a back-edge, the stage predicates it writes,
whether a pipelined loop drained, whether the blaze counter resets, and whether the task is to be held. -/
structure Edge where
  c     : Core
  next  : Option DWord
  preds : List (BitVec 3 × Mask)
  drained : Bool
  reset : Bool
  hold  : Option Nat

def ones128 : Mask := BitVec.allOnes 128

/-- One back-edge of level `l` with `req` for a pre-emption request (R111). -/
def backEdgeOf (c : Core) (l : Nat) (req : Bool) : Edge × Bool :=
  let lp := c.loopAt l
  let lc := c.lcAt l
  let s := lp.stages.toNat
  if s = 0 then
    if lc = 0#32 then (⟨c.freeLoop l, none, [], false, false, none⟩, true)
    else (⟨c.setLc l (lc - 1#32), some lp.start, [], false, false, none⟩, false)
  else
    let more := lc ≠ 0#32 ∧ !req
    let k1 := if more then ones128 else 0#128
    let k2 := c.rk 1
    let k3 := c.rk 2
    let preds := (if s = 3 then [(3#3, k3)] else []) ++ (if 2 ≤ s then [(2#3, k2)] else []) ++ [(1#3, k1)]
    let c1 := if more then c.setLc l (lc - 1#32) else c
    let allZero := preds.all fun p => p.2 == 0#128
    if allZero then
      if lc = 0#32 then (⟨c.freeLoop l, none, preds, true, true, none⟩, true)
      else if req then (⟨c1, some lp.start, preds, true, true, some l⟩, false)
      else (⟨c1.setLc l (lc - 1#32), some lp.start, [(1#3, ones128)], true, true, none⟩, false)
    else (⟨c1, some lp.start, preds, false, true, none⟩, false)

/-- The back-edges of a bundle at address `a` (R111, R112): when the innermost loop frees its level, the next outer one with the
same end bundle is evaluated in the same cycle. -/
def backEdges (c : Core) (a : DWord) (req : Bool) : Nat → Edge
  | 0 => ⟨c, none, [], false, false, none⟩
  | fuel + 1 =>
    match c.innermost with
    | none => ⟨c, none, [], false, false, none⟩
    | some l =>
      if (c.loopAt l).stop ≠ a then ⟨c, none, [], false, false, none⟩
      else
        let (e, freed) := backEdgeOf c l req
        if freed then
          let e' := backEdges e.c a req fuel
          { e' with preds := e.preds ++ e'.preds, drained := e.drained || e'.drained, reset := e.reset || e'.reset }
        else e

/-- R113: a taken branch frees each innermost loop whose range does not hold its target. -/
def Core.leaveLoops (c : Core) (t : DWord) : Nat → Core
  | 0 => c
  | fuel + 1 =>
    match c.innermost with
    | none => c
    | some l =>
      let lp := c.loopAt l
      if lp.start ≤ t ∧ t ≤ lp.stop then c else (c.freeLoop l).leaveLoops t fuel

/-- R112: a RET frees every active level of the current call depth, then lowers the depth. -/
def Core.returnLoops (c : Core) : Core :=
  { c with loops := c.loops.map (fun lp => if lp.depth = c.depth then { lp with active := false } else lp),
           depth := c.depth - 1 }

/-! ### Checks -/

/-- Whether two write targets share a register or a tile row (R95, R190). -/
def WTarget.clash : WTarget → WTarget → Bool
  | .x a, .x b => a == b
  | .v a, .v b => a == b
  | .k a, .k b => a == b
  | .rows t lo hi, .rows u lo' hi' => t == u && decide (lo < hi') && decide (lo' < hi)
  | _, _ => false

def portClash (ps : List WPort) (p : WPort) : Bool := ps.any fun q => q.cyc == p.cyc && q.tgt.clash p.tgt

/-- The parcel of the first instruction whose result collides (R95), over instructions in address order. -/
def firstClash (old : List WPort) : List (Nat × List WPort) → Option Nat
  | [] => none
  | (parcel, ps) :: rest =>
    let bad := ps.zipIdx.any fun (p, i) => portClash old p || portClash (ps.take i) p
    if bad then some parcel else firstClash (old ++ ps) rest

/-- The BANK fault between an earlier and a later use of a port, if they conflict (R161). -/
def bankConflict (e l : BankUse) : Option Exc :=
  let both := e.banks &&& l.banks
  if e.cyc = l.cyc ∧ e.write = l.write ∧ both ≠ 0#32 then
    some ⟨9, 0, (firstSet 32 0 both.toNat).getD 0 + e.code * 2 ^ 8 + l.code * 2 ^ 12 + e.chunk * 2 ^ 16 + l.chunk * 2 ^ 20, 0, l.cyc⟩
  else none

def firstBank (old : List BankUse) : List (Nat × List BankUse) → Option (Nat × Exc)
  | [] => none
  | (_, []) :: rest => firstBank old rest
  | (parcel, us) :: rest =>
    match (us.zipIdx.findSome? fun (u, i) => (old ++ us.take i).findSome? fun e => bankConflict e u) with
    | some x => some (parcel, x)
    | none => firstBank (old ++ us) rest

/-- VIEW (R162) of an instruction's reads against flags as they stand. -/
def viewExc (l s : BitVec 32) (u : Uses) : Option Exc :=
  u.viewR.findSome? fun r => if (if r.1 then l else s) &&& r.2 ≠ 0#32 then some ⟨10, 0, 0, 0, 0⟩ else none

def FillKind.code : FillKind → Nat
  | .fetch => 0 | .copy => 1 | .sstx => 2 | .landing => 3 | .seq => 4 | .wback => 5

/-- The transfer kind pending on a line, for the EARLY-READ record (assumption 14). -/
def Core.fillCode (c : Core) (l : Nat) : Nat :=
  match c.fills.find? (fun f => f.line == l) with
  | some f => f.kind.code
  | none => 0
def Core.regPending (c : Core) (t : WTarget) : Bool := c.regFills.any fun f => f.2.clash t
def WTarget.number : WTarget → Nat
  | .x r => r.toNat | .v r => r.toNat | .k r => r.toNat | .rows t _ _ => t.toNat

/-- EARLY-READ (R166, R167). -/
def earlyExc (s : State) (n : Nat) (u : Uses) : Option Exc :=
  let c := s.core n
  let rd := if c.erc.getLsbD 0 then
      match ((u.rlines.map fun p => ((0, p) : Nat × Nat × Nat)) ++ u.late).find? (fun p => !settledAt s n p.2.1 p.1) with
      | some p => some (⟨11, 0, 0, p.2.2, c.fillCode p.2.1⟩ : Exc)
      | none => (u.rregs.find? c.regPending).map fun t => (⟨11, 0, 0, t.number, 8⟩ : Exc)
    else none
  let wr := if c.erc.getLsbD 1 then
      match u.wlines.find? (fun p => c.lineIn p.1 || c.lineOut p.1) with
      | some p => some (⟨11, 0, 0, p.2, c.fillCode p.1⟩ : Exc)
      | none => (u.wregs.find? c.regPending).map fun t => ⟨11, 0, 0, t.number, 8⟩
    else none
  rd.or wr

/-- The lines of the pool a register or tile occupies. -/
def Core.regLines (c : Core) : WTarget → List Nat
  | .v r => (List.range 4).map (4 * r.toNat + ·)
  | .rows t lo hi => (List.range ((hi - lo) * 2)).map fun i => c.tileBase t.toNat / 128 + 2 * lo + i
  | _ => []

/-- Uncorrectable data consumed by the bundle (R426, R427). -/
def poisonExc (c : Core) (i : Issue) : Option Exc :=
  match i.reads.find? (fun r => c.xpoison.contains r) with
  | some r => some ⟨21, 0, 0, r.toNat, 7 * 256⟩
  | none =>
    match (i.uses.rlines ++ i.uses.late.map (·.2)).find? (fun p => c.poison.contains p.1) with
    | some p => some ⟨21, 0, 0, 2 ^ 63 + 63 * 2 ^ 40 + p.2, 4 * 256⟩
    | none =>
      i.uses.rregs.findSome? fun t =>
        match t with
        | .k r => if c.kpoison.contains r then some ⟨21, 0, 0, r.toNat, 7 * 256⟩ else none
        | .v r => if (c.regLines t).any (fun l => c.poison.contains l) then some ⟨21, 0, 0, r.toNat, 5 * 256⟩ else none
        | .rows z _ _ => if (c.regLines t).any (fun l => c.poison.contains l) then some ⟨21, 0, 0, z.toNat, 6 * 256⟩ else none
        | .x _ => none

/-- A fault with the parcel of its instruction, which orders it among its like (R99), and the parcel offset that an ILLEGAL records: the instruction's own, or
for a LOOP's end bundle the offset within that one (R62, R110). -/
structure Found where
  parcel : Nat
  exc    : Exc
  off    : Nat
  deriving DecidableEq, Repr

/-- The fault reported: least in the order of R99, then lowest-addressed, then (for ILLEGAL) lowest cause. -/
def Found.before (a b : Found) : Bool :=
  let x := excOrder a.exc.code
  let y := excOrder b.exc.code
  decide (x < y) || (x == y && (decide (a.parcel < b.parcel) || (a.parcel == b.parcel && decide (a.exc.sub < b.exc.sub))))
def pickFault : List Found → Option Found
  | [] => none
  | f :: fs =>
    match pickFault fs with
    | none => some f
    | some g => if g.before f then some g else some f

def exc0 (code : Nat) : Exc := ⟨code, 0, 0, 0, 0⟩

/-! ### Issue -/

/-- The state of the blaze bound (R119). -/
def Core.bound (c : Core) : Nat := (c.blzb.extractLsb' 0 24).toNat

/-- Whether a member is held: its bundle's empty cycles and waits are over (R94, R278). -/
def Core.holds (c : Core) : Bool := c.held && c.waits.isEmpty && c.empty == 0
/-- Whether a pre-emption request has arrived for the task's group: it ends a WAITQ whether or not a member can be held for it now (R117, R125). -/
def State.asked (s : State) (c : Core) : Bool := ((Tab.get? s.groups c.gid).map Group.reqd).getD false
/-- Whether a pre-emption request stands for the task (R117, R278, R349): while a member is STOPPED none is held. -/
def State.requested (s : State) (c : Core) : Bool :=
  match Tab.get? s.groups c.gid with
  | some g => g.reqd && !c.noReq && c.carve.isNone && !(g.cores.any fun n => (s.core n).gid == c.gid && (s.core n).st == .stopped)
  | none => false

/-- Whether a bundle holds a pending scalar register (R94). -/
def pendingStall (c : Core) (is : List Issue) : Bool :=
  is.any fun i => (i.reads ++ i.writes).any fun r => c.pend.any fun p => p.2 == r

/-- Flights cancelled by a variable-latency load (R96): nothing of them lands or is in flight any more. Their flags are still recorded, in the cycle in which the
result would have become visible: R54 ties the record to that cycle, and R96 cancels the result and says nothing of the flags (DESIGN CHOICE, log 121). -/
def cancelFlights (rs : List (BitVec 6)) (fs : List Flight) : List Flight :=
  if rs.isEmpty then fs else
  fs.map fun f => match f.what with
    | .xreg r _ => if rs.contains r then { f with what := .nothing, ends := 0 } else f
    | _ => f
def cancelPorts (rs : List (BitVec 6)) (ps : List WPort) : List WPort :=
  if rs.isEmpty then ps else
  ps.filter fun p => match p.tgt with
    | .x r => !rs.contains r
    | _ => true

/-- The scale-sheet counters of the task's core and phase (R344). -/
def State.countCycle (s : State) (n : Nat) (busy : Bool) : State :=
  let c := s.core n
  let key := 257 * n + 1 + (c.phase.extractLsb' 0 8).toNat
  let sh := (Tab.get? s.sheets c.ctx).getD []
  let e := (Tab.get? sh key).getD (0, 0)
  let e' := if busy then ((e.1 + 1) % 2 ^ 64, e.2) else (e.1, (e.2 + 1) % 2 ^ 64)
  { s with sheets := Tab.set s.sheets c.ctx (Tab.set sh key e') }

/-- Everything a bundle decides before it takes effect. -/
structure Plan where
  items : List (Nat × Issue)
  edge  : Edge
  next  : DWord
  flights : List Flight
  ports : List (Nat × List WPort)

/-- The control instruction's choice among a bundle's issues. -/
def ctlOf : List Issue → Ctl
  | [] => .seq
  | i :: is => match i.ctl with
    | .seq => ctlOf is
    | c => c

/-- The plan of a bundle: the loop engine's part, the next bundle, all results and ports. A RET makes no back-edge, as it frees the levels of its depth (R112:
DESIGN CHOICE, log 107); a LOOP with nothing to do in an outer loop's end bundle makes one, and where that goes back to the start it decides the
next bundle (DEDUCED, log 106). -/
def planOf (s : State) (n : Nat) (addr : DWord) (len : Nat) (iss : List (Nat × Issue)) : Plan :=
  let c := s.core n
  let is := iss.map (·.2)
  let seqNext := addr + BitVec.ofNat 64 (2 * len)
  let none' : Edge := ⟨c, none, [], false, false, none⟩
  let (edge, next) : Edge × DWord :=
    match ctlOf is with
    | .jump t => ({ none' with c := c.leaveLoops t 4 }, t)
    | .call t => ({ none' with c := { c with depth := c.depth + 1 } }, t)
    | .ret t => ({ none' with c := c.returnLoops }, t)
    | .skip t =>
      let e := backEdges c addr (s.requested c) 4
      (e, e.next.getD t)
    | .setup l lp lc =>
      let e := backEdges c addr (s.requested c) 4
      ({ e with c := (({ e.c with loops := e.c.loops.setIfInBounds l lp } : Core).setLc l lc) }, e.next.getD seqNext)
    | .seq =>
      let e := backEdges c addr (s.requested c) 4
      (e, e.next.getD seqNext)
  let setupPreds := match ctlOf is with
    | .setup _ lp _ =>
      (if 1 ≤ lp.stages.toNat then [(1#3, ones128)] else []) ++ (if 2 ≤ lp.stages.toNat then [(2#3, 0#128)] else []) ++
        (if lp.stages.toNat = 3 then [(3#3, 0#128)] else [])
    | _ => []
  let preds := edge.preds ++ setupPreds
  let phase : List Flight := match c.phases.find? (fun p => p.1 == addr) with
    | some p => [⟨c.ic + 1, c.ic + 1, .s, addr, 0#6, .sys 0x005#12 (BitVec.ofNat 32 p.2)⟩]
    | none => []
  let predFlights := preds.map fun p => (⟨c.ic + 1, c.ic + 1, .s, addr, 0#6, .kreg p.1 p.2 ones128⟩ : Flight)
  let predPorts := preds.map fun p => (⟨c.ic + 1, .k p.1⟩ : WPort)
  let lastParcel := (iss.getLast?.map (·.1)).getD 0
  { items := iss, edge := edge, next := next,
    flights := phase ++ is.flatMap (·.flights) ++ predFlights,
    ports := iss.map (fun p => (p.1, p.2.wports)) ++ [(lastParcel, predPorts)] }

/-- Whether fixed-latency work of this bundle or an earlier one is in flight at the next bundle's issue cycle (R118). -/
def inFlightAt (c : Core) (fs : List Flight) (array nextIc : Nat) : Bool :=
  (c.flights ++ fs).any (fun f => decide (nextIc < f.ends)) || decide (nextIc < Nat.max c.arrayEnd array)
/-- The issue cycle in which every issue-side scratchpad write of some flights is made and seen (R159, R352). -/
def drainTo (fs : List Flight) : Nat := fs.foldl (fun m f => match f.what with
  | .pool _ => Nat.max m f.cyc
  | .poolBits _ => Nat.max m f.cyc
  | .bfly j => if j.store.isSome then Nat.max m f.ends else m
  | _ => m) 0
/-- The issue cycle of the bundle after this one: LOOPX's empty cycles and the drain cycles of SYNC and BARA come between (R114, R118, R352). -/
def nextIssue (c : Core) (fs : List Flight) (is : List Issue) : Nat :=
  let e := c.ic + 1 + is.foldl (fun m i => Nat.max m i.empty) 0
  if is.any (fun i => i.waits.any fun w => w == .sync 0 || w == .drain) then Nat.max e (drainTo (c.flights ++ fs)) else e

/-- The faults a bundle meets (R99); `bad` is a decoding fault with its parcel and cause. -/
def faultsOf (s : State) (n : Nat) (bad : Option (Nat × Nat)) (p : Plan) : List Found :=
  let c := s.core n
  let is := p.items.map (·.2)
  let vjoin := is.any (·.vjoin)
  let (vl, vs) := if vjoin then (0#32, 0#32) else (c.viewL, c.viewS)
  let cancels := is.flatMap (·.cancels)
  let c1 := { c with flights := cancelFlights cancels c.flights }
  let fs := cancelFlights cancels p.flights
  let next := nextIssue c1 fs is
  let array := is.foldl (fun m i => Nat.max m i.array) 0
  let last := (p.items.getLast?.map (·.1)).getD 0
  (if c.timingDue then [⟨0, exc0 19, 0⟩] else []) ++
  (match bad with
   | some (o, cause) => [⟨o, ⟨1, cause, 0, 0, 0⟩, o⟩]
   | none => []) ++
  p.items.flatMap (fun q => match q.2.ill with
    | some cause => [(⟨q.1, ⟨1, cause, 0, 0, 0⟩, q.1⟩ : Found)]
    | none => []) ++
  (if c.bound < c.blaze then [⟨0, exc0 7, 0⟩] else []) ++
  p.items.flatMap (fun q => q.2.excs.map fun e => (if e.code = 1 then ⟨q.1, { e with xinfo := 0 }, e.xinfo⟩ else ⟨q.1, e, 0⟩ : Found)) ++
  (match firstClash (cancelPorts cancels c.wports) (p.ports.map fun q => (q.1, cancelPorts cancels q.2)) with
   | some o => [⟨o, exc0 4, 0⟩]
   | none => []) ++
  (match firstBank c.bankUse (p.items.map fun q => (q.1, q.2.banks)) with
   | some (o, e) => [⟨o, e, 0⟩]
   | none => []) ++
  p.items.flatMap (fun q => match viewExc vl vs q.2.uses with
    | some e => [(⟨q.1, e, 0⟩ : Found)]
    | none => []) ++
  p.items.flatMap (fun q => match earlyExc s n q.2.uses with
    | some e => [(⟨q.1, e, 0⟩ : Found)]
    | none => []) ++
  p.items.flatMap (fun q => match poisonExc c q.2 with
    | some e => [(⟨q.1, e, 0⟩ : Found)]
    | none => []) ++
  (if is.any (·.isSync) && c.carve.isSome && inFlightAt c1 fs array next then [⟨last, exc0 16, 0⟩] else []) ++
  (if (is.any (·.isBlaze) || p.edge.drained) && inFlightAt c1 fs array next then [⟨last, exc0 6, 0⟩] else [])

/-- The core of a bundle at `addr` that takes effect, before its engines start: results go into flight, ports are taken, the loop engine
has acted, and the next bundle is set; `req` is a standing pre-emption request (R62, R92, R117). -/
def issuedCore (c : Core) (addr : DWord) (p : Plan) (req : Bool) : Core :=
  let is := p.items.map (·.2)
  let cancels := is.flatMap (·.cancels)
  let blaze := is.any (·.isBlaze)
  let vjoin := is.any (·.vjoin)
  let wl := is.flatMap (·.uses.viewW)
  let setV := fun (sw : Bool) (v : BitVec 32) => wl.foldl (fun m u => if u.1 = sw then m ||| u.2 else m) v
  { p.edge.c with
    flights := cancelFlights cancels (p.flights.foldl (fun l f => insertFlight f l) c.flights)
    wports := cancelPorts cancels (c.wports ++ p.ports.flatMap (·.2))
    bankUse := c.bankUse ++ is.flatMap (·.banks)
    viewL := setV false (if vjoin then 0#32 else c.viewL)
    viewS := setV true (if vjoin then 0#32 else c.viewS)
    arrayEnd := is.foldl (fun m i => Nat.max m i.array) c.arrayEnd
    empty := is.foldl (fun m i => Nat.max m i.empty) 0
    waits := is.flatMap (·.waits)
    trapDue := is.findSome? (·.trap)
    blaze := if blaze || p.edge.reset then 0 else c.blaze
    pc := p.next
    lastB := addr
    pin := c.pin.bind fun k => if k.1 ≤ addr ∧ addr ≤ k.2.1 then some k else none
    held := (blaze && req) || p.edge.hold.isSome
    drainAt := p.edge.hold
    rcode := []
    param := 0 }
/-- A bundle takes effect: its core changes, its engines start, and the next issue cycle begins with what lands in it. -/
def applyBundle (s : State) (n : Nat) (addr : DWord) (p : Plan) : State :=
  let s1 := (p.items.map (·.2)).foldl (fun s i => i.eff s) (s.setCore n (issuedCore (s.core n) addr p (s.requested (s.core n))))
  s1.modCore n (Core.advance s.fresh)

/-- TRAP, once its bundle and the bundle's waits are done (R99, R123). -/
def settleTrap (s : State) (n : Nat) : State :=
  let c := s.core n
  match c.trapDue with
  | some code => if c.waits.isEmpty then
      takeFault (s.modCore n fun c => { c with trapDue := none }) n ⟨8, 0, code, 0, 0⟩ 0 c.lastB c.pc else s
  | none => s

/-- A TIMING fault that has been reported is no longer due. -/
def Core.clearTiming (c : Core) : Core := { c with timingDue := false }
/-- The fault of a bundle that does not stall (R97, R99), or its effect. -/
def concludeBundle (s : State) (n : Nat) (addr : DWord) (bad : Option (Nat × Nat)) (p : Plan) : State :=
  match pickFault (faultsOf s n bad p) with
  | some f => takeFault ((s.modCore n Core.clearTiming).countCycle n false) n f.exc f.off addr addr
  | none => settleTrap (applyBundle (s.countCycle n true) n addr p) n
/-- What each instruction of a bundle asks, with its parcel. -/
def asksOf (s : State) (n : Nat) (addr : DWord) (len : Nat) (items : List Item) : List (Nat × Issue) :=
  items.map fun i => (i.parcel, i.op s ⟨n, addr, len, i.slot, i.parcel⟩)
/-- Whether a bundle stalls: a pending register or another stall source (R94). The stall comes before every check, of the decoding too. -/
def stallsNow (c : Core) (is : List Issue) : Bool := pendingStall c is || is.any (·.stall)
/-- Issues a bundle of the running task on core `n` (R62, R94, R99): a stop owed comes first, then stalls, then the checks; a bundle that
passes them takes effect. -/
def issueBundle (s : State) (n : Nat) (addr : DWord) (len : Nat) (items : List Item) (bad : Option (Nat × Nat)) : State :=
  match (s.core n).owed with
  | _ :: _ => takeOwed (s.countCycle n false) n
  | [] =>
    if stallsNow (s.core n) ((asksOf s n addr len items).map (·.2)) then s.countCycle n false
    else concludeBundle s n addr bad (planOf s n addr len (asksOf s n addr len items))

end Sys2Proof.Machine
end

