-- ==== Sys2Proof/Machine/Transc.lean ====
section
/-!
DEFINITION. The six transcendental functions of R139, correctly rounded. Reciprocal and reciprocal square
root are exact integer divisions and roots with a sticky bit; the other four are enclosed in an interval of
width `2^(tErr+1−tP)` by fixed-point series, and both ends are rounded. Where the ends round apart the result is the
free value `Config.transcFallback` (assumption 12).
-/
namespace Sys2Proof.Machine

/-- Fixed-point precision of the series. -/
def tP : Nat := 512
/-- log2 of the allowance for the accumulated truncation, in units of `2^−tP`: every series below truncates
fewer than 2^12 times, each by less than one unit, with factors below 4. -/
def tErr : Nat := 16

/-- Integer square root by bits, highest first. -/
def isqrtAux : Nat → Nat → Nat → Nat
  | 0, _, r => r
  | k + 1, n, r =>
    let c := r + 2 ^ k
    isqrtAux k n (if c * c ≤ n then c else r)
def isqrt (n : Nat) : Nat := isqrtAux (Nat.log2 n / 2 + 1) n 0

/-- Series Σ (−1)^(alt·k) z^(2k+1)/(2k+1) with `zz = z²` and `p = z^(2k+1)`, in units of `2^−tP`. -/
def atanSeries (alt : Bool) (zz : Nat) : Nat → Nat → Nat → Int
  | 0, _, _ => 0
  | n + 1, k, p =>
    let t : Int := ((p / (2 * k + 1) : Nat) : Int)
    (if alt && k % 2 == 1 then -t else t) + atanSeries alt zz n (k + 1) (p * zz / 2 ^ tP)

/-- atan(1/d) in units of `2^−tP`. -/
def atanInv (d : Nat) : Int := atanSeries true (2 ^ tP / (d * d)) 240 0 (2 ^ tP / d)
/-- π by Machin's formula. -/
def piFix : Nat := (16 * atanInv 5 - 4 * atanInv 239).toNat
/-- 2·atanh(num/den), that is ln((den+num)/(den−num)). -/
def lnRatio (num den : Nat) : Nat :=
  let z := num * 2 ^ tP / den
  (2 * atanSeries false (z * z / 2 ^ tP) 240 0 z).toNat
def ln2Fix : Nat := lnRatio 1 3

/-- Σ t^k/k! from term `k`, with `p = t^k/k!`. -/
def expSeries (t : Nat) : Nat → Nat → Nat → Nat
  | 0, _, _ => 0
  | n + 1, k, p => p + expSeries t n (k + 1) (p * t / 2 ^ tP / (k + 1))

/-- Σ (−1)^k t^(2k+1)/(2k+1)!. -/
def sinSeries (tt : Nat) : Nat → Nat → Nat → Int
  | 0, _, _ => 0
  | n + 1, k, p =>
    (if k % 2 == 1 then -(p : Int) else (p : Int)) +
      sinSeries tt n (k + 1) (p * tt / 2 ^ tP / ((2 * k + 2) * (2 * k + 3)))

/-- Rounds the centre of an enclosure `[c − 2^tErr, c + 2^tErr] · 2^(e)`; the fallback `fb` where the ends differ. -/
def roundEnclosed (f : FFmt) (mode : RMode) (sat neg : Bool) (c : Nat) (e : Int) (fb : Nat) : Nat × Flags :=
  let lo := f.roundFin mode sat neg (c - 2 ^ tErr) e
  let hi := f.roundFin mode sat neg (c + 2 ^ tErr) e
  if lo = hi then (lo.1, lo.2 ||| fNX) else (fb, fNX)

/-- 1/(mag·2^e), mag ≠ 0. -/
def recipFin (f : FFmt) (mode : RMode) (sat neg : Bool) (mag : Nat) (e : Int) : Nat × Flags :=
  let k := 64 + Nat.log2 mag
  let q := 2 ^ k / mag
  let sticky := if 2 ^ k % mag = 0 then 0 else 1
  f.roundFin mode sat neg (2 * q + sticky) (-e - (k : Int) - 1)

/-- 1/√(mag·2^e), mag ≠ 0. -/
def rsqrtFin (f : FFmt) (mode : RMode) (sat : Bool) (mag : Nat) (e : Int) : Nat × Flags :=
  let (m, e2) := if e % 2 = 0 then (mag, e) else (2 * mag, e - 1)
  let k : Nat := 128
  let v := 2 ^ (2 * k) / m
  let r := isqrt v
  let sticky := if r * r * m = 2 ^ (2 * k) then 0 else 1
  f.roundFin mode sat false (2 * r + sticky) (-(e2 / 2) - (k : Int) - 1)

/-- Whether `mag·2^e` is an integer, and the integer's low bits: (integer part, fraction in units of 2^−s, s). -/
def splitFixed (mag : Nat) (e : Int) : Nat × Nat × Nat :=
  if 0 ≤ e then (mag * 2 ^ e.toNat, 0, 0)
  else
    let s := (-e).toNat
    (mag / 2 ^ s, mag % 2 ^ s, s)

def FFmt.code : FFmt → Nat
  | .f32 => 0 | .bf16 => 1 | .f16 => 2
def RMode.code : RMode → Nat
  | .rne => 0 | .rtz => 1 | .rup => 2 | .rdn => 3

/-- 2^x for a finite x (R139). -/
def exp2Fin (f : FFmt) (mode : RMode) (sat neg : Bool) (mag : Nat) (e : Int) (bits : Nat) : Nat × Flags :=
  if mag = 0 then f.roundFin mode sat false 1 0
  else if 12 < (Nat.log2 mag : Int) + e then
    -- |x| ≥ 4096: far outside every format
    f.roundFin mode sat false 1 (if neg then -4096 else 4096)
  else
    let (ip, fr, s) := splitFixed mag e
    if fr = 0 then f.roundFin mode sat false 1 (if neg then -(ip : Int) else (ip : Int))
    else
      let (n, g) : Int × Nat := if neg then (-(ip : Int) - 1, 2 ^ s - fr) else ((ip : Int), fr)
      -- g / 2^s in (0, 1), exact in 2^−tP because s ≤ 160
      let t := g * 2 ^ (tP - s) * ln2Fix / 2 ^ tP
      roundEnclosed f mode sat false (expSeries t 160 0 (2 ^ tP)) (n - (tP : Int))
        (Config.transcFallback 2 mode.code f.code bits)

/-- log2 of a positive finite x (R139). -/
def log2Fin (f : FFmt) (mode : RMode) (sat : Bool) (mag : Nat) (e : Int) (bits : Nat) : Nat × Flags :=
  let k := Nat.log2 mag
  let n : Int := (k : Int) + e
  if mag = 2 ^ k then f.round mode sat (FVal.ofInt n)
  else
    -- mag/2^k in (1, 2): ln = 2 atanh((m − 1)/(m + 1))
    let l := lnRatio (mag - 2 ^ k) (mag + 2 ^ k) * 2 ^ tP / ln2Fix
    let v : Int := n * (2 ^ tP : Nat) + (l : Int)
    roundEnclosed f mode sat (decide (v < 0)) v.natAbs (-(tP : Int)) (Config.transcFallback 3 mode.code f.code bits)

/-- sin(π·g/2^s) for 0 < g/2^s < 1/2, signed. -/
def sinQuarter (f : FFmt) (mode : RMode) (sat neg : Bool) (g s : Nat) (fb : Nat) : Nat × Flags :=
  let t := g * 2 ^ (tP - s) * piFix / 2 ^ tP
  roundEnclosed f mode sat neg (sinSeries (t * t / 2 ^ tP) 80 0 t).toNat (-(tP : Int)) fb

/-- sin(πx) of a finite x (R139). -/
def sinpFin (f : FFmt) (mode : RMode) (sat neg : Bool) (mag : Nat) (e : Int) (bits : Nat) : Nat × Flags :=
  let (ip, fr, s) := splitFixed mag e
  let flip := xor neg (ip % 2 == 1)
  if fr = 0 then (f.signBit neg, 0#6)
  else if 2 * fr = 2 ^ s then f.roundFin mode sat flip 1 0
  else
    let g := if 2 * fr < 2 ^ s then fr else 2 ^ s - fr
    sinQuarter f mode sat flip g s (Config.transcFallback 4 mode.code f.code bits)

/-- cos(πx) of a finite x (R139). -/
def cospFin (f : FFmt) (mode : RMode) (sat : Bool) (mag : Nat) (e : Int) (bits : Nat) : Nat × Flags :=
  let (ip, fr, s) := splitFixed mag e
  let odd := ip % 2 == 1
  if fr = 0 then f.roundFin mode sat odd 1 0
  else if 2 * fr = 2 ^ s then (0, 0#6)
  else if 2 * fr < 2 ^ s then
    -- cos(πr) = sin(π(1/2 − r))
    sinQuarter f mode sat odd (2 ^ s - 2 * fr) (s + 1) (Config.transcFallback 5 mode.code f.code bits)
  else
    sinQuarter f mode sat (!odd) (2 * fr - 2 ^ s) (s + 1) (Config.transcFallback 5 mode.code f.code bits)

/-- The six functions of R139. -/
inductive TFun where
  | rcp | rsq | exp2 | log2 | sinp | cosp
  deriving DecidableEq, Repr

/-- R139: the special inputs of its table, then the correctly rounded value. -/
def transc (fn : TFun) (f : FFmt) (mode : RMode) (sat : Bool) (bits : Nat) : Nat × Flags :=
  match f.decode bits with
  | .nan iv => (f.qnan, if iv then fIV else 0#6)
  | .inf neg =>
    match fn with
    | .rcp => (f.signBit neg, 0#6)
    | .rsq => if neg then (f.qnan, fIV) else (0, 0#6)
    | .exp2 => if neg then (0, 0#6) else (f.infBits, 0#6)
    | .log2 => if neg then (f.qnan, fIV) else (f.infBits, 0#6)
    | .sinp => (f.qnan, fIV)
    | .cosp => (f.qnan, fIV)
  | .fin neg mag e =>
    match fn with
    | .rcp => if mag = 0 then (f.signBit neg + f.infBits, fDZ) else recipFin f mode sat neg mag e
    | .rsq =>
      if mag = 0 then (f.signBit neg + f.infBits, fDZ)
      else if neg then (f.qnan, fIV) else rsqrtFin f mode sat mag e
    | .exp2 => exp2Fin f mode sat neg mag e bits
    | .log2 =>
      if mag = 0 then (f.signBit true + f.infBits, fDZ)
      else if neg then (f.qnan, fIV) else log2Fin f mode sat mag e bits
    | .sinp => sinpFin f mode sat neg mag e bits
    | .cosp => cospFin f mode sat mag e bits

end Sys2Proof.Machine
end

