-- ==== Sys2Proof/Machine/VecAlu.lean ====
section
/-!
DEFINITION. The arithmetic of the vector unit on whole register images (R127–R154), apart from operand fetch and
timing: each function takes source images and gives the result image, the lanes written and the flags.
-/
namespace Sys2Proof.Machine

/-- What a vector operation needs besides its sources: type, mode, SAT, the write predicate by lane and
SYS.FMTE. -/
structure VEnv where
  t    : ElemT
  mode : RMode
  sat  : Bool
  pred : Mask
  fmte : Word
  deriving DecidableEq, Repr

/-- A vector result: image, lanes to be written and flags raised. -/
structure VOut where
  val   : VReg
  lanes : Mask
  flags : Flags
  deriving DecidableEq, Repr

/-- Element `e` of width `w` (R127). -/
def elemOf (w : Nat) (v : VReg) (e : Nat) : Nat := natBits v.toNat (w * e) w
/-- The lane holding element `e` of width `w` (R127). -/
def laneOf (w e : Nat) : Nat := e * w / 32
/-- An image from its elements, element 0 lowest. -/
def packElems (w : Nat) (es : List Nat) : VReg := BitVec.ofNat 4096 (packCodes w es)
/-- The OR of the flags of a list of results. -/
def orFlags (fs : List Flags) : Flags := fs.foldl (· ||| ·) 0#6

/-- The lanes a type's predicate selects: each c32 element follows its even lane's bit (R128). -/
def typeLanes (t : ElemT) (p : Mask) : Mask :=
  if t = .c32 then
    let ev := p &&& BitVec.ofNat 128 0x55555555555555555555555555555555
    ev ||| (ev <<< 1)
  else p

/-- Width of the elements an operation handles lane by lane (c32 as 32-bit components). -/
def ElemT.lw (t : ElemT) : Nat := if t = .c32 then 32 else t.bits
/-- Number of elements of width `w` in a register. -/
def nElems (w : Nat) : Nat := 4096 / w

/-- Applies `f` to every element index; elements whose lane is off raise nothing (R52, R128). -/
def vmap (env : VEnv) (f : Nat → Nat × Flags) : VOut :=
  let w := env.t.lw
  let lanes := typeLanes env.t env.pred
  let rs := (List.range (nElems w)).map fun e => ((f e).1, if lanes.getLsbD (laneOf w e) then (f e).2 else 0#6)
  { val := packElems w (rs.map (·.1)), lanes := lanes, flags := orFlags (rs.map (·.2)) }

/-- An exact integer wrapped, or saturated with SA (R133). -/
def wrapOrSat (sat signed : Bool) (w : Nat) (v : Int) : Nat × Flags :=
  if sat then
    let (r, f) := if signed then satS v w else satU v w
    (intBits w r, f)
  else (intBits w v, 0#6)

/-- The integer an element stands for, by the signedness of its type. -/
def elemInt (signed : Bool) (w b : Nat) : Int := if signed then sInt w b else ((b % 2 ^ w : Nat) : Int)

/-- The two- and three-operand arithmetic of R132–R134. -/
inductive ArithOp where
  | add | sub | mul | fma | fms | fnma
  deriving DecidableEq, Repr

/-- The exact terms whose sum a float operation rounds once (R132). -/
def ArithOp.terms (op : ArithOp) (x y z : FVal) : List FVal :=
  match op with
  | .add => [x, y]
  | .sub => [x, y.negate]
  | .mul => [x.mul y]
  | .fma => [x.mul y, z]
  | .fms => [x.mul y, z.negate]
  | .fnma => [z, (x.mul y).negate]

/-- The exact integer result (R133). -/
def ArithOp.int (op : ArithOp) (x y z : Int) : Int :=
  match op with
  | .add => x + y
  | .sub => x - y
  | .mul => x * y
  | .fma => x * y + z
  | .fms => x * y - z
  | .fnma => z - x * y

/-- R132–R134: VADD, VSUB, VMUL, VFMA, VFMS, VFNMA. -/
def vArith (op : ArithOp) (env : VEnv) (a b d : VReg) : VOut :=
  let w := env.t.lw
  vmap env fun e =>
    match env.t.float?, env.t.int? with
    | some f, _ =>
      f.round env.mode env.sat (exactSum env.mode
        (op.terms (f.decode (elemOf w a e)) (f.decode (elemOf w b e)) (f.decode (elemOf w d e))))
    | none, some s =>
      wrapOrSat env.sat s w (op.int (elemInt s w (elemOf w a e)) (elemInt s w (elemOf w b e)) (elemInt s w (elemOf w d e)))
    | none, none => (0, 0#6)

/-- Minimum or maximum of two elements (R135). -/
def minMaxElem (t : ElemT) (isMax : Bool) (x y : Nat) : Nat × Flags :=
  match t.float?, t.int? with
  | some f, _ =>
    let vx := f.decode x
    let vy := f.decode y
    match vx.cmp vy with
    | none => (f.qnan, if vx.raisesIV || vy.raisesIV then fIV else 0#6)
    | some .lt => (if isMax then y else x, 0#6)
    | some .gt => (if isMax then x else y, 0#6)
    | some .eq =>
      -- equal values are equal bits except for the two zeros
      if vx.isZero then (if isMax then (if vx.isNeg then y else x) else (if vx.isNeg then x else y), 0#6) else (x, 0#6)
  | none, some s =>
    let lt := decide (elemInt s t.bits x < elemInt s t.bits y)
    (if isMax then (if lt then y else x) else (if lt then x else y), 0#6)
  | none, none => (0, 0#6)

/-- R135: VMIN and VMAX. -/
def vMinMax (isMax : Bool) (env : VEnv) (a b : VReg) : VOut :=
  let w := env.t.lw
  vmap env fun e => minMaxElem env.t isMax (elemOf w a e) (elemOf w b e)

/-- R134: VABS. -/
def vAbs (env : VEnv) (a : VReg) : VOut :=
  let w := env.t.lw
  vmap env fun e =>
    let x := elemOf w a e
    match env.t.int? with
    | some true => wrapOrSat env.sat true w ((sInt w x).natAbs : Int)
    | some false => (x, 0#6)
    | none => (x % 2 ^ (w - 1), 0#6)

/-- R134: VNEG. -/
def vNeg (env : VEnv) (a : VReg) : VOut :=
  let w := env.t.lw
  vmap env fun e =>
    let x := elemOf w a e
    match env.t.int? with
    | some s => wrapOrSat env.sat s w (-(elemInt s w x))
    | none => ((x + 2 ^ (w - 1)) % 2 ^ w, 0#6)

/-- One compare of R137. -/
def cmpElem (t : ElemT) (cond : BitVec 3) (x y : Nat) : Bool × Flags :=
  let (o, fl) : Option Ordering × Flags :=
    match t.float?, t.int? with
    | some f, _ =>
      let vx := f.decode x
      let vy := f.decode y
      (vx.cmp vy, if vx.raisesIV || vy.raisesIV then fIV else 0#6)
    | none, some s =>
      let a := elemInt s t.bits x
      let b := elemInt s t.bits y
      (some (if a < b then .lt else if a = b then .eq else .gt), 0#6)
    | none, none => (none, 0#6)
  let r := match cond.toNat with
    | 0 => o == some .eq
    | 1 => o != some .eq
    | 2 => o == some .lt
    | 3 => o == some .lt || o == some .eq
    | 4 => o == some .gt
    | 5 => o == some .gt || o == some .eq
    | 6 => o == none
    | _ => o != none
  (r, fl)

/-- A mask from a test of each lane. -/
def maskOf (f : Nat → Bool) : Mask :=
  BitVec.ofNat 128 (packCodes 1 ((List.range 128).map fun i => if f i then 1 else 0))

/-- R137: VCMP's lane bits and flags; `any` is FN[3]. -/
def vCmp (env : VEnv) (cond : BitVec 3) (any : Bool) (a b : VReg) : Mask × Flags :=
  let w := env.t.lw
  let k := 32 / w
  let res := fun (i : Nat) => (List.range k).map fun j =>
    cmpElem env.t cond (elemOf w a (k * i + j)) (elemOf w b (k * i + j))
  let m := maskOf fun i => if any then (res i).any (·.1) else (res i).all (·.1)
  (m, orFlags ((List.range 128).map fun i =>
    if env.pred.getLsbD i then orFlags ((res i).map (·.2)) else 0#6))

/-- R138: VSEL by lane bits of `m` (an element of c32 follows its even lane, R127's L(e)). -/
def vSel (env : VEnv) (m : Mask) (a b : VReg) : VOut :=
  let sel := typeLanes env.t m
  let w := env.t.lw
  vmap env fun e => (if sel.getLsbD (laneOf w e) then elemOf w a e else elemOf w b e, 0#6)

/-- R139: the transcendental functions. -/
def vTransc (fn : TFun) (env : VEnv) (a : VReg) : VOut :=
  let w := env.t.lw
  vmap env fun e =>
    match env.t.float? with
    | some f => transc fn f env.mode env.sat (elemOf w a e)
    | none => (0, 0#6)

/-- R140: VCVT into part `q`. -/
def vCvt (env : VEnv) (ts : ElemT) (q : Nat) (a : VReg) : VOut :=
  let wd := env.t.bits
  let ws := ts.bits
  let nd := nElems wd
  let ns := nElems ws
  let nsub := fmteNsub env.fmte
  let conv := fun (src : Nat) => env.t.ofValue nsub env.mode env.sat (ts.readValue nsub (elemOf ws a src))
  let base := if wd < ws then q * ns else 0
  let cnt := if wd < ws then ns else nd
  let srcBase := if ws < wd then q * nd else 0
  let part := maskOf fun i => decide (laneOf wd base ≤ i ∧ i < laneOf wd base + cnt * wd / 32)
  let lanes := env.pred &&& part
  let rs := (List.range cnt).map fun e =>
    let r := conv (srcBase + e)
    (r.1, if lanes.getLsbD (laneOf wd (base + e)) then r.2 else 0#6)
  { val := packElems wd (List.replicate base 0 ++ rs.map (·.1)), lanes := lanes, flags := orFlags (rs.map (·.2)) }

/-- R141: the eight packed blocks of the f32 vector `a`. -/
def packBlocks (env : VEnv) (a : VReg) : List (List Nat × Nat × Flags) :=
  (List.range 8).map fun k =>
    bxPack env.fmte env.t.bxW ((List.range 16).map fun i => FFmt.f32.decode (elemOf 32 a (16 * k + i)))

/-- Whether a lane of block `k` of a VPACKBX is written (R52, R141; assumption 83): the lanes of its codes, or of its scale word. -/
def blockWritten (scale : Bool) (bk s : Nat) (lanes : Mask) (k : Nat) : Bool :=
  let lo := if scale then 4 * s + k / 2 else 2 * bk * s + bk / 4 * k
  (List.range (if scale then 1 else bk / 4)).any fun i => lanes.getLsbD (lo + i)
/-- R141: VPACKBX. The flags are those of the blocks with at least one written lane. -/
def vPackBx (env : VEnv) (scale : Bool) (s : Nat) (a : VReg) : VOut :=
  let bl := packBlocks env a
  let bk := 2 * (env.t.bxW + 1)
  let w := env.t.bxW + 1
  let img : Nat :=
    if scale then packCodes 16 (bl.map (·.2.1)) * 2 ^ (8 * 16 * s)
    else packCodes (16 * w) (bl.map fun b => packCodes w b.1) * 2 ^ (8 * (8 * bk * s))
  let lo := if scale then 4 * s else 2 * bk * s
  let cnt := if scale then 4 else 2 * bk
  let lanes := env.pred &&& maskOf fun i => decide (lo ≤ i ∧ i < lo + cnt)
  { val := BitVec.ofNat 4096 img, lanes := lanes,
    flags := orFlags (bl.zipIdx.map fun b => if blockWritten scale bk s lanes b.2 then b.1.2.2 else 0#6) }

/-- R142: VUNPBX. -/
def vUnpBx (env : VEnv) (s : Nat) (a b : VReg) : VOut :=
  let w := env.t.bxW
  let bk := 2 * (w + 1)
  let vals := (List.range 8).flatMap fun k =>
    bxUnpack (fmteBxrc env.fmte) w (natBits a.toNat (8 * (8 * bk * s + bk * k)) (8 * bk))
      (natBits b.toNat (8 * (16 * s + 2 * k)) 16)
  { val := packElems 32 (vals.map fun v => (FFmt.f32.round .rne false v).1), lanes := env.pred, flags := 0#6 }

/-- R136: VMULH. -/
def vMulH (env : VEnv) (a b : VReg) : VOut :=
  let w := env.t.lw
  let s := env.t.int? == some true
  vmap env fun e => (intBits w (elemInt s w (elemOf w a e) * elemInt s w (elemOf w b e) / ((2 ^ w : Nat) : Int)), 0#6)

/-- R143: VSHL. -/
def vShl (env : VEnv) (a b : VReg) : VOut :=
  let w := env.t.lw
  let s := env.t.int? == some true
  vmap env fun e => wrapOrSat env.sat s w (elemInt s w (elemOf w a e) * ((2 ^ (elemOf w b e % w) : Nat) : Int))
/-- R143: VSHR. -/
def vShr (env : VEnv) (a b : VReg) : VOut :=
  let w := env.t.lw
  vmap env fun e => (elemOf w a e / 2 ^ (elemOf w b e % w), 0#6)
/-- R143: VSRA. -/
def vSra (env : VEnv) (a b : VReg) : VOut :=
  let w := env.t.lw
  vmap env fun e => (intBits w (sInt w (elemOf w a e) / ((2 ^ (elemOf w b e % w) : Nat) : Int)), 0#6)
/-- R144: VFSHL. -/
def vFshl (env : VEnv) (a b d : VReg) : VOut :=
  let w := env.t.lw
  vmap env fun e => (natBits ((elemOf w d e * 2 ^ w + elemOf w a e) * 2 ^ (elemOf w b e % w)) w w, 0#6)
/-- R144: VFSHR. -/
def vFshr (env : VEnv) (a b d : VReg) : VOut :=
  let w := env.t.lw
  vmap env fun e => (natBits ((elemOf w a e * 2 ^ w + elemOf w d e) / 2 ^ (elemOf w b e % w)) 0 w, 0#6)

/-- R145: the three-input table applied bit by bit. -/
def vTlog (env : VEnv) (tbl : BitVec 8) (a b d : VReg) : VOut :=
  let sel := fun (k : Nat) (x y z : VReg) => if tbl.getLsbD k then x &&& y &&& z else 0#4096
  let r := sel 0 (~~~d) (~~~a) (~~~b) ||| sel 1 (~~~d) (~~~a) b ||| sel 2 (~~~d) a (~~~b) ||| sel 3 (~~~d) a b |||
    sel 4 d (~~~a) (~~~b) ||| sel 5 d (~~~a) b ||| sel 6 d a (~~~b) ||| sel 7 d a b
  { val := r, lanes := typeLanes env.t env.pred, flags := 0#6 }

/-- R146: VPOPC and VCLZ. -/
def vPopc (env : VEnv) (a : VReg) : VOut :=
  let w := env.t.lw
  vmap env fun e => (popCount w (elemOf w a e), 0#6)
def vClz (env : VEnv) (a : VReg) : VOut :=
  let w := env.t.lw
  vmap env fun e => (leadingZeros w (elemOf w a e), 0#6)

/-- R147: VMOV. -/
def vMov (env : VEnv) (a : VReg) : VOut := { val := a, lanes := typeLanes env.t env.pred, flags := 0#6 }

/-- Element `i` of the type's own element count, as a block of `t.bits` bits (64 for c32). -/
def vPermute (env : VEnv) (a : VReg) (idx : Nat → Nat) : VOut :=
  let w := env.t.bits
  let n := nElems w
  { val := packElems w ((List.range n).map fun e => elemOf w a (idx e % n)), lanes := typeLanes env.t env.pred,
    flags := 0#6 }
/-- R148: VPERM; `hi` is FN[0]. The index of a c32 element is its even lane. -/
def vPerm (env : VEnv) (hi : Bool) (a b : VReg) : VOut :=
  vPermute env a fun e =>
    (if env.t = .c32 then elemOf 32 b (2 * e) else elemOf env.t.bits b e) + (if hi then 256 else 0)
/-- R149: VROT by an integer count. -/
def vRot (env : VEnv) (k : Int) (a : VReg) : VOut :=
  let n := nElems env.t.bits
  vPermute env a fun e => (((e : Int) + k) % (n : Int)).toNat
/-- R150: VIOTA. -/
def vIota (env : VEnv) (a b : VReg) : VOut :=
  let w := env.t.lw
  let s := env.t.int? == some true
  vmap env fun e => wrapOrSat env.sat s w (elemInt s w (elemOf w a e) + elemInt s w (elemOf w b e) * (e : Int))

/-- The reduction of a list of elements (R151): `op` is FN[3:2]. -/
def reduceElems (env : VEnv) (op : Nat) (xs : List Nat) : Nat × Flags :=
  match op with
  | 0 =>
    match env.t.float?, env.t.int? with
    | some f, _ => f.round env.mode false (exactSum env.mode (xs.map f.decode))
    | none, some s => wrapOrSat env.sat s env.t.lw ((xs.map (elemInt s env.t.lw)).foldl (· + ·) 0)
    | none, none => (0, 0#6)
  | _ =>
    match env.t.float? with
    | some f =>
      if xs.any (fun x => (f.decode x).isNan) then
        (f.qnan, if xs.any (fun x => (f.decode x).raisesIV) then fIV else 0#6)
      else (xs.tail.foldl (fun m x => (minMaxElem env.t (op == 2) m x).1) (xs.headD 0), 0#6)
    | none => (xs.tail.foldl (fun m x => (minMaxElem env.t (op == 2) m x).1) (xs.headD 0), 0#6)

/-- R151: VRED. Flags are raised once if any element is written. -/
def vRed (env : VEnv) (op : Nat) (a : VReg) : VOut :=
  let w := env.t.lw
  let lanes := typeLanes env.t env.pred
  if env.t = .c32 then
    let re := reduceElems env op ((List.range 64).map fun j => elemOf 32 a (2 * j))
    let im := reduceElems env op ((List.range 64).map fun j => elemOf 32 a (2 * j + 1))
    { val := packElems 64 (List.replicate 64 (re.1 + 2 ^ 32 * im.1)), lanes := lanes,
      flags := if lanes = 0#128 then 0#6 else re.2 ||| im.2 }
  else
    let r := reduceElems env op ((List.range (nElems w)).map (elemOf w a))
    { val := packElems w (List.replicate (nElems w) r.1), lanes := lanes,
      flags := if lanes = 0#128 then 0#6 else r.2 }
/-- R152: VSCAN. -/
def vScan (env : VEnv) (op : Nat) (a : VReg) : VOut :=
  let w := env.t.lw
  vmap env fun e => reduceElems env op ((List.range (e + 1)).map (elemOf w a))

/-- R153: VCMUL with FN's accumulate and conjugate bits. -/
def vCmul (env : VEnv) (acc conj : Bool) (a b d : VReg) : VOut :=
  let v := fun (x : VReg) (i : Nat) => FFmt.f32.decode (elemOf 32 x i)
  vmap env fun e =>
    let j := e / 2
    let rp := v a (2 * j)
    let ip := v a (2 * j + 1)
    let rq := v b (2 * j)
    let iq := if conj then (v b (2 * j + 1)).negate else v b (2 * j + 1)
    let ts := if e % 2 = 0 then [rp.mul rq, (ip.mul iq).negate] else [rp.mul iq, ip.mul rq]
    FFmt.f32.round env.mode env.sat (exactSum env.mode (if acc then ts ++ [v d e] else ts))

/-- R154: VKLOG. -/
def vKlog (fn : BitVec 4) (a b : Mask) : Mask :=
  maskOf fun i => fn.getLsbD ((if a.getLsbD i then 2 else 0) + (if b.getLsbD i then 1 else 0))
/-- R155: VKPOP: the count of one bits, or the lowest one bit's index (128 if none). -/
def vKpop (first : Bool) (a : Mask) : Word :=
  if first then BitVec.ofNat 32 ((firstSet 128 0 a.toNat).getD 128) else BitVec.ofNat 32 (popCount 128 a.toNat)

/-- A float literal's bits in format `f` (R72). -/
def literalFloat (f : FFmt) (c : BitVec 8) : Nat :=
  let neg := c.getLsbD 7
  let e := natBits c.toNat 4 3
  let m := natBits c.toNat 0 4
  if c.toNat % 128 = 0 then f.signBit neg
  else (f.roundFin .rne false neg (16 + m) ((e : Int) - 7)).1

/-- A literal source (R72). -/
def literalSrc (t : ElemT) (c : BitVec 8) : VReg :=
  match t with
  | .c32 => packElems 64 (List.replicate 64 (literalFloat .f32 c))
  | _ =>
    match t.float? with
    | some f => packElems t.bits (List.replicate (nElems t.bits) (literalFloat f c))
    | none => packElems t.bits (List.replicate (nElems t.bits) (intBits t.bits (sInt 8 c.toNat)))

/-- A 32-bit pattern in every lane, or a pair in every two lanes (R71). -/
def broadcast32 (w : Word) : VReg := packElems 32 (List.replicate 128 w.toNat)
def broadcast64 (lo hi : Word) : VReg := packElems 64 (List.replicate 64 (lo.toNat + 2 ^ 32 * hi.toNat))

/-- Merges written lanes into an old image (R128). -/
def mergeLanes (old new : VReg) (lanes : Mask) : VReg :=
  packElems 32 ((List.range 128).map fun i => if lanes.getLsbD i then elemOf 32 new i else elemOf 32 old i)

end Sys2Proof.Machine
end

