-- ==== Sys2Proof/Machine/Operands.lean ====
section
/-!
DEFINITION. Operand forms: results of scalar instructions (R88, R92), address formation and its checks (R74, R158, R285), vector sources
(R71, R72), loads and stores of the scratchpad (R159, R173), the word reads of unsettled lines (R165), and the stalls of R191 and R216.
-/
namespace Sys2Proof.Machine

/-! ### Results -/

def flightAt (c : Core) (a : At) (lat : Nat) (fl : Flags) (w : Landing) : Flight :=
  ⟨c.ic + lat, c.ic + lat, a.slot, a.addr, fl, w⟩
/-- The flight of a scalar result; a write to x0 is discarded (R88), its flags are recorded all the same, and until then it counts as a result in flight for R118
(DESIGN CHOICE, log 123). -/
def xres (c : Core) (a : At) (lat : Nat) (fl : Flags) (d : BitVec 6) (v : Word) : List Flight :=
  [flightAt c a lat fl (if d = 0#6 then .nothing else .xreg d v)]
def xport (c : Core) (lat : Nat) (d : BitVec 6) : List WPort := if d = 0#6 then [] else [⟨c.ic + lat, .x d⟩]
/-- An instruction with one scalar result. -/
def scalarIssue (c : Core) (a : At) (lat : Nat) (reads : List (BitVec 6)) (d : BitVec 6) (v : Word) (fl : Flags) : Issue :=
  { reads := reads, writes := [d], flights := xres c a lat fl d v, wports := xport c lat d }
/-- Both halves of a pair result. -/
def pairRes (c : Core) (a : At) (lat : Nat) (fl : Flags) (d : BitVec 6) (v : DWord) : List Flight :=
  xres c a lat fl d (v.extractLsb' 0 32) ++ xres c a lat 0#6 (oddOf d) (v.extractLsb' 32 32)
def pairPorts (c : Core) (lat : Nat) (d : BitVec 6) : List WPort := xport c lat d ++ xport c lat (oddOf d)
/-- An instruction with a 64-bit pair result. -/
def pairIssue (c : Core) (a : At) (lat : Nat) (reads : List (BitVec 6)) (d : BitVec 6) (v : DWord) : Issue :=
  { reads := reads, writes := [d, oddOf d], flights := pairRes c a lat 0#6 d v, wports := pairPorts c lat d }
/-- A pair's two register numbers. -/
def bothOf (d : BitVec 6) : List (BitVec 6) := [d, oddOf d]
/-- The registers Pair(n) reads. -/
def pairRegs (n : BitVec 5) : List (BitVec 6) := if n = 0#5 then [] else bothOf (n ++ 0#1)

/-! ### Addresses (R74) -/

/-- Where an address lies: global, or an offset in the scratchpad of a package core. -/
inductive Place where
  | glob (va : Nat)
  | loc (core off : Nat)
  deriving DecidableEq, Repr

def addrExc (x : Nat) : Exc := ⟨2, 0, 0, x, 0⟩

/-- CheckAddr for core `n`; none stands for the ADDRESS fault. -/
def checkAddr (s : State) (n : Nat) (x : DWord) : Option Place :=
  let v := x.toNat
  if !x.getLsbD 63 then (if natBits v 56 7 = 0 then some (.glob (v % 2 ^ 56)) else none)
  else
    let f := natBits v 40 6
    let core := if f = 63 then n else 40 * dieOf n + f
    if natBits v 46 17 ≠ 0 ∨ natBits v 32 8 ≠ 0 ∨ (f ≠ 63 ∧ 39 < f) ∨ (s.core core).padSize ≤ v % 2 ^ 32 then none
    else some (.loc core (v % 2 ^ 32))

/-- The address of an L instruction. -/
def eaOf (c : Core) (bp : BitVec 5) (xi : BitVec 6) (imm : BitVec 24) : DWord :=
  c.pairAddr bp + (c.rx xi).signExtend 64 + imm.signExtend 64
def eaRegs (bp : BitVec 5) (xi : BitVec 6) : List (BitVec 6) := xi :: pairRegs bp
/-- The block address of an X instruction: Pair(BP) + 64·P3. -/
def blockAddr (c : Core) (bp : BitVec 5) (p3 : BitVec 16) : DWord := c.pairAddr bp + BitVec.ofNat 64 (64 * p3.toNat)

/-- `len` bytes of the core's own scratchpad at a multiple of `al` (R158, R173). -/
def ownRange (s : State) (n : Nat) (x : DWord) (al len : Nat) : Option Nat :=
  match checkAddr s n x with
  | some (.loc k o) => if k = n ∧ o % al = 0 ∧ o + len ≤ (s.core n).padSize then some o else none
  | _ => none
/-- The same in any core of the die that runs a task of the issuing group (R176, R285). -/
def dieRange (s : State) (n : Nat) (x : DWord) (al len : Nat) : Option (Nat × Nat) :=
  match checkAddr s n x with
  | some (.loc k o) =>
    let t := s.core k
    if o % al = 0 ∧ o + len ≤ t.padSize ∧ t.st ≠ .free ∧ t.gid = (s.core n).gid then some (k, o) else none
  | _ => none
/-- A global address at a multiple of `al`. -/
def globRange (s : State) (n : Nat) (x : DWord) (al : Nat) : Option Nat :=
  match checkAddr s n x with
  | some (.glob a) => if a % al = 0 then some a else none
  | _ => none

/-- TRANSLATION for the first failing page of a range (R178, R390). -/
def transExc (s : State) (n : Nat) (w : Want) (path va len : Nat) : List Exc :=
  match firstFail s (s.core n).ctx w (lineStarts va len) with
  | some (p, cl) => [⟨3, 0, 0, p, transAuxv cl w.kind.code path⟩]
  | none => []

/-- A code target's check (R105). -/
def codeOk (c : Core) (t : DWord) : Bool :=
  t.extractLsb' 56 8 == 0#8 && t.extractLsb' 32 24 == c.cwin.extractLsb' 32 24 && !t.getLsbD 0

/-! ### Reads of unsettled state (R165) -/

/-- The byte a transfer will bring to pool address `p` of a line it fills, as far as it is known. -/
def fillByte (s : State) (f : Fill) (p : Nat) : Option Byte :=
  match f.src with
  | .bytes bs => bs[p % 128]?
  | .cells ws => (ws.find? fun w => w.1 == p).map (·.2)
  | _ => none
/-- One pool byte as a bundle reads it: each aligned word of an unsettled line holds its old value or, by a free choice, the new one. -/
def readPool (s : State) (n : Nat) (p : Nat) : Byte :=
  let c := s.core n
  if c.fills.isEmpty then c.pool.read p
  else match c.fills.find? (fun f => f.line == p / 128 && !f.out) with
    | none => c.pool.read p
    | some f => if Config.freeBit s.fresh (p / 4) then (fillByte s f p).getD (c.pool.read p) else c.pool.read p
def readPad (s : State) (n : Nat) (view : Bool) (o len : Nat) : List Byte :=
  (List.range len).map fun i => readPool s n ((s.core n).padAddr view (o + i))

/-- The array's scratchpad reads of the cycle at hand (R193, R196, R210). -/
def readArrays (s : State) (n : Nat) : State :=
  let c := s.core n
  let (due, rest) := (c.flights.filter (fun f => decide (f.cyc ≤ c.ic)), c.flights.filter (fun f => decide (c.ic < f.cyc)))
  if due.isEmpty then s
  else
    let (c1, more) := due.foldl (fun (p : Core × List Flight) f =>
      let (c', fs) := p.1.readOne (readPad s n) f
      (c', p.2 ++ fs)) ({ c with flights := rest }, [])
    s.setCore n { c1 with flights := more.foldl (fun l g => insertFlight g l) c1.flights }

/-- Data that has come back for a pending register, if byte `i` is among it. -/
def jobByte (j : Job) (i : Nat) : Option Byte := (j.data.find? (fun d => d.1 == i)).map (·.2)
def Core.fillJob (c : Core) (t : WTarget) : Option Job :=
  match c.regFills.find? (fun f => f.2.clash t) with
  | some (id, _) => c.jobs.find? (fun j => j.id == id)
  | none => none
/-- A vector register as a bundle reads it; with a pending fill each lane is the old or, by a free choice, the new one. -/
def readV (s : State) (n : Nat) (r : BitVec 7) : VReg :=
  let c := s.core n
  match c.fillJob (.v r) with
  | none => c.rv r
  | some j =>
    let old := natToBytes 512 (c.rv r).toNat
    -- a lane whose value has come whole
    let came := fun (l : Nat) => (List.range 4).all fun i => (jobByte j (4 * l + i)).isSome
    BitVec.ofNat 4096 (bytesToNat (old.zipIdx.map fun (b, i) =>
      if Config.freeBit s.fresh (i / 4) && came (i / 4) then (jobByte j i).getD b else b))
/-- A mask register as a bundle reads it. -/
def readK (s : State) (n : Nat) (r : BitVec 3) : Mask :=
  let c := s.core n
  match c.fillJob (.k r) with
  | none => c.rk r
  | some j =>
    let en : Mask := match j.kind with
      | .loadK _ en => en
      | _ => BitVec.allOnes 128
    maskOf fun i => match jobByte j (i / 8) with
      | some b => if en.getLsbD i && Config.freeBit s.fresh i then b.getLsbD (i % 8) else (c.rk r).getLsbD i
      | none => (c.rk r).getLsbD i
/-- The write predicate of a PK field as read. -/
def readPred (s : State) (n : Nat) (pk : BitVec 2) : Mask :=
  if pk = 0#2 then BitVec.allOnes 128 else readK s n (pk.setWidth 3)
def predUse (pk : BitVec 2) : List WTarget := if pk = 0#2 then [] else [.k (pk.setWidth 3)]

/-! ### Vector sources (R71, R72) -/

def vIll (c : Core) (r : BitVec 7) : Bool := decide (32 * partVg c.part ≤ r.toNat)
def tileIll (c : Core) (t : Nat) : Bool := decide (4 * partAb c.part ≤ t)

/-- Constant-bank entry `i`. -/
def Core.constAt (c : Core) (i : Nat) : Word := BitVec.ofNat 32 (bytesToNat (slice c.consts (4 * i) 4))

/-- A source's image, by kind and field. -/
def srcVal (s : State) (n : Nat) (t : ElemT) (k : BitVec 2) (f : BitVec 8) : VReg :=
  let c := s.core n
  match k.toNat with
  | 0 => readV s n (f.extractLsb' 0 7)
  | 1 =>
    let r := f.extractLsb' 0 6
    if t = .c32 then broadcast64 (c.rx r) (c.rx (oddOf r)) else broadcast32 (c.rx r)
  | 2 =>
    if t = .c32 then broadcast64 (c.constAt f.toNat) (c.constAt (f.toNat + 1)) else broadcast32 (c.constAt f.toNat)
  | _ => literalSrc t f
def srcRegs (t : ElemT) (k : BitVec 2) (f : BitVec 8) : List (BitVec 6) :=
  if k = 1#2 then (if t = .c32 then bothOf (f.extractLsb' 0 6) else [f.extractLsb' 0 6]) else []
def srcUse (k : BitVec 2) (f : BitVec 8) : List WTarget := if k = 0#2 then [.v (f.extractLsb' 0 7)] else []
def srcIll (c : Core) (k : BitVec 2) (f : BitVec 8) : Bool := k == 0#2 && vIll c (f.extractLsb' 0 7)

/-! ### Stalls of macros on bundle code (R191, R216) -/

/-- The bytes an access touches, as ranges of linear offsets, one for each 64-byte chunk. -/
def linRanges (view : Bool) (o n : Nat) : List (Nat × Nat) :=
  if n = 0 then [] else
  (List.range ((o + n - 1) / 64 - o / 64 + 1)).map fun i =>
    let q := 64 * (o / 64 + i)
    let base := 2048 * (q / 2048) + 64 * bankOf view q
    (base + (Nat.max o q - q), base + (Nat.min (o + n) (q + 64) - q))
/-- Whether an access of the scratchpad touches bytes of a BUSY slot's hull. -/
def Core.hullStall (c : Core) (view : Bool) (o n : Nat) (write : Bool) : Bool :=
  c.slots.toList.any fun m => m.st == .busy && (linRanges view o n).any fun r =>
    (decide (r.1 < m.whi) && decide (m.wlo < r.2)) || (write && decide (r.1 < m.rhi) && decide (m.rlo < r.2))
/-- Whether a tile is OWNED by a BUSY macro (R188). -/
def Core.tileOwned (c : Core) (t : Nat) : Bool := (c.tileInfo t).owner.isSome

/-! ### Register data of L instructions (R173) -/

/-- Bytes an SZ code moves. -/
def szBytes (sz : BitVec 3) : Nat :=
  match sz.toNat with
  | 0 => 1 | 1 => 2 | 2 => 4 | 3 => 8 | 4 => 512 | _ => 16
def isScalarSz (sz : BitVec 3) : Bool := decide (sz.toNat ≤ 3)
def lReg (o : LOps) : BitVec 6 := o.d.extractLsb' 0 6
/-- The scalar registers a data operand names. -/
def dataRegs (o : LOps) : List (BitVec 6) :=
  if o.sz = 3#3 then bothOf (lReg o) else if isScalarSz o.sz then [lReg o] else []
def dataUse (o : LOps) : List WTarget :=
  if o.sz = 4#3 then [.v o.d] else if o.sz = 5#3 then [.k (o.d.extractLsb' 0 3)] else []
def dataIll (c : Core) (o : LOps) : Option Nat := if o.sz = 4#3 ∧ vIll c o.d then some 7 else none

/-- The bytes a store moves, and which are enabled. -/
def storeBytes (s : State) (n : Nat) (o : LOps) : List Byte × List Bool :=
  let c := s.core n
  match o.sz.toNat with
  | 0 => (natToBytes 1 (c.rx (lReg o)).toNat, [true])
  | 1 => (natToBytes 2 (c.rx (lReg o)).toNat, List.replicate 2 true)
  | 2 => (natToBytes 4 (c.rx (lReg o)).toNat, List.replicate 4 true)
  | 3 => (natToBytes 8 (c.rpair (lReg o)).toNat, List.replicate 8 true)
  | 4 =>
    let p := readPred s n o.pk
    (natToBytes 512 (readV s n o.d).toNat, (List.range 512).map fun i => p.getLsbD (i / 4))
  | _ =>
    let p := readPred s n o.pk
    (natToBytes 16 (readK s n (o.d.extractLsb' 0 3)).toNat,
      (List.range 16).map fun i => decide (natBits p.toNat (8 * i) 8 ≠ 0))


/-- A loaded scalar, extended as SZ and AUX say. -/
def loadWord (o : LOps) (bs : List Byte) : Word :=
  let v := bytesToNat bs
  let w := 8 * szBytes o.sz
  if o.aux.getLsbD 0 then BitVec.ofNat 32 (intBits 32 (sInt w v)) else BitVec.ofNat 32 v
/-- The results of a fixed-latency load. -/
def loadFlights (s : State) (a : At) (lat : Nat) (o : LOps) (bs : List Byte) : List Flight :=
  let c := s.core a.n
  match o.sz.toNat with
  | 3 => pairRes c a lat 0#6 (lReg o) (BitVec.ofNat 64 (bytesToNat bs))
  | 4 => [flightAt c a lat 0#6 (.vreg o.d (BitVec.ofNat 4096 (bytesToNat bs)) (readPred s a.n o.pk))]
  | 5 => [flightAt c a lat 0#6 (.kreg (o.d.extractLsb' 0 3) (BitVec.ofNat 128 (bytesToNat bs)) (readPred s a.n o.pk))]
  | _ => xres c a lat 0#6 (lReg o) (loadWord o bs)
def loadPorts (c : Core) (lat : Nat) (o : LOps) : List WPort :=
  match o.sz.toNat with
  | 3 => pairPorts c lat (lReg o)
  | 4 => [⟨c.ic + lat, .v o.d⟩]
  | 5 => [⟨c.ic + lat, .k (o.d.extractLsb' 0 3)⟩]
  | _ => xport c lat (lReg o)

/-! ### Scratchpad accesses of the L slot -/

/-- The enabled bytes of a store as pool cells. -/
def storeCells (s : State) (n : Nat) (view : Bool) (off : Nat) (o : LOps) : List (Nat × Byte) :=
  let c := s.core n
  let (bs, en) := storeBytes s n o
  ((List.range bs.length).zip (bs.zip en)).filterMap fun (i, b, e) => if e then some (c.padAddr view (off + i), b) else none
/-- A store's landing: a mask store writes the enabled bits of its bytes (R173). -/
def storeLanding (s : State) (n : Nat) (view : Bool) (off : Nat) (o : LOps) : Landing :=
  if o.sz = 5#3 then
    let c := s.core n
    let p := (readPred s n o.pk).toNat
    .poolBits ((storeBytes s n o).1.zipIdx.map fun w => (c.padAddr view (off + w.2), w.1, BitVec.ofNat 8 (natBits p (8 * w.2) 8)))
  else .pool (storeCells s n view off o)

def lBank (c : Core) (cyc : Nat) (view : Bool) (off n : Nat) (write : Bool) (code chunk : Nat) : BankUse :=
  ⟨c.ic + cyc, bankSet view off n, write, code, chunk⟩

end Sys2Proof.Machine
end

