-- ==== Sys2Proof/Machine/Solo.lean ====
section
/-!
DEFINITION. A core's turn in one die cycle: waits between bundles (R94, R183, R248, R352, R353), the end of a task (R124), and the bundle
that holds one instruction alone, which is how `exec` gives an instruction its meaning.
-/
namespace Sys2Proof.Machine

/-! ### Class and slot of an instruction -/

/-- The slot an instruction takes (R60), and its length in parcels (R58); a device step has neither. -/
def slotOfRaw : Raw → Slot
  | .s .. => .s
  | .sl .. => .s
  | .v .. => .v0
  | .m .. => .m
  | .l .. => .l
  | .x .. => .x
  | .y .. => .s
def slotOf (i : Instr) : Slot := (i.raw.map slotOfRaw).getD .s
def lenOf (i : Instr) : Nat := ((i.raw.map (Raw.words true)).getD []).length

/-! ### Conditions that waits look at -/

/-- Whether an access of the LSU path counts for SYNC's acknowledgment (R352). -/
def AccOp.isStore : AccOp → Bool
  | .write => true
  | .amo .. => true
  | .enq => true
  | .deq => true
  | _ => false
def State.lsuDone (s : State) (n : Nat) : Bool :=
  !(s.accesses.any fun a => a.core == n && a.path == .lsu && a.op.isStore) && !((s.core n).remotes.any (·.store))

def JobKind.isFe : JobKind → Bool
  | .fetch .. => true
  | .wback .. => true
  | _ => false
def Core.feBusy (c : Core) : Bool := c.jobs.any fun j => j.kind.isFe
def Core.channelBusy (c : Core) (t : BitVec 2) : Bool :=
  c.copies.any (fun k => k.tag == t) || c.tables.any (fun k => k.tag == t && !k.entries.isEmpty)
def Core.anyChannel (c : Core) : Bool := !c.copies.isEmpty || c.tables.any (fun k => !k.entries.isEmpty)
def Core.slotAt (c : Core) (t : BitVec 2) : MSlot := c.slots[t.toNat]'t.isLt
def Core.setSlot (c : Core) (t : Nat) (m : MSlot) : Core := { c with slots := c.slots.setIfInBounds t m }
def Core.anyBusy (c : Core) : Bool := c.slots.toList.any fun m => m.st == .busy

/-- FWAIT's conditions (R183). The offsets of `fwait xd:xd+1` name lines of the linear view, as FWAIT names no view (DESIGN CHOICE, log 125). -/
def fwaitReady (c : Core) (all : Bool) (off len : Nat) : Bool :=
  if all then !c.feBusy && !(c.lands.toList.any (·.armed)) && c.regFills.isEmpty
  else (c.padLines false off len).all fun l => !c.lineIn l.1 && !c.lineOut l.1
/-- MWAIT's condition (R248). -/
def mwaitReady (c : Core) (all : Bool) (tag : BitVec 2) : Bool :=
  if all then !c.anyBusy && !c.anyChannel else (c.slotAt tag).st != .busy && !c.channelBusy tag
/-- END's conditions (R124). -/
def endReady (s : State) (n : Nat) : Bool :=
  let c := s.core n
  !c.anyBusy && !c.anyChannel && !c.feBusy && !(c.remotes.any (·.store)) &&
    !(s.accesses.any fun a => a.core == n && (match a.op with
      | .read => false
      | .barw => false
      | .fence .. => false
      | .xfence .. => false
      | _ => true))

/-- The writer paths a macro's work uses, by its opcode (R214). -/
def pathsOfOp (op : Nat) : List Path :=
  if op = 6 then [.gu] else if op = 0x13 then [.lk] else if op = 8 ∨ 0x11 ≤ op then [.sq, .lk] else [.sq]
/-- The race detector's part of XFENCE p, q (R185, R376, R377). -/
def State.xfenceCount (s : State) (core : Nat) (p q : Path) : State :=
  match agentOf core p with
  | some w => (s.release w).passCount core p q
  | none => s
/-- The acquire of MWAIT.acq: each path the waited-for work used, to LSU (R248, R377). -/
def mwaitAcquire (s : State) (n : Nat) (all : Bool) (tag : BitVec 2) : State :=
  let c := s.core n
  let ms := if all then c.slots.toList else [c.slotAt tag]
  (ms.filter (fun m => m.reason ≠ 0)).foldl
    (fun s m => (pathsOfOp m.op).foldl (fun s p => s.xfenceCount n p .lsu) s) s
/-- The first halted slot MWAIT waited for. -/
def haltedSlot (c : Core) (all : Bool) (tag : BitVec 2) : Option (Nat × MSlot) :=
  let ts := if all then [0, 1, 2, 3] else [tag.toNat]
  ts.findSome? fun t => match c.slots[t]? with
    | some m => if m.st = .halted then some (t, m) else none
    | none => none

/-- A task's pin or re-pin by one atomic, an acquire for the task (R330); the answer of another package is still to come. -/
def pinRef (s : State) (n : Nat) (u : RefUse) : State :=
  let c := s.core n
  match refKey s c.ctx c.refa with
  | none => sendRecord s c.ctx (refRecord s n c (c.group.toNat / 2 ^ 16))
  | some k =>
    if keyTier k = 3 then askRef s n c.gid c.ctx c.refa k u
    else
      let (s1, v) := refAtomic s k u
      (s1.acquire n 0 scDev (s.tagOf (k / 128))).modCore n fun c => { c with parity := v.testBit 63 }
/-- The re-pin of the reference word when WAITQ wakes or returns at call depth 0 (R330). The task waits for the answer of another package. -/
def repin (s : State) (n : Nat) : State :=
  let c := s.core n
  if c.refa = 0 ∨ c.depth ≠ 0 then s
  else
    let s1 := pinRef s n (.repin c.parity)
    if s1.refUnder n c.gid then s1.modCore n fun c => { c with waits := .ref :: c.waits } else s1

/-! ### The end of a task (R124, R334) -/

/-- Whether an issue-side scratchpad write is still to be made (R352): it is made in the cycle before it is seen. -/
def drainLeft (c : Core) : Bool := decide (c.ic < drainTo c.flights)

/-- A group whose tasks have all ended leaves the device and counts for its packet. -/
def State.groupDone (s : State) (g : Nat) : State :=
  match Tab.get? s.groups g with
  | none => s
  | some gr =>
    settleSuspend (({ s with groups := Tab.erase s.groups g
                             aging := s.aging.map fun a => if a = some g then none else a } : State).modQueue gr.queue fun q =>
      { q with packets := q.packets.map fun p => if p.idx = gr.packet then { p with groups := p.groups - 1 } else p }) gr.ctx

/-- Whether a flight writes the scratchpad: a store, or a BFLY or BFCH with one. -/
def Flight.isStore (f : Flight) : Bool :=
  match f.what with
  | .pool _ => true
  | .poolBits _ => true
  | .bfly j => j.store.isSome
  | _ => false
/-- One cycle of the stores left: a butterfly's result lands in no tile, only its image is stored. -/
def drainCycle (s : State) (n : Nat) : State :=
  ((readArrays s n).modCore n fun c => { c with pool := (s.core n).pool }).modCore n (Core.advance s.fresh)
/-- The issue-side scratchpad writes still to come are made; no pipe is left to carry anything else (R124). -/
def drainOut (s : State) (n : Nat) : Nat → State
  | 0 => s
  | k + 1 => if drainLeft (s.core n) then drainOut (drainCycle s n) n k else s
/-- The task on core `n` becomes ENDED by END: its stores to the scratchpad are made, its other results are discarded before they reach a register or tile
(R124; log 102). -/
def finishTask (s0 : State) (n : Nat) : State :=
  let s := drainOut (s0.modCore n fun c => { c with flights := c.flights.filter Flight.isStore }) n 256
  let c := s.core n
  let (s1, ok) := endMember s n
  let s2 := if ok then s1 else sendRecord s1 c.ctx (refRecord s n c (c.group.toNat / 2 ^ 16))
  let s3 := s2.modGroup c.gid fun g =>
    { g with ended := g.ended ++ [c.tidx], endCnt := g.endCnt.setCount c.tidx (s2.rct.count (5 * n)), endDie := s.dieCycle (dieOf n) }
  match Tab.get? s3.groups c.gid with
  | some g => if g.ended.length = g.size then s3.groupDone c.gid else s3
  | none => s3

/-! ### Waits -/

def popWait (s : State) (n : Nat) : State := s.modCore n fun c => { c with waits := c.waits.tail }

/-- What a SYNC arrival leaves for the completion to acquire (R377): its own count. -/
def arriveCount (s : State) (n : Nat) : State :=
  s.modCore n fun c => { c with acq := c.acq.setCount (acqKey 0 (5 * n)) (s.rct.count (5 * n)) }

/-- An FWAIT or MWAIT whose condition holds at the end of a die cycle: the next bundle issues in the cycle after (R183, R248). -/
def Wait.see (c : Core) : Wait → Wait
  | .fwait all off len false => .fwait all off len (fwaitReady c all off len)
  | .mwait all acq tag false => .mwait all acq tag (mwaitReady c all tag)
  | w => w
def Core.seeWaits (c : Core) : Core := { c with waits := c.waits.map (Wait.see c) }

/-- Runs the waits between two bundles as far as they go in this cycle; true when the next bundle may issue. -/
def runWaits : Nat → State → Nat → Bool × State
  | 0, s, _ => (false, s)
  | k + 1, s, n =>
    let c := s.core n
    let stall := (false, s.countCycle n false)
    match c.waits with
    | [] => (true, s)
    | .fwait _ _ _ seen :: _ => if seen then runWaits k (popWait s n) n else stall
    | .waitq _ :: _ =>
      if s.asked c then
        -- a context-fatal record of the re-pin ends the group, and the core has nothing left to run
        let s1 := repin (popWait s n) n
        if (s1.core n).st = .running then runWaits k s1 n else (false, s1)
      else stall
    | .mwait all acq tag seen :: _ =>
      if seen then
        let s1 := popWait (if acq then mwaitAcquire s n all tag else s) n
        match haltedSlot c all tag with
        | some (t, m) => (false, takeFault (s1.countCycle n false) n ⟨17, t * 64 + m.reason, m.done, 0, 0⟩ 0 c.lastB c.pc)
        | none => runWaits k s1 n
      else stall
    | .sync 0 :: ws =>
      if drainLeft c then (false, (s.countCycle n false).modCore n (Core.advance s.fresh))
      else if s.lsuDone n then
        (false, ((arriveCount (s.release (5 * n)) n).countCycle n false).modCore n fun c =>
          { c with waits := .sync 1 :: ws, arrived := true, arriveDie := s.dieCycle (dieOf n), releaseAt := 0 })
      else stall
    | .sync _ :: _ =>
      if c.releaseAt ≠ 0 ∧ c.releaseAt ≤ s.dieCycle (dieOf n) then
        runWaits k ((popWait s n).modCore n fun c => { c with arrived := false, releaseAt := 0, noReq := false }) n
      else stall
    | .drain :: _ =>
      if drainLeft c then (false, (s.countCycle n false).modCore n (Core.advance s.fresh)) else runWaits k (popWait s n) n
    | .ending :: _ => if endReady s n then (false, finishTask (s.countCycle n false) n) else stall
    | .start d :: _ => if d ≤ s.dieCycle (dieOf n) then runWaits k (popWait s n) n else stall
    | .ref :: _ => if s.refUnder n c.gid then stall else runWaits k (popWait s n) n

/-- What a running core does before it issues: a stop owed to an earlier bundle (R99), an empty cycle of LOOPX (R114), its waits, a TRAP whose bundle is
done (R123), a hold (R278). True when the cycle is spent. -/
def beforeIssue (s0 : State) (n : Nat) : Bool × State :=
  let s := readArrays s0 n
  let c := s.core n
  match c.owed with
  | _ :: _ => (true, takeOwed (s.countCycle n false) n)
  | [] =>
    if c.empty ≠ 0 then
      (true, (s.countCycle n true).modCore n fun c => { c.advance s.fresh with empty := c.empty - 1 })
    else
      let (go, s1) := runWaits 8 s n
      if !go then (true, s1)
      else if (s1.core n).trapDue.isSome then (true, settleTrap (s1.countCycle n false) n)
      else if (s1.core n).held then (true, s1.countCycle n false)
      else (false, s1)

/-- The bundle that holds instruction `i` alone, issued at the program counter of the core whose turn it is. -/
def runSolo (i : Instr) (op : Op) (s : State) : Host.Outcome State Fault Refusal :=
  let n := s.turn.val
  if (s.core n).st ≠ .running then .fault .noTask
  else
    let (spent, s1) := beforeIssue s n
    if spent then .next s1.tickFresh
    else .next (issueBundle s1 n (s1.core n).pc (lenOf i) [⟨0, slotOf i, op⟩] (i.cause.map fun c => (0, c))).tickFresh

end Sys2Proof.Machine
end

