-- ==== Sys2Proof/Machine/Local.lean ====
section
/-!
DEFINITION. The scratchpad instructions of the L slot (R156–R177).
-/
namespace Sys2Proof.Machine

/-! ### Shared forms -/

/-- A fresh number for a job, an access or a transfer. -/
def State.takeId (s : State) : Nat × State := (s.nextId, { s with nextId := s.nextId + 1 })

/-- The registers a variable-latency load leaves pending (R96, R173): x0 never is. -/
def pendRegs (o : LOps) : List (BitVec 6) := (dataRegs o).filter (· ≠ 0#6)
/-- The job of a variable-latency load into D. -/
def loadKind (s : State) (n : Nat) (o : LOps) : JobKind :=
  match o.sz.toNat with
  | 4 => .loadV o.d (readPred s n o.pk)
  | 5 => .loadK (o.d.extractLsb' 0 3) (readPred s n o.pk)
  | 3 => .loadX (lReg o) o.sz false true
  | _ => .loadX (lReg o) o.sz (o.aux.getLsbD 0) false
/-- Makes D pending for job `id`: a scalar register waits (R96), a vector or mask register has a pending fill (R164). -/
def Core.markPending (c : Core) (o : LOps) (id : Nat) : Core :=
  match o.sz.toNat with
  | 4 => { c with regFills := c.regFills ++ [(id, .v o.d)] }
  | 5 => { c with regFills := c.regFills ++ [(id, .k (o.d.extractLsb' 0 3))] }
  | _ => { c with pend := c.pend ++ (pendRegs o).map fun r => (id, r) }
/-- Which of a load's bytes are enabled. -/
def loadEnables (s : State) (n : Nat) (o : LOps) : List Bool :=
  match o.sz.toNat with
  | 4 => let p := readPred s n o.pk; (List.range 512).map fun i => p.getLsbD (i / 4)
  | 5 => let p := readPred s n o.pk; (List.range 16).map fun i => decide (natBits p.toNat (8 * i) 8 ≠ 0)
  | _ => List.replicate (szBytes o.sz) true

/-! ### Own scratchpad -/

def opSld (o : LOps) : Op := fun s a =>
  let c := s.core a.n
  let view := o.view == 1#1
  let n := szBytes o.sz
  let base : Issue := { reads := eaRegs o.bp o.xi, writes := dataRegs o, ill := dataIll c o }
  match ownRange s a.n (eaOf c o.bp o.xi o.imm) n n with
  | none => { base with excs := [addrExc (eaOf c o.bp o.xi o.imm).toNat] }
  | some off =>
    { base with stall := c.hullStall view off n false,
                flights := loadFlights s a 6 o (readPad s a.n view off n), wports := loadPorts c 6 o,
                banks := [lBank c 0 view off n false 0 0],
                uses := { viewR := [(view, bankSet view off n)], rlines := c.padLines view off n, rregs := predUse o.pk,
                          wregs := dataUse o } }
def opSst (o : LOps) : Op := fun s a =>
  let c := s.core a.n
  let view := o.view == 1#1
  let n := szBytes o.sz
  let base : Issue := { reads := eaRegs o.bp o.xi ++ dataRegs o, ill := dataIll c o }
  match ownRange s a.n (eaOf c o.bp o.xi o.imm) n n with
  | none => { base with excs := [addrExc (eaOf c o.bp o.xi o.imm).toNat] }
  | some off =>
    { base with stall := c.hullStall view off n true,
                flights := [flightAt c a 3 0#6 (storeLanding s a.n view off o)],
                banks := [lBank c 2 view off n true 0 0],
                uses := { viewW := [(view, bankSet view off n)], wlines := c.padLines view off n, rregs := dataUse o ++ predUse o.pk } }

/-- The chunk offsets of SLW and SSW, if all are aligned and inside (R175). -/
def chunkOffs (s : State) (n : Nat) (o : LOps) : Option (List Nat) :=
  let c := s.core n
  match ownRange s n (c.pairAddr o.bp + o.imm.signExtend 64) 1 1 with
  | none => none
  | some off =>
    let cs := (List.range 8).map fun (g : Nat) => (off : Int) + (g : Int) * (c.rx o.xi).toInt
    if cs.all fun x => decide (0 ≤ x) && x % 64 == 0 && decide (x + 64 ≤ (c.padSize : Int)) then some (cs.map Int.toNat) else none
/-- SLW and SSW (R175). -/
def chunkIssue (store : Bool) (o : LOps) : Op := fun s a =>
  let c := s.core a.n
  let view := o.view == 1#1
  let base : Issue := { reads := eaRegs o.bp o.xi, ill := dataIll c o }
  match chunkOffs s a.n o with
  | none => { base with excs := [addrExc (c.pairAddr o.bp + o.imm.signExtend 64).toNat] }
  | some cs =>
    let banks := cs.zipIdx.map fun (q, g) => lBank c (if store then 2 else 0) view q 64 store 2 g
    let stall := cs.any fun q => c.hullStall view q 64 store
    let flags := cs.foldl (fun m q => m ||| bankSet view q 64) 0#32
    let lines := cs.flatMap fun q => c.padLines view q 64
    let p := readPred s a.n o.pk
    if store then
      let img := natToBytes 512 (readV s a.n o.d).toNat
      let cells := cs.zipIdx.flatMap fun (q, g) => (List.range 64).filterMap fun i =>
        if p.getLsbD (16 * g + i / 4) then some (c.padAddr view (q + i), img.getD (64 * g + i) 0#8) else none
      { base with stall := stall, banks := banks, flights := [flightAt c a 3 0#6 (.pool cells)],
                  uses := { viewW := [(view, flags)], wlines := lines, rregs := dataUse o ++ predUse o.pk } }
    else
      let bs := cs.flatMap fun q => readPad s a.n view q 64
      { base with stall := stall, banks := banks, wports := [⟨c.ic + 6, .v o.d⟩],
                  flights := [flightAt c a 6 0#6 (.vreg o.d (BitVec.ofNat 4096 (bytesToNat bs)) p)],
                  uses := { viewR := [(view, flags)], rlines := lines, rregs := predUse o.pk, wregs := dataUse o } }
def opSlw (o : LOps) : Op := chunkIssue false o
def opSsw (o : LOps) : Op := chunkIssue true o

/-- The atomic operations of R177 on `w`-bit values: the new value and its flags. -/
def amoNew (aux : BitVec 2) (w old v cmp : Nat) : Nat × Flags :=
  match aux.toNat with
  | 0 => ((old + v) % 2 ^ w, 0#6)
  | 1 => (v, 0#6)
  | 2 =>
    let (r, f) := satS (sInt w old + sInt w v) w
    (intBits w r, f)
  | _ => (if old = cmp then v else old, 0#6)
/-- The registers SAMO and GAMO read: D, and the comparand of CAS. -/
def amoRegs (o : LOps) : List (BitVec 6) :=
  dataRegs o ++ (if o.aux = 3#2 then (if o.sz = 3#3 then bothOf (lReg o + 2#6) else [lReg o + 1#6]) else [])
def amoVal (c : Core) (o : LOps) : Nat := if o.sz = 3#3 then (c.rpair (lReg o)).toNat else (c.rx (lReg o)).toNat
def amoCmp (c : Core) (o : LOps) : Nat := if o.sz = 3#3 then (c.rpair (lReg o + 2#6)).toNat else (c.rx (lReg o + 1#6)).toNat

/-- SAMO (R177): the word is read and written as one step, and its bank held in cycles 0 to 2. -/
def opSamo (o : LOps) : Op := fun s a =>
  let c := s.core a.n
  let view := o.view == 1#1
  let n := szBytes o.sz
  let base : Issue := { reads := eaRegs o.bp o.xi ++ amoRegs o, writes := dataRegs o }
  match ownRange s a.n (eaOf c o.bp o.xi o.imm) n n with
  | none => { base with excs := [addrExc (eaOf c o.bp o.xi o.imm).toNat] }
  | some off =>
    let old := bytesToNat (readPad s a.n view off n)
    let (new, fl) := amoNew o.aux (8 * n) old (amoVal c o) (amoCmp c o)
    let res := if o.sz = 3#3 then pairRes c a 6 fl (lReg o) (BitVec.ofNat 64 old) else xres c a 6 fl (lReg o) (BitVec.ofNat 32 old)
    { base with stall := c.hullStall view off n true,
                flights := [flightAt c a 1 0#6 (.pool (c.padCells view off (natToBytes n new))), flightAt c a 3 0#6 (.pool [])] ++ res,
                wports := loadPorts c 6 o,
                banks := [lBank c 0 view off n false 3 0, lBank c 1 view off n false 3 0, lBank c 1 view off n true 3 0,
                          lBank c 2 view off n false 3 0, lBank c 2 view off n true 3 0],
                uses := { viewR := [(view, bankSet view off n)], viewW := [(view, bankSet view off n)],
                          rlines := c.padLines view off n, wlines := c.padLines view off n } }

/-! ### Other cores of the die (R176) -/

/-- SLDX (R176). At its target it is a background requester, so the checks of SYS.ERC, which are on a bundle's own accesses, do not look at the lines it or SSTX
touches there (DEDUCED, log 126); an unsettled line is read by R165. -/
def opSldx (o : LOps) : Op := fun s a =>
  let c := s.core a.n
  let view := o.view == 1#1
  let n := szBytes o.sz
  let base : Issue := { reads := eaRegs o.bp o.xi, writes := dataRegs o, ill := dataIll c o }
  match dieRange s a.n (eaOf c o.bp o.xi o.imm) n n with
  | none => { base with excs := [addrExc (eaOf c o.bp o.xi o.imm).toNat] }
  | some (k, off) =>
    { base with cancels := pendRegs o, uses := { rregs := predUse o.pk, wregs := dataUse o },
                eff := fun s' =>
                  let (id, s1) := s'.takeId
                  s1.modCore a.n fun c' =>
                    { c'.markPending o id with
                      jobs := c'.jobs ++ [⟨id, loadKind s a.n o, a.addr, []⟩]
                      remotes := c'.remotes ++ [⟨id, id, k, false, view, off, [], loadEnables s a.n o, n, false⟩] } }
def opSstx (o : LOps) : Op := fun s a =>
  let c := s.core a.n
  let view := o.view == 1#1
  let n := szBytes o.sz
  let base : Issue := { reads := eaRegs o.bp o.xi ++ dataRegs o, ill := dataIll c o }
  match dieRange s a.n (eaOf c o.bp o.xi o.imm) n n with
  | none => { base with excs := [addrExc (eaOf c o.bp o.xi o.imm).toNat] }
  | some (k, off) =>
    let (bs, en) := storeBytes s a.n o
    -- a mask store carries its bit enables beside the bytes
    let bits := if o.sz = 5#3 then natToBytes 16 (readPred s a.n o.pk).toNat else []
    { base with uses := { rregs := dataUse o ++ predUse o.pk },
                eff := fun s' =>
                  let (id, s1) := s'.takeId
                  let s2 := s1.modCore a.n fun c' =>
                    { c' with remotes := c'.remotes ++ [⟨id, id, k, true, view, off, bs ++ bits, en, n, false⟩] }
                  s2.modCore k fun t =>
                    let new := if o.sz = 5#3 then .unknown else .cells (((t.padCells view off bs).zip en).filterMap fun p => if p.2 then some p.1 else none)
                    { t with fills := t.fills ++ (t.padLines view off n).map fun l => ⟨id, l.1, false, .sstx, new, [], false⟩ } }

/-- VJOIN (R163): the flags are cleared before the bundle's own reads are checked and its writes set theirs. -/
def opVjoin : Op := fun _ _ => { vjoin := true }

/-! ### Meanings -/

def execSld (o : LOps) (s : State) : Host.Outcome State Fault Refusal := runSolo (.sld o) (opSld o) s
def execSst (o : LOps) (s : State) : Host.Outcome State Fault Refusal := runSolo (.sst o) (opSst o) s
def execSldx (o : LOps) (s : State) : Host.Outcome State Fault Refusal := runSolo (.sldx o) (opSldx o) s
def execSstx (o : LOps) (s : State) : Host.Outcome State Fault Refusal := runSolo (.sstx o) (opSstx o) s
def execSlw (o : LOps) (s : State) : Host.Outcome State Fault Refusal := runSolo (.slw o) (opSlw o) s
def execSsw (o : LOps) (s : State) : Host.Outcome State Fault Refusal := runSolo (.ssw o) (opSsw o) s
def execSamo (o : LOps) (s : State) : Host.Outcome State Fault Refusal := runSolo (.samo o) (opSamo o) s
def execVjoin (s : State) : Host.Outcome State Fault Refusal := runSolo .vjoin opVjoin s

end Sys2Proof.Machine
end

