-- ==== Sys2Proof/Machine/System.lean ====
section
/-!
DEFINITION. The system instructions of the Y class (R90, R91, R117–R125, R183, R346–R352).
-/
namespace Sys2Proof.Machine

/-! ### System registers (R90) -/

/-- SYS.LSTAT (R111). An inactive level reads X and S as zero (DESIGN CHOICE, log 122). -/
def Core.lstat (c : Core) : Nat :=
  (List.range 4).foldl (fun v l =>
    let lp := c.loopAt l
    if lp.active then v + 2 ^ (4 * l) * (8 + (if lp.isX then 4 else 0) + lp.stages.toNat) else v) 0

def slotCode : SlotState → Nat
  | .free => 0 | .busy => 1 | .halted => 2
/-- PR.STAT of a slot (R221). -/
def MSlot.stat (m : MSlot) : Nat :=
  m.op * 2 ^ 58 + m.flx * 2 ^ 55 + natBits m.fmte.toNat 0 15 * 2 ^ 40 + m.td0.toNat * 2 ^ 32 + m.td1.toNat * 2 ^ 24 +
  m.td2.toNat * 2 ^ 16 + slotCode m.st * 2 ^ 14 + m.reason * 2 ^ 8 + (if m.rsm then 2 ^ 7 else 0) + (if m.oob then 2 ^ 6 else 0)
/-- PR register `k` of a slot (R90, R221). -/
def MSlot.pr (m : MSlot) (k : Nat) : Nat :=
  match k with
  | 0 => m.pchk.toNat * 2 ^ 32 + m.done
  | 5 => m.kdone * 2 ^ 24 + m.zcur * 2 ^ 8 + m.kc % 256
  | 6 => m.ostep * 2 ^ 16 + m.on % 256
  | 7 => m.stat
  | k => m.idx.toList.getD (k - 1) 0

/-- The value MFS reads (R121). -/
def sysRead (s : State) (n : Nat) (num : BitVec 12) : DWord :=
  let c := s.core n
  let v := num.toNat
  BitVec.ofNat 64 <|
    if v = 0x000 then c.part.toNat else if v = 0x001 then c.fpc.toNat else if v = 0x002 then c.fmte.toNat
    else if v = 0x003 then c.blzb.toNat else if v = 0x004 then c.erc.toNat else if v = 0x005 then c.phase.toNat
    else if v = 0x006 then s.dieCycle (dieOf n) else if v = 0x007 then (sysCore c.ctx n).toNat
    else if v = 0x008 then c.sysTile.toNat else if v = 0x009 then c.group.toNat else if v = 0x00A then c.cwin.toNat
    else if v = 0x00B then c.ltb.toNat else if v = 0x00C then c.ltn.toNat else if v = 0x00D then c.lstat
    else if v = 0x00E then s.confirm
    else if 0x010 ≤ v ∧ v ≤ 0x015 then (c.xs.toList.getD (v - 0x010) 0#6).toNat
    else if 0x020 ≤ v ∧ v ≤ 0x043 then (c.xa.toList.getD (v - 0x020) 0#64).toNat
    else if 0x080 ≤ v ∧ v ≤ 0x09F then (c.slots.toList.getD ((v - 0x080) / 8) MSlot.zero).pr (v % 8)
    else if 0x0A0 ≤ v ∧ v ≤ 0x0A3 then (c.lcAt (v - 0x0A0)).toNat
    else 0

/-! ### WAITQ (R125) -/

def wantRead : Want := ⟨.read, false, false, false⟩
/-- Bytes of a context's virtual range, none if some page fails. -/
def vBytes (s : State) (ctx va n : Nat) : Option (List Byte) := (cpRead s ctx va n).toOption
/-- A ring's index words, base and size exponent (R180). -/
structure Ring where
  widx  : Nat
  ridx  : Nat
  rbase : Nat
  logn  : Nat
  deriving DecidableEq, Repr
def ringOf (bs : List Byte) : Ring :=
  ⟨bytesToNat (slice bs 0 8), bytesToNat (slice bs 8 8), bytesToNat (slice bs 16 8), bytesToNat (slice bs 24 4)⟩
def Ring.slot (r : Ring) (i : Nat) : Nat := r.rbase + 64 * (i % 2 ^ r.logn)
/-- Whether a control block is well-formed (R180). What lies behind LOGN in a queue's (R287) is not looked at (DESIGN CHOICE, log 132). -/
def Ring.ok (r : Ring) : Bool := decide (1 ≤ r.logn) && decide (r.logn ≤ 20) && r.rbase % 64 == 0
/-! ### Order of accesses (R372) -/

def AccOp.real : AccOp → Bool
  | .fence .. => false
  | .xfence .. => false
  | _ => true
def AccOp.loads : AccOp → Bool
  | .read => true
  | .amo .. => true
  | .enq => true
  | .deq => true
  | .barw => true
  | _ => false
def AccOp.stores : AccOp → Bool
  | .read => false
  | .barw => false
  | .fence .. => false
  | .xfence .. => false
  | _ => true

/-- Whether an access is still to be performed. A BARW has read its object by the time it waits (R362). -/
def Access.under (b : Access) : Bool := !b.done && !(b.op == .barw && b.sent)
/-- Whether `b` is still to be performed as far as a release at scope `sc` waits for it (R371): narrower scopes do not wait for REMOTE stores. -/
def Access.owing (sc : BitVec 2) (b : Access) : Bool := b.under && !(sc != 3#2 && keyTier b.key == 3 && b.op.stores)

/-- Whether the earlier access `b` keeps `a` from being performed. -/
def blocks (b a : Access) : Bool :=
  b.core == a.core && match b.op with
  | .fence acq rel =>
    (match a.op with
     | .xfence p _ => p == .lsu && b.path == .lsu && (acq || rel)
     | _ => a.path == .lsu && (acq || (rel && (a.op.stores || !a.op.real))))
  | .xfence _ q =>
    (match a.op with
     | .xfence p _ => p == q
     | _ => a.path == q)
  | _ =>
    match a.op with
    | .xfence p _ => b.path == p && b.owing a.scope
    -- with ORD = 11 every earlier access comes before every later one
    | .fence acq rel => b.path == .lsu && ((rel && b.owing a.scope) || (acq && (b.op.loads || rel) && b.under))
    | _ =>
      b.path == a.path && ((b.under && (b.key == a.key || b.acq || (a.job != 0 && b.job == a.job && a.path == .fe))) || (a.rel && b.owing a.scope))

/-- The line of the record slot that a ring operation would take now (R180). -/
def ringLine (s : State) (a : Access) : Option Nat :=
  if (a.op == .enq || a.op == .deq) && keyTier a.key != 3 then
    let r := ringOf (s.mem.bytes (a.key + a.off) 32)
    if !r.ok then none
    else match translate s a.ctx ⟨.atomic, true, false, false⟩ (r.slot (if a.op == .deq then r.ridx else r.widx)) with
      | .ok k => some (k - k % 128)
      | .error _ => none
  else none
/-- A ring operation on a control block of another package, whose record slot this package does not see. -/
def farRing (a : Access) : Bool := (a.op == .enq || a.op == .deq) && keyTier a.key == 3
/-- Whether an earlier access of the same path shares its line with a ring operation's record slot (R372). A slot that only the owning package knows is kept in
order with every access to that package (DEDUCED, log 23). -/
def slotBlocks (s : State) (b a : Access) : Bool :=
  b.core == a.core && b.path == a.path && b.op.real && b.under &&
  (ringLine s a == some b.key || ringLine s b == some a.key || ((ringLine s a).isSome && ringLine s a == ringLine s b) ||
   ((farRing a || farRing b) && keyTier a.key == 3 && keyTier b.key == 3 && a.win.map Window.pkg == b.win.map Window.pkg))
/-! ### WAITQ (R125) -/

/-- What a look at a ring finds: a line of another package to be asked for, a fault or a stop, no record, or a record at RIDX. -/
inductive Look where
  | need (key va : Nat)
  | stop (e : Exc)
  | no
  | yes
  deriving DecidableEq, Repr
/-- Bytes a task's WAITQ reads by LSU as an acquire (R125), checked like any access that R380 does not exempt; `lines` holds lines of other packages that have
come. -/
def lookBytes (s : State) (n : Nat) (lines : List (Nat × List Byte)) (va len : Nat) : Except Look (List Byte) :=
  let c := s.core n
  (partsOf va len).foldl (fun acc p => acc.bind fun bs =>
    match translate s c.ctx wantRead p.1 with
    | .error cl => .error (.stop ⟨3, 0, 0, p.1, transAuxv cl 0 0⟩)
    | .ok k =>
      let t := s.tagOf (k / 128)
      if keyTier k = 3 then
        match lines.find? (fun l => l.1 == k - k % 128) with
        | some l => .ok (bs ++ slice l.2 (k % 128) p.2.2)
        | none => .error (.need (k - k % 128) (p.1 - p.1 % 128))
      else if !s.ordered t (agentOf n .lsu) (c.acq.count (acqKey 0 (tagWa t))) true true then
        .error (.stop ⟨20, 0, 0, p.1 - p.1 % 128, raceAuxv t false n .lsu⟩)
      else if s.memPoison.contains (k / 128) then .error (.stop ⟨21, 0, 0, p.1, keyTier k * 256⟩)
      else .ok (bs ++ s.mem.bytes k p.2.2)) (.ok [])
/-- WAITQ's condition (R125): the sequence word of the slot at RIDX equals RIDX + 1. -/
def lookRing (s : State) (n : Nat) (lines : List (Nat × List Byte)) (cb : Nat) : Look :=
  match lookBytes s n lines cb 32 with
  | .error l => l
  | .ok h =>
    let r := ringOf h
    if !r.ok then .no
    else match lookBytes s n lines (r.slot r.ridx) 8 with
      | .error l => l
      | .ok q => if bytesToNat q = (r.ridx + 1) % 2 ^ 64 then .yes else .no
/-- The acquires of WAITQ's reads, whatever they find: the control block's line and the slot's. A line of another package is acquired there. -/
def waitqAcquire (s : State) (n cb : Nat) : State :=
  let c := s.core n
  let acq := fun (s : State) (va : Nat) => match translate s c.ctx wantRead va with
    | .ok k => if keyTier k = 3 then s else (s.useAt c.ctx va (k / 128)).acquire n 0 scDev (s.tagOf (k / 128))
    | .error _ => s
  let s1 := acq s cb
  match lookBytes s n c.rlines cb 32 with
  | .ok h => let r := ringOf h; if r.ok then acq s1 (r.slot r.ridx) else s1
  | .error _ => s1

/-- Whether WAITQ's reads of its two lines still wait for earlier accesses of the LSU path (R372). -/
def waitqBehind (s : State) (n cb : Nat) : Bool :=
  let c := s.core n
  let key := fun (va : Nat) => match translate s c.ctx wantRead va with
    | .ok k => [k - k % 128]
    | .error _ => []
  let slot := match lookBytes s n c.rlines cb 32 with
    | .ok h => let r := ringOf h; if r.ok then key (r.slot r.ridx) else []
    | .error _ => []
  (key cb ++ slot).any fun k =>
    let a : Access := { id := 0, core := n, path := .lsu, op := .read, ctx := c.ctx, key := k, va := 0, off := 0, bytes := [], en := [], acq := true, rel := false,
                        scope := 2#2, job := 0, part := 0, baddr := 0#64, done := false, sent := false }
    s.accesses.any fun b => blocks b a || slotBlocks s b a

/-! ### Operations -/

def opMfs (d : BitVec 6) (num : BitVec 12) : Op := fun s a =>
  let c := s.core a.n
  let v := sysRead s a.n num
  match sysRegInfo num with
  | some (64, _) => pairIssue c a 1 [] d v
  | _ => scalarIssue c a 1 [] d (v.extractLsb' 0 32) 0#6
def opMts (d : BitVec 6) (num : BitVec 12) : Op := fun s a =>
  let c := s.core a.n
  { reads := [d], flights := [flightAt c a 1 0#6 (.sys num (c.rx d))] }
def opTrap (code : BitVec 12) : Op := fun _ _ => { trap := some code.toNat }
def opEndTask : Op := fun _ _ => { waits := [.ending] }
def opBlaze : Op := fun _ _ => { isBlaze := true }
def opWaitq (d : BitVec 6) : Op := fun s a =>
  let c := s.core a.n
  let x := c.rpair d
  let base : Issue := { reads := bothOf d }
  match checkAddr s a.n x with
  | some (.glob cb) =>
    -- reads that must wait for earlier accesses are made in the stall (R372)
    if waitqBehind s a.n cb then { base with excs := transExc s a.n wantRead 0 cb 32, waits := [.waitq cb], eff := fun s => s.modCore a.n fun c => { c with rlines := [] } }
    else match lookRing s a.n [] cb with
    | .stop e =>
      -- a race is a stop owed to the bundle (R381); a failing page or poison faults it
      if e.code = 20 then { base with waits := [.waitq cb], eff := fun s' => s'.owe a.n s'.nextId (recordOf s a.n e 2 0 a.addr a.addr) }
      else { base with excs := [e] }
    | .yes => { base with eff := fun s => repin (waitqAcquire s a.n cb) a.n }
    | .no => { base with waits := [.waitq cb], eff := fun s => waitqAcquire s a.n cb }
    | .need .. => { base with waits := [.waitq cb], eff := fun s => s.modCore a.n fun c => { c with rlines := [] } }
  | _ => { base with excs := [addrExc x.toNat] }
def opFwait (d : BitVec 6) : Op := fun s a =>
  let c := s.core a.n
  if d = 0#6 then { waits := [.fwait true 0 0 false] }
  else
    let o := (c.rx d).toNat
    let l := (c.rx (oddOf d)).toNat
    { reads := bothOf d, excs := if c.padSize < o + l then [addrExc o] else [], waits := [.fwait false o l false] }
/-- SYNC; a pending partition needs an idle task (R347). -/
def opSync : Op := fun s a =>
  let c := s.core a.n
  let busy := !(c.slots.toList.all fun m => m.st == .free) || c.anyChannel || c.feBusy || c.lands.toList.any (·.armed) ||
    !c.regFills.isEmpty
  { isSync := true, waits := [.sync 0], excs := if c.carve.isSome && busy then [⟨16, 0, 0, 0, 0⟩] else [] }
def opCarve (d : BitVec 6) : Op := fun s a =>
  let w := (s.core a.n).rx d
  let ab := partAb w
  { reads := [d], excs := if 16 < ab then [⟨16, 0, 0, 0, 0⟩] else [],
    eff := fun s => s.modCore a.n fun c => { c with carve := some (natBits w.toNat 0 2, ab) } }

/-! ### Meanings -/

def execMfs (d : BitVec 6) (num : BitVec 12) (s : State) : Host.Outcome State Fault Refusal := runSolo (.mfs d num) (opMfs d num) s
def execMts (d : BitVec 6) (num : BitVec 12) (s : State) : Host.Outcome State Fault Refusal := runSolo (.mts d num) (opMts d num) s
def execTrap (code : BitVec 12) (s : State) : Host.Outcome State Fault Refusal := runSolo (.trap code) (opTrap code) s
def execEndTask (s : State) : Host.Outcome State Fault Refusal := runSolo .endTask opEndTask s
def execBlaze (s : State) : Host.Outcome State Fault Refusal := runSolo .blaze opBlaze s
def execWaitq (d : BitVec 6) (s : State) : Host.Outcome State Fault Refusal := runSolo (.waitq d) (opWaitq d) s
def execFwait (d : BitVec 6) (s : State) : Host.Outcome State Fault Refusal := runSolo (.fwait d) (opFwait d) s
def execSync (s : State) : Host.Outcome State Fault Refusal := runSolo .sync opSync s
def execCarve (d : BitVec 6) (s : State) : Host.Outcome State Fault Refusal := runSolo (.carve d) (opCarve d) s

end Sys2Proof.Machine
end

