-- ==== Sys2Proof/Machine/Access.lean ====
section
/-!
DEFINITION. One access at its line's home (R366, R375–R381): the race check, each operation's effect, barrier objects (R356–R358), ring
operations (R180), notify registers (R289), and what becomes of an access that fails (R381, R392, R408, R426).
-/
namespace Sys2Proof.Machine

/-! ### Accessors -/

/-- Who makes an access: a path of a core, or the arrival agent of a link (R370). -/
inductive Who where
  | core (n : Nat) (p : Path)
  | link (l : Nat)
  deriving DecidableEq, Repr

def Who.agent : Who → Option Nat
  | .core n p => agentOf n p
  | .link l => some (800 + l)
def State.link (s : State) (l : Nat) : Link := s.links[l]?.getD Link.zero
def State.modLink (s : State) (l : Nat) (f : Link → Link) : State := { s with links := s.links.setIfInBounds l (f (s.link l)) }
/-- The acquired count of a writer (R377). -/
def Who.count (s : State) : Who → Nat → Nat
  | .core n p, w => (s.core n).acq.count (acqKey p.num w)
  | .link l, w => (s.link l).acq.count w
/-- The tag that an access would race with (R379). -/
def State.race (s : State) (who : Who) (line : Nat) (isRead sync : Bool) : Option Word :=
  let t := s.tagOf line
  if s.ordered t who.agent (who.count s (tagWa t)) isRead sync then none else some t
/-- A direct acquire (R377); a link's agent lies in sys scope only (R371). -/
def State.acquireBy (s : State) (who : Who) (sc : Nat) (t : Word) : State :=
  match who with
  | .core n p => s.acquire n p.num sc t
  | .link l =>
    let w := tagWa t
    if tagRel t && decide (w ≤ 811) && tagSc t == 3 && sc == 3 then
      s.modLink l fun k => { k with acq := k.acq.setCount w (Nat.max (k.acq.count w) (s.recon t)) }
    else s
def State.releaseBy (s : State) (who : Who) : State :=
  match who.agent with
  | some w => s.release w
  | none => s

/-- Counts the release an access makes, once for all accesses of its instruction (R376). -/
def State.releaseOf (s : State) (who : Who) (a : Access) : State :=
  if !a.rel || a.counted || a.dev.isSome then s
  else
    let s1 := s.releaseBy who
    { s1 with accesses := s1.accesses.map fun b => if a.relId ≠ 0 ∧ b.relId = a.relId then { b with counted := true } else b }
/-- Whether export entries let a package reach every line of a range (R388). -/
def State.exported (s : State) (pkg key n : Nat) : Bool :=
  (linesOf key n).all fun l => s.exports.any fun e =>
    e.2.spkg == pkg && e.2.tier == keyTier (128 * l) && decide (e.2.base ≤ keyPa (128 * l)) && decide (keyPa (128 * l) + 128 ≤ e.2.base + e.2.len)

/-! ### Queues' notify registers (R289–R292) -/

def qCode : QState → Nat
  | .idle => 1 | .ready => 2 | .bound => 3 | .waiting => 4 | .error => 5 | .disabled => 6
/-- The word a notify register reads. -/
def State.notifyWord (s : State) (q : Nat) : Nat :=
  match Tab.get? s.queues q with
  | none => 0
  | some v => qCode v.st
/-- A notify (R292): IDLE becomes READY, a BOUND queue remembers it, every other queue is unchanged. -/
def State.notifyQueue (s : State) (q : Nat) : State :=
  match Tab.get? s.queues q with
  | none => s
  | some v =>
    match v.st with
    | .idle => { (s.modQueue q fun v => { v with st := .ready, readySeq := s.nextId }) with nextId := s.nextId + 1 }
    | .bound => s.modQueue q fun v => { v with notified := true }
    | _ => s

/-! ### Performing -/

/-- Why an access was not performed: a race with a tag (R379), found here or at the link of another package that it arrived by, a refusal by cause and level (R392), poison in a storage kind
(R427), a fenced link (R408). -/
inductive AccFail where
  | race (t : Word) (write : Bool) (va : Nat) (far : Option Nat)
  | refused (cause lv : Nat)
  | poison (loc : Nat)
  | fenced (link : Nat)
  deriving DecidableEq, Repr

/-- A performed access: the state, the value it returns, and a barrier-error kind (R364). -/
structure Perf where
  s    : State
  data : List Byte
  sub  : Nat

/-- Bytes written where enabled, bit by bit where the write gives bit enables. -/
def mergeBytes (old bytes : List Byte) (en : List Bool) : List Byte :=
  let n := en.length
  (List.range n).map fun i =>
    let o := old.getD i 0#8
    let v := bytes.getD i 0#8
    if !en.getD i false then o
    else if n < bytes.length then (v &&& bytes.getD (n + i) 0#8) ||| (o &&& ~~~(bytes.getD (n + i) 0#8)) else v

/-- A home's write of enabled bytes, with its tag; a whole-line write clears poison (R376, R426). -/
def State.homeWrite (s : State) (who : Who) (key off : Nat) (bytes : List Byte) (en : List Bool) (sync rel : Bool) (sc : Nat) : State :=
  let w := who.agent.getD agNone
  let old := s.mem.bytes (key + off) en.length
  let s1 := { s with mem := s.mem.write (key + off) (mergeBytes old bytes en)
                     memPoison := if en.length = 128 ∧ en.all id ∧ bytes.length = 128 then s.memPoison.filter (· != key / 128) else s.memPoison }
  (s1.tagWrite (key / 128) w sync rel sc).afterWrite s.mem (key + off) en.length

def State.poisoned (s : State) (key : Nat) : Bool := s.memPoison.contains (key / 128)
/-- The storage kind a code-21 record names for a line (R427). -/
def locOf (key : Nat) : Nat := keyTier key

/-- Where the record slot at an address lies for a ring operation (R180). For another package's operation the slots lie in this package's memory at the
same distance from the control block as in the requester's address space, and must be exported to it too (R388; DESIGN CHOICE, log 23). -/
def slotKey (s : State) (who : Who) (a : Access) (va : Nat) : Except AccFail Nat :=
  match who with
  | .core .. => (translate s a.ctx ⟨.atomic, true, false, false⟩ va).mapError fun cl => .refused cl.1 cl.2
  | .link _ =>
    let k := a.key + a.off + va - a.va
    if s.exported a.core k 8 then .ok k else .error (.refused 6 0)
/-- A ring operation of this package whose record slot lies in another package, and whose sequence word has not come yet: the index and the slot's key. -/
def farSlot (s : State) (a : Access) : Option (Nat × Nat) :=
  if a.op != .enq && a.op != .deq then none
  else
    let r := ringOf (s.mem.bytes (a.key + a.off) 32)
    let i := if a.op == .deq then r.ridx else r.widx
    if !r.ok then none
    else match slotKey s (.core a.core a.path) a (r.slot i) with
      | .ok k => if keyTier k = 3 ∧ bytesToNat (slice a.bytes 0 8) ≠ i ∨ keyTier k = 3 ∧ a.bytes.length < 16 then some (i, k) else none
      | .error _ => none
/-- ENQ or DEQ on a control block of this package (R180): one atomic operation on it and the record's sequence word. -/
def ringOp (s : State) (who : Who) (a : Access) (deq : Bool) : Except AccFail Perf :=
  let cb := a.key + a.off
  let r := ringOf (s.mem.bytes cb 32)
  if !r.ok then .ok ⟨s, natToBytes 8 1, 1⟩
  else
    let i := if deq then r.ridx else r.widx
    let va := r.slot i
    match slotKey s who a va with
    | .error f => .error f
    | .ok k =>
      let far := keyTier k = 3
      let s := match who with
        | .core .. => if far then s else s.touchAt a.ctx va (k / 128)
        | .link _ => s.touch (k / 128) 0 none
      match if far then none else s.race who (k / 128) true true with
      | some t => .error (.race t false va none)
      | none =>
        if !far && s.poisoned k then .error (.poison (locOf k))
        else
        let s1 := if a.acq && !far then s.acquireBy who a.scope.toNat (s.tagOf (k / 128)) else s
        let seq := if far then bytesToNat (slice a.bytes 8 8) else s.mem.nat k 8
        if seq = (if deq then (i + 1) % 2 ^ 64 else i) then
          .ok ⟨(s1.releaseOf who a).homeWrite who a.key (a.off + if deq then 8 else 0) (natToBytes 8 (i + 1)) (List.replicate 8 true) true a.rel a.scope.toNat,
            natToBytes 8 va, 0⟩
        else .ok ⟨s1, natToBytes 8 0, 0⟩

/-- Performs an access at its home in this package. The specification does not say when the SA of a GAMO and the OF of a WQ addition are recorded: both are here, as
the operation is performed (DESIGN CHOICE, log 95). -/
def performLocal (s0 : State) (who : Who) (a : Access) : Except AccFail Perf :=
  let line := a.key / 128
  let s := match who with
    | .core .. => s0.touchAt a.ctx a.va line
    | .link _ => s0.touch line 0 none
  let pa := a.key + a.off
  let sc := a.scope.toNat
  let sync := match a.op with
    | .read => a.acq
    | .write => a.rel
    | _ => true
  let isRead := match a.op with
    | .read => true
    | .barw => true
    | _ => false
  if keyTier a.key = 4 then
    -- an access that runs over the end of a page does not begin at the next page's register (R289)
    let reg := decide (keyPa pa % 131072 = 0) && a.part == 0 && decide (4 ≤ a.en.length)
    match a.op with
    | .write => .ok ⟨if reg then (s.releaseBy who).notifyQueue (keyPa pa / 131072) else s, [], 0⟩
    | _ => .ok ⟨s, natToBytes a.en.length (if reg then s.notifyWord (keyPa pa / 131072) else 0), 0⟩
  else
  match if a.exempt then none else s.race who line isRead sync with
  | some t => .error (.race t (!isRead) a.va none)
  | none =>
    let acq := fun (s : State) => if a.acq then s.acquireBy who sc (s.tagOf line) else s
    let rel := fun (s : State) => s.releaseOf who a
    match a.op with
    | .read =>
      if s.poisoned a.key && a.path != .fe then .error (.poison (locOf a.key))
      else
        let s1 := if a.acq then acq s else match who with
          | .core n .lsu => s.modCore n fun c => { c with tagLog := c.tagLog ++ [s.tagOf line] }
          | _ => s
        -- what a FETCH moves may carry poison, which is no error (R426)
        .ok ⟨s1, s.mem.bytes pa a.en.length, 0⟩
    | .write => .ok ⟨(rel s).homeWrite who a.key a.off a.bytes a.en a.rel a.rel sc, [], 0⟩
    | .amo aux w v cmp =>
      if s.poisoned a.key then .error (.poison (locOf a.key))
      else
        let old := s.mem.nat pa (w / 8)
        let (new, fl) := amoNew aux w old v cmp
        let s1 := (rel (acq s)).homeWrite who a.key a.off (natToBytes (w / 8) new) (List.replicate (w / 8) true) true a.rel sc
        let s2 := match who with
          | .core n _ => s1.modCore n fun c => if c.gid = a.gid then c.raise .l fl a.baddr else c
          | .link _ => s1
        .ok ⟨s2, natToBytes (w / 8) old ++ (match who with
          | .core .. => []
          | .link _ => [fl.setWidth 8]), 0⟩
    | .enq => if s.poisoned a.key then .error (.poison (locOf a.key)) else ringOp (acq s) who a false
    | .deq => if s.poisoned a.key then .error (.poison (locOf a.key)) else ringOp (acq s) who a true
    | .wqadd =>
      if s.poisoned a.key then .error (.poison (locOf a.key))
      else
        let acc := (WQAcc.ofCode (BitVec.ofNat 128 (s.mem.nat pa 16))).add (WQAcc.ofCode (BitVec.ofNat 128 (bytesToNat a.bytes)))
        let (w, fl) := acc.store
        let s1 := (rel s).homeWrite who a.key a.off (natToBytes 16 w.toNat) (List.replicate 16 true) true a.rel sc
        let s2 := match who with
          | .core n _ => s1.modCore n fun c => if c.gid = a.gid then c.raise .x fl a.baddr else c
          | .link _ => s1
        .ok ⟨s2, [fl.setWidth 8], 0⟩
    | .barm nexp bexp =>
      let o := s.bobj pa
      if s.poisoned a.key then .error (.poison (locOf a.key))
      else if o.bad then .ok ⟨rel s, [], 3⟩
      else
        let (o', e) := o.arm nexp bexp
        if e ≠ 0 then .ok ⟨rel s, [], e⟩
        else .ok ⟨(rel s).homeWrite who a.key a.off o'.bytes (List.replicate 64 true) true a.rel sc, [], 0⟩
    | .bara x b =>
      let o := s.bobj pa
      if s.poisoned a.key then .error (.poison (locOf a.key))
      else if o.bad then .ok ⟨rel s, [], 3⟩
      else
        let (o', e) := o.arrive x b
        .ok ⟨(rel s).homeWrite who a.key a.off o'.bytes (List.replicate 64 true) true a.rel sc, [], e⟩
    | .barw =>
      let o := s.bobj pa
      if s.poisoned a.key then .error (.poison (locOf a.key))
      else .ok ⟨s, s.mem.bytes pa 64, if o.bad then 3 else 0⟩
    | .fence _ _ => .ok ⟨s, [], 0⟩
    | .xfence _ _ => .ok ⟨s, [], 0⟩

/-! ### Failing -/

/-- Asks a BUSY slot to halt at its step boundary (R220, R223). -/
def State.stopSlot (s : State) (n t reason addr auxv : Nat) : State :=
  s.modCore n fun c => match c.slots[t]? with
    | some m => if m.st = .busy ∧ m.stop.isNone then c.setSlot t { m with stop := some (reason, addr, auxv) } else c
    | none => c
def accKind : AccOp → Nat
  | .read => 0 | .write => 1 | .barw => 0 | _ => 2
/-- The fault that a failed access of bundle code is recorded as. -/
def failExc (a : Access) : AccFail → Exc
  | .race t w va far => ⟨20, 0, 0, va - va % 128, raceAuxvAt t w a.core a.path far⟩
  | .refused c lv => ⟨3, 0, 0, a.va, transAuxv (c, lv) (accKind a.op) a.path.num⟩
  | .poison loc => ⟨21, 0, 0, a.va, loc * 256⟩
  | .fenced l => ⟨21, 0, 0, a.va, 128 + l⟩
/-- The reason a macro halts with (R223), and whether the write stays recorded as outstanding (R220). -/
def failReason (a : Access) : AccFail → Nat
  | .race .. => 7
  | .refused .. => 3
  | .poison _ => 4
  | .fenced _ => if a.op = .wqadd then 10 else 5

/-- Writes the lines a transfer has brought, and clears their IN (R164). -/
def Core.settle (c : Core) (fr id : Nat) : Core :=
  let ready := c.fills.filter fun f => f.id == id && (match f.src with | .bytes _ => true | _ => false)
  let c1 := { c with fills := c.fills.filter fun f => !(ready.contains f) }
  let view := match (c.jobs.find? (fun j => j.id == id)).map Job.kind with
    | some (.fetch v _ _) => v
    | _ => false
  ready.foldl (fun c f => match f.src with
    | .bytes bs => (c.bgWrite fr view (bs.zipIdx.map fun p => (128 * f.line + p.2, p.1))).poisonLine f.line f.bad
    | _ => c) c1
/-- Whether the issue side takes a port that `settle` wants (R160). -/
def Core.fillsHeld (c : Core) (id : Nat) : Bool :=
  c.fills.any fun f => f.id == id && (match f.src with
    | .bytes _ => c.portHeld true (cellBanks [(128 * f.line, 0#8), (128 * f.line + 64, 0#8)])
    | _ => false)
/-- Whether a failure leaves open if the access was performed (R229, R408). -/
def AccFail.lost : AccFail → Bool
  | .fenced _ => true
  | _ => false
/-- A line that a device read of another package has asked for has come, or cannot be read and is empty. -/
def State.devLine (s : State) (u : DevUse) (key : Nat) (bs : List Byte) : State :=
  let s1 := { s with devLines := s.devLines ++ [⟨u, key, bs⟩] }
  match u with
  | .ring n => pumpRecords s1 n (s1.recq.length + 1)
  | _ => s1
/-- An update of a reference word of another package is over: the task has a parity, or, having ended meanwhile, gives it back at once. -/
def refOver (s : State) (a : Access) (u : RefUse) (n : Nat) (p : Option Bool) : State :=
  let ends : Bool := match u with
    | .unpin _ => true
    | _ => false
  if ends then s
  else if (s.core n).st ≠ .free ∧ (s.core n).gid = a.gid then match p with
    | some p => s.modCore n fun c => { c with parity := p }
    | none => s
  else if s.groups.any (fun g => g.1 == a.gid && g.2.st == .preempted) then { s with groups := Tab.modify s.groups a.gid fun g =>
    { g with saved := g.saved.map fun c => if g.cores.getD c.tidx 160 = n then { c with parity := p.getD c.parity } else c } }
  else match p, u with
    | some p, _ => askRef s n a.gid a.ctx a.va (a.key + a.off) (.unpin p)
    | none, .repin p => askRef s n a.gid a.ctx a.va (a.key + a.off) (.unpin p)
    | none, _ => s
/-- A device access to another package that is not performed there: a refused write is context-fatal (R280, R392), a read without a value fails, and a reference
word that cannot be updated gives its record (R330). A write lost on a fenced link raises nothing more (DESIGN CHOICE, log 133). -/
def failDev (s0 : State) (a : Access) (f : AccFail) : State :=
  let s := { s0 with accesses := s0.accesses.filter fun b => b.id != a.id }
  match a.dev with
  | none => s
  | some (.write cause core) => match f with
    | .fenced _ => s
    | _ => ctxFatal s a.ctx cause core a.va
  | some (.line u) => s.devLine u a.key []
  | some (.ref u n) =>
    let r : FaultRec := if (s.core n).st ≠ .free ∧ (s.core n).gid = a.gid then refRecord s n (s.core n) ((s.core n).group.toNat / 2 ^ 16)
      else { FaultRec.zero with code := 34, sub := 2, pcore := n, addr := a.va, time := s.dieCycle (dieOf n) }
    refOver (sendRecord s a.ctx r) a u n none
/-- What becomes of an access that is not performed: a stop owed to its bundle, or a macro's halt. A FETCH or WBACK ends at that line (R381).
Nothing is left to stop when the task has gone. -/
def failAccess (s : State) (a : Access) (f : AccFail) : State :=
  if 160 ≤ a.core then failDev s a f else
  let c := s.core a.core
  let s1 := { s with accesses := s.accesses.filter fun b => b.id != a.id }
  let e := failExc a f
  if c.st = .free ∨ c.gid ≠ a.gid then s1 else
  match (c.jobs.find? (fun j => j.id == a.job)).map Job.kind with
  | some (.macroWrite t step) =>
    (s1.stopSlot a.core t (failReason a f) e.addr e.auxv).modCore a.core fun c => match c.slots[t]? with
      | some m => c.setSlot t { m with outs := m.outs.map fun o => if o.step = step then
          -- an addition refused at its home is known not to be applied (R229)
          { o with failed := true, refused := if a.op == .wqadd && !f.lost then o.refused ++ [(true, a.va, a.bytes)] else o.refused }
        else o }
      | none => c
  | k =>
    let owe := fun (s : State) => s.owe a.core a.id (recordOf s a.core e 2 0 a.baddr a.baddr)
    let ends := match k with
      | some (.fetch ..) => true
      | some (.wback ..) => true
      | _ => false
    if ends then
      -- a line already moved stays moved (R381)
      owe { (s1.modCore a.core fun c0 => let c := c0.settle s.fresh a.job
                                         { c with fills := c.fills.filter (fun x => x.id != a.job), jobs := c.jobs.filter (fun j => j.id != a.job) }) with
        accesses := s1.accesses.filter fun b => !(b.core == a.core && b.job == a.job) }
    -- what waited for a value never receives one (R381): the job goes, its registers stay pending
    else owe (match k with
      | some .store => s1
      | _ => s1.modCore a.core fun c => { c with jobs := c.jobs.filter fun j => j.id != a.job })

/-- Sends the record of a barrier error (R364) or of a malformed ring (R180), if there is one. -/
def barrierRecord (s : State) (a : Access) (sub : Nat) : State :=
  if sub = 0 then s
  else
    let ring := a.op == .enq || a.op == .deq
    sendRecord s a.ctx (recordOf s a.core ⟨if ring then 34 else 35, sub, 0, a.va, 0⟩ 0 0 a.baddr 0#64)

end Sys2Proof.Machine
end

