-- ==== Sys2Proof/Machine/Global.lean ====
section
/-!
DEFINITION. The global-memory instructions of the L slot (R178–R186, R359–R362): what they check at issue and the accesses they queue.
-/
namespace Sys2Proof.Machine

/-! ### Queuing accesses -/

/-- Appends an access in issue order. -/
def State.pushAccess (s : State) (a : Access) : State :=
  { s with accesses := s.accesses ++ [{ a with id := s.nextId, gid := (s.core a.core).gid }], nextId := s.nextId + 1 }

/-- What an instruction's accesses have in common. -/
structure AccInfo where
  n     : Nat
  path  : Path
  op    : AccOp
  want  : Want
  acq   : Bool
  rel   : Bool
  scope : BitVec 2
  job   : Nat
  baddr : DWord

/-- Queues one access for each line of a range that holds an enabled byte (R178); `bits` are bit enables, if any. A store that begins at a
notify register is a release at system scope (R289, R290). -/
def State.pushLines (s : State) (i : AccInfo) (va : Nat) (bytes bits : List Byte) (en : List Bool) : State :=
  let ctx := (s.core i.n).ctx
  let rid := s.nextId
  (partsOf va en.length).foldl (fun s p =>
    let e := slice en p.2.1 p.2.2
    match translate s ctx i.want p.1 with
    | .error _ => s
    | .ok k =>
      if !e.any id then s
      else
        let bell := keyTier k == 4 && keyPa k % 131072 == 0 && i.want.write && p.2.1 == 0
        (s.noteTlb ctx p.1).pushAccess
          { id := 0, core := i.n, path := i.path, op := i.op, ctx := ctx, key := k - k % 128, va := p.1, off := k % 128,
            bytes := slice bytes p.2.1 p.2.2 ++ slice bits p.2.1 p.2.2, en := e, acq := i.acq, rel := i.rel || bell,
            scope := if bell then 3#2 else i.scope, job := i.job, part := p.2.1, baddr := i.baddr, done := false, sent := false, relId := rid,
            win := s.windowOf k }) s

/-- Starts a job of core `n`. -/
def State.pushJob (s : State) (n : Nat) (k : JobKind) (baddr : DWord) : Nat × State :=
  let (id, s1) := s.takeId
  (id, s1.modCore n fun c => { c with jobs := c.jobs ++ [⟨id, k, baddr, []⟩] })
def lAcq (ord : BitVec 2) : Bool := ord.getLsbD 0
def lRel (ord : BitVec 2) : Bool := ord.getLsbD 1
def lsuInfo (a : At) (o : LOps) (op : AccOp) (w : Want) (job : Nat) : AccInfo :=
  ⟨a.n, .lsu, op, w, lAcq o.ord, lRel o.ord, o.scope, job, a.addr⟩

/-! ### Loads, stores and atomics -/

def isBell (o : LOps) : Bool := o.sz == 2#3 || o.sz == 3#3
def opGld (o : LOps) : Op := fun s a =>
  let c := s.core a.n
  let n := szBytes o.sz
  let w : Want := ⟨.read, false, false, isBell o⟩
  let base : Issue := { reads := eaRegs o.bp o.xi, writes := dataRegs o, ill := dataIll c o }
  match globRange s a.n (eaOf c o.bp o.xi o.imm) 1 with
  | none => { base with excs := [addrExc (eaOf c o.bp o.xi o.imm).toNat] }
  | some va =>
    { base with excs := transExc s a.n w 0 va n, cancels := pendRegs o, uses := { rregs := predUse o.pk, wregs := dataUse o },
                eff := fun s' =>
                  let (id, s1) := s'.pushJob a.n (loadKind s a.n o) a.addr
                  (s1.modCore a.n fun c' => c'.markPending o id).pushLines (lsuInfo a o .read w id) va [] [] (loadEnables s a.n o) }
def opGst (o : LOps) : Op := fun s a =>
  let c := s.core a.n
  let n := szBytes o.sz
  let w : Want := ⟨.write, true, false, isBell o⟩
  let base : Issue := { reads := eaRegs o.bp o.xi ++ dataRegs o, ill := dataIll c o }
  match globRange s a.n (eaOf c o.bp o.xi o.imm) 1 with
  | none => { base with excs := [addrExc (eaOf c o.bp o.xi o.imm).toNat] }
  | some va =>
    let (bs, en) := storeBytes s a.n o
    let bits := if o.sz = 5#3 then natToBytes 16 (readPred s a.n o.pk).toNat else []
    { base with excs := transExc s a.n w 0 va n, uses := { rregs := dataUse o ++ predUse o.pk },
                eff := fun s' => s'.pushLines (lsuInfo a o .write w 0) va bs bits en }
def opGamo (o : LOps) : Op := fun s a =>
  let c := s.core a.n
  let n := szBytes o.sz
  let w : Want := ⟨.atomic, true, false, false⟩
  let base : Issue := { reads := eaRegs o.bp o.xi ++ amoRegs o, writes := dataRegs o }
  match globRange s a.n (eaOf c o.bp o.xi o.imm) n with
  | none => { base with excs := [addrExc (eaOf c o.bp o.xi o.imm).toNat] }
  | some va =>
    { base with excs := transExc s a.n w 0 va n, cancels := pendRegs o,
                eff := fun s' =>
                  let (id, s1) := s'.pushJob a.n (.loadX (lReg o) o.sz false (o.sz == 3#3)) a.addr
                  (s1.modCore a.n fun c' => c'.markPending o id).pushLines
                    (lsuInfo a o (.amo o.aux (8 * n) (amoVal c o) (amoCmp c o)) w id) va [] [] (List.replicate n true) }
/-- ENQ and DEQ (R180): the control block and the record slot it now names are translated before issue (R391). -/
def ringIssue (deq : Bool) (o : LOps) : Op := fun s a =>
  let c := s.core a.n
  let w : Want := ⟨.atomic, true, false, false⟩
  let base : Issue := { reads := eaRegs o.bp o.xi, writes := dataRegs o }
  match globRange s a.n (eaOf c o.bp o.xi o.imm) 64 with
  | none => { base with excs := [addrExc (eaOf c o.bp o.xi o.imm).toNat] }
  | some va =>
    let slot := match vBytes s c.ctx va 32 with
      | some h => let r := ringOf h
                  if r.ok then transExc s a.n ⟨.atomic, true, false, false⟩ 0 (r.slot (if deq then r.ridx else r.widx)) 8 else []
      | none => []
    { base with excs := transExc s a.n w 0 va 32 ++ slot, cancels := pendRegs o,
                eff := fun s' =>
                  let (id, s1) := s'.pushJob a.n (.loadX (lReg o) o.sz false true) a.addr
                  (s1.modCore a.n fun c' => c'.markPending o id).pushLines
                    (lsuInfo a o (if deq then .deq else .enq) w id) va [] [] (List.replicate 8 true) }
def opEnq (o : LOps) : Op := ringIssue false o
def opDeq (o : LOps) : Op := ringIssue true o

/-! ### FETCH and WBACK (R182) -/

/-- Offset and length of a transfer, if they are well-formed. -/
def xferRange (c : Core) (d : BitVec 6) : Option (Nat × Nat) :=
  let off := (c.rx d).toNat
  let len := (c.rx (oddOf d)).toNat
  if off % 128 = 0 ∧ len % 128 = 0 ∧ off + len ≤ c.padSize then some (off, len) else none
def feFull (c : Core) (len : Nat) : List Exc :=
  if len ≠ 0 ∧ 16 ≤ (c.jobs.filter fun j => j.kind.isFe).length then [exc0 13] else []
/-- Fill bits for every line of a range. -/
def Core.addFills (c : Core) (id : Nat) (view : Bool) (off len : Nat) (out : Bool) (k : FillKind) : Core :=
  { c with fills := c.fills ++ (c.padLines view off len).map fun l => ⟨id, l.1, out, k, .unknown, [], false⟩ }
/-- The accesses of FETCH or WBACK, one per line in ascending order; FETCH.acq acquires with its first line, WBACK.rel releases with its last. -/
def State.pushXfer (s : State) (a : At) (o : LOps) (wb : Bool) (w : Want) (id va len : Nat) : State :=
  (List.range (len / 128)).foldl (fun s k =>
    s.pushLines ⟨a.n, .fe, if wb then .write else .read, w, lAcq o.ord && k == 0, lRel o.ord && 128 * (k + 1) == len, o.scope, id, a.addr⟩
      (va + 128 * k) [] [] (List.replicate 128 true)) s
def xferIssue (wb : Bool) (o : LOps) : Op := fun s a =>
  let c := s.core a.n
  let view := o.view == 1#1
  let w : Want := ⟨if wb then .write else .read, wb, false, false⟩
  let base : Issue := { reads := eaRegs o.bp o.xi ++ bothOf (lReg o) }
  match globRange s a.n (eaOf c o.bp o.xi o.imm) 128, xferRange c (lReg o) with
  | some va, some (off, len) =>
    { base with excs := transExc s a.n w 1 va len ++ feFull c len,
                eff := fun s' =>
                  if len = 0 then s'
                  else
                    let (id, s1) := s'.pushJob a.n (if wb then .wback view off len else .fetch view off len) a.addr
                    let s2 := s1.modCore a.n fun c' => c'.addFills id view off len wb (if wb then .wback else .fetch)
                    -- each line's access finds its place in the transfer by its part
                    let n0 := s2.nextId
                    let s3 := s2.pushXfer a o wb w id va len
                    { s3 with accesses := s3.accesses.map fun x => if n0 ≤ x.id then { x with part := 128 * (x.id - n0) } else x } }
  | none, _ => { base with excs := [addrExc (eaOf c o.bp o.xi o.imm).toNat] }
  | _, none => { base with excs := [addrExc (c.rx (lReg o)).toNat] }
def opFetch (o : LOps) : Op := xferIssue false o
def opWback (o : LOps) : Op := xferIssue true o
/-- FETCH with AUX = 01 arms a landing slot (R170, R182). -/
def opFetchLand (d : BitVec 7) (n : BitVec 3) : Op := fun s a =>
  let c := s.core a.n
  let r := d.extractLsb' 0 6
  let base : Issue := { reads := bothOf r }
  match xferRange c r with
  | none => { base with excs := [addrExc (c.rx r).toNat] }
  | some (off, len) =>
    let armed := (c.lands[n.toNat]'n.isLt).armed
    { base with excs := if armed && len != 0 then [exc0 12] else [],
                eff := fun s' =>
                  if len = 0 then s'
                  else s'.modCore a.n fun c' =>
                    ({ c' with lands := c'.lands.set n.toNat ⟨true, off, len, 0⟩ n.isLt } : Core).addFills n.toNat false off len false .landing }

/-! ### Fences (R184, R185) -/

def pseudoAccess (a : At) (ctx : Nat) (p : Path) (op : AccOp) (scope : BitVec 2) : Access :=
  { id := 0, core := a.n, path := p, op := op, ctx := ctx, key := 0, va := 0, off := 0, bytes := [], en := [], acq := false, rel := false,
    scope := scope, job := 0, part := 0, baddr := a.addr, done := false, sent := false }
def opFence (ord scope : BitVec 2) : Op := fun s a =>
  let ctx := (s.core a.n).ctx
  { eff := fun s => s.pushAccess (pseudoAccess a ctx .lsu (.fence (lAcq ord) (lRel ord)) scope) }
def opXfence (p q : BitVec 4) (scope : BitVec 2) : Op := fun s a =>
  let ctx := (s.core a.n).ctx
  match pathOfCode p.toNat, pathOfCode q.toNat with
  | some x, some y => { eff := fun s => s.pushAccess (pseudoAccess a ctx x (.xfence x y) scope) }
  | _, _ => {}

/-! ### Retention (R186, R272) -/

/-- Dies that home a line of a range, as a bit mask; outside HBM eight kilobytes reach all four. -/
def homeDies (s : State) (ctx va len : Nat) : Nat :=
  (pagesOf va len).foldl (fun m p =>
    match translate s ctx wantRead p with
    | .error _ => m
    | .ok k =>
      let n := Nat.min (131072 - p % 131072) (va + len - p)
      let ls := if keyTier k = 0 then [k] else (List.range (Nat.min 64 (ceilDiv n 128))).map fun i => k + 128 * i
      ls.foldl (fun m k => m ||| 2 ^ homeDie k) m) 0

/-- The outcome of a RETAIN: the new range, or a refusal. -/
def retainRange (s : State) (ctx va len w : Nat) : Option Retain :=
  let mine := s.retains.filter fun r => r.ctx == ctx
  let dies := homeDies s ctx va len
  let retw := ((s.ctx? ctx).map (·.retW)).getD 0
  if len = 0 ∨ len % 128 ≠ 0 ∨ w < 1 ∨ 8 < w ∨ 4 ≤ mine.length then none
  else if mine.any fun r => decide (va < r.va + r.len) && decide (r.va < va + len) then none
  else if (List.range 4).any fun d => dies.testBit d && (decide (8 < waysOn s.retains d + w) || decide (retw < waysOn mine d + w)) then none
  else ((List.range 4).find? fun i => !(mine.any fun r => r.num == i)).map fun i => ⟨ctx, i, va, len, w, dies⟩
def opRetain (d : BitVec 7) (bp : BitVec 5) (imm : BitVec 24) (xi : BitVec 6) : Op := fun s a =>
  let c := s.core a.n
  let r := d.extractLsb' 0 6
  let base : Issue := { reads := eaRegs bp xi ++ bothOf r, writes := [r] }
  match globRange s a.n (eaOf c bp xi imm) 128 with
  | none => { base with excs := [addrExc (eaOf c bp xi imm).toNat] }
  | some va =>
    { base with cancels := [r],
                eff := fun s' =>
                  let out := retainRange s' c.ctx va (c.rx r).toNat ((c.rx (oddOf r)).toNat % 16)
                  let (id, s1) := s'.pushJob a.n (.retain r) a.addr
                  let v := match out with
                    | some x => x.num
                    | none => 0xFFFFFFFF
                  let s2 := s1.modCore a.n fun c' =>
                    { c' with pend := c'.pend ++ [(id, r)]
                              jobs := c'.jobs.map fun j => if j.id = id then { j with data := (natToBytes 4 v).zipIdx.map fun p => (p.2, p.1) } else j }
                  { s2 with retains := s2.retains ++ out.toList } }
def opUnpin (d : BitVec 7) (bp : BitVec 5) (imm : BitVec 24) (xi : BitVec 6) : Op := fun s a =>
  let c := s.core a.n
  let r := d.extractLsb' 0 6
  let base : Issue := { reads := r :: eaRegs bp xi }
  match globRange s a.n (eaOf c bp xi imm) 128 with
  | none => { base with excs := [addrExc (eaOf c bp xi imm).toNat] }
  | some va => { base with eff := fun s' => { s' with retains := s'.retains.filter fun x =>
                   !(x.ctx == c.ctx && x.va == va && x.len == (c.rx r).toNat) } }

/-! ### Barrier objects (R359–R362) -/

def barIssue (o : LOps) (w : Want) (regs : List (BitVec 6)) (k : Nat → Issue → Issue) : Op := fun s a =>
  let c := s.core a.n
  let base : Issue := { reads := eaRegs o.bp o.xi ++ regs }
  match globRange s a.n (eaOf c o.bp o.xi o.imm) 64 with
  | none => { base with excs := [addrExc (eaOf c o.bp o.xi o.imm).toNat] }
  | some va => k va { base with excs := transExc s a.n w 0 va 64 }
def opBarm (o : LOps) : Op := fun s a =>
  let c := s.core a.n
  let w : Want := ⟨.atomic, true, false, false⟩
  barIssue o w (bothOf (lReg o)) (fun va i =>
    { i with eff := fun s' => s'.pushLines (lsuInfo a o (.barm (c.rx (lReg o)).toNat (c.rx (oddOf (lReg o))).toNat) w 0) va [] []
                      (List.replicate 64 true) }) s a
def opBara (o : LOps) : Op := fun s a =>
  let c := s.core a.n
  let w : Want := ⟨.atomic, true, false, false⟩
  barIssue o w [lReg o] (fun va i =>
    { i with waits := [.drain],
             eff := fun s' => s'.pushLines (lsuInfo a o (.bara 1 (c.rx (lReg o)).toNat) w 0) va [] [] (List.replicate 64 true) }) s a
def opBarw (o : LOps) : Op := fun s a =>
  let w : Want := ⟨.read, false, false, false⟩
  barIssue o w [] (fun va i =>
    { i with writes := [lReg o], cancels := [lReg o],
             eff := fun s' =>
               let (id, s1) := s'.pushJob a.n (.barw (lReg o) none none) a.addr
               (s1.modCore a.n fun c' => { c' with pend := c'.pend ++ [(id, lReg o)] }).pushLines (lsuInfo a o .barw w id) va [] []
                 (List.replicate 64 true) }) s a

/-! ### Meanings -/

def execGld (o : LOps) (s : State) : Host.Outcome State Fault Refusal := runSolo (.gld o) (opGld o) s
def execGst (o : LOps) (s : State) : Host.Outcome State Fault Refusal := runSolo (.gst o) (opGst o) s
def execGamo (o : LOps) (s : State) : Host.Outcome State Fault Refusal := runSolo (.gamo o) (opGamo o) s
def execEnq (o : LOps) (s : State) : Host.Outcome State Fault Refusal := runSolo (.enq o) (opEnq o) s
def execDeq (o : LOps) (s : State) : Host.Outcome State Fault Refusal := runSolo (.deq o) (opDeq o) s
def execFetch (o : LOps) (s : State) : Host.Outcome State Fault Refusal := runSolo (.fetch o) (opFetch o) s
def execFetchLand (d : BitVec 7) (n : BitVec 3) (s : State) : Host.Outcome State Fault Refusal :=
  runSolo (.fetchLand d n) (opFetchLand d n) s
def execWback (o : LOps) (s : State) : Host.Outcome State Fault Refusal := runSolo (.wback o) (opWback o) s
def execFence (ord scope : BitVec 2) (s : State) : Host.Outcome State Fault Refusal := runSolo (.fence ord scope) (opFence ord scope) s
def execXfence (p q : BitVec 4) (scope : BitVec 2) (s : State) : Host.Outcome State Fault Refusal :=
  runSolo (.xfence p q scope) (opXfence p q scope) s
def execRetain (d : BitVec 7) (bp : BitVec 5) (imm : BitVec 24) (xi : BitVec 6) (s : State) : Host.Outcome State Fault Refusal :=
  runSolo (.retain d bp imm xi) (opRetain d bp imm xi) s
def execUnpin (d : BitVec 7) (bp : BitVec 5) (imm : BitVec 24) (xi : BitVec 6) (s : State) : Host.Outcome State Fault Refusal :=
  runSolo (.unpin d bp imm xi) (opUnpin d bp imm xi) s
def execBarm (o : LOps) (s : State) : Host.Outcome State Fault Refusal := runSolo (.barm o) (opBarm o) s
def execBara (o : LOps) (s : State) : Host.Outcome State Fault Refusal := runSolo (.bara o) (opBara o) s
def execBarw (o : LOps) (s : State) : Host.Outcome State Fault Refusal := runSolo (.barw o) (opBarw o) s

end Sys2Proof.Machine
end

