-- ==== Sys2Proof/Machine/Fetch.lean ====
section
/-!
DEFINITION. Fetching and decoding bundles (R58–R62): the code cache and the pinned copy of LMARK (R116, R322), code translation (R390,
R391), and what LOOP, LMARK and CALLI fetch (R107, R110, R116).
-/
namespace Sys2Proof.Machine

def wantCode : Want := ⟨.fetch, false, false, false⟩
/-- The key of a code address, or TRANSLATION with the code path (R390). -/
def codeKey (s : State) (n va : Nat) : Except Exc Nat :=
  match translate s (s.core n).ctx wantCode va with
  | .ok k => .ok k
  | .error cl => .error ⟨3, 0, 0, va, transAuxv cl 3 15⟩

/-- The line of a code address or link-table slot with key `k`, if the core has it: of the code cache (R322), or, for another package's line, as fetched for the
bundle at hand. A cached copy of such a line serves no later bundle, since the word it gives would be older than that bundle's fetch (R322; log 118). -/
def Core.codeLine (c : Core) (k va : Nat) : Option (List Byte) :=
  if keyTier k = 3 then Tab.get? c.rcode (va / 128)
  else (c.cache.find? fun l => l.1 == c.ctx && l.2.1 == va / 128).map (·.2.2)
def parcelOf (bs : List Byte) : Parcel := BitVec.ofNat 16 (bytesToNat bs)

/-- A parcel as fetched for issue: the pinned copy first, then, once its line is in the code cache, the word as its home holds it now, as the cache is coherent
(R322); none for a miss. A line of another package gives the word its home held when it was read for this bundle. -/
def fetchParcel (s : State) (n va : Nat) : Except Exc (Option Parcel) :=
  let c := s.core n
  let pinned := match c.pin with
    | some (lo, hi, bs) =>
      if lo.toNat ≤ va ∧ va + 2 ≤ lo.toNat + bs.length ∧ lo ≤ c.pc ∧ c.pc ≤ hi
      then some (parcelOf (slice bs (va - lo.toNat) 2)) else none
    | none => none
  match pinned with
  | some p => .ok (some p)
  | none =>
    match codeKey s n va with
    | .error e => .error e
    | .ok k =>
      match c.codeLine k va with
      | none => .ok none
      | some l => .ok (some (parcelOf (if keyTier k = 3 then slice l (va % 128) 2 else s.mem.bytes k 2)))

/-- What decoding a bundle start gives; of an illegal bundle its instructions and length as far as they are known, and the parcel offset and
cause of its first offending instruction (R62). -/
inductive Bundled where
  | ok (items : List (Nat × Slot × Instr)) (len : Nat)
  | bad (items : List (Nat × Slot × Instr)) (len off cause : Nat)
  | fault (e : Exc)
  | miss (va : Nat)
  deriving DecidableEq, Repr

/-- The class's place among the limits of R60: S and SL 0, V 1, M 2, L 3, X 4, Y 5. -/
def classPlace (cls : BitVec 3) : Nat := if cls.toNat ≤ 1 then 0 else cls.toNat - 1
def classLimit (p : Nat) : Nat := if p = 1 then 2 else 1

/-- The parcels from `va` on, `k` of them. -/
def getParcels (get : Nat → Except Exc (Option Parcel)) : Nat → Nat → Bundled ⊕ List Parcel
  | 0, _ => .inr []
  | k + 1, va =>
    match get va with
    | .error e => .inl (.fault e)
    | .ok none => .inl (.miss va)
    | .ok (some p) =>
      match getParcels get k (va + 2) with
      | .inl b => .inl b
      | .inr ps => .inr (p :: ps)

/-- The lowest of two causes, where there are any (R62). -/
def lowCause : Option Nat → Option Nat → Option Nat
  | some a, some b => some (Nat.min a b)
  | a, b => a.or b
/-- The instruction that parcels stand for, whatever rules they break, and the lowest cause among the rules of R61 and R62 that it breaks by itself. -/
def readInstr (ps : List Parcel) : Option Instr × Option Nat :=
  match decode ps with
  | .ok i e _ => (some i, if i.mustEnd && !e then some 6 else none)
  | .bad cause => ((Raw.read (ps.getD 0 0#16) (ps.getD 1 0#16) (ps.getD 2 0#16) (ps.getD 3 0#16)).bind fun r => r.2.instr, some cause)
/-- A bundle of `len` parcels: what `r` says, unless an instruction has offended (R62). -/
def endDecode (bad : Option (Nat × Nat)) (acc : List (Nat × Slot × Instr)) (len : Nat) (r : Bundled) : Bundled :=
  match bad with
  | some (o, c) => .bad acc len o c
  | none => r

/-- Decodes a bundle from byte address `va`; `off` parcels are done, `cnt` counts the classes met, `bad` is the first offence (R59–R62). A bundle that has offended is
decoded to its end all the same, since its instructions' stalls come before its fault (R94) and its length enters LOOP's check (R110); the decoding
ends at a first parcel of no class, a failed translation or a miss, which are no longer waited for (DEDUCED, log 119). -/
def decodeBundle (get : Nat → Except Exc (Option Parcel)) (va : Nat) :
    Nat → Nat → List Nat → Option (Nat × Nat) → List (Nat × Slot × Instr) → Bundled
  | 0, off, _, bad, acc => endDecode bad acc off (.bad acc off off 5)
  | fuel + 1, off, cnt, bad, acc =>
    match getParcels get 1 (va + 2 * off) with
    | .inl b => endDecode bad acc off b
    | .inr ps =>
      let p0 := ps.getD 0 0#16
      let cls := p0.extractLsb' 12 3
      match classLen cls with
      | none => endDecode bad acc off (.bad acc off off 1)
      | some len =>
        match getParcels get (len - 1) (va + 2 * off + 2) with
        | .inl b => endDecode bad acc off b
        | .inr more =>
          let place := classPlace cls
          let excess := classLimit place < cnt.getD place 0 + 1
          let (i, own) := readInstr (p0 :: more)
          let bad' := bad.or ((lowCause own (if excess then some 5 else none)).map fun c => (off, c))
          let acc' := match i with
            | some i => acc ++ [(off, if place = 1 ∧ 1 ≤ cnt.getD 1 0 then Slot.v1 else slotOf i, i)]
            | none => acc
          if p0.getLsbD 15 then endDecode bad' acc' (off + len) (.ok acc' (off + len))
          else decodeBundle get va fuel (off + len) (cnt.set place (cnt.getD place 0 + 1)) bad' acc'

def cnt0 : List Nat := [0, 0, 0, 0, 0, 0]
/-- The bundle at an address as the issue stage sees it, LOOP's end bundle (R110) and those LMARK pins (R116) among them. -/
def fetchBundle (s : State) (n : Nat) (va : DWord) : Bundled := decodeBundle (fetchParcel s n) va.toNat 8 0 cnt0 none []

/-! ### What LMARK, LOOP and CALLI fetch -/

/-- The bundles LMARK pins: at most `k` from `va`, whose ends lie within 2,048 bytes of the first (R116), as the last of them and the end of it; or the code
address that is not in the cache yet. A bundle that is illegal or whose page fails its translation ends the pin before it, without a fault: R116 does not say what
LMARK does there (DESIGN CHOICE, log 120). -/
def pinEnd (s : State) (n : Nat) (first : DWord) : Nat → DWord → Option (DWord × DWord) → Nat ⊕ Option (DWord × DWord)
  | 0, _, last => .inr last
  | k + 1, va, last =>
    match fetchBundle s n va with
    | .ok _ len =>
      let e := va + BitVec.ofNat 64 (2 * len)
      if e.toNat ≤ first.toNat + 2048 then pinEnd s n first k e (some (va, e)) else .inr last
    | .miss m => .inl m
    | _ => .inr last
/-- The pinned copy taken at LMARK's issue: first and last bundle, and the bytes. -/
def pinCopy (s : State) (n : Nat) (first : DWord) (k : Nat) : Option (DWord × DWord × List Byte) :=
  match pinEnd s n first k first none with
  | .inr (some (last, e)) =>
    some (first, last, (List.range ((e.toNat - first.toNat) / 2)).flatMap fun i =>
      match fetchParcel s n (first.toNat + 2 * i) with
      | .ok (some p) => natToBytes 2 p.toNat
      | _ => [0#8, 0#8])
  | _ => none

def wantSlot : Want := ⟨.read, false, false, false⟩
/-- The link-table slot CALLI reads (R107): its address, none past the table. -/
def calliSlot (c : Core) (imm : BitVec 32) : Option Nat :=
  if c.ltn.toNat ≤ imm.toNat then none else some (c.ltb.toNat + 8 * imm.toNat)
/-- A link-table slot as CALLI reads it: TRANSLATION, a miss of the code cache, or the value in memory at the issue. A slot of another package is read there
while the CALLI waits for it (log 118). -/
def readSlot (s : State) (n slot : Nat) : Except Exc (Option Nat) :=
  let c := s.core n
  match translate s c.ctx wantSlot slot with
  | .error cl => .error ⟨3, 0, 0, slot, transAuxv cl 0 15⟩
  | .ok k => .ok ((c.codeLine k slot).map fun l => if keyTier k = 3 then bytesToNat (slice l (slot % 128) 8) else s.mem.nat k 8)
/-- Uncorrectable data in a link-table slot (R426). -/
def slotPoison (s : State) (n slot : Nat) : List Exc :=
  match translate s (s.core n).ctx wantSlot slot with
  | .ok k => if s.memPoison.contains (k / 128) then [⟨21, 0, 0, slot, keyTier k * 256⟩] else []
  | .error _ => []
/-- What the slot's read does besides: it acquires at device scope (R107); at another package the agent of the link did (R407). -/
def useSlot (s : State) (n slot : Nat) : State :=
  match translate s (s.core n).ctx wantSlot slot with
  | .error _ => s
  | .ok k => if keyTier k = 3 then s else s.acquire n 0 scDev (s.tagOf (k / 128))

/-- The end bundle a LOOP or LOOPX with no passes decodes, as far as it misses the cache (R110). -/
def loopMiss (s : State) (n : Nat) (e : DWord) : Option Nat :=
  match fetchBundle s n e with
  | .miss va => some va
  | _ => none
/-- LOOPX's words and its count (R114); none for an offset that is misaligned or outside. -/
def loopxCount (s : State) (n : Nat) (x y : BitVec 6) : Option Nat :=
  let c := s.core n
  let o := (c.rx x).toNat + 4 * (c.rx y).toNat
  if o % 4 ≠ 0 ∨ c.padSize < o + 8 then none
  else
    let bs := readPad s n false o 8
    some (bytesToNat (slice bs 4 4) - bytesToNat (slice bs 0 4))
/-- What an instruction at `a` in a bundle of `len` parcels needs that the code cache does not hold (R94): an address, and whether as a link-table slot. -/
def codeNeed (s : State) (n : Nat) (a : DWord) (len : Nat) : Instr → Option (Nat × Bool)
  | .loop _ x imm => if (s.core n).rx x = 0#32 then (loopMiss s n (a + (imm.signExtend 64 <<< 1))).map (·, false) else none
  | .loopx _ x y imm => if loopxCount s n x y = some 0 then (loopMiss s n (a + (imm.signExtend 64 <<< 1))).map (·, false) else none
  | .lmark i =>
    let first := a + BitVec.ofNat 64 (2 * len)
    (match pinEnd s n first i.toNat first none with
     | .inl va => some (va, false)
     | .inr _ => none)
  | .calli imm => (calliSlot (s.core n) imm).bind fun slot => match readSlot s n slot with
    | .ok none => some (slot, true)
    | _ => none
  | _ => none
/-- What the bundle at the program counter of a core misses in the code cache: its own parcels, or what one of its instructions fetches. -/
def codeMiss (s : State) (n : Nat) : Option (Nat × Bool) :=
  let a := (s.core n).pc
  match fetchBundle s n a with
  | .miss va => some (va, false)
  | .ok items len => items.findSome? fun i => codeNeed s n a len i.2.2
  | .bad items len _ _ => items.findSome? fun i => codeNeed s n a len i.2.2
  | .fault _ => none

end Sys2Proof.Machine
end

