-- ==== Sys2Proof/Machine/Link.lean ====
section
/-!
DEFINITION. Nirkin links below the collectives (R401–R408): flits, replay, messages, requests with their reply caches, link states and
what a fence fails; with packet errors (R311) and driver events (R435), which fences raise.
-/
namespace Sys2Proof.Machine

/-- Hub-timer rounds in a microsecond (R4, R19: 2.1 GHz). -/
def usRounds : Nat := 2100

/-! ### Driver events (R435) -/

/-- Writes host memory as the device (R380). -/
def State.writeHost (s : State) (pa : Nat) (bs : List Byte) : State := s.writeKey (keyOf 2 pa) bs agDev
def State.hostNat (s : State) (pa n : Nat) : Nat := s.mem.nat (keyOf 2 pa) n
/-- Appends an event and sends vector 1; a full or malformed ring drops it (R284), and so does EVQ = 0 (R433). -/
def sendEvent (s : State) (code obj x y : Nat) : State :=
  if s.evq = 0 then s
  else
    let r := ringOf (s.mem.bytes (keyOf 2 s.evq) 32)
    let slot := r.slot r.widx
    if !r.ok || s.hostNat slot 8 != r.widx then s
    else
      let body := natToBytes 8 code ++ natToBytes 8 obj ++ natToBytes 8 x ++ natToBytes 8 y ++ natToBytes 24 0
      ((s.writeHost s.evq (natToBytes 8 (r.widx + 1))).writeHost slot (natToBytes 8 (r.widx + 1) ++ body)).sendMsi 1

/-! ### The command processor's reads -/

/-- Why a packet cannot go on: a remote line it needs, a remote index to be moved by compare-and-swap, an index that was found moved, an error code of R311, or
a monitored word it waits for. -/
inductive CpStop where
  | need (key attr : Nat)
  | swap (key old new : Nat)
  | again
  | err (code : Nat)
  | block (key : Nat)
  deriving DecidableEq, Repr

/-- Reads through a context's tables; `have'` holds remote lines that have come back. A fault or poison is TRANSLATION (R311, R426). A line of another package is
asked for with order and scope `attr`, and is known by its key plus `mark`, so that reads of one line for different ends stay apart. -/
def cpGet (s : State) (have' : List (Nat × List Byte)) (ctx va n : Nat) (mark : Nat := 0) (attr : Nat := 0) : Except CpStop (List Byte) :=
  (partsOf va n).foldl (fun acc p => match acc with
    | .error e => .error e
    | .ok bs => match translate s ctx wantRead p.1 with
      | .error _ => .error (.err 2)
      | .ok k =>
        let key := k - k % 128 + mark
        if keyTier k = 3 then match have'.find? (fun l => l.1 == key) with
          | some l => .ok (bs ++ slice l.2 (k % 128) p.2.2)
          | none => .error (.need key attr)
        else if s.poisoned k then .error (.err 2)
        else .ok (bs ++ s.mem.bytes k p.2.2)) (.ok [])

/-! ### Packet errors (R311) -/

/-- The remote lines at hand for a queue's thread, and the ring as the control block reads now; nothing while a remote block has not come. -/
def State.threadLines (s : State) (n : Nat) : List (Nat × List Byte) := ((s.threads.toList.find? fun t => t.queue == some n).map (·.lines)).getD []
def State.queueRing (s : State) (n : Nat) : Option Ring :=
  (Tab.get? s.queues n).bind fun q => match cpGet s (s.threadLines n) q.ctx q.cb 32 with
    | .ok h => some (ringOf h)
    | .error _ => none
/-- The slot address of a queue's packet. -/
def slotAddr (s : State) (n idx : Nat) : Nat :=
  match ((Tab.get? s.queues n).map (·.packets)).bind fun ps => ps.find? fun p => p.idx == idx with
  | some p => p.slot
  | none => ((s.queueRing n).map fun r => r.slot idx).getD 0
/-- A packet leaves its queue's list of started packets; a queue that UNMAPQ disabled goes with its last packet (R292). -/
def State.packetDone (s : State) (q idx : Nat) : State :=
  (s.modQueue q fun v => { v with packets := v.packets.filter fun p => p.idx != idx }).settleUnmap q
/-- A packet error: the queue goes to ERROR, ERRIDX and ERRCODE are written, the context gets a record; a WAIT started earlier is still looked at. -/
def packetError (s : State) (n idx code : Nat) : State :=
  match Tab.get? s.queues n with
  | none => s
  | some q =>
    let s1 := s.modQueue n fun q =>
      { q with st := if q.st = .disabled then .disabled else .error, notified := false,
               monitor := ({ q with packets := q.packets.filter fun p => p.idx != idx } : Queue).parked }
    let s2 := s1.dropThreads (some idx) (· == n)
    let w := fun (s : State) (o : Nat) (bs : List Byte) => match cpWrite s q.ctx (q.cb + o) bs true true scSys with
      | .ok s' => s'
      | .error _ => s
    let s3 := w (w s2 32 (natToBytes 8 idx)) 40 (natToBytes 4 code)
    let r := fun (c sub : Nat) => { FaultRec.zero with code := c, sub := sub, addr := slotAddr s n idx, time := s.dieCycle 0 }
    let s4 := sendRecord s3 q.ctx (r 34 code)
    (if code = 5 then sendRecord s4 q.ctx (r 36 0) else s4).packetDone n idx

/-! ### Flits (R401, R402) -/

/-- CRC-16 with polynomial 0x1021, starting from zero, most significant bit first. -/
def crcByte (crc : BitVec 16) (b : Byte) : BitVec 16 :=
  (List.range 8).foldl (fun c _ => if c.getLsbD 15 then (c <<< 1) ^^^ 0x1021#16 else c <<< 1) (crc ^^^ (b.setWidth 16 <<< 8))
def crc16 (bs : List Byte) : BitVec 16 := bs.foldl crcByte 0#16

/-- Pads to 56 bytes. -/
def pad56 (bs : List Byte) : List Byte := bs ++ List.replicate (56 - bs.length) 0#8
def flitBytes (payload : List Byte) (seq ack fk vc : Nat) : List Byte :=
  let b := pad56 payload ++ natToBytes 2 seq ++ natToBytes 2 ack ++ natToBytes 1 fk ++ natToBytes 1 vc
  b ++ natToBytes 2 (crc16 b).toNat
/-- The VC byte of a flit: its channel, and the credits it returns, which are a free value; those that arrive are not counted (DESIGN CHOICE, log 135). -/
def Link.vcByte (l : Link) (vc : Nat) : Nat := vc + 4 * (Config.creditsReturned l.txSeq l.rxSeq % 64)

/-- Sends one sequenced flit: it enters the replay buffer, sent once. -/
def Link.push (l : Link) (payload : List Byte) (fk vc : Nat) : Link :=
  let seq := (l.txSeq + 1) % 65536
  let f := flitBytes payload seq l.rxSeq fk (l.vcByte vc)
  { l with txSeq := seq, replay := l.replay ++ [(seq, 1, f)], outbox := l.outbox ++ [f] }
/-- Sends an unsequenced flit (idle or replay request). -/
def Link.pushControl (l : Link) (payload : List Byte) (fk : Nat) : Link :=
  { l with outbox := l.outbox ++ [flitBytes payload l.txSeq l.rxSeq fk (l.vcByte 3)] }

/-- Chunks of 56 bytes. -/
def chunks56 : Nat → List Byte → List (List Byte)
  | 0, _ => []
  | k + 1, bs => if bs.isEmpty then [] else bs.take 56 :: chunks56 k (bs.drop 56)

/-! ### Messages (R403) -/

/-- Bytes of data that follow a header: a READ carries none. -/
def dataLen (opc len : Nat) : Nat := if opc = 1 then 0 else len
def msgBytes (m : Msg) : List Byte :=
  natToBytes 1 m.opc.toNat ++ natToBytes 1 m.attr.toNat ++ natToBytes 2 m.rid.toNat ++ natToBytes 2 m.spkg.toNat ++
  natToBytes 2 m.dpkg.toNat ++ natToBytes 8 m.addr.toNat ++ natToBytes 4 m.len.toNat ++ natToBytes 4 m.aux.toNat ++ m.data
def msgOfBytes (bs : List Byte) : Msg :=
  let f := fun o n => bytesToNat (slice bs o n)
  { opc := BitVec.ofNat 8 (f 0 1), attr := BitVec.ofNat 8 (f 1 1), rid := BitVec.ofNat 16 (f 2 2), spkg := BitVec.ofNat 16 (f 4 2),
    dpkg := BitVec.ofNat 16 (f 6 2), addr := BitVec.ofNat 64 (f 8 8), len := BitVec.ofNat 32 (f 16 4), aux := BitVec.ofNat 32 (f 20 4),
    data := slice bs 24 (dataLen (f 0 1) (f 16 4)) }
/-- Whether a header is well-formed (R403). -/
def msgOk (m : Msg) : Bool :=
  decide (1 ≤ m.opc.toNat) && decide (m.opc.toNat ≤ 10) && m.attr.extractLsb' 4 4 == 0#4 && m.spkg.extractLsb' 14 2 == 0#2 &&
  m.dpkg.extractLsb' 14 2 == 0#2 && decide (1 ≤ m.len.toNat) && decide (m.len.toNat ≤ 16384)
def vcOf (opc : Nat) : Nat :=
  match opc with
  | 4 => 1 | 9 => 1 | 5 => 2 | 6 => 2 | 7 => 2 | 8 => 2 | 10 => 3 | _ => 0
/-- Flits a message takes. -/
def msgFlits (m : Msg) : Nat := ceilDiv (24 + m.data.length) 56

def Link.live (l : Link) : Bool := l.st == .up || l.st == .degraded
/-- A link that has been UP or DEGRADED and is being retrained: by R405's table it still is (log 64). -/
def Link.retraining (l : Link) : Bool := l.st == .training && l.width != 0
/-- The routed link to a package (R404): a link that carries messages, or is being retrained. -/
def State.routeOf (s : State) (pkg : Nat) : Option Nat := Tab.get? s.routes pkg
/-- Whether a link's replay buffer has room for a message (R402). -/
def Link.room (l : Link) (m : Msg) : Bool := l.backlog.isEmpty && decide (l.replay.length + msgFlits m ≤ 1024)

/-- Puts a message's flits on a link. -/
def Link.send (l : Link) (m : Msg) : Link :=
  (chunks56 300 (msgBytes m)).zipIdx.foldl (fun l p => l.push p.1 (if p.2 = 0 then 1 else 2) (vcOf m.opc.toNat)) l
/-- While a link is being retrained its flits stay in the replay buffer, which is sent when it carries messages again (R405); a message for which the buffer has no
room waits (R402). -/
def Link.dispatch (l : Link) (m : Msg) : Link :=
  if !l.room m then { l with backlog := l.backlog ++ [m] } else if l.live then l.send m else { l.send m with outbox := l.outbox }
/-- Sends the messages that have waited, as far as there is room. -/
def Link.drain (l : Link) : Nat → Link
  | 0 => l
  | k + 1 => match l.backlog with
    | [] => l
    | m :: ms => if l.replay.length + msgFlits m ≤ 1024 then ({ l.send m with backlog := ms } : Link).drain k else l
def State.sendOn (s : State) (l : Nat) (m : Msg) : State := s.modLink l fun k => k.dispatch m
/-- Sends a message to a package on its routed link; a message with no route is lost (its requester fails it). -/
def State.sendTo (s : State) (m : Msg) : State :=
  match s.routeOf m.dpkg.toNat with
  | some l => s.sendOn l m
  | none => s

/-! ### Failing requests (R408) -/

def oweRecord (s : State) (n : Nat) (e : Exc) : State :=
  { s.owe n s.nextId (recordOf s n e 2 0 (s.core n).pc (s.core n).pc) with nextId := s.nextId + 1 }
/-- Whether a started WAIT stands in the way (R298). -/
def Queue.waiting (q : Queue) : Option Packet := q.packets.find? fun p => p.kind == 4
/-- The index of the packet a bound queue is at: that of the WAIT it has started, or RIDX. -/
def queueIdx (s : State) (q : Nat) : Nat :=
  match (Tab.get? s.queues q).bind Queue.waiting with
  | some w => w.idx
  | none => ((s.queueRing q).map (·.ridx)).getD 0
/-- What a fenced link, or a missing route, does to what a request serves. -/
def failOwner (s : State) (l : Nat) : Owner → State
  | .access id => match s.accesses.find? (fun a => a.id == id) with
    | some a => failAccess s a (.fenced l)
    | none => s
  | .slot n t => s.stopSlot n t 5 0 0
  | .slotLine n t _ _ => s.stopSlot n t 5 0 0
  | .param n _ va => oweRecord s n ⟨21, 0, 0, va, 128 + l⟩
  | .code n va _ => oweRecord s n ⟨21, 0, 0, va, 128 + l⟩
  | .thread th _ => match (s.thread th).queue with
    | some q => packetError s q ((s.thread th).mid.getD (queueIdx s q)) 2
    | none => s
  | .signal q idx => packetError s q idx 2
  | .packet q idx _ => packetError s q idx 2
  | .ckpt _ => { s with ckptRun := s.ckptRun.map fun j => { j with failed := true } }
  | .admin key => { s with adminLines := s.adminLines ++ [(key, [])] }
  | .nothing => s

/-- A request to a package (R406): it takes the link's next RID; none when the link cannot take it now. With no route it fails at once. -/
def State.request (s : State) (m : Msg) (owner : Owner) : Option State :=
  match s.routeOf m.dpkg.toNat with
  | none => some (failOwner s 15 owner)
  | some l =>
    let k := s.link l
    if 2048 ≤ k.requests.length ∨ !k.room m then none
    else
      let m := { m with rid := BitVec.ofNat 16 k.rid }
      some (s.modLink l fun k =>
        { k.dispatch m with rid := (k.rid + 1) % 65536
                            requests := k.requests ++ [⟨k.rid, m, owner, s.hubTime, none⟩] })

/-! ### States of a link (R405) -/

def linkCode : LinkState → Nat
  | .down => 0 | .training => 1 | .up => 2 | .degraded => 3 | .fenced => 4 | .reset => 5
def State.setLinkState (s : State) (l : Nat) (st : LinkState) : State :=
  sendEvent (s.modLink l fun k => { k with st := st }) 4 l (linkCode st) 0
def State.dropRoutes (s : State) (l : Nat) : State := { s with routes := s.routes.filter fun r => r.2 != l }
/-- A reset: counters zeroed, buffers and reply caches emptied; the link trains. Both states are state changes (R435). -/
def State.resetLink (s : State) (l : Nat) : State :=
  ((s.modLink l fun k => { Link.zero with plink := k.plink, ppkg := k.ppkg, fences := k.fences, errors := k.errors, acq := k.acq }).setLinkState l .reset).setLinkState l .training
def fenceMsg (s : State) (l : Nat) : Msg :=
  { opc := 10#8, attr := 0#8, rid := 0#16, spkg := BitVec.ofNat 16 s.pkgNum, dpkg := BitVec.ofNat 16 (s.link l).ppkg, addr := 0#64,
    len := 1#32, aux := 0#32, data := [0#8] }
/-- A link enters FENCED: FENCE goes to the peer in place of what the link still had to send, its routes are withdrawn, its requests fail, partial messages are
discarded. -/
def fenceLink (s : State) (l : Nat) : State :=
  if !((s.link l).live || (s.link l).st == .training) then s
  else
    let rs := (s.link l).requests
    let s1 := s.modLink l fun k =>
      { ({ k with replay := [], backlog := [] } : Link).send (fenceMsg s l) with requests := [], partials := [], inbox := [], fences := (k.fences + 1) % 2 ^ 32 }
    let s2 := (s1.setLinkState l .fenced).dropRoutes l
    rs.foldl (fun s r => failOwner s l r.owner) { s2 with waiters := s2.waiters.filter (fun w => w.link != l), pieces := s2.pieces.filter fun p => p.1 != l }
/-- A retrain keeps the sequence state (R405); its outcome comes with TRAINING_DONE. -/
def retrainLink (s : State) (l : Nat) : State :=
  if (s.link l).live then (s.modLink l fun k => { k with attempts := 0 }).setLinkState l .training else s

/-- Sends again every unacknowledged flit from `seq` on (R402); the eighth sending of a flit in a row starts a retrain. -/
def resendFrom (s : State) (l seq : Nat) : State :=
  let k := s.link l
  match k.replay.findIdx? (fun f => f.1 == seq) with
  | none => if k.replay.isEmpty ∧ seq = (k.txSeq + 1) % 65536 then s else fenceLink s l
  | some i =>
    let fs := (k.replay.drop i).map fun f => (f.1, f.2.1 + 1, f.2.2)
    let s1 := s.modLink l fun k => { k with outbox := k.outbox ++ fs.map (·.2.2), replays := k.replays + fs.length, replay := k.replay.take i ++ fs }
    if fs.any fun f => decide (8 ≤ f.2.1) then retrainLink s1 l else s1

/-- The peer's acknowledgment: flits up to `ack` leave the replay buffer, and what has waited for room follows. -/
def Link.acked (k : Link) (ack : Nat) : Link :=
  match k.replay.findIdx? (fun f => f.1 == ack) with
  | some i => let k1 : Link := { k with replay := k.replay.drop (i + 1) }; k1.drain k1.backlog.length
  | none => k

/-- Adds a flit's payload to its channel's message; the message once it is whole. A malformed one is discarded and counted as soon as its header shows it (R403), and
so are one that the next message cuts short and a continuation of none. -/
def Link.assemble (k : Link) (vc fk : Nat) (payload : List Byte) : Link × Option Msg :=
  let cut : Bool := fk == 1 && (match Tab.get? k.partials vc with
    | some (some _) => true
    | _ => false)
  let k1 : Link := if cut then { k with errors := k.errors + 1 } else k
  let add := fun (bs : List Byte) =>
    let m := msgOfBytes bs
    if bs.length < 24 then ({ k1 with partials := Tab.set k1.partials vc (some bs) }, none)
    else if !msgOk m then ({ k1 with errors := k1.errors + 1, partials := Tab.set k1.partials vc none }, none)
    else if 24 + dataLen m.opc.toNat m.len.toNat ≤ bs.length then ({ k1 with partials := Tab.erase k1.partials vc }, some m)
    else ({ k1 with partials := Tab.set k1.partials vc (some bs) }, none)
  if fk = 1 then add payload
  else match Tab.get? k.partials vc with
    | none => ({ k with errors := k.errors + 1 }, none)
    | some none => (k, none)
    | some (some bs) => add (bs ++ payload)



/-- Training ends on `lanes` lanes (R405): a first training, or a retrain when the link already had a width. -/
def trainingEnds (s : State) (l lanes : Nat) : State :=
  let k := s.link l
  let again := k.width ≠ 0
  let upAs := fun (st : LinkState) =>
    let s1 := (s.modLink l fun k => { k with width := lanes, attempts := 0 }).setLinkState l st
    if !again then s1
    else s1.modLink l fun k =>
      let k1 : Link := { k with outbox := k.outbox ++ k.replay.map (·.2.2), replays := k.replays + k.replay.length,
                                replay := k.replay.map fun f => (f.1, 1, f.2.2) }
      -- a request for which the replay buffer has no room is sent again as after a RETRY
      let full := (k1.requests.filter fun r => !k1.room r.msg).map (·.rid)
      k1.requests.foldl (fun (k : Link) r => if k.room r.msg && !full.contains r.rid then k.send r.msg else
        { k with requests := k.requests.map fun q => if q.rid = r.rid then { q with refusedAt := some s.hubTime } else q }) k1
  if lanes = 8 then upAs .up
  else if lanes = 4 then upAs .degraded
  else if k.attempts + 1 < 3 then s.modLink l fun k => { k with attempts := k.attempts + 1 }
  else if again then fenceLink s l
  else ((s.modLink l fun k => { k with attempts := 0 }).setLinkState l .down).dropRoutes l

/-! ### Requests to another package's memory (R387, R406) -/

/-- A window address: the tier above bit 52. -/
def windowAddr (w : Window) (off : Nat) : Nat := keyOf w.rtier (w.rbase + off)
def mkMsg (s : State) (opc : Nat) (attr : Nat) (dpkg addr len aux : Nat) (data : List Byte) : Msg :=
  { opc := BitVec.ofNat 8 opc, attr := BitVec.ofNat 8 attr, rid := 0#16, spkg := BitVec.ofNat 16 s.pkgNum, dpkg := BitVec.ofNat 16 dpkg,
    addr := BitVec.ofNat 64 addr, len := BitVec.ofNat 32 len, aux := BitVec.ofNat 32 aux, data := data }

/-- The bit of AUX that marks an access which R380 exempts from its home's race check (DESIGN CHOICE, log 21). -/
def auxExempt : Nat := 2 ^ 31
/-- The bit of AUX that marks a line a FETCH or WBACK moves, poison and all (R426): in a READ that it may be poisoned, in a WRITE that it is (DESIGN CHOICE, log 21). -/
def auxMove : Nat := 2 ^ 30
/-- The message of a remote access, by the window its translation used. -/
def accessMsg (s : State) (a : Access) : Option Msg :=
  match a.win with
  | none => none
  | some w =>
    let addr := windowAddr w (keyPa a.key + a.off)
    let ord := (if a.acq then 1 else 0) + (if a.rel then 2 else 0)
    let mk := fun opc len aux data => some (mkMsg s opc (ord + 4 * a.scope.toNat) w.pkg addr len (aux + if a.exempt then auxExempt else 0) data)
    let n := a.en.length
    let bits := if n < a.bytes.length then a.bytes.drop n else a.en.map fun e => if e then 0xFF#8 else 0#8
    match a.op with
    | .read => mk 1 n (if a.path = .fe then auxMove else 0) []
    | .write => if a.en.all id && n == a.bytes.length then mk 2 n 0 a.bytes else mk 3 (2 * n) 10 (a.bytes.take n ++ bits)
    | .amo aux b v cmp =>
      let d := natToBytes (b / 8) v ++ (if aux = 3#2 then natToBytes (b / 8) cmp else [])
      mk 3 d.length aux.toNat d
    | .enq => mk 3 8 4 (natToBytes 8 a.va)
    | .deq => mk 3 8 5 (natToBytes 8 a.va)
    | .barm x b => mk 3 12 6 (natToBytes 4 x ++ natToBytes 8 b)
    | .bara x b => mk 3 12 7 (natToBytes 4 x ++ natToBytes 8 b)
    | .barw => mk 3 1 8 [0#8]
    | .wqadd => mk 3 16 9 a.bytes
    | _ => none

/-- The access an arriving request asks for, at a physical key of this package; its `core` is the requesting package. -/
def msgAccess (m : Msg) : Access :=
  let key := m.addr.toNat
  let d := fun o n => bytesToNat (slice m.data o n)
  let n := m.len.toNat
  let base : Access :=
    { id := 0, core := m.spkg.toNat, path := .lk, op := .read, ctx := 0, key := key - key % 128, va := 0, off := key % 128, bytes := [],
      en := List.replicate n true, acq := m.attr.getLsbD 0, rel := m.attr.getLsbD 1, scope := m.attr.extractLsb' 2 2, job := 0, part := 0,
      baddr := 0#64, done := false, sent := false, exempt := decide (auxExempt ≤ m.aux.toNat) }
  match m.opc.toNat with
  | 1 => { base with path := if m.aux.toNat / auxMove % 2 = 1 then .fe else .lk }
  | 2 => { base with op := .write, bytes := m.data }
  | _ =>
    match m.aux.toNat % auxMove with
    | 4 => { base with op := .enq, va := d 0 8 }
    | 5 => { base with op := .deq, va := d 0 8 }
    | 6 => { base with op := .barm (d 0 4) (d 4 8) }
    | 7 => { base with op := .bara (d 0 4) (d 4 8) }
    | 8 => { base with op := .barw }
    | 9 => { base with op := .wqadd, bytes := m.data }
    | 10 => { base with op := .write, bytes := m.data, en := (m.data.drop (n / 2)).map fun b => b != 0#8 }
    | x =>
      let w := if x = 3 then 4 * n else 8 * n
      { base with op := .amo (BitVec.ofNat 2 x) w (d 0 (w / 8)) (d (w / 8) (w / 8)) }

/-- Reply data: a status byte (0 done, 1 race, 2 refused, 3 poison, 4 mismatch, 5 landing error), an error kind (for a moved line 9 where it is poisoned), then the
value (for BARW the object and the generation waited on); for a race the link it was found on, the tag, whether the access writes that line, and of a ring
operation's slot its address (R381). -/
def replyFail (l : Nat) : AccFail → List Byte
  | .race t w va _ => [1#8, BitVec.ofNat 8 l] ++ natToBytes 4 t.toNat ++ [if w then 1#8 else 0#8] ++ natToBytes 8 va
  | .refused c lv => [2#8, BitVec.ofNat 8 c, BitVec.ofNat 8 lv]
  | .poison loc => [3#8, BitVec.ofNat 8 loc]
  | .fenced _ => [2#8, 6#8, 0#8]
def replyMsg (s : State) (m : Msg) (data : List Byte) : Msg :=
  { mkMsg s 4 0 m.spkg.toNat 0 data.length 0 data with rid := m.rid }
def retryMsg (s : State) (m : Msg) : Msg := { mkMsg s 9 0 m.spkg.toNat 0 1 0 [0#8] with rid := m.rid }

/-- A snapshot acquire of a link's arrival agent (R377). -/
def Link.acquireAll (k : Link) (rct : Tab Nat) : Link :=
  { k with acq := rct.foldl (fun a e => if e.1 ≤ 811 then a.setCount e.1 (Nat.max (a.count e.1) e.2) else a) k.acq }
/-- A READ or WRITE of another package, line by line, whole or not at all; it is one release (R376). -/
def serveLines (s : State) (l : Nat) (a : Access) : Except AccFail Perf :=
  (partsOf (a.key + a.off) a.en.length).foldl (fun r p => r.bind fun q =>
    (performLocal q.s (.link l) { a with key := p.1 - p.1 % 128, off := p.1 % 128, bytes := slice a.bytes p.2.1 p.2.2, en := List.replicate p.2.2 true,
                                         counted := p.2.1 != 0 }).map fun x => { x with data := q.data ++ x.data }) (.ok ⟨s, [], 0⟩)
/-- Whether export entries let a message's access in (R388); other messages ask for none. -/
def State.admits (s : State) (m : Msg) : Bool :=
  let a := msgAccess m
  let len := match a.op with
    | .barm .. => 64
    | .bara .. => 64
    | .barw => 64
    | .enq => 32
    | .deq => 32
    | _ => a.en.length
  decide (3 < m.opc.toNat) || (s.exported m.spkg.toNat (a.key + a.off) len && (decide (a.off + len ≤ 128) || decide (m.opc.toNat ≤ 2)))
/-- A flit arrives (R402). What makes the receiver ask for a replay is a bad CRC, or the first SEQ out of order of a batch: the flits that follow it are discarded in
silence, until one shows by its SEQ that the sender has gone back. A flit taken is acknowledged by an idle flit (log 135). A message is admitted by the export
entries as it arrives (R394); one for another package leaves on that package's route (R404). -/
def receiveFlit (s : State) (l : Nat) (f : List Byte) : State :=
  let k := s.link l
  let v := fun o n => bytesToNat (slice f o n)
  let want := (k.rxSeq + 1) % 65536
  let drop := fun (q : Nat) (s : State) => s.modLink l fun k => { k with crcErr := k.crcErr + 1, asked := some q }
  let discard := fun (q : Nat) (s : State) => (drop q s).modLink l fun k => k.pushControl (natToBytes 2 want) 3
  if f.length ≠ 64 ∨ v 62 2 ≠ (crc16 (f.take 62)).toNat then discard (k.asked.getD k.rxSeq) s
  else
    let s1 := s.modLink l fun k => k.acked (v 58 2)
    match v 60 1 with
    | 0 => s1
    | 3 => resendFrom s1 l (v 0 2)
    | fk =>
      if fk ≠ 1 ∧ fk ≠ 2 then discard (k.asked.getD k.rxSeq) s1
      else if v 56 2 = want then
        let r := (s1.link l).assemble (v 61 1 % 4) fk (f.take 56)
        let s2 := s1.modLink l fun _ => { r.1 with rxSeq := want, asked := none }.pushControl [] 0
        match r.2 with
        | none => s2
        | some m =>
          if m.opc.toNat ≠ 10 ∧ m.dpkg.toNat ≠ s.pkgNum then s2.sendTo m
          else s2.modLink l fun k => { k with inbox := k.inbox ++ [(m, s2.admits m)] }
      else
        let gap := (v 56 2 + 65536 - want) % 65536
        let known := match k.asked with
          | some h => let d := (v 56 2 + 65536 - h) % 65536; decide (0 < d) && decide (d < 32768)
          | none => false
        if 1024 < gap ∧ gap < 32768 then fenceLink s1 l
        -- a flit taken before is sent again: nothing is missing
        else if 32768 ≤ gap then s1.modLink l fun k => { k with crcErr := k.crcErr + 1 }
        else if known then drop (v 56 2) s1
        else discard (v 56 2) s1

/-- Performs an arriving access as the link's arrival agent (R367, R388, R407), if it was admitted: the state and the reply's data; none for a BARW that waits. -/
def serveAccess (s : State) (l : Nat) (m : Msg) (admitted : Bool) : State × Option (List Byte) :=
  let a := msgAccess m
  let whole := decide (m.opc.toNat ≤ 2)
  if !admitted then (s, some (replyFail l (.refused 6 0)))
  else
    match if whole then serveLines s l a else performLocal s (.link l) a with
    | .error f => (s, some (replyFail l f))
    | .ok p =>
      if a.op = .barw then
        let o := s.bobj (a.key + a.off)
        if o.bad || o.st != 1 then (p.s.modLink l fun k => k.acquireAll p.s.rct, some ([0#8, BitVec.ofNat 8 p.sub] ++ p.data ++ natToBytes 2 o.gen))
        else ({ p.s with waiters := p.s.waiters.filter (fun w => !(w.link == l && w.msg.rid == m.rid)) ++ [⟨l, o.gen, m, none⟩] }, none)
      else
        let moved := decide (m.aux.toNat / auxMove % 2 = 1) && whole
        let ls := linesOf (a.key + a.off) a.en.length
        let s1 := if moved && m.opc.toNat == 2 then { p.s with memPoison := (ls ++ p.s.memPoison).eraseDups } else p.s
        (s1, some ([0#8, if moved && m.opc.toNat == 1 && ls.any s.memPoison.contains then 9#8 else BitVec.ofNat 8 p.sub] ++ p.data))

/-- Remembers a reply for a request that changes state (R406); 2,048 entries are kept. -/
def Link.remember (k : Link) (rid : Nat) (r : Msg) : Link :=
  { k with cache := ((k.cache.filter fun e => e.1 != rid) ++ [(rid, r)]).drop ((k.cache.filter fun e => e.1 != rid).length + 1 - 2048) }
def Link.seen (k : Link) (rid : Nat) : Link :=
  { k with newest := match k.newest with
      | none => some rid
      | some v => if (rid + 65536 - v) % 65536 < 32768 then some rid else some v }
def State.answer (s : State) (l : Nat) (m : Msg) (data : List Byte) (cached : Bool) : State :=
  let r := replyMsg s m data
  let s1 := if cached then s.modLink l fun k => k.remember m.rid.toNat r else s
  s1.sendTo r

/-- What a request that changes state meets (R406): a cached reply, its performance, or a fence. -/
inductive Once where
  | cached (r : Msg)
  | perform
  | fence
def Link.once (k : Link) (rid : Nat) : Once :=
  let age := match k.newest with
    | none => 0
    | some v => (v + 65536 - rid) % 65536
  match if age < 2048 then k.cache.find? (fun e => e.1 == rid) else none with
  | some e => .cached e.2
  | none => if age < 2048 ∨ 32768 ≤ age then .perform else .fence
/-- A request that changes state (R406): answered from the cache, performed as `f` says, or a reason to fence. -/
def State.exactlyOnce (s : State) (l : Nat) (m : Msg) (f : State → State) : State :=
  match (s.link l).once m.rid.toNat with
  | .cached r => s.sendTo r
  | .perform => f (s.modLink l fun k => k.seen m.rid.toNat)
  | .fence => fenceLink s l
/-- A WRITE or ATOMIC. -/
def serveOnce (s : State) (l : Nat) (m : Msg) (admitted : Bool) : State :=
  s.exactlyOnce l m fun s =>
    let (s1, d) := serveAccess s l m admitted
    match d with
    | some bs => s1.answer l m bs true
    | none => s1

/-- Whether an answer to a package can be sent, or has no way to go (R402). -/
def canAnswer (s : State) (pkg : Nat) : Bool :=
  match s.routeOf pkg with
  | some k => (s.link k).backlog.isEmpty && decide ((s.link k).replay.length + 300 ≤ 1024)
  | none => true
/-- Answers the BARW requests of other packages whose wait has ended (R362). -/
def wakeRemote (s : State) : State :=
  s.waiters.foldl (fun s w => match w.ended with
    | some (d, rct) => if canAnswer s w.msg.spkg.toNat then
        (({ s with waiters := s.waiters.filter fun v => v != w }).modLink w.link fun k => k.acquireAll rct).answer w.link w.msg d true else s
    | none => s) s

/-- The message at the head of a link's arrivals is `m`, and its answer can be sent (R402). -/
def atHead (s : State) (l : Nat) (m : Msg) (opc : Nat) : Bool :=
  (s.link l).inbox.head?.map (·.1) == some m && m.opc.toNat == opc && canAnswer s m.spkg.toNat
/-- Whether the message at the head was admitted as it arrived (R394). -/
def State.headIn (s : State) (l : Nat) : Bool := ((s.link l).inbox.head?.map (·.2)).getD false
def State.popInbox (s : State) (l : Nat) : State := s.modLink l fun k => { k with inbox := k.inbox.tail }

end Sys2Proof.Machine
end

