-- ==== Sys2Proof/Machine/Perform.lean ====
section
/-!
DEFINITION. Steps of a core's variable-latency agents: when an access may be performed (R184, R185, R361, R372), performing it (R366, R379), and the
return of its value or its acknowledgment (R96, R164, R169, R176, R182, R322, R362).
-/
namespace Sys2Proof.Machine

/-- The meaning of a device step that its state does not enable. -/
def notNow (what : String) : Host.Outcome State Fault Refusal := .fault (.notEnabled what)
/-- A device step: its effect where the state enables it. -/
def stepIf (what : String) (s : Option State) : Host.Outcome State Fault Refusal :=
  match s with
  | some s' => .next s'.tickFresh
  | none => notNow what

/-! ### Order of accesses (R372) -/

/-- BARA's extra condition (R361): its bundle's drain is done, earlier stores are acknowledged and earlier SSTXs have landed. -/
def baraReady (s : State) (a : Access) : Bool :=
  let c := s.core a.core
  !(c.waits.any (· == .drain)) &&
  !(s.accesses.any fun b => decide (b.id < a.id) && b.core == a.core && b.path == .lsu && b.op.isStore) &&
  !(c.remotes.any fun r => r.store && decide (r.id < a.id))

/-- Whether an access may be performed now. -/
def eligible (s : State) (a : Access) : Bool :=
  !a.done && !a.sent && (s.accesses.takeWhile fun b => b.id != a.id).all (fun b => !blocks b a && !slotBlocks s b a) &&
  (match a.op with
   | .bara 1 _ => a.path != .lsu || baraReady s a
   | _ => true)

/-! ### Delivering -/

def State.dropAccess (s : State) (id : Nat) : State := { s with accesses := s.accesses.filter fun b => b.id != id }
def State.markAccess (s : State) (id : Nat) (f : Access → Access) : State :=
  { s with accesses := s.accesses.map fun b => if b.id = id then f b else b }
def Core.modJob (c : Core) (id : Nat) (f : Job → Job) : Core :=
  { c with jobs := c.jobs.map fun j => if j.id = id then f j else j }
/-- Adds a value's enabled bytes to a job, from byte `part` on. -/
def Job.take (j : Job) (part : Nat) (bs : List Byte) (en : List Bool) : Job :=
  { j with data := j.data ++ ((List.range bs.length).zip bs).filterMap fun p => if en.getD p.1 true then some (part + p.1, p.2) else none }

/-- The 128 bytes of a line as they lie in the pool, given as they lie in a view. -/
def physLine (c : Core) (view : Bool) (off : Nat) (bs : List Byte) : List Byte :=
  let cells := c.padCells view off bs
  let l := c.padAddr view off / 128
  (List.range 128).map fun i => ((cells.find? fun w => w.1 == 128 * l + i).map (·.2)).getD (c.pool.read (128 * l + i))


/-- A line of a FETCH has been read: the line before it settles, and this one's new bytes are known (R165, R182). -/
def fetchLine (s : State) (a : Access) (view : Bool) (off : Nat) (bs : List Byte) (bad : Bool) : State :=
  s.modCore a.core fun c =>
    let c1 := c.settle s.fresh a.job
    let o := off + a.part
    let l := c1.padAddr view o / 128
    let bytes := physLine c1 view o bs
    { c1 with fills := c1.fills.map fun f => if f.id = a.job ∧ f.kind = .fetch ∧ f.line = l then { f with src := .bytes bytes, bad := bad } else f }

/-- What a performed access of the device itself to another package leaves behind: a line, or a reference word read or moved by compare-and-swap; one that
another moved meanwhile is moved from its new value (R329). -/
def deliverDev (s0 : State) (a : Access) (data : List Byte) : State :=
  let s := s0.dropAccess a.id
  match a.dev with
  | some (.line u) => s.devLine u a.key data
  | some (.ref u n) =>
    let v := bytesToNat (slice data 0 8)
    let ends := refOver s a u n (some (v.testBit 63))
    let swap : State := match u.next v with
      | some w => s.pushDev a.ctx a.va (a.key + a.off) a.gid (.amo 3#2 64 w v) [] 8 true true scDev a.dev
      | none => ends
    match a.op with
    | .amo _ _ _ old => if v = old then ends else swap
    | _ => swap
  | _ => s
/-- What a performed access of a core leaves behind; `data` is its value, `bad` whether the line it read is poisoned. -/
def deliver (s : State) (a : Access) (data : List Byte) (bad : Bool) : State :=
  if 160 ≤ a.core then deliverDev s a data else
  let job := (s.core a.core).jobs.find? (fun j => j.id == a.job)
  match a.op with
  | .read =>
    match job.map Job.kind with
    | some (.fetch view off _) => (fetchLine s a view off data bad).dropAccess a.id
    | _ => (s.modCore a.core fun c => c.modJob a.job fun j => j.take a.part data a.en).dropAccess a.id
  | .barw =>
    let o := BObj.ofBytes data
    if o.bad || o.st != 1 then
      (s.modCore a.core fun c => c.modJob a.job fun j => match j.kind with
        | .barw d _ _ => { j with kind := .barw d none (some s.rct), data := [] }.take 0 (natToBytes 4 (o.status none).toNat) []
        | _ => j).markAccess a.id fun b => { b with sent := true, done := true }
    else
      -- the object has been read: the wait holds back no later access (R362)
      (s.modCore a.core fun c => c.modJob a.job fun j => match j.kind with
        | .barw d _ _ => { j with kind := .barw d (some o.gen) none }
        | _ => j).markAccess a.id fun b => { b with sent := true, done := true }
  | .fence .. => s.dropAccess a.id
  | .xfence .. => s.dropAccess a.id
  | _ =>
    (if a.op.loads then s.modCore a.core fun c => c.modJob a.job fun j => j.take a.part data a.en else s).markAccess a.id
      fun b => { b with done := true }

/-- The bytes a WBACK's line carries: the pool's, or old ones by R165. -/
def wbackBytes (c : Core) (id : Nat) (view : Bool) (o : Nat) : List Byte :=
  let snap := (c.fills.filter fun f => f.id == id && f.out).flatMap (·.snap)
  (List.range 128).map fun i =>
    let p := c.padAddr view (o + i)
    ((snap.find? fun w => w.1 == p).map (·.2)).getD (c.pool.read p)

/-- A WBACK's line is read out of the scratchpad just before it is written (R164). -/
def loadWback (s : State) (a : Access) : State × Access × Bool :=
  match ((s.core a.core).jobs.find? (fun j => j.id == a.job)).map Job.kind with
  | some (.wback view off _) =>
    let c := s.core a.core
    let o := off + a.part
    let l := c.padAddr view o / 128
    let a' := { a with bytes := wbackBytes c a.job view o }
    ((s.modCore a.core fun c => { c with fills := c.fills.filter fun f => !(f.id == a.job && f.out && f.line == l) }).markAccess a.id
      (fun b => { b with bytes := a'.bytes }), a', c.poison.contains l)
  | _ => (s, a, false)

/-- Whether the fetch engine's next port in an access's scratchpad is taken by the issue side (R160): a WBACK's line read, or the write of what a FETCH has read. -/
def fePort (s : State) (a : Access) : Bool :=
  let c := s.core a.core
  match ((s.core a.core).jobs.find? (fun j => j.id == a.job)).map Job.kind with
  | some (.wback view off _) => c.portHeld false (bankSet view (off + a.part) 128)
  | some (.fetch ..) => c.fillsHeld a.job
  | _ => false
/-- Performs an eligible access. -/
def performAccess (s : State) (a : Access) : Option State :=
  match a.op with
  | .fence acq rel =>
    let s1 := if rel then s.release (5 * a.core) else s
    let c := s1.core a.core
    some <| (if acq then (c.tagLog.foldl (fun s t => s.acquire a.core 0 a.scope.toNat t) s1).modCore a.core fun c => { c with tagLog := [] } else s1).dropAccess a.id
  | .xfence p q => some ((s.xfenceCount a.core p q).dropAccess a.id)
  | _ =>
    let (s0, a0, bad) := loadWback s a
    if keyTier a.key = 3 then
      match accessMsg s0 a0 with
      | none => some (failAccess s0 a0 (.refused 5 0))
      | some m0 =>
        let m := if bad then { m0 with aux := m0.aux ||| BitVec.ofNat 32 auxMove } else m0
        ((s0.releaseOf (.core a.core a.path) a).markAccess a.id fun b => { b with sent := true }).request m (.access a.id)
    else match farSlot s0 a0 with
    | some (i, k) =>
      -- the record's sequence word lies in another package: it is asked for, and the operation is made when it has come (R180, R367)
      (Tab.get? s0.windows (keyWin k)).bind fun w =>
        (s0.markAccess a.id fun b => { b with sent := true, bytes := natToBytes 8 i }).request
          (mkMsg s0 1 (a.scope.toNat * 4 + if a.acq then 1 else 0) w.pkg (windowAddr w (keyPa k)) 8 0 []) (.access a.id)
    | none =>
      match performLocal s0 (.core a.core a.path) a0 with
      | .error f => some (failAccess s0 a0 f)
      | .ok p =>
        let s1 := deliver p.s a0 p.data (s0.poisoned a0.key)
        let s2 := if bad then { s1 with memPoison := a.key / 128 :: s1.memPoison.filter (· != a.key / 128) } else s1
        some (barrierRecord s2 a0 p.sub)

/-- GLOBAL_ACCESS_PERFORMED. -/
def execGlobalAccessPerformed (id : Nat) (s : State) : Host.Outcome State Fault Refusal :=
  stepIf "GLOBAL_ACCESS_PERFORMED" <|
    match s.accesses.find? (fun a => a.id == id) with
    | some a => if eligible s a && !fePort s a then performAccess s a else none
    | none => none

/-- Whether an access ends with an acknowledgment (R366). -/
def AccOp.posted : AccOp → Bool
  | .write => true
  | .wqadd => true
  | .barm .. => true
  | .bara .. => true
  | _ => false
/-- Whether an access has no task left that waits for what it returns: its core's group ended, or went on without it (R335). -/
def State.leftover (s : State) (a : Access) : Bool := (s.core a.core).gid != a.gid || !((s.core a.core).jobs.any fun j => j.id == a.job)
/-- STORE_ACKNOWLEDGED. -/
def execStoreAcknowledged (id : Nat) (s : State) : Host.Outcome State Fault Refusal :=
  stepIf "STORE_ACKNOWLEDGED" <|
    match s.accesses.find? (fun a => a.id == id) with
    | some a => if a.done && (a.op.posted || s.leftover a) then some (s.dropAccess id) else none
    | none => none

/-! ### SLDX and SSTX (R176) -/

/-- Whether a remote access is the earliest of its core and target. -/
def remoteFirst (c : Core) (r : Remote) : Bool := (c.remotes.find? fun q => q.target == r.target) == some r
/-- SSTX_LANDS: the bytes are written where the view it names has them (R176), with LW set as by every background write but a swizzled FETCH (R162; log 48), and
IN clears; a target that runs no task of the group any more takes nothing. -/
def execSstxLands (core id : Nat) (s : State) : Host.Outcome State Fault Refusal :=
  stepIf "SSTX_LANDS" <|
    let c := s.core core
    match c.remotes.find? (fun r => r.id == id) with
    | some r =>
      if r.store && remoteFirst c r && !(s.core r.target).portHeld true (bankSet r.view r.off r.size) then
        let s1 := s.modCore core fun c => { c with remotes := c.remotes.filter fun q => q.id != id }
        some <| s1.modCore r.target fun t =>
          let t1 := { t with fills := t.fills.filter fun f => !(f.id == id && f.kind == .sstx) }
          if t.st = .free ∨ t.gid ≠ c.gid then t1
          else
            let old := t1.padBytes r.view r.off r.en.length
            let new := mergeBytes old r.bytes r.en
            t1.bgWrite s.fresh false (((t1.padCells r.view r.off new).zip r.en).filterMap fun p => if p.2 then some p.1 else none)
      else none
    | none => none

/-- The value an SLDX brings (R176), or a stop when it meets poison (R426). -/
def sldxValue (s : State) (core : Nat) (r : Remote) : List Byte :=
  let t := s.core r.target
  if t.st = .free ∨ t.gid ≠ (s.core core).gid then (List.range r.size).map (Config.freeByte s.fresh)
  else readPad s r.target r.view r.off r.size

/-! ### Returning loads -/

/-- The bytes of a job's value from byte 0 on. -/
def jobBytes (j : Job) (n : Nat) : List Byte := (List.range n).map fun i => (jobByte j i).getD 0#8
def State.jobOf (s : State) (core id : Nat) : Option Job := (s.core core).jobs.find? (fun j => j.id == id)
/-- Whether every access of a job has been performed. -/
def State.jobDone (s : State) (core id : Nat) : Bool := s.accesses.all fun a => !(a.core == core && a.job == id) || a.done
/-- Takes in the value of the job's SLDX, if it is one and its turn has come; none when it must wait. -/
def takeRemote (s : State) (core : Nat) (j : Job) : Option (State × Job) :=
  let c := s.core core
  match c.remotes.find? (fun r => r.job == j.id && !r.store) with
  | none => some (s, j)
  | some r =>
    if remoteFirst c r && !(s.core r.target).portHeld false (bankSet r.view r.off r.size) then
      let j' := j.take 0 (sldxValue s core r) r.en
      let s1 := s.modCore core fun c => { c with remotes := c.remotes.filter fun q => q.id != r.id }
      let bad := ((s.core r.target).padLines r.view r.off r.size).find? fun l => (s.core r.target).poison.contains l.1
      some (match bad with
        | some l => s1.owe core j.id (recordOf s core ⟨21, 0, 0, 2 ^ 63 + r.target % 40 * 2 ^ 40 + l.2, 4 * 256⟩ 2 0 j.baddr j.baddr)
        | none => s1, j')
    else none
/-- A job ends: it, its accesses and its pending registers go. -/
def State.endJob (s : State) (core id : Nat) : State :=
  { (s.modCore core fun c => { c with jobs := c.jobs.filter (fun j => j.id != id), pend := c.pend.filter (fun p => p.1 != id), regFills := c.regFills.filter (fun p => p.1 != id) }) with
    accesses := s.accesses.filter fun a => !(a.core == core && a.job == id) }

/-- A scalar write by a load. -/
def Core.arrive (c : Core) (r : BitVec 6) (v : Word) : Core := { c.wx r v with xpoison := c.xpoison.filter (· != r) }
/-- PENDING_LOAD_RETURN: GLD, GAMO, ENQ, DEQ, SLDX or RETAIN into scalar registers (R96). -/
def execPendingLoadReturn (core job : Nat) (s : State) : Host.Outcome State Fault Refusal :=
  stepIf "PENDING_LOAD_RETURN" <|
    match s.jobOf core job with
    | none => none
    | some j =>
      match j.kind with
      | .loadX d sz sext pair =>
        if !s.jobDone core job then none
        else match takeRemote s core j with
          | none => none
          | some (s1, j1) =>
            let n := szBytes sz
            let v := bytesToNat (jobBytes j1 n)
            let w : Word := if sext then BitVec.ofNat 32 (intBits 32 (sInt (8 * n) v)) else BitVec.ofNat 32 v
            some ((s1.modCore core fun c =>
              if pair then (c.arrive d (BitVec.ofNat 32 v)).arrive (oddOf d) (BitVec.ofNat 32 (v / 2 ^ 32)) else c.arrive d w).endJob core job)
      | .retain d => some ((s.modCore core fun c => c.arrive d (BitVec.ofNat 32 (bytesToNat (jobBytes j 4)))).endJob core job)
      | _ => none
/-- VECTOR_FILL_DONE: a vector or mask register takes its value (R164). -/
def execVectorFillDone (core job : Nat) (s : State) : Host.Outcome State Fault Refusal :=
  stepIf "VECTOR_FILL_DONE" <|
    match s.jobOf core job with
    | none => none
    | some j =>
      if !s.jobDone core job then none
      else match takeRemote s core j with
        | none => none
        | some (s1, j1) =>
          match j1.kind with
          | .loadV d lanes =>
            some ((s1.modCore core fun c => c.wv d (mergeLanes (c.rv d) (BitVec.ofNat 4096 (bytesToNat (jobBytes j1 512))) lanes) lanes).endJob core job)
          | .loadK d en =>
            let v : Mask := BitVec.ofNat 128 (bytesToNat (jobBytes j1 16))
            some ((s1.modCore core fun c => c.mergeK d v en).endJob core job)
          | _ => none
/-- FETCH_ENGINE_COMPLETE (R182): a FETCH whose lines are read, or a WBACK whose lines are acknowledged. -/
def execFetchEngineComplete (core job : Nat) (s : State) : Host.Outcome State Fault Refusal :=
  stepIf "FETCH_ENGINE_COMPLETE" <|
    match s.jobOf core job with
    | none => none
    | some j =>
      if !j.kind.isFe || s.accesses.any (fun a => a.core == core && a.job == job) || (s.core core).fillsHeld job then none
      else some ((s.modCore core fun c => let c1 := c.settle s.fresh job
                                          { c1 with fills := c1.fills.filter fun f => !(f.id == job && (f.kind == .fetch || f.kind == .wback)) }).endJob core job)

/-! ### Barriers' waits -/

/-- BARRIER_ARRIVAL: a BARA's arrival reaches its object's home. -/
def execBarrierArrival (id : Nat) (s : State) : Host.Outcome State Fault Refusal :=
  stepIf "BARRIER_ARRIVAL" <|
    match s.accesses.find? (fun a => a.id == id) with
    | some a => (match a.op with
      | .bara 1 _ => if eligible s a then performAccess s a else none
      | _ => none)
    | none => none
/-- ENGINE_ARRIVAL: an engine's arrival reaches its object's home (R363). -/
def execEngineArrival (id : Nat) (s : State) : Host.Outcome State Fault Refusal :=
  stepIf "ENGINE_ARRIVAL" <|
    match s.accesses.find? (fun a => a.id == id) with
    | some a => (match a.op with
      | .bara 0 _ => if eligible s a then performAccess s a else none
      | _ => none)
    | none => none
/-- BARW_WAKE (R362): the wait ends, with a snapshot acquire as of the end of the generation. -/
def execBarwWake (core job : Nat) (s : State) : Host.Outcome State Fault Refusal :=
  stepIf "BARW_WAKE" <|
    match s.jobOf core job, s.accesses.find? (fun a => a.core == core && a.job == job && a.op == .barw) with
    | some j, some a =>
      (match j.kind with
       | .barw d gen (some rct) =>
         -- the status is that of the change that ended the wait, or of a later one that the device's reading saw with it
         let o := s.bobj (a.key + a.off)
         let v : Word := match gen with
           | some g => if keyTier a.key ≠ 3 ∧ o.ends g ∧ Config.freeBit s.fresh 0 then o.status gen else BitVec.ofNat 32 (bytesToNat (jobBytes j 4))
           | none => BitVec.ofNat 32 (bytesToNat (jobBytes j 4))
         if j.data.isEmpty then none
         else
           -- an object found malformed at a first read has had its record then (R364)
           let s0 := if gen.isSome && v.getLsbD 20 then barrierRecord s a 3 else s
           let s1 := (s0.modCore core fun c => (c.acquireAll 0 rct).arrive d v).endJob core job
           let g := (s.core core).gid
           -- members released for this wait hold again at their next pre-emption points (R278)
           some { s1 with cores := s1.cores.map fun c => if c.gid = g ∧ c.noReq ∧ !c.arrived ∧ !(c.waits.any fun w => w == .sync 0) then { c with noReq := false } else c }
       | _ => none)
    | _, _ => none

/-! ### Code fills and WAITQ -/

/-- Puts a line into the code cache, which holds 512 lines (R322). -/
def Core.cacheLine (c : Core) (va : Nat) (bs : List Byte) : Core :=
  let rest := c.cache.filter fun l => !(l.1 == c.ctx && l.2.1 == va / 128)
  { c with cache := (c.ctx, va / 128, bs) :: rest.take 511 }
/-- CODE_CACHE_FILL (R322): the line a running core misses, of code (R390) or of a link-table slot (R107), is fetched from its home. -/
def execCodeCacheFill (core : Nat) (s : State) : Host.Outcome State Fault Refusal :=
  stepIf "CODE_CACHE_FILL" <|
    let c := s.core core
    if c.st ≠ .running then none
    else match codeMiss s core with
      | none => none
      | some (va, slot) =>
        match translate s c.ctx (if slot then wantSlot else wantCode) va with
        | .error _ => none
        | .ok k =>
          let key := k - k % 128
          if keyTier k = 3 then
            let asked := s.links.toList.any fun l => l.requests.any fun r => r.owner == .code core va slot
            match Tab.get? s.windows (keyWin k) with
            | some w => if asked then none else s.request (mkMsg s 1 (if slot then 9 else 0) w.pkg (windowAddr w (keyPa key)) 128 auxExempt []) (.code core va slot)
            | none => none
          else if s.poisoned key then some (oweRecord s core ⟨21, 0, 0, va, locOf key * 256⟩)
          else some ((s.useAt c.ctx va (k / 128)).modCore core fun c => c.cacheLine va (s.mem.bytes key 128))
/-- WAITQ_WAKE (R125): a record is ready; the reads acquire, and the reference word is re-pinned. Reads that find none acquire as well: they are a step while there is
something to acquire. A ring of another package is looked at by reads over its link, again and again. A sleeper whom a FEED's wake reaches after another worker has taken the record stays asleep (DESIGN CHOICE, log 108), and one whose ring's
pages fail meanwhile stays asleep (log 36). -/
def execWaitqWake (core : Nat) (s : State) : Host.Outcome State Fault Refusal :=
  stepIf "WAITQ_WAKE" <|
    let c := s.core core
    let fresh := fun (s : State) => s.modCore core fun c => { c with rlines := [] }
    match c.waits with
    | .waitq cb :: _ =>
      if c.st ≠ .running ∨ !c.owed.isEmpty ∨ waitqBehind s core cb then none
      else match lookRing s core c.rlines cb with
        | .yes => some (fresh (repin (popWait (waitqAcquire s core cb) core) core))
        | .no =>
          let s1 := waitqAcquire s core cb
          if c.rlines.isEmpty ∧ (s1.core core).acq = c.acq ∧ (s1.core core).descNew = c.descNew then none else some (fresh s1)
        | .need key va =>
          if s.links.toList.any (fun l => l.requests.any fun r => r.owner == .param core key va) then none
          else (Tab.get? s.windows (keyWin key)).bind fun w => s.request (mkMsg s 1 9 w.pkg (windowAddr w (keyPa key)) 128 0 []) (.param core key va)
        | .stop e => if e.code = 3 then none else some (oweRecord s core e)
    | _ => none

end Sys2Proof.Machine
end

