-- ==== Sys2Proof/Machine/Tensor.lean ====
section
/-!
DEFINITION. Tensor descriptors (R252–R259): fields, well-formedness, the copy a core reads (R255), and element addresses (R256).
-/
namespace Sys2Proof.Machine

/-- A descriptor's fields (R252). -/
structure Desc where
  fmt    : Nat
  flags  : Nat
  ndim   : Nat
  pbin   : Nat
  pad    : Nat
  base   : Nat
  dims   : List Nat
  strs   : List Int
  scale  : Nat
  btab   : Nat
  blog   : Nat
  res    : Nat
  btcnt  : Nat
  map    : List Nat
  logn   : Nat
  mepoch : Nat
  peer   : Nat
  deriving DecidableEq, Repr

def descField (v : BitVec 1024) (off n : Nat) : Nat := natBits v.toNat (8 * off) (8 * n)

def Desc.ofBits (v : BitVec 1024) : Desc :=
  let f := descField v
  { fmt := f 0 1, flags := f 1 1, ndim := f 2 1, pbin := f 3 1, pad := f 4 4, base := f 8 8,
    dims := (List.range 4).map fun i => f (16 + 4 * i) 4, strs := (List.range 3).map fun i => sInt 64 (f (32 + 8 * i) 8),
    scale := f 56 8, btab := f 64 8, blog := f 72 1, res := f 73 3 + f 113 1 + f 116 4, btcnt := f 76 4,
    map := (List.range 32).map fun i => f (80 + i) 1, logn := f 112 1, mepoch := f 114 2, peer := f 120 8 }

def Desc.v (d : Desc) : Bool := d.flags.testBit 0
def Desc.bt (d : Desc) : Bool := d.flags.testBit 1
def Desc.mapped (d : Desc) : Bool := d.flags.testBit 2
def Desc.dim (d : Desc) (i : Nat) : Nat := d.dims.getD i 1
def Desc.str (d : Desc) (i : Nat) : Int := d.strs.getD (i - 1) 0

/-- An operand's element kind: a format of R23 or WQ. -/
inductive EKind where
  | el (t : ElemT)
  | wq
  deriving DecidableEq, Repr

/-- The element kind of an FMT code, NINT resolved through SYS.FMTE (R41). -/
def ekindOf (fmte : Word) (fmt : Nat) : Option EKind :=
  if fmt = 0x10 then some .wq
  else if fmt = 0x11 then some (.el (nintFormat fmte))
  else if fmt ≤ 14 then (ElemT.ofCode (BitVec.ofNat 4 fmt)).map .el
  else none

/-- The format whose conditions R253 puts on a descriptor: NINT as an 8-bit format. -/
def Desc.kind0 (d : Desc) : Option EKind := if d.fmt = 0x11 then some (.el .i8) else ekindOf 0#32 d.fmt

/-- Bytes that strides count in: the element or the BX block, one byte for 4-bit formats. -/
def EKind.unit : EKind → Nat
  | .wq => 16
  | .el .bx8 => 16 | .el .bx6 => 12 | .el .bx4 => 8
  | .el t => if t.bits = 4 then 1 else t.bits / 8
/-- Bits of an element held in memory outside BX blocks. -/
def EKind.width : EKind → Nat
  | .wq => 128
  | .el t => t.bits
def EKind.isBx : EKind → Bool
  | .wq => false
  | .el t => t.isBx

/-! ### The index-bit map (R258) -/

def mapKind (b : Nat) : Nat := b / 64
def mapPos (b : Nat) : Nat := b % 64
/-- The positions of the bits whose kind satisfies `p`, in order of logical bit. -/
def Desc.positions (d : Desc) (p : Nat → Bool) : List Nat :=
  ((d.map.take d.logn).filter fun b => p (mapKind b)).map mapPos
/-- Positions 0 to k − 1, each once. -/
def isPerm (ps : List Nat) : Bool := (List.range ps.length).all fun i => ps.contains i
def Desc.nLocal (d : Desc) : Nat := (d.positions (· == 0)).length
def Desc.nCore (d : Desc) : Nat := (d.positions (· == 1)).length
def Desc.nPeer (d : Desc) : Nat := (d.positions (fun k => 2 ≤ k)).length

def Desc.mapWf (d : Desc) : Bool :=
  decide (1 ≤ d.logn) && decide (d.logn ≤ 31) && d.ndim == 1 && d.dim 0 == 2 ^ d.logn && (d.fmt == 0 || d.fmt == 9) && !d.bt &&
  d.strs.all (· == 0) && (d.map.drop d.logn).all (· == 0) && isPerm (d.positions (· == 0)) && isPerm (d.positions (· == 1)) &&
  isPerm (d.positions (fun k => 2 ≤ k)) && (d.positions (· == 0)).all (· ≤ 31) && (d.positions (· == 1)).all (· ≤ 4) &&
  (d.positions (fun k => 2 ≤ k)).all (· ≤ 13) && (d.nCore == 0 || d.base / 2 ^ 63 == 1 && natBits d.base 40 6 == 63) &&
  (d.nPeer != 0 || d.peer == 0)

/-- A well-formed image with V = 1 (R253). -/
def Desc.wf (d : Desc) : Bool :=
  match d.kind0 with
  | none => false
  | some k =>
    d.v && decide (d.flags < 8) && d.res == 0 && decide (1 ≤ d.ndim) && decide (d.ndim ≤ 4) && d.dims.all (fun x => 1 ≤ x) &&
    (d.dims.drop d.ndim).all (· == 1) && (d.strs.drop (d.ndim - 1)).all (· == 0) && (d.fmt == 0x10 || d.pbin == 0) &&
    d.strs.all (fun x => x % (k.unit : Int) == 0) &&
    (if k.isBx then d.dim 0 % 16 == 0 && d.scale != 0 && d.scale % 2 == 0 && d.pad == 0
     else d.scale == 0 && decide (d.pad < 2 ^ k.width)) &&
    (k.width != 4 || k.isBx || d.dim 0 % 2 == 0) &&
    (if d.bt then decide (12 ≤ d.blog) && decide (d.blog ≤ 30) else d.btab == 0 && d.blog == 0 && d.btcnt == 0) &&
    (if d.mapped then d.mapWf else d.map.all (· == 0) && d.logn == 0 && d.peer == 0)

/-- The conditions NINT adds when it resolves to four bits (R253). -/
def Desc.nintOk (d : Desc) (fmte : Word) : Bool :=
  d.fmt != 0x11 || !fmteNiw fmte || (d.dim 0 % 2 == 0 && decide (d.pad < 16))

/-! ### A core's copy (R251, R255) -/


/-- The entry a core's instruction reads: a newer entry of another core is certain once an acquire is ordered after its release, and until then
a free choice. -/
def readDesc (s : State) (n : Nat) (td : BitVec 8) : BitVec 1024 :=
  let c := s.core n
  (c.descNew.filter (fun p => p.n == td)).foldl
    (fun cur p => if p.sure ∨ Config.freeBit s.fresh (p.counts.getD 2 0) then p.entry else cur)
    ((Tab.get? c.descs td.toNat).getD 0#1024)
def descAt (s : State) (n : Nat) (td : BitVec 8) : Desc := Desc.ofBits (readDesc s n td)

/-- The element kind of an operand that holds a valid tensor. -/
def validKind (fmte : Word) (d : Desc) : Option EKind := if d.wf && d.nintOk fmte then ekindOf fmte d.fmt else none

/-- FORMAT records (R192). -/
def fmtWord (td : BitVec 8) (d : Desc) : Nat := td.toNat + d.fmt * 2 ^ 8
def fmtExc (td : BitVec 8) (d : Desc) : Exc := ⟨15, 0, fmtWord td d, 0, 0⟩
def pairExc (ta : BitVec 8) (da : Desc) (tb : BitVec 8) (db : Desc) : Exc := ⟨15, 0, fmtWord ta da, 0, fmtWord tb db + 2 ^ 17⟩
def strideExc (i : Nat) (v : Word) : Exc := ⟨15, 0, i + 2 ^ 16, 0, v.toNat⟩

/-! ### Element addresses (R256) -/

/-- The byte offset of an element's unit, its bit offset within, and for BX the scale word's address. -/
def Desc.offset (d : Desc) (k : EKind) (i0 i1 i2 i3 : Nat) : Int :=
  let d0 : Nat := match k with
    | .wq => 16 * i0
    | .el t => if t.isBx then k.unit * (i0 / 16) else if t.bits = 4 then i0 / 2 else t.bits / 8 * i0
  (d.base : Int) + d0 + i1 * d.str 1 + i2 * d.str 2 + i3 * d.str 3
def Desc.scaleAddr (d : Desc) (i0 i1 i2 i3 : Nat) : Nat :=
  d.scale + 2 * (i0 / 16 + d.dim 0 / 16 * (i1 + d.dim 1 * (i2 + d.dim 2 * i3)))
/-- The logical elements in order: dimension 0 fastest. -/
def Desc.unflat (d : Desc) (e : Nat) : Nat × Nat × Nat × Nat :=
  (e % d.dim 0, e / d.dim 0 % d.dim 1, e / d.dim 0 / d.dim 1 % d.dim 2, e / d.dim 0 / d.dim 1 / d.dim 2)
def Desc.count (d : Desc) : Nat := d.dim 0 * d.dim 1 * d.dim 2 * d.dim 3

end Sys2Proof.Machine
end

