-- ==== Sys2Proof/Machine/Copies.lean ====
section
/-!
DEFINITION. On-die copies and timetables (R168, R169, R244–R247), MWAIT and MSTAT (R248, R249).
-/
namespace Sys2Proof.Machine

/-! ### Issue -/

/-- The stand's cores at the positions of a mask (R244). -/
def standCores (n mask : Nat) : List Nat := ((List.range 8).filter fun i => mask.testBit i).map (n / 8 * 8 + ·)
/-- The core a copy's core field names. -/
def copyCore (n f : Nat) : Option Nat := if f = 63 then some n else if f < 40 then some (40 * dieOf n + f) else none
/-- Checks a copy (R244): the failing value, or none. -/
def copyBad (s : State) (n src dst len : Nat) (ts : List Nat) : Option Nat :=
  let g := (s.core n).gid
  if len % 128 ≠ 0 ∨ len < 128 ∨ 1048576 < len then some len
  else if src % 128 ≠ 0 ∨ (s.core n).padSize < src + len then some src
  else if dst % 128 ≠ 0 ∨ ts.isEmpty ∨ ts.any (fun t => (s.core t).st == .free || (s.core t).gid != g || decide ((s.core t).padSize < dst + len)) then
    some dst
  else none
/-- A copy to a set of targets; `multi` says that it was named by a mask. -/
def mkCopy (n id : Nat) (tag : BitVec 2) (mxt multi : Bool) (ts : List Nat) (src dst len startIc : Nat) : Copy :=
  let t := ts.headD n
  let sameStand := t / 8 == n / 8
  { id := id, tag := tag, mxt := mxt, targets := ts, src := src, dst := dst, len := len, startIc := startIc,
    inCore := !multi && t == n, hops := if multi || sameStand then none else some (Nat.max (n / 8 - t / 8) (t / 8 - n / 8)),
    started := false, startAt := 0, landed := [], delay := [], deadline := 0 }

def copyIssue (o : XOps) (ts : At → List Nat) (multi : Bool) : Op := fun s a =>
  let c := s.core a.n
  let d := o.td0.extractLsb' 0 6
  let r := o.bp ++ 0#1
  let src := (c.rx r).toNat
  let len := (c.rx (oddOf r)).toNat
  let dst := (c.rx d).toNat
  let base : Issue := { reads := d :: bothOf r }
  match copyBad s a.n src dst len (ts a) with
  | some x => { base with excs := [addrExc x] }
  | none =>
    { base with excs := if c.channelBusy o.tag then [exc0 18] else [],
                eff := fun s' =>
                  let (id, s1) := s'.takeId
                  s1.modCore a.n fun c' =>
                    { c' with copies := c'.copies ++ [mkCopy a.n id o.tag false multi (ts a) src dst len (c'.ic + o.p3.toNat)] } }
def opXcp (o : XOps) : Op := copyIssue o (fun a => (copyCore a.n o.td1.toNat).toList) false
def opXmc (o : XOps) : Op := copyIssue o (fun a => standCores a.n o.td1.toNat) true

/-- The targets of a timetable entry. -/
def entryTargets (n : Nat) (core mask : Nat) : List Nat := if mask = 0 then (copyCore n core).toList else standCores n mask
/-- An MXT table's entries as read (R246). -/
def tableEntries (bs : List Byte) (k : Nat) : List (Nat × Nat × Nat × Nat × Nat × Nat) :=
  (List.range k).map fun i =>
    let f := fun o n => bytesToNat (slice bs (16 * i + o) n)
    (f 0 2, f 2 1, f 3 1, f 4 4, f 8 4, f 12 4)
def nondecreasing : List Nat → Bool
  | a :: b :: l => decide (a ≤ b) && nondecreasing (b :: l)
  | _ => true
def padLinesSettled (c : Core) (off n : Nat) : Bool := (c.padLines false off n).all fun l => !c.lineIn l.1 && !c.lineOut l.1
def opMxt (o : XOps) : Op := fun s a =>
  let c := s.core a.n
  let r := o.bp ++ 0#1
  let off := (c.rx r).toNat
  let k := (c.rx (oddOf r)).toNat
  let base : Issue := { reads := bothOf r }
  if k < 1 ∨ 256 < k then { base with excs := [exc0 16] }
  else if off % 16 ≠ 0 ∨ c.padSize < off + 16 * k then { base with excs := [addrExc off] }
  else if c.param = 0 then { base with stall := true }
  else
    let es := tableEntries ((List.range (16 * k)).map fun i => poolSeen c (c.padAddr false (off + i))) k
    -- an entry with CORE nonzero beside a MASK raises PARAM (DESIGN CHOICE, log 109)
    let bad := es.findSome? fun e =>
      if e.2.2.1 ≠ 0 ∧ e.2.1 ≠ 0 then some (exc0 16)
      else (copyBad s a.n e.2.2.2.1 e.2.2.2.2.1 e.2.2.2.2.2 (entryTargets a.n e.2.1 e.2.2.1)).map addrExc
    { base with excs := (if nondecreasing (es.map (·.1)) then [] else [exc0 16]) ++ bad.toList ++ (if c.channelBusy o.tag then [exc0 18] else []),
                eff := fun s' => s'.modCore a.n fun c' =>
                  { c' with tables := c'.tables.filter (fun t => t.tag != o.tag) ++ [⟨o.tag, c'.ic + o.p3.toNat, es, false⟩] } }

/-- MWAIT (R248). -/
def opMwait (tag : BitVec 2) (fl : BitVec 4) : Op := fun _ _ => { waits := [.mwait (fl.getLsbD 1) (fl.getLsbD 2) tag false] }
/-- MSTAT (R249). -/
def opMstat (tag : BitVec 2) (bp : BitVec 5) : Op := fun s a =>
  let c := s.core a.n
  let m := c.slotAt tag
  pairIssue c a 1 [] (bp ++ 0#1) (joinPair (BitVec.ofNat 32 (m.pr 7)) (BitVec.ofNat 32 (m.pr 0)))

def execXcp (o : XOps) (s : State) : Host.Outcome State Fault Refusal := runSolo (.xcp o) (opXcp o) s
def execXmc (o : XOps) (s : State) : Host.Outcome State Fault Refusal := runSolo (.xmc o) (opXmc o) s
def execMxt (o : XOps) (s : State) : Host.Outcome State Fault Refusal := runSolo (.mxt o) (opMxt o) s
def execMwait (tag : BitVec 2) (fl : BitVec 4) (s : State) : Host.Outcome State Fault Refusal :=
  runSolo (.mwait tag fl) (opMwait tag fl) s
def execMstat (tag : BitVec 2) (bp : BitVec 5) (s : State) : Host.Outcome State Fault Refusal :=
  runSolo (.mstat tag bp) (opMstat tag bp) s

/-! ### Running -/

def Core.modCopy (c : Core) (id : Nat) (f : Copy → Copy) : Core := { c with copies := c.copies.map fun k => if k.id = id then f k else k }
/-- The die cycle of a copy's start cycle. From the start of a die cycle until its core's turn, the core's count is that cycle's issue cycle, and the copy that starts in
it starts before its bundle issues or while it stalls. A start in a command's own issue cycle comes right after that bundle, which for the last core of
the package is when the next die cycle has begun. -/
def startDieOf (s : State) (n : Nat) (k : Copy) : Nat :=
  s.dieCycle (dieOf n) - (if k.startIc < (s.core n).ic ∧ s.turn.val ≤ n then 1 else 0)
/-- Whether an issue cycle of core `n` has come (R168): the core's count is there before its turn, or has passed it. -/
def cycleCome (s : State) (n ic : Nat) : Bool := decide (ic < (s.core n).ic) || (decide (ic = (s.core n).ic) && decide (s.turn.val ≤ n))
/-- A copy starts (R168, R244): OUT on the source lines, IN on the destination lines. -/
def startCopy (s : State) (n : Nat) (k : Copy) : State :=
  let now := if k.inCore then k.startIc else startDieOf s n k
  let s1 := s.modCore n fun c =>
    ({ c with fills := c.fills ++ (c.padLines false k.src k.len).map fun l => ⟨k.id, l.1, true, .copy, .unknown, [], false⟩ } : Core).modCopy k.id
      fun k => { k with started := true, startAt := now, deadline := now + k.lead + k.perLine * k.lines }
  k.targets.foldl (fun s t =>
    s.modCore t fun c =>
      { c with fills := c.fills ++ (List.range k.lines).map fun i =>
          ⟨k.id, c.padAddr false (k.dst + 128 * i) / 128, false, .copy, .pool n ((s.core n).padAddr false (k.src + 128 * i)), [], false⟩ }) s1

/-- ON_DIE_COPY_START: in the die cycle of the issue cycle it starts in, a stall of the core in that cycle included. -/
def execOnDieCopyStart (core id : Nat) (s : State) : Host.Outcome State Fault Refusal :=
  stepIf "ON_DIE_COPY_START" <|
    match (s.core core).copies.find? (fun k => k.id == id) with
    | some k => if !k.started && cycleCome s core k.startIc then some (startCopy s core k) else none
    | none => none

/-- The source bytes of line `i`, read once, in some cycle from the start up to the first landing of the line: its OUT clears, and every target will bring them
(R164, R165, R169). -/
def copyLine (s : State) (n : Nat) (k : Copy) (i : Nat) : List Byte × State :=
  let c := s.core n
  let p := c.padAddr false (k.src + 128 * i)
  match c.fills.find? (fun f => f.id == k.id && f.out && f.line == p / 128) with
  | none => (c.pool.bytes p 128, s)
  | some f =>
    let bs := (List.range 128).map fun j => match f.snap.find? (fun w => w.1 == p + j) with
      | some w => w.2
      | none => readPool s n (p + j)
    let s1 := s.modCore n fun c => { c with fills := c.fills.filter fun g => !(g.id == k.id && g.out && g.line == p / 128) }
    (bs, k.targets.foldl (fun s t => s.modCore t fun c =>
      { c with fills := c.fills.map fun g => if g.id = k.id ∧ !g.out ∧ g.src = .pool n p then { g with src := .bytes bs, bad := (s.core n).poison.contains (p / 128) } else g }) s1)

/-- At the end of a die cycle the copy engine has read some of the source lines of the copies under way, by a free choice (R169). -/
def captureCopies (s : State) : State :=
  (List.range 160).foldl (fun s n =>
    (s.core n).copies.foldl (fun s k => if !k.started then s else
      (List.range k.lines).foldl (fun s i => if Config.freeBit s.fresh (k.id * 8192 + i) then (copyLine s n k i).2 else s) s) s) s

/-- Whether two lines of copies meet in a bank of one destination (R245). -/
def linesMeet (c : Core) (k : Copy) (i : Nat) (m : Copy) (j : Nat) : Bool :=
  c.padAddr false (k.dst + 128 * i) / 128 % 16 == c.padAddr false (m.dst + 128 * j) / 128 % 16
/-- The copies with a line due at core `t`, in the order of R245: (source core, copy). -/
def dueAt (s : State) (t : Nat) : List (Nat × Copy) :=
  (List.range 40).flatMap fun i =>
    let n := 40 * dieOf t + i
    ((s.core n).copies.filter fun k => k.started && k.targets.contains t && decide (k.doneLines t < k.lines) && decide (k.dueTime t ≤ copyNow s n k)).map
      fun k => (n, k)
/-- Whether an issue-side write of core `t` takes the port that the line due there wants, in the cycle at hand (R160, R169). -/
def portTaken (s : State) (t : Nat) (k : Copy) : Bool :=
  (s.core t).st == .running && (k.inCore || decide (s.turn.val ≤ t)) && (writeBanks (s.core t) &&& k.lineBanks (k.doneLines t)) != 0#32
/-- Earlier in the order of R245. -/
def copyBefore (a b : Nat × Copy) : Bool := decide (a.1 < b.1) || (a.1 == b.1 && decide (a.2.tag.toNat < b.2.tag.toNat))

/-- A line lands at a target; a due line of another copy on the same bank loses a cycle. -/
def landLine (s : State) (n : Nat) (k : Copy) (t : Nat) : State :=
  let i := k.doneLines t
  let (bs, s1) := copyLine s n k i
  let s2 := s1.modCore t fun c =>
    let p := c.padAddr false (k.dst + 128 * i)
    let src := c.fills.find? fun f => f.id == k.id && !f.out && f.line == p / 128
    let bs' := match src.map Fill.src with
      | some (.bytes b) => b
      | _ => bs
    let c1 := (c.bgWrite s.fresh false (bs'.zipIdx.map fun w => (p + w.2, w.1))).poisonLine (p / 128) ((src.map Fill.bad).getD false)
    { c1 with fills := c1.fills.filter fun f => !(f.id == k.id && !f.out && f.line == p / 128) }
  let s3 := (dueAt s t).foldl (fun s e =>
    if (e.1 == n && e.2.id == k.id) || !linesMeet (s.core t) k i e.2 (e.2.doneLines t) then s
    else s.modCore e.1 fun c => c.modCopy e.2.id fun m => { m with delay := Tab.setCount m.delay t (m.delayOf t + 1) }) s2
  let s4 := s3.modCore n fun c => c.modCopy k.id fun m => { m with landed := Tab.setCount m.landed t (i + 1) }
  s4.modCore n fun c => { c with copies := c.copies.filter fun m => !m.complete }

/-- The FETCH of core `t` whose next line, by a free choice, wants the same banks as a copy's line in this very cycle: the fetch engine comes first (R160). -/
def fetchFirst (s : State) (t : Nat) (k : Copy) : Option Nat :=
  let c := s.core t
  let p := c.padAddr false (k.dst + 128 * k.doneLines t) / 128
  ((c.fills.find? fun f => f.kind == .fetch && f.line % 16 == p % 16 && (match f.src with
    | .bytes _ => true
    | _ => false)).map (·.id)).filter fun _ => Config.freeBit s.fresh k.id
/-- ON_DIE_COPY_LAND: the next line of a copy lands at core `dst` in its cycle, or loses the cycle to the fetch engine. -/
def execOnDieCopyLand (core id dst : Nat) (s : State) : Host.Outcome State Fault Refusal :=
  stepIf "ON_DIE_COPY_LAND" <|
    match (dueAt s dst).find? (fun e => e.1 == core && e.2.id == id) with
    | some e =>
      let i := e.2.doneLines dst
      if portTaken s dst e.2 || (dueAt s dst).any (fun f => copyBefore f e && linesMeet (s.core dst) f.2 (f.2.doneLines dst) e.2 i) then none
      else match fetchFirst s dst e.2 with
        | some j => some ((s.modCore dst fun c => c.settle s.fresh j).modCore core fun c => c.modCopy id fun m => { m with delay := Tab.setCount m.delay dst (m.delayOf dst + 1) })
        | none => some (landLine s core e.2 dst)
    | none => none

/-- Each cycle in which an issue-side write of core `n` takes the write port of a bank that the line due then wants delays the copy (R160,
R169); `uses` are the core's write ports of its issue cycle `ic`. -/
def delayCopies (s : State) (n ic : Nat) (uses : BitVec 32) : State :=
  if uses = 0#32 then s
  else (List.range 40).foldl (fun s i =>
    let m := 40 * dieOf n + i
    if (s.core m).copies.isEmpty then s
    else s.modCore m fun c =>
      { c with copies := c.copies.map fun k =>
          if k.started && k.targets.contains n && decide (k.doneLines n < k.lines) &&
            decide (k.dueTime n ≤ if k.inCore then ic else s.dieCycle (dieOf n)) && (k.lineBanks (k.doneLines n) &&& uses) != 0#32
          then { k with delay := Tab.setCount k.delay n (k.delayOf n + 1) } else k }) s

/-! ### Timetables (R247) -/

/-- MXT_ENTRY_START: the next entry of a timetable reaches its stamp; with eight of its entries in flight the timetable stops. -/
def execMxtEntryStart (core tag : Nat) (s : State) : Host.Outcome State Fault Refusal :=
  stepIf "MXT_ENTRY_START" <|
    let c := s.core core
    match c.tables.find? (fun t => t.tag.toNat == tag) with
    | some t =>
      (match t.entries with
       | e :: es =>
         if cycleCome s core (t.baseIc + e.1) then
           if 8 ≤ (c.copies.filter fun k => k.mxt && k.tag == t.tag).length then
             some (s.modCore core fun c => { c with timingDue := true, tables := c.tables.map fun x => if x.tag = t.tag then { x with entries := [], stopped := true } else x })
           else
             let (id, s1) := s.takeId
             let k := mkCopy core id t.tag true (e.2.2.1 != 0) (entryTargets core e.2.1 e.2.2.1) e.2.2.2.1 e.2.2.2.2.1 e.2.2.2.2.2 (t.baseIc + e.1)
             let s2 := s1.modCore core fun c =>
               { c with copies := c.copies ++ [k], tables := c.tables.map fun x => if x.tag = t.tag then { x with entries := es } else x }
             some (startCopy s2 core k)
         else none
       | [] => none)
    | none => none
/-- TIMING (R247): a timetable's entry has not landed whole by its deadline, no line of it being still due in this cycle; the next bundle
of its core faults. -/
def execTiming (core tag : Nat) (s : State) : Host.Outcome State Fault Refusal :=
  stepIf "TIMING" <|
    let c := s.core core
    let late := fun (k : Copy) => k.mxt && k.started && k.tag.toNat == tag && decide (k.deadline ≤ copyNow s core k) &&
      !(k.targets.any fun t => decide (k.doneLines t < k.lines) && decide (k.dueTime t ≤ copyNow s core k) && !portTaken s t k)
    if !c.timingDue && c.copies.any late then
      some (s.modCore core fun c => { c with timingDue := true, tables := c.tables.map fun x => if x.tag.toNat = tag then { x with entries := [], stopped := true } else x })
    else none

end Sys2Proof.Machine
end

