-- ==== Sys2Proof/Machine/LinkSteps.lean ====
section
/-!
DEFINITION. Steps of the Nirkin links (R401–R408): flits, replay, retraining, requests of other packages, and the replies to this package's own.
-/
namespace Sys2Proof.Machine

/-- FLIT (R402): a flit arrives; a link that is not UP or DEGRADED loses it. -/
def execFlit (l : Nat) (bytes : List Byte) (s : State) : Host.Outcome State Fault Refusal :=
  stepIf "FLIT" (if 12 ≤ l then none else some (if (s.link l).live then receiveFlit s l bytes else s))
/-- REPLAY_REQUEST (R402): the peer asks for every flit from `seq` on. -/
def execReplayRequest (l seq : Nat) (s : State) : Host.Outcome State Fault Refusal :=
  stepIf "REPLAY_REQUEST" (if (s.link l).live then some (resendFrom s l seq) else none)
/-- RETRAIN (R405): a lane is lost, or a flit has been sent eight times. -/
def execRetrain (l : Nat) (s : State) : Host.Outcome State Fault Refusal :=
  stepIf "RETRAIN" (if (s.link l).live then some (retrainLink s l) else none)
/-- TRAINING_DONE (R405): one training attempt ends on `lanes` lanes. -/
def execTrainingDone (l lanes : Nat) (s : State) : Host.Outcome State Fault Refusal :=
  stepIf "TRAINING_DONE" (if (s.link l).st = .training then some (trainingEnds s l lanes) else none)
/-- FENCE_MESSAGE (R405): the peer's FENCE fences this end. -/
def execFenceMessage (l : Nat) (s : State) : Host.Outcome State Fault Refusal :=
  stepIf "FENCE_MESSAGE" (if ((s.link l).inbox.head?).any (fun m => m.1.opc.toNat == 10) then some (fenceLink (s.popInbox l) l) else none)

/-- READ (R406): performed and answered; never cached. -/
def execRead (l : Nat) (m : Msg) (s : State) : Host.Outcome State Fault Refusal :=
  stepIf "READ" <|
    if atHead s l m 1 then
      let (s1, d) := serveAccess ((s.popInbox l).modLink l fun k => k.seen m.rid.toNat) l m (s.headIn l)
      some (s1.answer l m (d.getD []) false)
    else none
/-- WRITE (R406): performed at most once. -/
def execWrite (l : Nat) (m : Msg) (s : State) : Host.Outcome State Fault Refusal :=
  stepIf "WRITE" (if atHead s l m 2 then some (serveOnce (s.popInbox l) l m (s.headIn l)) else none)
/-- ATOMIC (R406): performed exactly once. -/
def execAtomic (l : Nat) (m : Msg) (s : State) : Host.Outcome State Fault Refusal :=
  stepIf "ATOMIC" (if atHead s l m 3 then some (serveOnce (s.popInbox l) l m (s.headIn l)) else none)

/-! ### Replies -/

/-- The failure a reply reports, if it does (see `replyFail`): poison met in another package is REMOTE (R427). `ring` tells whether the reply says itself which
line of a ring operation raced. -/
def replyOutcome (m : Msg) (write : Bool) (va : Nat) (ring : Bool := false) : Option AccFail :=
  let b := fun i => (m.data.getD i 0#8).toNat
  match b 0 with
  | 0 => none
  | 1 => some (.race (BitVec.ofNat 32 (bytesToNat (slice m.data 2 4))) (if ring then b 6 == 1 else write) (if ring then bytesToNat (slice m.data 7 8) else va) (some (b 1)))
  | 3 => some (.poison 3)
  | _ => some (.refused (b 1) (b 2))

/-- A reply to an access of a core. -/
def replyAccess (s : State) (a : Access) (m : Msg) : State :=
  let ring := a.op == .enq || a.op == .deq
  -- of a ring operation whose control block lies here, only the slot has been read there
  let here := ring && keyTier a.key != 3
  match replyOutcome m (a.op.stores && a.op != .barw && !here) (if here then (ringOf (s.mem.bytes (a.key + a.off) 32)).slot (bytesToNat (a.bytes.take 8)) else a.va)
      (ring && !here) with
  | some f => failAccess s a f
  | none =>
    let v := m.data.drop 2
    -- the sequence word of a ring operation whose control block lies here (R180)
    if here then
      { s with accesses := s.accesses.map fun b => if b.id = a.id then { b with sent := false, bytes := b.bytes ++ v.take 8 } else b }
    else
    let fl : Flags := ((v.getLast?).getD 0#8).setWidth 6
    let s1 := match a.op with
      | .amo .. => s.modCore a.core fun c => c.raise .l fl a.baddr
      | .wqadd => s.modCore a.core fun c => c.raise .x fl a.baddr
      | _ => s
    let s2 := match a.op with
      | .barw =>
        let o := BObj.ofBytes (slice v 0 64)
        let g := bytesToNat (slice v 64 2)
        s1.modCore a.core fun c => c.modJob a.job fun j => match j.kind with
          | .barw d _ _ => { j with kind := .barw d none (some s1.rct), data := [] }.take 0 (natToBytes 4 (o.status (some g)).toNat) []
          | _ => j
      | .amo _ w _ _ => deliver s1 a (v.take (w / 8)) false
      | .read => deliver s1 a v (m.data.getD 1 0#8 == 9#8)
      | _ => deliver s1 a v false
    if a.op = .read then s2 else barrierRecord s2 a (m.data.getD 1 0#8).toNat

/-- What a failed request for a slot's own purposes halts it with. -/
def slotReason : AccFail → Nat
  | .race .. => 7
  | .refused .. => 3
  | .poison _ => 4
  | .fenced _ => 5
/-- The path the macro of a slot reads by (R214). -/
def rdPathOf (s : State) (n t : Nat) : Path := match (s.core n).slots[t]? with
  | some m => if m.op = 6 then .gu else if m.op = 0x13 then .lk else .mo
  | none => .mo
/-- A reply reaches what its request serves. -/
def replyOwner (s : State) (m : Msg) : Owner → State
  | .access id => match s.accesses.find? (fun a => a.id == id) with
    | some a => replyAccess s a m
    | none => s
  | .slot n t =>
    if m.data.getD 0 0#8 = 4#8 then s.stopSlot n t 8 0 0
    -- a landing error ends the transfer, and the sender's context logs it (R171)
    else if m.data.getD 0 0#8 = 5#8 then sendRecord s (s.core n).ctx { FaultRec.zero with code := 33, pcore := n, time := s.dieCycle (dieOf n) }
    else s
  | .slotLine n t key va => match replyOutcome m false va with
    | some f =>
      let e := failExc { pseudoAccess ⟨n, 0#64, 0, .x, 0⟩ 0 (rdPathOf s n t) .read 0#2 with va := va } f
      s.stopSlot n t (slotReason f) e.addr e.auxv
    | none => s.modCore n fun c => match c.slots[t]? with
      | some sl => c.setSlot t { sl with lines := sl.lines ++ [(key, m.data.drop 2)] }
      | none => c
  | .param n key va => match replyOutcome m false va with
    | some f => oweRecord s n (failExc { pseudoAccess ⟨n, (s.core n).pc, 0, .x, 0⟩ 0 .lsu .read 0#2 with va := va } f)
    | none => s.modCore n fun c => { c with rlines := c.rlines ++ [(key, m.data.drop 2)] }
  | .code n va slot => match replyOutcome m false va with
    | some (.refused c lv) => oweRecord s n ⟨3, 0, 0, va, transAuxv (c, lv) (if slot then 0 else 3) 15⟩
    | some f => oweRecord s n (failExc { pseudoAccess ⟨n, (s.core n).pc, 0, .s, 0⟩ 0 .code .read 0#2 with va := va } f)
    | none => s.modCore n fun c => { c with rcode := Tab.set c.rcode (va / 128) (m.data.drop 2) }
  -- of a processor's reads only that of a count is checked for races (R305, R380)
  | .thread th key => match replyOutcome m false 0 with
    | some f => match (s.thread th).queue with
      | some q => packetError s q ((s.thread th).mid.getD (queueIdx s q)) (match f with
        | .race .. => 5
        | _ => 2)
      | none => s
    | none =>
      let t := s.thread th
      s.setThread th { t with lines := t.lines ++ [(key, m.data.drop 2)] }
  | .signal q idx => if m.data.getD 0 0#8 = 0#8 then
      s.packetDone q idx
    else packetError s q idx 2
  | .packet q idx key => if m.data.getD 0 0#8 ≠ 0#8 then packetError s q idx 2
    else if key = 0 then s
    else s.modQueue q fun v => { v with packets := v.packets.map fun p => if p.idx = idx then { p with lines := p.lines ++ [(key, m.data.drop 2)] } else p }
  | .ckpt key =>
    if m.data.getD 0 0#8 ≠ 0#8 then { s with ckptRun := s.ckptRun.map fun j => { j with failed := true } }
    else if key = 0 then s
    else { s with ckptRun := s.ckptRun.map fun j => { j with lines := j.lines ++ [(key, m.data.drop 2)] } }
  | .admin key => { s with adminLines := s.adminLines ++ [(key, if m.data.getD 0 0#8 ≠ 0#8 then [] else m.data.drop 2)] }
  | .nothing => s

/-- The request that a REPLY or RETRY answers, and its link: the link it came by, else another that the requester sent on (R404: an answer leaves on the answerer's
own route). -/
def requestOf (s : State) (l : Nat) (m : Msg) : Option (Nat × Request) :=
  (l :: (List.range 12).filter (· != l)).findSome? fun k =>
    ((s.link k).requests.find? fun r => r.rid == m.rid.toNat && r.msg.dpkg == m.spkg).map fun r => (k, r)
/-- RETRY (R403): the receiver cannot take the message yet. -/
def execRetry (l : Nat) (m : Msg) (s : State) : Host.Outcome State Fault Refusal :=
  stepIf "RETRY" <|
    if (s.link l).inbox.head?.map (·.1) == some m && m.opc.toNat == 9 then
      some (let s1 := s.popInbox l
        match requestOf s1 l m with
        | some (k, r) => s1.modLink k fun k => { k with requests := k.requests.map fun x => if x.rid = r.rid then { x with refusedAt := some s.hubTime } else x }
        | none => s1)
    else none
/-- RETRY_TIMER (R403): at least a microsecond after the refusal the message is sent again under its RID. -/
def execRetryTimer (l rid : Nat) (s : State) : Host.Outcome State Fault Refusal :=
  stepIf "RETRY_TIMER" <|
    match (s.link l).requests.find? (fun r => r.rid == rid) with
    | some r => (match r.refusedAt with
      | some t =>
        if t + usRounds ≤ s.hubTime ∧ (s.link l).live ∧ (s.link l).room r.msg then
          some (s.modLink l fun k => { k.send r.msg with requests := k.requests.map fun x => if x.rid = rid then { x with refusedAt := none } else x })
        else none
      | none => none)
    | none => none

end Sys2Proof.Machine
end

