-- ==== Sys2Proof/Machine/MacroMem.lean ====
section
/-!
DEFINITION. What a macro step reads and writes (R214, R218, R229, R256, R257): operand addresses, tensor elements, and the bytes it will write, as a
computation that either succeeds or stops the step.
-/
namespace Sys2Proof.Machine

/-- Why a step does not run: a halt (R223), an unsettled line, or a remote line still to be read. -/
inductive Stop where
  | halt (reason addr auxv : Nat)
  | wait
  | need (key va : Nat)
  deriving DecidableEq, Repr

/-- What a step gathers beside its value: whether an element lay outside its table, the flags raised, the global lines of this package it read, as
(address, line), and the dies that own the rows it took (R239). -/
structure MLog where
  oob : Bool
  fl  : Flags
  reads : List (Nat × Nat)
  dies : List Nat
def MLog.zero : MLog := ⟨false, 0#6, [], []⟩

abbrev SM := StateT MLog (Except Stop)

def SM.note (fl : Flags) : SM Unit := modify fun l => { l with fl := l.fl ||| fl }
def SM.outside : SM Unit := modify fun l => { l with oob := true }
def SM.line (va line : Nat) : SM Unit := modify fun l => if l.reads.any (·.2 == line) then l else { l with reads := (va, line) :: l.reads }
def SM.die (d : Nat) : SM Unit := modify fun l => if l.dies.contains d then l else { l with dies := d :: l.dies }
def SM.stop {α : Type} (x : Stop) : SM α := throw x
/-- A rounded value, its flags noted. -/
def noted (p : Nat × Flags) : SM Nat := do SM.note p.2; pure p.1

/-- The phases of a step before its commit (R218). -/
inductive StepPhase where
  | translate | settle | compute
  deriving DecidableEq, Repr

/-- The surroundings of a step: core, slot, the path it reads by and the path it writes by, and the phase. A step is one computation over its
operands, run once per phase: in the first two an operand reads as zeros, and only its pages or its lines are looked at. -/
structure REnv where
  s : State
  n : Nat
  t : Nat
  m : MSlot
  rd : Path
  wr : Path
  ph : StepPhase
/-- The surroundings of a read that an address depends on (a block table's entry, an index, an offset, a hash table's key): it is made in full in
every phase (DESIGN CHOICE, log 87: the specification does not say how the translate phase comes to such addresses). -/
def REnv.forAddr (e : REnv) : REnv := { e with ph := .compute }
def REnv.ctx (e : REnv) : Nat := (e.s.core e.n).ctx
def REnv.fmte (e : REnv) : Word := e.m.fmte

/-! ### Bytes -/

/-- Whether an earlier write of the path to the line is still to be performed (R372). -/
def State.pendingWrite (s : State) (n : Nat) (p : Path) (key : Nat) : Bool :=
  s.accesses.any fun a => a.core == n && a.path == p && !a.done && a.op != .read && a.key == key - key % 128
/-- Reads a global range line by line, race-checked as the step's path (R379), after the path's own earlier writes of the line (R372). -/
def readGlob (e : REnv) (va n : Nat) : SM (List Byte) :=
  (partsOf va n).foldlM (fun acc p => do
    match translate e.s e.ctx ⟨.read, false, false, false⟩ p.1 with
    | .error cl => SM.stop (.halt 3 p.1 (transAuxv cl 0 e.rd.num))
    | .ok k =>
      if e.ph ≠ .compute then pure (acc ++ List.replicate p.2.2 0#8)
      else if e.s.pendingWrite e.n e.rd k then SM.stop .wait
      else if keyTier k = 3 then
        match e.m.lines.find? (fun l => l.1 == k - k % 128) with
        | some l => pure (acc ++ slice l.2 (k % 128) p.2.2)
        | none => SM.stop (.need (k - k % 128) (p.1 - p.1 % 128))
      else
        match e.s.race (.core e.n e.rd) (k / 128) true false with
        | some t => SM.stop (.halt 7 (p.1 - p.1 % 128) (raceAuxv t false e.n e.rd))
        | none =>
          if e.s.poisoned k then SM.stop (.halt 4 p.1 (locOf k * 256))
          else
            SM.line p.1 (k / 128)
            pure (acc ++ e.s.mem.bytes k p.2.2)) []

/-- Reads a scratchpad range once its lines are settled (R218). -/
def readLocal (e : REnv) (k off n : Nat) : SM (List Byte) := do
  let c := e.s.core k
  if e.ph = .translate then pure (List.replicate n 0#8) else
  if (c.padLines false off n).any (fun l => c.lineIn l.1 || c.lineOut l.1) then SM.stop .wait
  match (c.padLines false off n).find? (fun l => c.poison.contains l.1) with
  | some l => SM.stop (.halt 4 (2 ^ 63 + k % 40 * 2 ^ 40 + l.2) (4 * 256))
  | none => pure ((List.range n).map fun i =>
      let p := c.padAddr false (off + i)
      if k = e.n then poolSeen c p else c.pool.read p)

/-- Where `n` bytes at an address lie, or a halt as for a translation failure (R257): a local range lies inside the scratchpad of a core
that runs a task of the group. -/
def placeOf (e : REnv) (x : Int) (n : Nat) : SM Place := do
  let v := (x % (2 ^ 64 : Nat)).toNat
  match checkAddr e.s e.n (BitVec.ofNat 64 v) with
  | some (.glob va) => if va + n ≤ 2 ^ 56 then pure (.glob va) else SM.stop (.halt 3 v (transAuxv (1, 3) 0 e.rd.num))
  | some (.loc k off) =>
    let c := e.s.core k
    if off + n ≤ c.padSize ∧ c.st ≠ .free ∧ c.gid = (e.s.core e.n).gid then pure (.loc k off)
    else SM.stop (.halt 3 v (transAuxv (1, 3) 0 e.rd.num))
  | none => SM.stop (.halt 3 v (transAuxv (1, 3) 0 e.rd.num))
def readAt (e : REnv) (x : Int) (n : Nat) : SM (List Byte) := do
  match ← placeOf e x n with
  | .glob va => readGlob e va n
  | .loc k off => readLocal e k off n
def readNat (e : REnv) (x : Int) (n : Nat) : SM Nat := do pure (bytesToNat (← readAt e x n))

/-- Bytes a step will write at one place. -/
inductive Dest where
  | glob (va : Nat) (bs : List Byte)
  | gadd (va : Nat) (bs : List Byte)
  | pad (k off : Nat) (bs : List Byte)
  | padd (k off : Nat) (bs : List Byte)
  /-- The enabled bits of one byte, in global memory or in a scratchpad. -/
  | globBits (va : Nat) (b en : Byte)
  | padBits (k off : Nat) (b en : Byte)
def Dest.size : Dest → Nat
  | .glob _ bs => bs.length
  | .gadd _ bs => bs.length
  | .pad _ _ bs => bs.length
  | .padd _ _ bs => bs.length
  | .globBits .. => 1
  | .padBits .. => 1
/-- The destination of bytes at an address, its pages translated (R218). -/
def writeAt (e : REnv) (x : Int) (bs : List Byte) (add : Bool) : SM (List Dest) := do
  match ← placeOf e x bs.length with
  | .glob va =>
    match firstFail e.s e.ctx ⟨if add then .atomic else .write, true, false, false⟩ (lineStarts va bs.length) with
    | some (p, cl) => SM.stop (.halt 3 p (transAuxv cl (if add then 2 else 1) e.wr.num))
    | none => pure [if add then .gadd va bs else .glob va bs]
  | .loc k off => pure [if add then .padd k off bs else .pad k off bs]
/-- The destination of some bits of a byte. -/
def writeBitsAt (e : REnv) (x : Int) (b en : Byte) : SM (List Dest) := do
  pure ((← writeAt e x [b] false).map fun d => match d with
    | .glob va _ => .globBits va b en
    | .pad k off _ => .padBits k off b en
    | d => d)

/-! ### Elements (R256, R257) -/

/-- The address of an offset, none in an absent block. -/
def resolve (e : REnv) (d : Desc) (o : Int) : SM (Option Int) := do
  if !d.bt then pure (some o)
  else if o < 0 then pure none
  else
    let i := o.toNat / 2 ^ d.blog
    if d.btcnt ≤ i then pure none
    else
      let b ← readNat e.forAddr (d.btab + 8 * i) 8
      if b = 0 then pure none
      else if 2 ^ 63 ≤ b then SM.stop (.halt 3 b (transAuxv (1, 3) 0 e.rd.num))
      else pure (some ((b : Int) + (o.toNat % 2 ^ d.blog : Nat)))

/-- Elements of dimension 0 that share a unit. -/
def EKind.group (k : EKind) : Nat := if k.isBx then 16 else if k.width = 4 then 2 else 1
abbrev Coord := Nat × Nat × Nat × Nat
def Desc.off (d : Desc) (k : EKind) (i : Coord) : Int := d.offset k i.1 i.2.1 i.2.2.1 i.2.2.2
def Desc.scaleAt (d : Desc) (i : Coord) : Nat := d.scaleAddr i.1 i.2.1 i.2.2.1 i.2.2.2

/-- The pad element's code (R252, R257). -/
def padCode (d : Desc) (k : EKind) : Nat :=
  match k with
  | .wq => intBits 128 (sInt 32 d.pad)
  | .el t => if t.isBx then 0 else d.pad
/-- A unit of pad elements. -/
def padUnit (d : Desc) (k : EKind) : List Byte :=
  natToBytes k.unit (if k.isBx then 0 else if k.width = 4 then d.pad * 17 else padCode d k)
/-- The unit that holds an element, with its scale word. -/
def readUnit (e : REnv) (d : Desc) (k : EKind) (i : Coord) : SM (List Byte × Nat) := do
  match ← resolve e d (d.off k i) with
  | none => SM.outside; pure (padUnit d k, 0)
  | some x =>
    let bs ← readAt e x k.unit
    let sc ← if k.isBx then readNat e (d.scaleAt i) 2 else pure 0
    pure (bs, sc)
/-- The die that owns a row of a tensor (R239): the home die of the row's first byte, or the die of the core that holds it. An absent row has none. -/
def rowDie (e : REnv) (d : Desc) (k : EKind) (row : Nat) : SM Unit := do
  match ← resolve e d (d.off k (0, row, 0, 0)) with
  | none => pure ()
  | some x => match ← placeOf e x 1 with
    | .loc n _ => SM.die (dieOf n)
    | .glob va => match translate e.s e.ctx ⟨.read, false, false, false⟩ va with
      | .ok key => SM.die (homeDie key)
      | .error _ => pure ()
/-- An element's code. -/
def readCode (e : REnv) (d : Desc) (k : EKind) (i : Coord) : SM Nat := do
  let (bs, _) ← readUnit e d k i
  let v := bytesToNat bs
  match k with
  | .wq => pure v
  | .el t =>
    if t.isBx then pure (natBits v (t.bits * (i.1 % 16)) t.bits)
    else if t.bits = 4 then pure (natBits v (4 * (i.1 % 2)) 4) else pure v
/-- The exact value of a code outside BX blocks. -/
def codeValue (fmte : Word) (d : Desc) (k : EKind) (c : Nat) : FVal :=
  match k with
  | .wq => wqValue c d.pbin
  | .el t => t.readValue (fmteNsub fmte) c
/-- An element's exact value. -/
def readVal (e : REnv) (d : Desc) (k : EKind) (i : Coord) : SM FVal := do
  let (bs, sc) ← readUnit e d k i
  let v := bytesToNat bs
  match k with
  | .wq => pure (wqValue v d.pbin)
  | .el t =>
    if t.isBx then pure (bxValue (fmteBxrc e.fmte) t.bxW (natBits v (t.bits * (i.1 % 16)) t.bits) sc)
    else pure (codeValue e.fmte d k (if t.bits = 4 then natBits v (4 * (i.1 % 2)) 4 else v))
/-- The exact value of the pad element. -/
def padVal (fmte : Word) (d : Desc) (k : EKind) : FVal := if k.isBx then .fin false 0 0 else codeValue fmte d k (padCode d k)

/-- What is stored into an element: a value to convert, or a code. -/
inductive OutV where
  | val (v : FVal)
  | code (c : Nat)
/-- The code stored, its flags noted. -/
def outCode (e : REnv) (d : Desc) (k : EKind) : OutV → SM Nat
  | .code c => pure c
  | .val v =>
    match k with
    | .wq => noted (toWQ v d.pbin)
    | .el t => noted (t.ofValue (fmteNsub e.fmte) .rne false v)
def OutV.value : OutV → FVal
  | .val v => v
  | .code _ => .fin false 0 0
/-- Writes one unit of elements, whose first is at `i`. -/
def writeUnit (e : REnv) (d : Desc) (k : EKind) (i : Coord) (bs : List Byte) (sc : Nat) : SM (List Dest) := do
  match ← resolve e d (d.off k i) with
  | none => SM.outside; pure []
  | some x =>
    let w ← writeAt e x bs false
    let z ← if k.isBx then writeAt e (d.scaleAt i) (natToBytes 2 sc) false else pure []
    pure (w ++ z)
def writeGroup (e : REnv) (d : Desc) (k : EKind) (i : Coord) (vs : List OutV) : SM (List Dest) := do
  match k with
  | .el t =>
    if t.isBx then
      let (cs, sc, fl) := bxPack e.fmte t.bxW (vs.map OutV.value)
      SM.note fl
      writeUnit e d k i (natToBytes k.unit (packCodes t.bits cs)) sc
    else
      let cs ← vs.mapM (outCode e d k)
      writeUnit e d k i (natToBytes k.unit (packCodes t.bits cs)) 0
  | .wq =>
    let cs ← vs.mapM (outCode e d k)
    writeUnit e d k i (natToBytes 16 (cs.headD 0)) 0
/-- Writes elements given in logical order, whole units at a time. -/
def writeElems (e : REnv) (d : Desc) (k : EKind) : Nat → List (Coord × OutV) → SM (List Dest)
  | 0, _ => pure []
  | fuel + 1, vs =>
    match vs with
    | [] => pure []
    | v :: _ => do
      let g := k.group
      let a ← writeGroup e d k v.1 ((vs.take g).map (·.2))
      let b ← writeElems e d k fuel (vs.drop g)
      pure (a ++ b)
def writeAll (e : REnv) (d : Desc) (k : EKind) (vs : List (Coord × OutV)) : SM (List Dest) := writeElems e d k vs.length vs

/-! ### Exact quotients -/

/-- A quotient of finite values, exact up to a sticky bit far below every format's precision. -/
def FVal.quo (a b : FVal) : FVal :=
  match a, b with
  | .nan i, .nan j => .nan (i || j)
  | .nan i, _ => .nan i
  | _, .nan j => .nan j
  | .inf _, .inf _ => .nan true
  | .inf x, .fin y _ _ => .inf (xor x y)
  | .fin x _ _, .inf y => .fin (xor x y) 0 0
  | .fin x m e, .fin y k f =>
    if k = 0 then (if m = 0 then .nan true else .inf (xor x y))
    else
      let q := m * 2 ^ 900 / k
      .fin (xor x y) (2 * q + if m * 2 ^ 900 % k = 0 then 0 else 1) (e - f - 901)

/-! ### A step's result -/

/-- What a committed step leaves (R218, R222): tile images, writes, the indices of the next step, and whether it was the last one;
`wtile` is the tile its writes come from. -/
structure StepOut where
  tiles  : List (Nat × List Byte) := []
  dests  : List Dest := []
  next   : List Nat
  last   : Bool
  zcur   : Nat := 255
  kc     : Nat := 0
  work   : List Nat := []
  result : Nat := 0
  wtile  : Nat := 255
  /-- The biases an epilogue used (R228). -/
  bias   : List (Option Nat) := []
  /-- Bytes that have landed at other members (R363, R415). -/
  landed : Nat := 0
  /-- A new entry for TD0 (R265). -/
  entry  : Option (BitVec 1024) := none

/-- The next indices of an odometer with the given bounds on the inner ones (R446). -/
def odometer : List Nat → List Nat → List Nat
  | i :: is, b :: bs => if i + 1 < b then (i + 1) :: is else 0 :: odometer is bs
  | i :: is, [] => (i + 1) :: is
  | [], _ => []
/-- The odometer's step and whether it passed the last of the given bounds. -/
def advance (idx bounds : List Nat) : List Nat × Bool :=
  let nx := odometer idx (bounds.take 3)
  (nx, decide (bounds.getD 3 1 ≤ nx.getD 3 0))
def MSlot.ix (m : MSlot) (i : Nat) : Nat := m.idx.toList.getD i 0

def MSlot.desc (m : MSlot) (i : Nat) : Desc := Desc.ofBits (m.descs.getD i 0#1024)
def MSlot.kind (m : MSlot) (i : Nat) : EKind := (ekindOf m.fmte (m.desc i).fmt).getD (.el .f32)
/-- The committed image of a tile. -/
def REnv.tile (e : REnv) (z : Nat) : List Byte := (e.s.core e.n).pool.bytes ((e.s.core e.n).tileBase z) 16384
/-- Whether a line of a tile holds poison (R426). -/
def Core.tileBad (c : Core) (z : Nat) : Bool := c.poison.any fun l => decide (c.tileBase z ≤ 128 * l) && decide (128 * l < c.tileBase z + 16384)
/-- A step's read of a tile: poison is consumed by the computing phase (R426). -/
def readTile (e : REnv) (z : Nat) : SM (List Byte) :=
  if e.ph ≠ .compute then pure (List.replicate 16384 0#8)
  else if (e.s.core e.n).tileBad z then SM.stop (.halt 4 z (6 * 256))
  else pure (e.tile z)
/-- The tile that holds the partial accumulator a step continues: ZCUR (R225), which is `z` unless the parameters have changed since. -/
def MSlot.accTile (m : MSlot) (z : Nat) : Nat := if m.zcur = 255 then z else m.zcur

end Sys2Proof.Machine
end

