-- ==== Sys2Proof/Machine/Tile.lean ====
section
/-!
DEFINITION. The tile and pair-array instructions (R187–R210).
-/
namespace Sys2Proof.Machine

/-! ### Shared forms -/

def rowsOf (t : BitVec 6) : WTarget := .rows t 0 64
/-- Marks the issue of a bundle write to a tile: the cycle in which its first rows land (R198). -/
def noteWrite (n : Nat) (t : BitVec 6) (first : Nat) (slow : Bool) (s : State) : State :=
  s.modCore n fun c => { c with tiles := Tab.set c.tiles t.toNat { c.tileInfo t.toNat with first := first, slow := slow } }
/-- WM.ROWS (R198). -/
def TileInfo.rowsAt (i : TileInfo) (ic : Nat) : Nat :=
  if i.owner.isSome then 64
  else if ic < i.first then 0
  else if i.slow then 8 * Nat.min 8 ((ic - i.first) / 2 + 1) else 64
/-- Whether rows of a tile are still to land from a bundle write (R188). -/
def Core.landing (c : Core) (t : Nat) : Bool := c.wports.any fun p => decide (c.ic < p.cyc) && p.tgt.clash (.rows (BitVec.ofNat 6 t) 0 64)
def wmWord (c : Core) (t : Nat) : Word :=
  let i := c.tileInfo t
  BitVec.ofNat 32 ((if i.owner.isSome then 2 ^ 31 else 0) + i.kdone * 2 ^ 8 + i.rowsAt c.ic)
def allBanks : BitVec 32 := BitVec.allOnes 32
def imageOk (c : Core) (o al n : Nat) : List Exc := if o % al = 0 ∧ o + n ≤ c.padSize then [] else [addrExc o]
/-- Bank uses of a range read or written row by row from cycle `cyc` on (R193). -/
def rowBanks (c : Core) (cyc : Nat) (view : Bool) (off n : Nat) (write : Bool) (code : Nat) : List BankUse :=
  (List.range (ceilDiv n 2048)).map fun k => lBank c (cyc + k) view (off + 2048 * k) (Nat.min 2048 (n - 2048 * k)) write code 0

/-- The lines of a range read row by row from `cyc` cycles after issue on. -/
def rowLines (c : Core) (cyc : Nat) (view : Bool) (off n : Nat) : List (Nat × Nat × Nat) :=
  (List.range (ceilDiv n 2048)).flatMap fun k => (c.padLines view (off + 2048 * k) (Nat.min 2048 (n - 2048 * k))).map fun l => (cyc + k, l)

/-! ### Tile moves -/

def opZzero (zd : BitVec 6) : Op := fun s a =>
  let c := s.core a.n
  { ill := if tileIll c zd.toNat then some 7 else none, stall := c.tileOwned zd.toNat,
    flights := [flightAt c a 1 0#6 (.tile zd 0 (List.replicate 16384 0#8) (some false))],
    wports := [⟨c.ic + 1, rowsOf zd⟩], uses := { wregs := [rowsOf zd] }, eff := noteWrite a.n zd (c.ic + 1) false }
def opZld (zd xa : BitVec 6) (f4 : BitVec 4) : Op := fun s a =>
  let c := s.core a.n
  let o := (c.rx xa).toNat
  let view := f4.getLsbD 1
  { reads := [xa], ill := if tileIll c zd.toNat then some 7 else none,
    stall := c.tileOwned zd.toNat || c.hullStall view o 16384 false, excs := imageOk c o 2048 16384,
    flights := [⟨c.ic + 1, c.ic + 10, a.slot, a.addr, 0#6, .zld zd (f4.getLsbD 0) view o 1 (readPad s a.n view o 2048)⟩],
    wports := [⟨c.ic + 10, rowsOf zd⟩], banks := rowBanks c 0 view o 16384 false 5,
    uses := { viewR := [(view, allBanks)], late := rowLines c 0 view o 16384, wregs := [rowsOf zd] },
    eff := noteWrite a.n zd (c.ic + 10) false }
def opZst (zd xa : BitVec 6) (f4 : BitVec 4) : Op := fun s a =>
  let c := s.core a.n
  let o := (c.rx xa).toNat
  let view := f4.getLsbD 1
  let img := c.pool.bytes (c.tileBase zd.toNat) 16384
  let img' := if f4.getLsbD 0 then transposeImg img else img
  { reads := [xa], ill := if tileIll c zd.toNat then some 7 else none,
    stall := c.tileOwned zd.toNat || c.hullStall view o 16384 true, excs := imageOk c o 2048 16384,
    flights := (List.range 8).map fun k =>
      flightAt c a (3 + k) 0#6 (.pool (c.padCells view (o + 2048 * k) (slice img' (2048 * k) 2048))),
    banks := rowBanks c 2 view o 16384 true 5,
    uses := { viewW := [(view, allBanks)], wlines := c.padLines view o 16384, rregs := [rowsOf zd] } }
/-- The image ZRD and ZRDS write (R197). -/
def zrdImage (c : Core) (t : Nat) (col : Bool) (p : Nat) : VReg :=
  packElems 32 ((List.range 128).map fun l =>
    let r := 2 * p + l / 64
    if col then c.tileElem t (l % 64) r else c.tileElem t r (l % 64))
def zrdIssue (stalls : Bool) (zd xa xb : BitVec 6) (f4 : BitVec 4) : Op := fun s a =>
  let c := s.core a.n
  let vd : BitVec 7 := f4.extractLsb' 0 1 ++ xb
  let p := (c.rx xa).toNat % 32
  { reads := [xa], ill := if tileIll c zd.toNat || vIll c vd then some 7 else none, stall := stalls && c.tileOwned zd.toNat,
    flights := [flightAt c a 4 0#6 (.vreg vd (zrdImage c zd.toNat (f4.getLsbD 1) p) (BitVec.allOnes 128))],
    wports := [⟨c.ic + 4, .v vd⟩], uses := { rregs := [rowsOf zd], wregs := [.v vd] } }
def opZrd (zd xa xb : BitVec 6) (f4 : BitVec 4) : Op := zrdIssue true zd xa xb f4
/-- ZRDS reads the committed copy, which is the tile in the pool (R188). -/
def opZrds (zd xa xb : BitVec 6) (f4 : BitVec 4) : Op := zrdIssue false zd xa xb f4
def opZwm (zd xa : BitVec 6) : Op := fun s a =>
  let c := s.core a.n
  let i := scalarIssue c a 1 [] xa (wmWord c zd.toNat) 0#6
  { i with ill := if tileIll c zd.toNat then some 7 else none }

/-! ### ZMMA (R199–R202) -/

/-- The formats of a dense step's operands, or the FORMAT fault (R192, R200). -/
def zFormats (fmte : Word) (tda tdb : BitVec 8) (da db : Desc) : Except Exc (ElemT × ElemT) :=
  let one := fun (d : Desc) => match validKind fmte d with
    | some (.el t) => if (zClass t).isSome then some t else none
    | _ => none
  match one da, one db with
  | none, _ => .error (fmtExc tda da)
  | _, none => .error (fmtExc tdb db)
  | some x, some y => if zPairOk x y then .ok (x, y) else .error (pairExc tda da tdb db)

/-- ZMMA (R199). Where one operand's format or the pair fails there is no K, and with it no end of either panel: the ADDRESS check then covers the first byte of
both (DEDUCED from R99, log 127). -/
def opZmma (o : MOps) : Op := fun s a =>
  let c := s.core a.n
  let offA := (c.rx o.xa).toNat
  let offB := (c.rx o.xb).toNat
  let f := zFormats c.fmte o.tda o.tdb (descAt s a.n o.tda) (descAt s a.n o.tdb)
  let (ta, tb) : ElemT × ElemT := match f with
    | .ok p => p
    | .error _ => (.f32, .f32)
  let k := kStep ta tb
  let sizeOf := fun (t : ElemT) => match f with
    | .ok _ => panelBytes t k + scaleBytes t k
    | .error _ => 1
  let pa := panelBytes ta k
  let pb := panelBytes tb k
  let job : ZJob :=
    { tile := o.zd, za := o.f4.getLsbD 0, ta := ta, tb := tb, fmte := c.fmte, offA := offA, offB := offB, ic := c.ic, phase := 1,
      bufA := readPad s a.n false offA (Nat.min 2048 pa), bufB := [], scA := [], scB := [], rows := [], flags := 0#6 }
  let na := sizeOf ta
  let nb := sizeOf tb
  { reads := [o.xa, o.xb], ill := if tileIll c o.zd.toNat then some 7 else none,
    stall := c.tileOwned o.zd.toNat || c.hullStall false offA na false || c.hullStall false offB nb false,
    excs := imageOk c offA 2048 na ++ imageOk c offB 2048 nb ++ (match f with | .error e => [e] | .ok _ => []) ++
      (if c.ic < c.arrayEnd then [⟨14, 0, 0, 0, 0⟩] else []),
    flights := [⟨c.ic + 1, c.ic + 28, a.slot, a.addr, 0#6, .zmma job⟩],
    wports := (List.range 8).map fun g => ⟨c.ic + 14 + 2 * g, .rows o.zd (8 * g) (8 * g + 8)⟩,
    banks := rowBanks c 0 false offA pa false 4 ++ rowBanks c 2 false offB pb false 4 ++
      (if ta.isBx then [lBank c 4 false (offA + pa) (scaleBytes ta k) false 4 0] else []) ++
      (if tb.isBx then [lBank c 5 false (offB + pb) (scaleBytes tb k) false 4 0] else []),
    uses := { viewR := [(false, bankSet false offA na ||| bankSet false offB nb)],
              late := rowLines c 0 false offA pa ++ rowLines c 2 false offB pb ++ rowLines c 4 false (offA + pa) (na - pa) ++
                rowLines c 5 false (offB + pb) (nb - pb),
              rregs := if o.f4.getLsbD 0 then [] else [rowsOf o.zd] },
    array := c.ic + 16, eff := noteWrite a.n o.zd (c.ic + 14) true }

/-! ### Butterflies (R204–R210) -/

def opBfset (zd xa : BitVec 6) (f4 : BitVec 4) : Op := fun s a =>
  let c := s.core a.n
  let r : BitVec 3 := zd.extractLsb' 0 3
  let x := c.rx xa
  let old := c.rbs r
  let v : Word := match (f4.extractLsb' 0 2).toNat with
    | 1 => (old &&& ~~~(0xF#32)) ||| (x &&& 0xF#32)
    | 2 => (old &&& ~~~(0x0FFF0000#32)) ||| ((x &&& 0xFFF#32) <<< 16)
    | _ => x
  { reads := [xa], flights := [flightAt c a 1 0#6 (.bs r v)] }

/-- Whether a stride register is within its limits (R205). -/
def bsOk (cplx : Bool) (b : Word) : Bool :=
  let m := if cplx then 10 else 11
  decide (bsLogs b ≤ m) && decide (bsWp b ≤ m) && !(cplx && (bsCm b).testBit 11)
def weightCycles : ElemT → Nat
  | .bf16 => 2 | .f32 => 4 | _ => 8
/-- Rows of 2,048 bytes that `n` bytes from `off` touch. -/
def rowsTouched (off n : Nat) : Nat := (off + n - 1) / 2048 - off / 2048 + 1
/-- Start cycles of the stages and the occupancy (R210). -/
def stageTimes (c0 : Nat) : Nat → Nat → List Nat → List Nat × Nat
  | _, st, [] => ([], st)
  | off, st, n :: tabs =>
    let (r, o) := stageTimes c0 (off + n) (st + Nat.max c0 (rowsTouched off n)) tabs
    (st :: r, o)

/-- BFLY and BFCH over the stride registers numbered `regs`. -/
def bflyIssue (o : MOps) (regs : List Nat) : Op := fun s a =>
  let c := s.core a.n
  let offW := (c.rx o.xa).toNat
  let offS := (c.rx o.xb).toNat
  let st := o.f4.getLsbD 3
  let da := descAt s a.n o.tda
  let db := descAt s a.n o.tdb
  let wf : Option ElemT := match validKind c.fmte da with
    | some (.el .bf16) => some .bf16
    | some (.el .f32) => some .f32
    | some (.el .c32) => some .c32
    | _ => none
  let w := wf.getD .bf16
  let cplx := w == .c32
  let sf : Option ElemT := match validKind c.fmte db with
    | some (.el t) =>
      if t == .f32 || (if cplx then t == .c32 else t == .bf16 || t == .f16 || t.isBx) then some t else none
    | _ => none
  -- a store format that goes with other weights fails together with the weights' (R192)
  let sany : Bool := match validKind c.fmte db with
    | some (.el t) => t == .f32 || t == .c32 || t == .bf16 || t == .f16 || t.isBx
    | _ => false
  let stf := sf.getD .f32
  let bs := regs.map fun r => c.rbs (BitVec.ofNat 3 r)
  let tabs := bs.map (tableBytes w)
  let wlen := if wf.isSome then tabs.foldl (· + ·) 0 else 1
  let slen := if sf.isSome then imageBytes stf else 1
  let (starts, occ) := stageTimes (weightCycles w) offW 0 tabs
  let fin := occ + 6
  let reads := bflyReads offW tabs starts
  let job : BJob :=
    { tile := o.zd, bs := bs, wfmt := w, fmte := c.fmte, tabs := tabs, starts := starts, rows := [offW], ic := c.ic, phase := 1,
      total := fin, data := c.pool.bytes (c.tileBase o.zd.toNat) 16384,
      wbytes := match reads.head? with
        | some (_, lo, n) => readPad s a.n false lo n
        | none => [],
      store := if st then some (offS, stf) else none }
  let m := if st then imageRows stf else 0
  { reads := o.xa :: (if st then [o.xb] else []), ill := if tileIll c o.zd.toNat then some 7 else none,
    stall := c.tileOwned o.zd.toNat || c.hullStall false offW wlen false || (st && c.hullStall false offS slen true),
    excs := imageOk c offW 64 wlen ++ (if st then imageOk c offS 2048 slen else []) ++
      (if wf.isNone then [fmtExc o.tda da] else if st && sf.isNone then [if sany then pairExc o.tda da o.tdb db else fmtExc o.tdb db]
       else match (regs.zip bs).find? (fun p => !bsOk cplx p.2) with
         | some p => [strideExc p.1 p.2]
         | none => []) ++
      (if c.ic < c.arrayEnd then [⟨14, 0, 0, 0, 0⟩] else []),
    flights := [⟨match reads[1]? with | some (cy, _, _) => c.ic + cy | none => c.ic + fin, c.ic + fin + m, a.slot, a.addr, 0#6,
      .bfly job⟩],
    wports := [⟨c.ic + fin, rowsOf o.zd⟩],
    banks := reads.map (fun r => lBank c r.1 false r.2.1 r.2.2 false 4 0) ++ (if st then rowBanks c fin false offS slen true 6 else []),
    uses := { viewR := [(false, bankSet false offW wlen)], late := reads.flatMap fun r => (c.padLines false r.2.1 r.2.2).map fun l => (r.1, l),
              viewW := if st then [(false, bankSet false offS slen)] else [],
              wlines := if st then c.padLines false offS slen else [], rregs := [rowsOf o.zd] },
    array := c.ic + occ, eff := noteWrite a.n o.zd (c.ic + fin) false }
def opBfly (o : MOps) : Op := bflyIssue o [o.f4.toNat % 8]
def opBfch (o : MOps) : Op := bflyIssue o (List.range (o.f4.toNat % 8 + 1))
/-- FMTW: a reserved NSUB is illegal (R194). -/
def opFmtw (xa : BitVec 6) : Op := fun s a =>
  let c := s.core a.n
  let v := c.rx xa
  { reads := [xa], ill := if fmteNsub v = 3#2 then some 4 else none, flights := [flightAt c a 3 0#6 (.fmte v)] }

/-! ### Meanings -/

def execZzero (zd : BitVec 6) (s : State) : Host.Outcome State Fault Refusal := runSolo (.zzero zd) (opZzero zd) s
def execZld (zd xa : BitVec 6) (f4 : BitVec 4) (s : State) : Host.Outcome State Fault Refusal := runSolo (.zld zd xa f4) (opZld zd xa f4) s
def execZst (zd xa : BitVec 6) (f4 : BitVec 4) (s : State) : Host.Outcome State Fault Refusal := runSolo (.zst zd xa f4) (opZst zd xa f4) s
def execZrd (zd xa xb : BitVec 6) (f4 : BitVec 4) (s : State) : Host.Outcome State Fault Refusal :=
  runSolo (.zrd zd xa xb f4) (opZrd zd xa xb f4) s
def execZrds (zd xa xb : BitVec 6) (f4 : BitVec 4) (s : State) : Host.Outcome State Fault Refusal :=
  runSolo (.zrds zd xa xb f4) (opZrds zd xa xb f4) s
def execZwm (zd xa : BitVec 6) (s : State) : Host.Outcome State Fault Refusal := runSolo (.zwm zd xa) (opZwm zd xa) s
def execZmma (o : MOps) (s : State) : Host.Outcome State Fault Refusal := runSolo (.zmma o) (opZmma o) s
def execBfset (zd xa : BitVec 6) (f4 : BitVec 4) (s : State) : Host.Outcome State Fault Refusal :=
  runSolo (.bfset zd xa f4) (opBfset zd xa f4) s
def execBfly (o : MOps) (s : State) : Host.Outcome State Fault Refusal := runSolo (.bfly o) (opBfly o) s
def execBfch (o : MOps) (s : State) : Host.Outcome State Fault Refusal := runSolo (.bfch o) (opBfch o) s
def execFmtw (xa : BitVec 6) (s : State) : Host.Outcome State Fault Refusal := runSolo (.fmtw xa) (opFmtw xa) s

end Sys2Proof.Machine
end

