-- ==== Sys2Proof/Machine/MacroChk.lean ====
section
/-!
DEFINITION. What a macro is checked for at its issue (R213, R215, R224, R227): parameter blocks, hulls, and the parameter check word.
-/
namespace Sys2Proof.Machine

/-- What the checks at issue find: faults, an empty extent (R231), completion at issue (R263), and the byte ranges read and written in
the core's own scratchpad. -/
structure MChk where
  excs   : List Exc := []
  zero   : Bool := false
  done   : Bool := false
  reads  : List (Nat × Nat) := []
  writes : List (Nat × Nat) := []

def paramExc : Exc := exc0 16
def needP (b : Bool) : List Exc := if b then [] else [paramExc]
/-- Bytes `o` to `o + n − 1` of a block are zero. -/
def MSlot.zeros (m : MSlot) (o n : Nat) : Bool := (slice m.blk o n).all (· == 0#8)
def MSlot.td (m : MSlot) (i : Nat) : BitVec 8 := if i = 0 then m.td0 else if i = 1 then m.td1 else if i = 2 then m.td2 else BitVec.ofNat 8 (m.f 16 1)
/-- The header (R227): ZN lies in its range, the work region inside the scratchpad. -/
def MSlot.headerOk (m : MSlot) (c : Core) (zlo zhi wmin : Nat) : Bool :=
  m.zeros 2 2 && m.zeros 12 4 && decide (zlo ≤ m.f 1 1) && decide (m.f 1 1 ≤ zhi) && decide (m.f 0 1 + m.f 1 1 ≤ 4 * partAb c.part) &&
  (zhi != 0 || m.f 0 1 == 0) && m.f 4 4 % 2048 == 0 && m.f 8 4 % 2048 == 0 && decide (Nat.max 32768 wmin ≤ m.f 8 4) &&
  decide (m.f 4 4 + m.f 8 4 ≤ c.padSize)

/-- A descriptor's use: it holds a valid tensor of a kind that `p` allows, or FORMAT names it. -/
def needF (m : MSlot) (i : Nat) (p : EKind → Bool) : List Exc :=
  match validKind m.fmte (m.desc i) with
  | some k => if p k then [] else [fmtExc (m.td i) (m.desc i)]
  | none => [fmtExc (m.td i) (m.desc i)]
def needD (m : MSlot) (i : Nat) (b : Bool) : List Exc := if b then [] else [fmtExc (m.td i) (m.desc i)]
/-- Two operands, each of a kind `p i` and `p j` accepts on its own, whose kinds do not go together: FORMAT names the pair (R192). Stands where the
first operand's failures stand, so that the record names the first failing operand in field order. -/
def needPair (m : MSlot) (i j : Nat) (p q : EKind → Bool) (ok : EKind → EKind → Bool) : List Exc :=
  match validKind m.fmte (m.desc i), validKind m.fmte (m.desc j) with
  | some a, some b => if p a && q b && !ok a b then [pairExc (m.td i) (m.desc i) (m.td j) (m.desc j)] else []
  | _, _ => []
/-- A format some pair of R200 holds, and a pair of R200. -/
def denseK : EKind → Bool
  | .el t => (zClass t).isSome
  | .wq => false
def densePair (a b : EKind) : Bool :=
  match a, b with
  | .el x, .el y => zPairOk x y
  | _, _ => false
def isC32 (k : EKind) : Bool := k == .el .c32
def notC32 (k : EKind) : Bool := !isC32 k
def isFloatK (k : EKind) : Bool := k == .el .f32 || k == .el .bf16 || k == .el .f16

/-! ### Hulls (R215) -/

/-- The offset in the core's own scratchpad that an address names, if it does. -/
def ownOffset (s : State) (n : Nat) (x : Int) : Option Nat :=
  match checkAddr s n (BitVec.ofNat 64 (x % (2 ^ 64 : Nat)).toNat) with
  | some (.loc k off) => if k = n then some off else none
  | _ => none
def ownRange' (s : State) (n : Nat) (x : Int) (lo hi : Int) : List (Nat × Nat) :=
  match ownOffset s n x with
  | some off => [(((off : Int) + lo).toNat, Nat.min ((off : Int) + hi).toNat (s.core n).padSize)]
  | none => []
/-- The bytes of a tensor, and of its scale array, in the core's own scratchpad. -/
def tensorHull (s : State) (n : Nat) (d : Desc) (k : EKind) : List (Nat × Nat) :=
  let ext := fun (i : Nat) => (d.dim i - 1 : Nat) * d.str i
  let neg := ([1, 2, 3].map fun i => min 0 (ext i)).foldl (· + ·) 0
  let pos := ([1, 2, 3].map fun i => max 0 (ext i)).foldl (· + ·) 0
  let row : Int := ((d.dim 0 + k.group - 1) / k.group * k.unit : Nat)
  (if d.bt then [] else ownRange' s n d.base neg (pos + row)) ++
  (if k.isBx then ownRange' s n d.scale 0 ((2 * (d.count / 16) : Nat) : Int) else [])
def MSlot.hull (m : MSlot) (e : REnv) (i : Nat) : List (Nat × Nat) :=
  match validKind m.fmte (m.desc i) with
  | some k => tensorHull e.s e.n (m.desc i) k
  | none => []
/-- The block tables of operands, which the macro reads (R256). -/
def MSlot.tables (m : MSlot) (e : REnv) (is : List Nat) : List (Nat × Nat) :=
  is.flatMap fun i => let d := m.desc i; if d.bt then ownRange' e.s e.n d.btab 0 ((8 * d.btcnt : Nat) : Int) else []
def MSlot.region (m : MSlot) : List (Nat × Nat) := [(m.f 4 4, m.f 4 4 + m.f 8 4)]
/-- From the lowest to the highest byte of some ranges; (0, 0) for none. -/
def hullOf (rs : List (Nat × Nat)) : Nat × Nat :=
  match rs.filter fun r => decide (r.1 < r.2) with
  | [] => (0, 0)
  | r :: rs => rs.foldl (fun h q => (Nat.min h.1 q.1, Nat.max h.2 q.2)) r

/-! ### The parameter check word (R224, R264) -/


/-- The descriptors a macro names: positions 0 to 2 its fields, 3 the one in MATTN's block. -/
def namedDescs (m : MSlot) : List Nat :=
  match m.op with
  | 0x02 => [0, 1, 2, 3]
  | 0x03 => if m.flx % 2 = 1 then [0, 1, 2] else [0, 1]
  | 0x05 => [0, 1]
  | 0x06 => if m.flx = 1 then [1, 2] else [0, 1, 2]
  | 0x07 => if m.f 17 1 % 2 = 1 then [0, 1, 2] else [0, 2]
  | 0x11 => [0]
  | 0x12 => [0]
  | 0x13 => if m.flx = 5 then [0] else if m.flx = 3 && m.td0 == 0#8 then [1] else [0, 1]
  | _ => [0, 1, 2]
def rotl (w : Word) (i : Nat) : Word := w.rotateLeft (i % 32)
def foldWords (ws : List Word) : Word := ws.zipIdx.foldl (fun a w => a ^^^ rotl w.1 w.2) 0#32
def wordsOf (bs : List Byte) : List Word := (List.range (bs.length / 4)).map fun i => BitVec.ofNat 32 (bytesToNat (slice bs (4 * i) 4))
def descWords (v : BitVec 1024) (noMap : Bool) : List Word :=
  (List.range 32).map fun i => if noMap && decide (20 ≤ i) && decide (i ≤ 28) then 0#32 else v.extractLsb' (32 * i) 32
def pchkOf (m : MSlot) : Word :=
  foldWords (wordsOf m.blk ++ (namedDescs m).flatMap fun i => descWords (m.descs.getD i 0#1024) (isExchange m.op && m.td i == m.td0))

end Sys2Proof.Machine
end

