-- ==== Sys2Proof/Machine/MacroDense.lean ====
section
/-!
DEFINITION. The dense macros MCONV, MMUL and MATTN (R228–R235): the checks at issue and one tile step of each.
-/
namespace Sys2Proof.Machine

/-! ### Blocks of accumulators -/

/-- Where a step of a dense macro stands: the ordinal of its block, its chunk and the number of chunks. -/
structure Chunk where
  ord : Nat
  j   : Nat
  n   : Nat
/-- The tile a block accumulates in (R231). -/
def MSlot.blockTile (m : MSlot) (ord : Nat) : Nat := m.zb + ord % Nat.max 1 m.zn
/-- An element of a K step's image: the dot product of two lines added to the accumulator. -/
def denseElem (fl : Bool) (a b : List FVal) (acc : Nat) : Nat × Flags := if fl then dotFloat a b (some acc) else dotInt a b (some acc)
/-- A K step over 64 × 64 elements: `as` and `bs` are the lines of A and B by row and column, `acc` the words before. -/
def denseStep (ph : StepPhase) (fl : Bool) (as bs : List (List FVal)) (acc : List Nat) : SM (List Nat) := do
  if ph ≠ .compute then pure acc else
  let a := acc.toArray
  let bl := bs.zipIdx
  let rs := as.zipIdx.flatMap fun (x, i) => bl.map fun (y, j) => denseElem fl x y (a.getD (64 * i + j) 0)
  SM.note (rs.foldl (fun f r => f ||| r.2) 0#6)
  pure (rs.map (·.1))
def wordsImage (ws : List Nat) : List Byte := ws.flatMap (natToBytes 4)

def elemOfKind : EKind → ElemT
  | .el t => t
  | .wq => .f32

/-- The epilogue of one element (R228): accumulator `a`, bias `b` if there is one. -/
def epilogue (e : REnv) (fl : Bool) (k : EKind) (shift : Nat) (a : Nat) (b : Option Nat) : SM OutV := do
  if fl then
    pure (.val (match b with
      | some b => exactSum .rne [FFmt.f32.decode a, FFmt.f32.decode b]
      | none => FFmt.f32.decode a))
  else
    let poison := a == tilePoison || b == some tilePoison
    let v ← match b with
      | some b =>
        if poison then pure 0
        else do
          let (r, f) := satSym (sInt 32 a + sInt 32 b) (2 ^ 31 - 1) fSA
          SM.note f; pure r
      | none => pure (sInt 32 a)
    match k with
    | .el .i32 => pure (.code (if poison then tilePoison else intBits 32 v))
    | .el .n32 =>
      if poison then pure (.code tilePoison)
      else
        let (r, f) := satU v 32
        SM.note f; pure (.code (intBits 32 r))
    | _ =>
      if poison then
        SM.note fIV
        match k with
        | .wq => pure (.code wqPoison)
        | .el t => pure (.code (if (t == .i8 || t == .i4) && fmteNsub e.fmte == 2#2 then 2 ^ (t.bits - 1) else 0))
      else pure (.val (.fin (decide (v < 0)) v.natAbs (-(shift : Int))))

/-- Bias value `i`, if the block has biases. -/
def biasAt (e : REnv) (on : Bool) (addr i : Nat) : SM (Option Nat) := do
  if on then pure (some (← readNat e ((addr + 4 * i : Nat) : Int) 4)) else pure none

/-! ### Windows (R231) -/

/-- An output extent: input `x`, padding `p`, dilation `d`, window `r`, stride `u`. -/
def outExtent (x p d r u : Nat) : Int := (((x : Int) + 2 * p - d * ((r : Int) - 1) - 1).fdiv (u : Int)) + 1
structure Win where
  u : Nat
  v : Nat
  p : Nat
  q : Nat
  dy : Nat
  dx : Nat
  r : Nat
  s : Nat
def MSlot.win (m : MSlot) (o r s : Nat) : Win := ⟨m.f o 1, m.f (o + 1) 1, m.f (o + 2) 1, m.f (o + 3) 1, m.f (o + 4) 1, m.f (o + 5) 1, r, s⟩
def Win.ok (w : Win) : Bool := decide (1 ≤ w.u) && decide (1 ≤ w.v) && decide (1 ≤ w.dy) && decide (1 ≤ w.dx)
def Win.outH (w : Win) (h : Nat) : Int := outExtent h w.p w.dy w.r w.u
def Win.outW (w : Win) (x : Nat) : Int := outExtent x w.q w.dx w.s w.v
/-- The input position of tap (r, s) of output (oy, ox), none outside the input. -/
def Win.tap (w : Win) (h x oy ox r s : Nat) : Option (Nat × Nat) :=
  let iy : Int := (oy * w.u + r * w.dy : Nat) - (w.p : Int)
  let ix : Int := (ox * w.v + s * w.dx : Nat) - (w.q : Int)
  if 0 ≤ iy ∧ iy < h ∧ 0 ≤ ix ∧ ix < x then some (iy.toNat, ix.toNat) else none
/-- Whether some tap of a window lies inside the input. -/
def Win.inside (w : Win) (h x oy ox : Nat) : Bool :=
  (List.range w.r).any fun r => (List.range w.s).any fun s => (w.tap h x oy ox r s).isSome

/-! ### MCONV (R230, R231) -/

def MSlot.convWin (m : MSlot) : Win := m.win 16 ((m.desc 1).dim 1) ((m.desc 1).dim 0)
def convChk (e : REnv) : MChk :=
  let m := e.m
  let w := m.convWin
  let i := m.desc 0
  let f := m.desc 1
  let o := m.desc 2
  let eh := w.outH (i.dim 1)
  let fw := w.outW (i.dim 0)
  let zero := decide (eh ≤ 0) || decide (fw ≤ 0)
  { excs := needP (m.headerOk (e.s.core e.n) 1 64 0 && w.ok && decide (m.f 22 1 < 2) && decide (m.f 23 1 ≤ 31) &&
        (m.f 22 1 == 1 || m.zeros 24 8) && m.zeros 32 32) ++
      needF m 0 denseK ++ needPair m 0 1 denseK denseK densePair ++ needF m 1 denseK ++ needD m 1 (f.dim 2 == i.dim 2) ++
      -- with an empty extent TD2 is checked only for validity (R231)
      needF m 2 (fun k => zero || notC32 k) ++
      (if zero then [] else needD m 2 (decide ((o.dim 0 : Int) = fw) && decide ((o.dim 1 : Int) = eh) && o.dim 2 == f.dim 3 && o.dim 3 == i.dim 3)),
    zero := zero, reads := m.hull e 0 ++ m.hull e 1 ++ m.tables e [0, 1, 2], writes := m.hull e 2 }
/-- The writes of an output block of MCONV (R228, R231): the step's indices, the biases of the block's channels, the words of its tile. -/
def convOut (e : REnv) (ix : List Nat) (bias : List (Option Nat)) (img : List Nat) : SM (List Dest) := do
  let m := e.m
  let o := m.desc 2
  let ko := m.kind 2
  let ia := img.toArray
  let (fw, eh) := (o.dim 0, o.dim 1)
  let (g, b, nb) := (ix.getD 1 0, ix.getD 2 0, ix.getD 3 0)
  (List.range 64).flatMapM fun c => do
    let k := 64 * g + c
    if (m.desc 1).dim 3 ≤ k then pure [] else
    let vs ← ((List.range 64).filter fun r => 64 * b + r < eh * fw).mapM fun r => do
      let n := 64 * b + r
      pure (((n % fw, n / fw, k, nb) : Coord),
        ← epilogue e (zIsFloat (elemOfKind (m.kind 0))) ko (m.f 23 1) (ia.getD (64 * r + c) 0) (bias.getD c none))
    writeAll e o ko vs
def stepConv (e : REnv) : SM StepOut := do
  let m := e.m
  let w := m.convWin
  let i := m.desc 0
  let f := m.desc 1
  let o := m.desc 2
  let ki := m.kind 0
  let kf := m.kind 1
  let fl := zIsFloat (elemOfKind ki)
  let ks := kStep (elemOfKind ki) (elemOfKind kf)
  let (fw, eh) := (o.dim 0, o.dim 1)
  let total := i.dim 2 * w.r * w.s
  let nch := ceilDiv total ks
  let ngr := ceilDiv (f.dim 3) 64
  let nbl := ceilDiv (eh * fw) 64
  let (j, g, b, nb) := (m.ix 0, m.ix 1, m.ix 2, m.ix 3)
  let z := m.blockTile ((nb * nbl + b) * ngr + g)
  let ksOf := (List.range ks).filterMap fun t => let x := j * ks + t; if x < total then some x else none
  let lineA := fun (n : Nat) => do
    if eh * fw ≤ n then pure [] else
    let (oy, ox) := (n / fw, n % fw)
    if !w.inside (i.dim 1) (i.dim 0) oy ox then pure [] else
    ksOf.mapM fun x =>
      match w.tap (i.dim 1) (i.dim 0) oy ox (x / w.s % w.r) (x % w.s) with
      | some (iy, ix) => readVal e i ki (ix, iy, x / w.s / w.r, nb)
      | none => pure (padVal e.fmte i ki)
  let as ← (List.range 64).mapM fun r => lineA (64 * b + r)
  let bs ← (List.range 64).mapM fun c =>
    let k := 64 * g + c
    if f.dim 3 ≤ k then pure [] else ksOf.mapM fun x => readVal e f kf (x % w.s, x / w.s % w.r, x / w.s / w.r, k)
  let acc ← if j = 0 then pure (List.replicate 4096 0) else do pure (imgWords (← readTile e (m.accTile z)))
  let img ← denseStep e.ph fl as bs acc
  let done := j + 1 == nch
  let bias ← if done then (List.range 64).mapM fun c => biasAt e (m.f 22 1 == 1 && decide (64 * g + c < f.dim 3)) (m.f 24 8) (64 * g + c) else pure []
  let ds ← if done then convOut e [j, g, b, nb] bias img else pure []
  let (nx, last) := advance [j, g, b, nb] [nch, ngr, nbl, i.dim 3]
  pure { tiles := [(z, wordsImage img)], dests := ds, next := nx, last := last, zcur := if done then 255 else z, kc := if done then 0 else j + 1,
         wtile := z, bias := bias }

/-! ### MMUL (R232) -/

/-- The checks of an MMUL. R232 does not call BIASA RES0 without BIAS, as R230 does for MCONV; a nonzero value raises PARAM here too (DESIGN CHOICE, log 130). -/
def mulChk (e : REnv) : MChk :=
  let m := e.m
  let a := m.desc 0
  let b := m.desc 1
  let o := m.desc 2
  let beta := (m.f 16 1).testBit 0
  { excs := needP (m.headerOk (e.s.core e.n) 1 64 0 && decide (m.f 16 1 < 4) && decide (m.f 17 1 ≤ 31) && m.zeros 18 6 &&
        ((m.f 16 1).testBit 1 || m.zeros 24 8) && m.zeros 32 32) ++
      needF m 0 denseK ++ needPair m 0 1 denseK denseK densePair ++ needD m 0 (a.dim 3 == 1) ++
      needF m 1 denseK ++ needD m 1 (b.dim 1 == a.dim 0 && b.dim 2 == a.dim 2 && b.dim 3 == 1) ++
      needF m 2 notC32 ++ needD m 2 (o.dim 0 == b.dim 0 && o.dim 1 == a.dim 1 && o.dim 2 == a.dim 2 && o.dim 3 == 1),
    reads := m.hull e 0 ++ m.hull e 1 ++ (if beta then m.hull e 2 else []) ++ m.tables e [0, 1, 2], writes := m.hull e 2 }
/-- The initial accumulator of an element with BETA (R232). -/
def betaAcc (fl : Bool) (k : EKind) (code : Nat) (v : FVal) : SM Nat :=
  if fl then noted (FFmt.f32.round .rne false v)
  else if k = .el .i32 then pure code else noted (convToInt .i32 true 0#2 .rne v)
/-- The writes of a block of MMUL (R228, R232), as `convOut` gives MCONV's. -/
def mulOut (e : REnv) (ix : List Nat) (bias : List (Option Nat)) (img : List Nat) : SM (List Dest) := do
  let m := e.m
  let o := m.desc 2
  let ko := m.kind 2
  let ia := img.toArray
  let (cb, rb, nb) := (ix.getD 1 0, ix.getD 2 0, ix.getD 3 0)
  (List.range 64).flatMapM fun r => do
    if (m.desc 0).dim 1 ≤ 64 * rb + r then pure [] else
    let vs ← ((List.range 64).filter fun c => 64 * cb + c < (m.desc 1).dim 0).mapM fun c => do
      pure (((64 * cb + c, 64 * rb + r, nb, 0) : Coord),
        ← epilogue e (zIsFloat (elemOfKind (m.kind 0))) ko (m.f 17 1) (ia.getD (64 * r + c) 0) (bias.getD c none))
    writeAll e o ko vs
def stepMul (e : REnv) : SM StepOut := do
  let m := e.m
  let a := m.desc 0
  let b := m.desc 1
  let o := m.desc 2
  let (ka, kb, ko) := (m.kind 0, m.kind 1, m.kind 2)
  let fl := zIsFloat (elemOfKind ka)
  let ks := kStep (elemOfKind ka) (elemOfKind kb)
  let (kn, mm, nn) := (a.dim 0, a.dim 1, b.dim 0)
  let nch := ceilDiv kn ks
  let ncb := ceilDiv nn 64
  let nrb := ceilDiv mm 64
  let (ch, cb, rb, nb) := (m.ix 0, m.ix 1, m.ix 2, m.ix 3)
  let z := m.blockTile ((nb * nrb + rb) * ncb + cb)
  let ksOf := (List.range ks).filterMap fun t => let x := ch * ks + t; if x < kn then some x else none
  let as ← (List.range 64).mapM fun r =>
    if mm ≤ 64 * rb + r then pure [] else ksOf.mapM fun x => readVal e a ka (x, 64 * rb + r, nb, 0)
  let bs ← (List.range 64).mapM fun c =>
    if nn ≤ 64 * cb + c then pure [] else ksOf.mapM fun x => readVal e b kb (64 * cb + c, x, nb, 0)
  let beta := (m.f 16 1).testBit 0
  let acc ← if ch ≠ 0 then do pure (imgWords (← readTile e (m.accTile z)))
    else if !beta then pure (List.replicate 4096 0)
    else (List.range 4096).mapM fun x => do
      let (r, c) := (64 * rb + x / 64, 64 * cb + x % 64)
      if mm ≤ r ∨ nn ≤ c then pure 0
      else betaAcc fl ko (← readCode e o ko (c, r, nb, 0)) (← readVal e o ko (c, r, nb, 0))
  let img ← denseStep e.ph fl as bs acc
  let done := ch + 1 == nch
  let bias ← if done then (List.range 64).mapM fun c => biasAt e ((m.f 16 1).testBit 1 && decide (64 * cb + c < nn)) (m.f 24 8) (64 * cb + c) else pure []
  let ds ← if done then mulOut e [ch, cb, rb, nb] bias img else pure []
  let (nx, last) := advance [ch, cb, rb, nb] [nch, ncb, nrb, a.dim 2]
  pure { tiles := [(z, wordsImage img)], dests := ds, next := nx, last := last, zcur := if done then 255 else z, kc := if done then 0 else ch + 1,
         wtile := z, bias := bias }

/-! ### MATTN (R233–R235) -/

def attnPf (m : MSlot) : ElemT := if (m.f 17 1).testBit 1 then .f32 else .bf16
def attnChk (e : REnv) : MChk :=
  let m := e.m
  let q := m.desc 0
  let k := m.desc 1
  let v := m.desc 2
  let o := m.desc 3
  let d := q.dim 0
  { excs := needP (m.headerOk (e.s.core e.n) (1 + d / 64) 64 0 && decide (m.f 17 1 < 4) && m.zeros 18 2 && m.zeros 40 24 &&
        decide (m.f 36 4 ≤ k.dim 1)) ++
      needF m 0 denseK ++ needPair m 0 1 denseK denseK densePair ++ needD m 0 ((d == 64 || d == 128) && q.dim 3 == 1) ++
      needF m 1 denseK ++ needD m 1 (k.dim 0 == d && k.dim 2 == q.dim 2 && k.dim 3 == 1) ++
      needF m 2 (densePair (.el (attnPf m))) ++ needD m 2 (v.dim 0 == d && v.dim 1 == k.dim 1 && v.dim 2 == q.dim 2 && v.dim 3 == 1) ++
      needF m 3 notC32 ++ needD m 3 (o.dim 0 == d && o.dim 1 == q.dim 1 && o.dim 2 == q.dim 2 && o.dim 3 == 1),
    reads := m.hull e 0 ++ m.hull e 1 ++ m.hull e 2 ++ m.tables e [0, 1, 2, 3], writes := m.hull e 3 }
/-- Whether key `j` is visible to query row `i` (R234). -/
def visible (m : MSlot) (i j : Nat) : Bool :=
  let a := m.f 24 4 + i
  let win := m.f 28 4
  decide (j < m.f 36 4) && (decide (j < m.f 32 4) ||
    ((!(m.f 17 1).testBit 0 || decide (j ≤ a)) && (win == 0 || decide (a < j + win))))
/-- The kept blocks of a query block. -/
def keptBlocks (m : MSlot) (qb : Nat) : List Nat :=
  let lq := (m.desc 0).dim 1
  (List.range (ceilDiv (m.f 36 4) 64)).filter fun b =>
    (List.range 64).any fun r => decide (64 * qb + r < lq) && (List.range 64).any fun c => visible m (64 * qb + r) (64 * b + c)
def FVal.maxOf (a b : FVal) : FVal :=
  match a.cmp b with
  | none => .nan (a.raisesIV || b.raisesIV)
  | some .lt => b
  | _ => a
/-- RoundFmt(2^x) of an exact exponent. -/
def exp2Of (f : FFmt) (x : FVal) : Nat × Flags :=
  match x with
  | .nan iv => (f.qnan, if iv then fIV else 0#6)
  | .inf neg => (if neg then 0 else f.infBits, 0#6)
  | .fin neg mag ex => exp2Fin f .rne false neg mag ex (mag * 4096 + (ex + 2048).toNat)
def isNegInf (v : FVal) : Bool := v == .inf true
def f32R (v : FVal) : SM Nat := noted (FFmt.f32.round .rne false v)
def f32V (b : Nat) : FVal := FFmt.f32.decode b

/-- One row of a step (R235): scores `ts` (−∞ where not visible), the values' rows, and the row's m, l, O before; the same after. -/
def attnRow (pf : FFmt) (ts : List FVal) (vs : List (List FVal)) (mb lb : Nat) (os : List Nat) : SM (Nat × Nat × List Nat) := do
  let mo := f32V mb
  let mn := ts.foldl FVal.maxOf mo
  if isNegInf mn then pure (mb, lb, os)
  else
    let c ← if isNegInf mo then pure 0 else noted (exp2Of .f32 (exactSum .rne [mo, mn.negate]))
    let ps ← ts.mapM fun t => if isNegInf t then pure (FVal.fin false 0 0) else do
      pure (pf.decode (← noted (exp2Of pf (exactSum .rne [t, mn.negate]))))
    let l ← f32R (exactSum .rne (FVal.mul (f32V lb) (f32V c) :: ps))
    let os' ← os.zipIdx.mapM fun (o, d) =>
      f32R (exactSum .rne (FVal.mul (f32V o) (f32V c) :: List.zipWith (fun p v => FVal.mul p (v.getD d (.fin false 0 0))) ps vs))
    let mb' := (FFmt.f32.round .rne false mn).1
    pure (mb', l, os')

/-- The writes of a query block of MATTN: each row's l and its words of O (R235). -/
def attnOut (e : REnv) (ix : List Nat) (rows : List (Nat × List Nat)) : SM (List Dest) := do
  let m := e.m
  let (qb, hd) := (ix.getD 1 0, ix.getD 2 0)
  ((List.range 64).filter fun r => 64 * qb + r < (m.desc 0).dim 1).flatMapM fun r => do
    let x := rows.getD r (0, [])
    let out := x.2.map fun w => if (f32V x.1).isZero then OutV.val (.fin false 0 0) else .val ((f32V w).quo (f32V x.1))
    writeAll e (m.desc 3) (m.kind 3) (out.zipIdx.map fun p => ((p.2, 64 * qb + r, hd, 0), p.1))
/-- Row r of O across its tiles, given as words. -/
def attnRowOf (tiles : List (List Nat)) (r : Nat) : List Nat := tiles.flatMap fun w => slice w (64 * r) 64
def stepAttn (e : REnv) : SM StepOut := do
  let m := e.m
  let q := m.desc 0
  let (kq, kk, kv, ko) := (m.kind 0, m.kind 1, m.kind 2, m.kind 3)
  let o := m.desc 3
  let d := q.dim 0
  let lq := q.dim 1
  let nqb := ceilDiv lq 64
  let (pos, qb, hd) := (m.ix 0, m.ix 1, m.ix 2)
  -- the list of a block is made at its first step and lies in the work region from then on (R234)
  let kept := if pos = 0 then keptBlocks m qb else m.work.drop 128
  let nk := Nat.max 1 kept.length
  let done := pos + 1 == nk
  let (nx, last) := advance [pos, qb, hd, m.ix 3] [nk, nqb, q.dim 2, 1]
  let rows := (List.range 64).filter fun r => 64 * qb + r < lq
  let pf := (attnPf m).float?.getD .bf16
  let nt := d / 64
  let fresh := pos = 0
  let ninf := FFmt.f32.signBit true + FFmt.f32.infBits
  let ms := if fresh then List.replicate 64 ninf else m.work.take 64
  let ls := if fresh then List.replicate 64 0 else (m.work.drop 64).take 64
  let oT ← (List.range nt).mapM fun t => if fresh then pure (List.replicate 4096 0) else do pure (imgWords (← readTile e (m.accTile (m.zb + 1) + t)))
  let oRow := attnRowOf oT
  match kept[pos]? with
  | none =>
    let ds ← rows.flatMapM fun r => writeAll e o ko ((List.range d).map fun x => ((x, 64 * qb + r, hd, 0), OutV.val (.fin false 0 0)))
    pure { dests := ds, next := nx, last := last, work := m.work }
  | some kb =>
    let fl := zIsFloat (elemOfKind kq)
    let ks := kStep (elemOfKind kq) (elemOfKind kk)
    let keys := (List.range 64).filter fun c => 64 * kb + c < m.f 36 4
    let qs ← (List.range 64).mapM fun r => if lq ≤ 64 * qb + r then pure [] else (List.range d).mapM fun x => readVal e q kq (x, 64 * qb + r, hd, 0)
    let kr ← (List.range 64).mapM fun c =>
      if m.f 36 4 ≤ 64 * kb + c then pure [] else (List.range d).mapM fun x => readVal e (m.desc 1) kk (x, 64 * kb + c, hd, 0)
    let vr ← keys.mapM fun c => (List.range d).mapM fun x => readVal e (m.desc 2) kv (x, 64 * kb + c, hd, 0)
    let sc ← (List.range (ceilDiv d ks)).foldlM (fun acc t =>
      denseStep e.ph fl (qs.map fun x => slice x (t * ks) ks) (kr.map fun x => slice x (t * ks) ks) acc) (List.replicate 4096 0)
    let sa := sc.toArray
    let scale := f32V (m.f 20 4)
    let res ← (List.range 64).mapM fun r => do
      if lq ≤ 64 * qb + r then pure (ms.getD r 0, ls.getD r 0, oRow r) else
      let ts ← keys.mapM fun c => do
        if visible m (64 * qb + r) (64 * kb + c) then
          let w := sa.getD (64 * r + c) 0
          let v := if fl then f32V w else if w = tilePoison then FVal.nan true else FVal.ofInt (sInt 32 w)
          pure (f32V (← f32R (FVal.mul v scale)))
        else pure (FVal.inf true)
      attnRow pf ts vr (ms.getD r 0) (ls.getD r 0) (oRow r)
    let oImg := (List.range nt).map fun t => res.flatMap fun x => slice x.2.2 (64 * t) 64
    let ds ← if done then attnOut e [pos, qb, hd] (res.map (·.2)) else pure []
    pure { tiles := (m.zb, wordsImage sc) :: (oImg.zipIdx.map fun p => (m.zb + 1 + p.2, wordsImage p.1)),
           dests := ds, next := nx, last := last, zcur := if done then 255 else m.zb + 1, kc := if done then 0 else pos + 1,
           work := res.map (·.1) ++ res.map (·.2.1) ++ kept, wtile := m.zb + 1 }

end Sys2Proof.Machine
end

