-- ==== Sys2Proof/Machine/MacroMap.lean ====
section
/-!
DEFINITION. The macros without tiles: MPOOL, MSORT, MCOPY, MMAP and MGATH (R236–R242): the checks at issue and one step of each.
-/
namespace Sys2Proof.Machine

def sameDims (a b : Desc) : Bool := a.dims == b.dims
def isIntT (k : EKind) (ts : List ElemT) : Bool :=
  match k with
  | .el t => ts.contains t
  | .wq => false

/-! ### MPOOL (R236) -/

def poolKind (k : EKind) : Bool := isFloatK k || isIntT k [.i32, .n32, .i16, .n16, .i8, .n8]
def MSlot.poolWin (m : MSlot) : Win := m.win 19 (m.f 17 1) (m.f 18 1)
def poolChk (e : REnv) : MChk :=
  let m := e.m
  let w := m.poolWin
  let i := m.desc 0
  let o := m.desc 1
  let eh := w.outH (i.dim 1)
  let fw := w.outW (i.dim 0)
  let zero := decide (eh ≤ 0) || decide (fw ≤ 0)
  let arg := m.flx % 2 == 1
  let dims := fun (d : Desc) => decide ((d.dim 0 : Int) = fw) && decide ((d.dim 1 : Int) = eh) && d.dim 2 == i.dim 2 && d.dim 3 == i.dim 3
  { excs := needP (m.headerOk (e.s.core e.n) 0 0 0 && decide (m.f 16 1 ≤ 2) && decide (1 ≤ m.f 17 1) && decide (1 ≤ m.f 18 1) && w.ok && m.zeros 25 39) ++
      needF m 0 poolKind ++ needF m 1 (fun k => zero || poolKind k) ++ needD m 1 (zero || dims o) ++
      (if arg then needF m 2 (fun k => zero || k == .el .n32) ++ needD m 2 (zero || dims (m.desc 2)) else []),
    zero := zero, reads := m.hull e 0 ++ m.tables e (if arg then [0, 1, 2] else [0, 1]), writes := m.hull e 1 ++ (if arg then m.hull e 2 else []) }
/-- R135's maximum over the codes of elements as an engine reads them (R40, R41): what is stored, and which codes give it. A NaN among integer operands
(the NaN marker under NSUB = 10) makes the result a NaN, as among floats (DESIGN CHOICE, log 85: R135 speaks of NaN for float types only). -/
def maxCodes (e : REnv) (d : Desc) (k : EKind) (cs : List Nat) : SM (OutV × (Nat → Bool)) := do
  let t := elemOfKind k
  let val := codeValue e.fmte d k
  match t.float? with
  | some f =>
    let r := cs.foldl (fun (a : Nat × Flags) x => let p := minMaxElem t true a.1 x; (p.1, a.2 ||| p.2)) (cs.headD 0, 0#6)
    SM.note r.2
    pure (.val (f.decode r.1), fun x => x == r.1 || ((f.decode r.1).isNan && (f.decode x).isNan))
  | none =>
    let r := cs.tail.foldl (fun a x => FVal.maxOf a (val x)) (val (cs.headD 0))
    pure (.val r, fun x => if r.isNan then (val x).isNan else (val x).cmp r == some .eq)
/-- One window: the output, and the index of the tap that gives a maximum. -/
def poolOne (e : REnv) (w : Win) (i : Desc) (ki : EKind) (mode oy ox c nb : Nat) : SM (OutV × Nat) := do
  if !w.inside (i.dim 1) (i.dim 0) oy ox then pure (.val (.fin false 0 0), 0xFFFFFFFF)
  else
    let taps := (List.range w.r).flatMap fun r => (List.range w.s).map fun s => w.tap (i.dim 1) (i.dim 0) oy ox r s
    let codes ← taps.mapM fun t => match t with
      | some (iy, ix) => do pure (← readCode e i ki (ix, iy, c, nb), iy * i.dim 0 + ix)
      | none => pure (padCode i ki, 0xFFFFFFFF)
    if mode = 0 then
      let (v, gives) ← maxCodes e i ki (codes.map (·.1))
      pure (v, ((codes.find? fun x => gives x.1).map (·.2)).getD 0xFFFFFFFF)
    else
      let count := if mode = 1 then (taps.filter Option.isSome).length else w.r * w.s
      pure (.val ((exactSum .rne (codes.map fun x => codeValue e.fmte i ki x.1)).quo (.ofInt (count : Int))), 0xFFFFFFFF)
def stepPool (e : REnv) : SM StepOut := do
  let m := e.m
  let w := m.poolWin
  let i := m.desc 0
  let o := m.desc 1
  let (ki, ko) := (m.kind 0, m.kind 1)
  let (fw, eh) := (o.dim 0, o.dim 1)
  let (g, b, nb) := (m.ix 0, m.ix 1, m.ix 2)
  let arg := m.flx % 2 == 1
  let ds ← (List.range 64).flatMapM fun cc => do
    let c := 64 * g + cc
    if i.dim 2 ≤ c then pure [] else
    let rs ← ((List.range 64).filter fun r => 64 * b + r < eh * fw).mapM fun r => do
      let n := 64 * b + r
      let v ← poolOne e w i ki (m.f 16 1) (n / fw) (n % fw) c nb
      pure (((n % fw, n / fw, c, nb) : Coord), v)
    let x ← writeAll e o ko (rs.map fun p => (p.1, p.2.1))
    let y ← if arg then writeAll e (m.desc 2) (.el .n32) (rs.map fun p => (p.1, .code p.2.2)) else pure []
    pure (x ++ y)
  let (nx, last) := advance [g, b, nb, m.ix 3] [ceilDiv (i.dim 2) 64, ceilDiv (eh * fw) 64, i.dim 3, 1]
  pure { dests := ds, next := nx, last := last }

/-! ### MSORT (R237) -/

def sortKind (k : EKind) : Bool := isFloatK k || isIntT k [.i32, .n32, .i16, .n16]
def MSlot.sortK (m : MSlot) : Nat := if m.f 16 4 = 0 then (m.desc 0).dim 0 else m.f 16 4
def sortChk (e : REnv) : MChk :=
  let m := e.m
  let k := m.desc 0
  let v := m.desc 1
  let x := m.desc 2
  let ok := fun (d : Desc) => d.dim 0 == m.sortK && d.dim 1 == k.dim 1 && d.dim 2 == 1 && d.dim 3 == 1
  { excs := needP (m.headerOk (e.s.core e.n) 0 0 (8 * k.dim 0) && decide (m.f 16 4 ≤ k.dim 0) && decide (m.f 20 1 < 2) && m.zeros 21 43) ++
      needF m 0 sortKind ++ needPair m 0 1 sortKind sortKind (· == ·) ++ needD m 0 (decide (k.dim 0 ≤ 65536) && k.dim 2 == 1 && k.dim 3 == 1) ++
      needF m 1 sortKind ++ needD m 1 (ok v) ++ needF m 2 (fun t => t == .el .n32 || t == .el .i32) ++ needD m 2 (ok x),
    reads := m.hull e 0 ++ m.tables e [0, 1, 2], writes := m.hull e 1 ++ m.hull e 2 }
/-- Whether key `a` ranks above key `b` in value order, NaN above everything (R237). -/
def ranksAbove (a b : FVal) : Bool :=
  match a.cmp b with
  | some .gt => true
  | some _ => false
  | none => a.isNan && !b.isNan
/-- Inserts an element behind those that do not follow it. -/
def insertKey (asc : Bool) (x : FVal × Nat × Nat) : List (FVal × Nat × Nat) → List (FVal × Nat × Nat)
  | [] => [x]
  | y :: ys => if (if asc then ranksAbove y.1 x.1 else ranksAbove x.1 y.1) then x :: y :: ys else y :: insertKey asc x ys
/-- A row of MSORT. Keys are compared and moved as R237 gives; a signalling NaN among them raises no flag, since R237 names none (DESIGN CHOICE, log 131). -/
def stepSort (e : REnv) : SM StepOut := do
  let m := e.m
  let k := m.desc 0
  let kk := m.kind 0
  let row := m.ix 0
  let ks ← (List.range (k.dim 0)).mapM fun i => do
    let c ← readCode e k kk (i, row, 0, 0)
    pure (codeValue e.fmte k kk c, c, i)
  let out := (ks.foldl (fun l x => insertKey ((m.f 20 1).testBit 0) x l) []).take m.sortK
  let a ← writeAll e (m.desc 1) kk (out.zipIdx.map fun p => ((p.2, row, 0, 0), OutV.code p.1.2.1))
  let b ← writeAll e (m.desc 2) (m.kind 2) (out.zipIdx.map fun p => ((p.2, row, 0, 0), OutV.code p.1.2.2))
  let (nx, last) := advance [row, m.ix 1, m.ix 2, m.ix 3] [k.dim 1, 1, 1, 1]
  pure { dests := a ++ b, next := nx, last := last }

/-! ### MCOPY (R238) -/

def copyChk (e : REnv) : MChk :=
  let m := e.m
  let add := m.f 16 1 == 1
  { excs := needP (m.headerOk (e.s.core e.n) 0 0 0 && decide (m.f 16 1 ≤ 1) && m.zeros 17 7 && m.zeros 32 32) ++
      needF m 0 (fun k => !add || notC32 k) ++ (if add then [] else needPair m 0 1 (fun _ => true) (fun _ => true) (fun a b => isC32 a == isC32 b)) ++
      needF m 1 (fun k => !add || k == .wq) ++ needD m 1 (sameDims (m.desc 0) (m.desc 1)),
    reads := m.hull e 0 ++ m.tables e [0, 1], writes := m.hull e 1 }
/-- The value an element is converted from: WQ goes through FP32 unless the destination is WQ (R49, R51). -/
def copyVal (kd : EKind) (ks : EKind) (v : FVal) : SM FVal :=
  if ks = .wq ∧ kd ≠ .wq then do pure (f32V (← f32R v)) else pure v
def stepCopy (e : REnv) : SM StepOut := do
  let m := e.m
  let s := m.desc 0
  let d := m.desc 1
  let (ks, kd) := (m.kind 0, m.kind 1)
  let i := m.ix 0
  let g := kd.group
  let units := ceilDiv (d.dim 0) g * (d.dim 1 * d.dim 2 * d.dim 3)
  let lo := ceilDiv (16384 * i) kd.unit
  let hi := Nat.min units (ceilDiv (16384 * (i + 1)) kd.unit)
  let add := m.f 16 1 == 1
  -- equal formats copy bits (R238); an addend is ToWQ of the source, which leaves a code of the destination's binary point as it is
  let same := ks == kd && (!add || s.pbin == d.pbin)
  let ds ← (List.range (hi - lo)).flatMapM fun x => do
    let c0 := d.unflat ((lo + x) * g)
    if add then
      let v ← readVal e s ks c0
      let w ← if same then readCode e s ks c0 else noted (toWQ v d.pbin)
      match ← resolve e d (d.off kd c0) with
      | none => SM.outside; pure []
      | some a => writeAt e a (natToBytes 16 w) true
    else if same then
      let (bs, sc) ← readUnit e s ks c0
      writeUnit e d kd c0 bs sc
    else
      let vs ← (List.range g).mapM fun y => do pure (OutV.val (← copyVal kd ks (← readVal e s ks (c0.1 + y, c0.2))))
      writeGroup e d kd c0 vs
  let (nx, last) := advance [i, m.ix 1, m.ix 2, m.ix 3] [ceilDiv (units * kd.unit) 16384, 1, 1, 1]
  pure { dests := ds, next := nx, last := last }

/-! ### MMAP (R242) -/

def mapChk (e : REnv) : MChk :=
  let m := e.m
  let two := m.f 17 1 % 2 == 1
  { excs := needP (m.headerOk (e.s.core e.n) 0 0 0 && decide (m.f 16 1 ≤ 9) && decide (m.f 17 1 < 2) && m.zeros 18 2 && m.zeros 36 28) ++
      needF m 0 notC32 ++ (if two then needF m 1 notC32 ++ needD m 1 (sameDims (m.desc 0) (m.desc 1)) else []) ++
      needF m 2 notC32 ++ needD m 2 (sameDims (m.desc 0) (m.desc 2)),
    reads := m.hull e 0 ++ (if two then m.hull e 1 else []) ++ m.tables e (if two then [0, 1, 2] else [0, 2]), writes := m.hull e 2 }
/-- The function of R242 on an FP32 value. -/
def mapFun (fn : Nat) (lo hi t : Nat) : Nat × Flags :=
  let tr := fun (f : TFun) => transc f .f32 .rne false t
  match fn with
  | 1 => match f32V t with
    | .fin true k _ => (if k = 0 then t else 0, 0#6)
    | .inf true => (0, 0#6)
    | _ => (t, 0#6)
  | 2 => tr .exp2
  | 3 => tr .log2
  | 4 => tr .rcp
  | 5 => tr .rsq
  | 6 => tr .sinp
  | 7 => tr .cosp
  | 8 => (t % 2 ^ 31, 0#6)
  | 9 =>
    let a := minMaxElem .f32 true t lo
    let b := minMaxElem .f32 false a.1 hi
    (b.1, a.2 ||| b.2)
  | _ => (t, 0#6)
def stepMap (e : REnv) : SM StepOut := do
  let m := e.m
  let o := m.desc 2
  let n := Nat.min 4096 (o.count - 4096 * m.ix 0)
  let vs ← (List.range n).mapM fun x => do
    let c := o.unflat (4096 * m.ix 0 + x)
    let a ← readVal e (m.desc 0) (m.kind 0) c
    let y ← if m.f 17 1 % 2 = 1 then readVal e (m.desc 1) (m.kind 1) c else pure (.fin false 0 0)
    let t ← f32R (exactSum .rne [FVal.mul (f32V (m.f 20 4)) a, f32V (m.f 24 4), y])
    let r ← noted (mapFun (m.f 16 1) (m.f 28 4) (m.f 32 4) t)
    pure (c, OutV.val (f32V r))
  let ds ← writeAll e o (m.kind 2) vs
  let (nx, last) := advance [m.ix 0, m.ix 1, m.ix 2, m.ix 3] [ceilDiv o.count 4096, 1, 1, 1]
  pure { dests := ds, next := nx, last := last }

/-! ### MGATH (R239–R241) -/

/-- Elements of a row tensor (width, rows) that lie in its rows. -/
def Desc.rows (d : Desc) : Nat := d.dim 1
def gathRow (d : Desc) : Bool := d.dim 2 == 1 && d.dim 3 == 1
def gathChk (e : REnv) : MChk :=
  let m := e.m
  let md := m.flx
  let a := m.desc 0
  let b := m.desc 1
  let c := m.desc 2
  let n := m.f 16 4
  let fl := m.f 20 1
  let is32 := fun k => k == .el .n32
  let idx := needF m 1 is32
  let cnt := needD m 1 (md == 2 || decide (n ≤ b.count))
  let tbl := needD m 0 (gathRow a)
  let aux := fun (o len : Nat) => ownRange' e.s e.n (m.f o 8 : Nat) 0 (len : Nat)
  { excs := needP (m.headerOk (e.s.core e.n) 0 0 0 && decide (fl < 8) && fl / 2 != 3 &&
        (if md = 3 then decide (1 ≤ m.f 21 1) && decide (m.f 21 1 ≤ 31) && decide (1 ≤ m.f 22 1) else m.zeros 21 2 && m.zeros 36 4) && m.zeros 23 1 &&
        (md == 1 || md == 2 || m.zeros 24 8) && ((md == 2 && fl % 2 == 1) || m.zeros 40 8) && m.zeros 48 16) ++
      (match md with
       | 0 => needF m 0 (fun _ => true) ++ needPair m 0 2 (fun _ => true) (fun _ => true) (· == ·) ++ tbl ++ idx ++ cnt ++
          needF m 2 (fun _ => true) ++ needD m 2 (gathRow c && c.dim 0 == a.dim 0 && decide (n ≤ c.rows))
       | 1 => idx ++ cnt ++ needF m 2 is32 ++ needD m 2 (decide (1 ≤ c.count))
       | 2 => needF m 0 isFloatK ++ tbl ++ idx ++ needF m 2 notC32 ++ needD m 2 (gathRow c && c.dim 0 == a.dim 0 && decide (n ≤ c.rows))
       | 3 => needF m 0 (fun k => k.width == 32) ++ needD m 0 (gathRow a && a.dim 0 == 2 && a.rows == 2 ^ m.f 21 1) ++ idx ++ cnt ++
          needF m 2 (fun k => k.width == 32) ++ needD m 2 (decide (n ≤ c.count))
       | _ => needF m 0 notC32 ++ tbl ++ needD m 0 (decide (n ≤ a.rows)) ++ idx ++ cnt ++ needF m 2 (· == .wq) ++ needD m 2 (gathRow c && c.dim 0 == a.dim 0)),
    done := n == 0,
    reads := (if md = 1 then [] else m.hull e 0) ++ m.hull e 1 ++ m.tables e (if md = 1 then [1, 2] else [0, 1, 2]) ++
      (if md = 2 then aux 24 (4 * (n + 1)) ++ (if fl % 2 = 1 then aux 40 (4 * b.count) else []) else []),
    -- RESULT is written into the block, DEDUPE's inverse map to AUX1
    writes := m.hull e 2 ++ ownRange' e.s e.n (m.blkAddr.toNat : Nat) 32 36 ++ (if md = 1 then aux 24 (4 * n) else []) }
/-- Moves a row as bits: whole units with their scale words. -/
def moveRow (e : REnv) (a : Desc) (k : EKind) (row : Option Nat) (o : Desc) (orow : Nat) : SM (List Dest) := do
  match row with
  | some r => rowDie e a k r
  | none => pure ()
  (List.range (ceilDiv (o.dim 0) k.group)).flatMapM fun u => do
    let (bs, sc) ← match row with
      | some r => readUnit e a k (u * k.group, r, 0, 0)
      | none => pure (padUnit a k, 0)
    writeUnit e o k (u * k.group, orow, 0, 0) bs sc
/-- The key's hash and probes (R241). -/
def probe (e : REnv) (key : Nat) : SM (Option Nat) := do
  let m := e.m
  let lt := m.f 21 1
  let h := key * 0x6C8E9CF5 % 2 ^ 32 / 2 ^ (32 - lt)
  let rec go : Nat → Nat → SM (Option Nat)
    | 0, _ => pure none
    | f + 1, q => do
      let sl := (h + q) % 2 ^ lt
      rowDie e (m.desc 0) (m.kind 0) sl
      let tk ← readCode e.forAddr (m.desc 0) (m.kind 0) (0, sl, 0, 0)
      if tk = key ∧ key ≠ 0xFFFFFFFF then do pure (some (← readCode e (m.desc 0) (m.kind 0) (1, sl, 0, 0)))
      else if tk = 0xFFFFFFFF then pure none
      else go f (q + 1)
  go (m.f 22 1) 0
/-- One bag's row (R240): the rows it covers, each with its weight. -/
def bagRow (e : REnv) (rows : List (Nat × FVal)) (b : Nat) : SM (List Dest) := do
  let m := e.m
  let a := m.desc 0
  let o := m.desc 2
  let ko := m.kind 2
  let wtd := m.f 20 1 % 2 == 1
  rows.forM fun r => rowDie e a (m.kind 0) r.1
  let vs ← (List.range (o.dim 0)).mapM fun x => do
    let coord : Coord := (x, b, 0, 0)
    if rows.isEmpty then pure (coord, OutV.val (.fin false 0 0))
    else if m.f 20 1 / 2 = 2 then do
      let cs ← rows.mapM fun r => readCode e a (m.kind 0) (x, r.1, 0, 0)
      pure (coord, (← maxCodes e a (m.kind 0) cs).1)
    else do
      let ts ← rows.mapM fun r => do
        let v ← readVal e a (m.kind 0) (x, r.1, 0, 0)
        pure (if wtd then FVal.mul v r.2 else v)
      let s := exactSum .rne ts
      pure (coord, OutV.val (if m.f 20 1 / 2 = 1 then s.quo (.ofInt (rows.length : Int)) else s))
  writeAll e o ko vs
def findIdx32 (l : List Nat) (x : Nat) : Option Nat := l.findIdx? (· == x)
def stepGath (e : REnv) : SM StepOut := do
  let m := e.m
  let a := m.desc 0
  let b := m.desc 1
  let c := m.desc 2
  let n := m.f 16 4
  let i0 := 64 * m.ix 0
  let k := Nat.min 64 (n - i0)
  let items := (List.range k).map (i0 + ·)
  let idxAt := fun (i : Nat) => readCode e.forAddr b (.el .n32) (b.unflat i)
  let (nx, last) := advance [m.ix 0, m.ix 1, m.ix 2, m.ix 3] [ceilDiv n 64, 1, 1, 1]
  let (ds, res, wk) ← (match m.flx with
    | 0 => do
      let r ← items.mapM fun i => do
        let x ← idxAt i
        if a.rows ≤ x then SM.outside
        pure (← moveRow e a (m.kind 0) (if a.rows ≤ x then none else some x) c i, if a.rows ≤ x then 1 else 0)
      pure (r.flatMap (·.1), m.result + (r.map (·.2)).foldl (· + ·) 0, m.work)
    | 1 => do
      let r ← items.foldlM (fun (p : List Dest × List Nat) i => do
        let x ← idxAt i
        let (pos, add) := match findIdx32 p.2 x with
          | some q => (q, false)
          | none => (p.2.length, true)
        let w ← if add then writeAll e c (.el .n32) [(c.unflat pos, .code x)] else pure []
        let v ← writeAt e ((m.f 24 8 + 4 * i : Nat) : Int) (natToBytes 4 pos) false
        pure (p.1 ++ w ++ v, if add then p.2 ++ [x] else p.2)) ([], m.work)
      pure (r.1, r.2.length, r.2)
    | 2 => do
      let r ← items.mapM fun bg => do
        let lo ← readNat e.forAddr ((m.f 24 8 + 4 * bg : Nat) : Int) 4
        let hi ← readNat e.forAddr ((m.f 24 8 + 4 * bg + 4 : Nat) : Int) 4
        let rows ← (List.range (hi - lo)).mapM fun j => do
          let x ← if lo + j < b.count then idxAt (lo + j) else pure (2 ^ 32)
          let w ← if m.f 20 1 % 2 = 1 then readNat e ((m.f 40 8 + 4 * (lo + j) : Nat) : Int) 4 else pure 0
          if a.rows ≤ x then SM.outside
          pure (x, f32V w)
        let good := rows.filter fun x => decide (x.1 < a.rows)
        pure (← bagRow e good bg, rows.length - good.length)
      pure (r.flatMap (·.1), m.result + (r.map (·.2)).foldl (· + ·) 0, m.work)
    | 3 => do
      let r ← items.mapM fun i => do
        let v ← probe e (← idxAt i)
        pure (← writeAll e c (m.kind 2) [(c.unflat i, .code (v.getD (m.f 36 4)))], if v.isSome then 0 else 1)
      pure (r.flatMap (·.1), m.result + (r.map (·.2)).foldl (· + ·) 0, m.work)
    | _ => do
      let r ← items.mapM fun i => do
        let x ← idxAt i
        if c.rows ≤ x then do SM.outside; pure ([], 1)
        else
          rowDie e c .wq x
          let ws ← (List.range (a.dim 0)).flatMapM fun y => do
            let v ← readVal e a (m.kind 0) (y, i, 0, 0)
            let w ← if m.kind 0 = .wq ∧ a.pbin = c.pbin then readCode e a (m.kind 0) (y, i, 0, 0) else noted (toWQ v c.pbin)
            match ← resolve e c (c.off .wq (y, x, 0, 0)) with
            | none => SM.outside; pure []
            | some ad => writeAt e ad (natToBytes 16 w) true
          pure (ws, 0)
      pure (r.flatMap (·.1), m.result + (r.map (·.2)).foldl (· + ·) 0, m.work) : SM (List Dest × Nat × List Nat))
  let fin ← if last then writeAt e ((m.blkAddr.toNat + 32 : Nat) : Int) (natToBytes 4 res) false else pure []
  pure { dests := ds ++ fin, next := nx, last := last, work := wk, result := res }

end Sys2Proof.Machine
end

