-- ==== Sys2Proof/Machine/MacroRun.lean ====
section
/-!
DEFINITION. The macro sequencer below the macros themselves: committing a step (R218, R222), its writes and their acknowledgment (R219–R221, R363), the
halt of a slot (R220, R223, R226), and the update of a descriptor entry (R255).
-/
namespace Sys2Proof.Machine

/-- The path a macro reads by, and the one it writes by (R214). -/
def rdPath (op : Nat) : Path := if op = 6 then .gu else if op = 0x13 then .lk else .mo
def wrPath (op : Nat) : Path := if op = 6 then .gu else if op = 0x13 then .lk else .sq
def State.slotAt (s : State) (n t : Nat) : MSlot := (s.core n).slots[t]?.getD MSlot.zero
def State.modSlot (s : State) (n t : Nat) (f : MSlot → MSlot) : State :=
  s.modCore n fun c => c.setSlot t (f (c.slots[t]?.getD MSlot.zero))
def renv (s : State) (n t : Nat) : REnv :=
  let m := s.slotAt n t
  ⟨s, n, t, m, rdPath m.op, wrPath m.op, .compute⟩

/-! ### Descriptor entries (R255) -/

/-- Writes an entry of the table, as the device's own write (R380), and of every core copy, as one release at device scope by agent `w`; the issuing core's own
copy is the caller's. A table that cannot be written is context-fatal (R280). -/
def updateTable (s : State) (n : Nat) (td : BitVec 8) (v : BitVec 1024) (w : Nat) : State :=
  let c := s.core n
  let base := ((s.ctx? c.ctx).map (·.tdBase)).getD 0
  let w1 := devWrite s (some (.write 3 n)) c.ctx (base + 128 * td.toNat) (natToBytes 128 v.toNat) agDev
  let s1 := ((w1.toOption).getD s).release w
  let ks := (List.range 5).map fun i => s1.rct.count (w / 5 * 5 + i)
  let note := fun (d : Core) => { d with descNew := d.descNew ++ [⟨td, v, w, ks, false⟩] }
  let cores := s1.cores.mapFinIdx (fun i d _ => if i ≠ n ∧ d.st ≠ .free ∧ d.ctx = c.ctx then note d else d)
  let groups := s1.groups.map fun (g : Nat × Group) =>
    if g.2.ctx ≠ c.ctx then g else (g.1, { g.2 with saved := g.2.saved.map note })
  let s2 : State := { s1 with cores := cores, groups := groups }
  match w1 with
  | .ok _ => s2
  | .error e => ctxFatal s2 c.ctx 3 n e
/-- The issuing core's own copy takes a new entry whole. -/
def Core.setDesc (c : Core) (td : BitVec 8) (v : BitVec 1024) : Core :=
  { c with descs := Tab.set c.descs td.toNat v, descNew := c.descNew.filter fun p => p.n != td }

/-! ### Writes of a step -/

/-- Joins bytes that follow one another. -/
def joinGlob : List (Bool × Nat × List Byte) → List (Bool × Nat × List Byte)
  | [] => []
  | g :: gs =>
    match joinGlob gs with
    | [] => [g]
    | h :: hs => if !g.1 && !h.1 && g.2.1 + g.2.2.length == h.2.1 then (false, g.2.1, g.2.2 ++ h.2.2) :: hs else g :: h :: hs
def globOf : Dest → Option (Bool × Nat × List Byte)
  | .glob va bs => some (false, va, bs)
  | .gadd va bs => some (true, va, bs)
  | _ => none
def cellsOf (s : State) : Dest → List (Nat × Nat × Byte)
  | .pad k off bs => ((s.core k).padCells false off bs).map fun c => (k, c.1, c.2)
  | _ => []
def bitsOf : Dest → Option (Nat × Byte × Byte)
  | .globBits va b en => some (va, b, en)
  | _ => none
def cellBitOf (s : State) : Dest → Option (Nat × Nat × Byte × Byte)
  | .padBits k off b en => some (k, (s.core k).padAddr false off, b, en)
  | _ => none
def addOf (s : State) : Dest → Option (Nat × Nat × List Byte)
  | .padd k off bs => some (k, (s.core k).padAddr false off, bs)
  | _ => none
/-- What a step leaves to be written. -/
def outOf (s : State) (m : MSlot) (so : StepOut) : Out :=
  { step := m.done, job := 0, tile := so.wtile, bytes := (so.dests.map Dest.size).foldl (· + ·) so.landed,
    glob := joinGlob (so.dests.filterMap globOf), bits := so.dests.filterMap bitsOf, cells := so.dests.flatMap (cellsOf s),
    cellBits := so.dests.filterMap (cellBitOf s), adds := so.dests.filterMap (addOf s), failed := false, owes := false, refused := [],
    idx := m.idx.toList, work := m.work, desc0 := m.descs.headD 0, bias := so.bias, dies := [] }
/-- The lines of cores' pools that a step's writes fill. -/
def Out.lines (o : Out) : List (Nat × Nat) :=
  let a : List (Nat × Nat) := o.cells.map fun c => (c.1, c.2.1 / 128)
  let b : List (Nat × Nat) := o.adds.map fun c => (c.1, c.2.1 / 128)
  let d : List (Nat × Nat) := o.cellBits.map fun c => (c.1, c.2.1 / 128)
  (a ++ b ++ d).eraseDups
/-- What a step writes to global memory, as (an addition, address, length). -/
def Out.globRanges (o : Out) : List (Bool × Nat × Nat) := o.glob.map (fun g => (g.1, g.2.1, g.2.2.length)) ++ o.bits.map fun b => (false, b.1, 1)

/-- Issues a step's writes (R218): global accesses of the macro's path, and IN on the scratchpad lines (R164). -/
def issueOut (s : State) (n t : Nat) (o : Out) : State :=
  let m := s.slotAt n t
  let (id, s1) := s.pushJob n (.macroWrite t o.step) m.baddr
  let info := fun (add : Bool) => (⟨n, wrPath m.op, if add then .wqadd else .write, ⟨if add then .atomic else .write, true, false, false⟩, false, false, 2#2, id, m.baddr⟩ : AccInfo)
  let s1 := o.glob.foldl (fun s g => s.pushLines (info g.1) g.2.1 g.2.2 [] (List.replicate g.2.2.length true)) s1
  let s2 := o.bits.foldl (fun s b => s.pushLines (info false) b.1 [b.2.1] [b.2.2] [true]) s1
  let s3 := o.lines.foldl (fun s l => s.modCore l.1 fun c =>
    { c with fills := c.fills ++ [⟨id, l.2, false, .seq, .cells ((o.cells.filter fun w => w.1 == l.1 && w.2.1 / 128 == l.2).map (·.2)), [], false⟩] }) s2
  s3.modSlot n t fun m => { m with outs := m.outs.map fun p => if p.step = o.step then { o with job := id, failed := false, owes := false } else p }

/-- ON and OSTEP of the outs that are left (R221). -/
def MSlot.countOuts (m : MSlot) : MSlot :=
  { m with on := m.outs.length, ostep := match m.outs with
      | [] => 0
      | o :: _ => o.step }
/-- The tiles a slot owns become QUIET (R188). -/
def Core.quiet (c : Core) (t : Nat) : Core :=
  { c with tiles := c.tiles.map fun e => if e.2.owner = some (BitVec.ofNat 2 t) then (e.1, { e.2 with owner := none }) else e }

/-- The bytes an idle slot leaves in the rest of its work region (R227): the staged operands and the state between steps, in a layout of the device's own. -/
def MSlot.regionBytes (m : MSlot) (f : Nat) : List Byte := (List.range (m.f 8 4 - m.ownLayout)).map (Config.freeByte f)
def freeRegion (s : State) (n : Nat) (m : MSlot) : State :=
  s.modCore n fun c => c.bgWrite s.fresh false (c.padCells false (m.woff + m.ownLayout) (m.regionBytes s.fresh))
/-- Whether the region still holds what the slot left there (R227). -/
def regionKept (s : State) (n : Nat) (m : MSlot) : Bool :=
  match m.sealAt with
  | some f => (s.core n).padBytes false (m.woff + m.ownLayout) (m.f 8 4 - m.ownLayout) == m.regionBytes f
  | none => true

/-- A macro whose last step is committed and whose writes are acknowledged is FREE (R212). -/
def finishSlot (s : State) (n t : Nat) : State :=
  let m := s.slotAt n t
  if m.st = .busy ∧ m.fin ∧ m.outs.isEmpty ∧ m.stop.isNone then
    (freeRegion (s.modSlot n t fun m => { m with st := .free, reason := 1, rsm := false }) n m).modCore n fun c => c.quiet t
  else s

/-- The barrier object of a macro's engine arrivals (R238, R412), 0 for none. -/
def MSlot.arrivalObj (m : MSlot) : Nat := if m.op = 5 then m.f 24 8 else if m.op = 0x13 then m.f 40 8 else 0
def wantArrive : Want := ⟨.atomic, true, false, false⟩
/-- The halt of a step whose arrival's object does not translate (R218, R363). -/
def arrivalFail (s : State) (n : Nat) (m : MSlot) : Option (Nat × Nat × Nat) :=
  if m.arrivalObj = 0 then none
  else match translate s (s.core n).ctx wantArrive m.arrivalObj with
    | .error cl => some (3, m.arrivalObj, transAuxv cl 2 (wrPath m.op).num)
    | .ok _ => none
/-- Takes an out off the slot's list, its job with it. -/
def State.dropOut (s : State) (n t : Nat) (o : Out) : State :=
  (s.modCore n fun c => { c with jobs := c.jobs.filter fun j => j.id != o.job }).modSlot n t fun m =>
    ({ m with outs := m.outs.filter fun p => p.step != o.step } : MSlot).countOuts
/-- The engine arrival of a step whose writes are acknowledged (R363): it counts the step's destination bytes, and it is one more access of the step's
job, which a race or a lost link fails as they fail a write. An object that does not translate any more halts the slot with the arrival still owed, and a
RESUME makes it. -/
def engineArrive (s : State) (n t : Nat) (o : Out) : State :=
  let m := s.slotAt n t
  let left : Out := { o with glob := [], bits := [], cells := [], cellBits := [], adds := [], refused := [] }
  let put := fun (x : Out) (s : State) => s.modSlot n t fun m => { m with outs := m.outs.map fun p => if p.step = o.step then x else p }
  if m.arrivalObj = 0 then finishSlot (s.dropOut n t o) n t
  else match arrivalFail s n m with
    | some (r, a, x) => (put { left with failed := true } s).stopSlot n t r a x
    | none =>
      (put { left with owes := true } s).pushLines
        ⟨n, wrPath m.op, .bara 0 o.bytes, wantArrive, false, true, if m.op = 0x13 then 3#2 else 2#2, o.job, m.baddr⟩ m.arrivalObj [] [] (List.replicate 64 true)
/-- The count a commit passes from SQ to MO (R377): at once, or after the path's writes that are still to be performed, among them the step's own
(DEDUCED, log 89). -/
def commitFence (s : State) (n : Nat) (baddr : DWord) : State :=
  if s.accesses.any fun a => a.core == n && a.path == .sq && !a.done then
    s.pushAccess (pseudoAccess ⟨n, baddr, 0, .x, 0⟩ (s.core n).ctx .sq (.xfence .sq .mo) 0#2)
  else s.xfenceCount n .sq .mo
/-- The dies whose gather units serve a step of MGATH, those that own its rows (R239); one without rows is served on the issuing core's die (DESIGN CHOICE, log
113). -/
def stepDies (n : Nat) (lg : MLog) : List Nat := if lg.dies.isEmpty then [dieOf n] else lg.dies
/-- The commit of a step (R218, R222), and the issue of its writes. -/
def commitStep (s : State) (n t : Nat) (so : StepOut) (lg : MLog) : State :=
  let m := s.slotAt n t
  let s1 := s.modCore n fun c =>
    let c1 := so.tiles.foldl (fun (c : Core) z =>
      let i := c.tileInfo z.1
      { c.setPool (c.tileBase z.1) z.2 with tiles := Tab.set c.tiles z.1 { i with kdone := (i.kdone + 1) % 65536 } }) c
    c1.raise .x lg.fl m.baddr
  -- the lines the step read were used at their homes, by walks that may be cached (R368, R389)
  let s1 := lg.reads.foldl (fun s r => s.useAt (s.core n).ctx r.1 r.2) s1
  let o := { outOf s1 m so with dies := stepDies n lg }
  -- a step that writes nothing still makes its arrival
  let quiet := so.dests.isEmpty && m.arrivalObj == 0
  let kd := if so.zcur = 255 then 0 else ((s1.core n).tileInfo so.zcur).kdone
  let s2 := s1.modSlot n t fun m =>
    ({ m with done := (m.done + 1) % 2 ^ 32, idx := Vector.ofFn fun i => so.next.getD i.val 0, kdone := kd, zcur := so.zcur, kc := so.kc,
              oob := m.oob || lg.oob, work := so.work, result := so.result, fin := so.last, lines := [],
              descs := (match so.entry with | some v => m.descs.set 0 v | none => m.descs),
              outs := if quiet then m.outs else m.outs ++ [o] } : MSlot).countOuts
  let s3 := match so.entry with
    | some v => (updateTable s2 n m.td0 v (5 * n + 2)).modCore n fun c => c.setDesc m.td0 v
    | none => s2
  let s4 := if quiet then s3 else issueOut s3 n t o
  finishSlot (commitFence s4 n m.baddr) n t

/-- Scratchpad WQ additions, one after another (R50, R229). -/
def addCells (s : State) (n : Nat) (a : Nat × Nat × List Byte) (baddr : DWord) : State :=
  let c := s.core a.1
  let acc := (WQAcc.ofCode (BitVec.ofNat 128 (c.pool.nat a.2.1 16))).add (WQAcc.ofCode (BitVec.ofNat 128 (bytesToNat a.2.2)))
  let (w, fl) := acc.store
  (s.modCore a.1 fun c => c.bgWrite s.fresh false ((natToBytes 16 w.toNat).zipIdx.map fun p => (a.2.1 + p.2, p.1))).modCore n fun c => c.raise .x fl baddr
/-- The scratchpad part of a step's writes: its bytes are written and IN clears. -/
def padOut (s : State) (n t : Nat) (o : Out) : State :=
  let m := s.slotAt n t
  let s1 := (o.cells.map (·.1)).eraseDups.foldl (fun s k => s.modCore k fun c =>
    c.bgWrite s.fresh false ((o.cells.filter fun w => w.1 == k).map (·.2))) s
  let s1 := o.cellBits.foldl (fun s w => s.modCore w.1 fun c => c.bgWrite s.fresh false [(w.2.1, bitMerge w.2.2.2 w.2.2.1 (c.pool.read w.2.1))]) s1
  let s2 := o.adds.foldl (fun s a => addCells s n a m.baddr) s1
  o.lines.foldl (fun s l => s.modCore l.1 fun c => { c with fills := c.fills.filter fun f => !(f.id == o.job && f.kind == .seq) }) s2
/-- A step's writes are all acknowledged: its scratchpad bytes are written, IN clears, and its engine arrival is made; or that arrival is acknowledged
too, and the step has nothing outstanding. -/
def settleOut (s : State) (n t : Nat) (o : Out) : State :=
  if o.owes then finishSlot (s.dropOut n t o) n t else engineArrive (padOut s n t o) n t o
def State.jobLeft (s : State) (n : Nat) (o : Out) : Bool := s.accesses.any fun a => a.core == n && a.job == o.job

/-! ### Halting (R220, R223, R226) -/

/-- Whether every member of a group that a pre-emption waits for is held. -/
def State.allHeld (s : State) (g : Nat) : Bool :=
  match Tab.get? s.groups g with
  | none => false
  | some gr => gr.reqd && gr.cores.all fun n => (s.core n).gid != g || (s.core n).st == .free || (s.core n).holds
/-- Whether a halt can be resumed; MISMATCH and ACC-LOST leave the bit alone. -/
def rsmAfter (reason : Nat) (old : Bool) : Bool := if reason = 8 ∨ reason = 9 then old else decide (3 ≤ reason) && decide (reason ≤ 6)
def haltRecord (s : State) (n t reason addr auxv : Nat) : State :=
  let m := s.slotAt n t
  sendRecord s (s.core n).ctx (recordOf s n ⟨32, t * 64 + reason, m.done, addr, auxv⟩ 0 0 m.baddr (s.core n).pc)
/-- An out as a halt leaves it: scratchpad additions are made, and of global ones only those known not to be applied are still to be made. -/
def Out.halted (o : Out) : Out := { o with adds := [], glob := if o.glob.any (·.1) then o.refused else o.glob, refused := [] }
/-- A slot enters HALTED; every reason but PRE-EMPTED sends a record. -/
def haltSlot (s : State) (n t reason addr auxv : Nat) : State :=
  let s0 := (s.slotAt n t).outs.foldl (fun s o => (padOut s n t o).modCore n fun c => { c with jobs := c.jobs.filter fun j => j.id != o.job }) s
  let s1 := (freeRegion (s0.modSlot n t fun m =>
    { m with outs := m.outs.map Out.halted, st := .halted, reason := reason, rsm := rsmAfter reason m.rsm, stop := none, lines := [], sealAt := some s.fresh }) n
    (s.slotAt n t)).modCore n fun c => c.quiet t
  if reason = 6 then s1 else haltRecord s1 n t reason addr auxv
/-- MACRO_HALT: a slot asked to stop, or one of a task being pre-empted, has drained the writes of its committed steps. -/
def execMacroHalt (core slot reason : Nat) (s : State) : Host.Outcome State Fault Refusal :=
  stepIf "MACRO_HALT" <|
    let m := s.slotAt core slot
    if m.st ≠ .busy ∨ !m.outs.all (fun o => o.failed && !s.jobLeft core o) then none
    else match m.stop with
      | some (r, a, x) => if r = reason then some (haltSlot s core slot r a x) else none
      | none => if reason = 6 ∧ s.allHeld (s.core core).gid then some (haltSlot s core slot 6 0 0) else none

/-- Whether an ordering point still keeps path `p` of a core from going on (R185, R214). -/
def State.pathHeld (s : State) (n : Nat) (p : Path) : Bool := s.accesses.any fun a => a.core == n && (match a.op with
  | .xfence _ q => q == p
  | _ => false)
/-- Macros whose steps use the pair array (R191, R217). -/
def usesArray (op : Nat) : Bool := op ≤ 2 || op == 8 || op == 0x11
/-- Whether bundle work holds the array (R191): not while the core is stalled, when it is set aside (DEDUCED, log 91: a core whose task waits, or is
STOPPED, is a stalled one). -/
def Core.arrayHeld (c : Core) : Bool := decide (c.ic < c.arrayEnd) && c.st == .running && c.waits.isEmpty && !c.stalled
/-- The gather units of a die that can take a step: those that have not failed a cruise and are not in one (R420, R423). -/
def State.unitsOf (s : State) (d : Nat) : List Nat :=
  ((List.range 8).map (160 + 8 * d + ·)).filter fun e => !((s.rot[e]?.map (·.failed)).getD false) && !(s.cruise.any fun c => c.1 == e)
def State.unitReady (s : State) (d : Nat) : Bool := !(s.unitsOf d).isEmpty
/-- The steps of MGATH under way that use gather units of a die (R419): those that wait for a remote line of a row there, and those whose writes are not all
acknowledged. -/
def State.gatherLoad (s : State) (d : Nat) : Nat :=
  ((List.range 160).map fun n => ((List.range 4).map fun t =>
    let m := s.slotAt n t
    if m.op != 6 || m.st != .busy then 0
    else
      let asks := (s.links.toList.any fun l => l.requests.any fun r => match r.owner with
        | .slotLine k u key _ => k == n && u == t && homeDie key == d
        | _ => false) || m.lines.any fun l => homeDie l.1 == d
      (m.outs.filter fun o => o.dies.contains d).length + if asks then 1 else 0).foldl (· + ·) 0).foldl (· + ·) 0
/-- The units of a die in use: one for each step under way there, the lowest first (DESIGN CHOICE, log 76). -/
def State.unitsUsed (s : State) (d : Nat) : List Nat := (s.unitsOf d).take (s.gatherLoad d)

/-- Whether a slot may run a step. -/
def slotRuns (s : State) (n t : Nat) : Bool :=
  let m := s.slotAt n t
  m.st == .busy && m.stop.isNone && !m.fin && !s.pathHeld n (rdPath m.op) && ((s.core n).st == .running || (s.core n).st == .stopped) &&
  !(usesArray m.op && (s.core n).arrayHeld)
/-- Asks for a remote line a step needs, once. -/
def askLine (s : State) (n t key va : Nat) : Option State :=
  if s.links.toList.any (fun l => l.requests.any fun r => r.owner == .slotLine n t key va) then none
  else match Tab.get? s.windows (keyWin key) with
    | none => some (s.stopSlot n t 3 va 0)
    | some w => s.request (mkMsg s 1 0 w.pkg (windowAddr w (keyPa key)) 128 0 []) (.slotLine n t key va)
/-- The translation failure the translate phase of a step finds (R218): an operand's or a destination's page, or the page of the object its engine
arrival names. -/
def translateFails (s : State) (n t : Nat) (f : REnv → SM StepOut) : Option (Nat × Nat × Nat) :=
  match (f { renv s n t with ph := .translate }).run .zero with
  | .error (.halt 3 a x) => some (3, a, x)
  | _ => arrivalFail s n (s.slotAt n t)
/-- Whether the settle phase of a step waits for a scratchpad line (R218). -/
def settleWaits (s : State) (n t : Nat) (f : REnv → SM StepOut) : Bool :=
  match (f { renv s n t with ph := .settle }).run .zero with
  | .error .wait => true
  | _ => false
/-- Runs a step: it commits, waits, asks for a remote line, or stops the slot (R218). Translation comes first, then settling. -/
def runStep (s : State) (n t : Nat) (f : REnv → SM StepOut) : Option State :=
  match translateFails s n t f with
  | some (r, a, x) => some (s.stopSlot n t r a x)
  | none =>
    if settleWaits s n t f then none
    else match (f (renv s n t)).run .zero with
      | .error .wait => none
      | .error (.need key va) => askLine s n t key va
      | .error (.halt r a x) => some (s.stopSlot n t r a x)
      | .ok (so, lg) =>
        -- the writes of an earlier block from a tile, or from the work region, that this step overwrites are acknowledged first (R219)
        -- and a step of MGATH is taken by gather units of the dies that own its rows, once each has one that can (R16, R423)
        if (s.slotAt n t).outs.any (fun o => so.tiles.any (fun z => z.1 == o.tile) || (so.tiles.isEmpty && o.tile == so.wtile)) ||
           ((s.slotAt n t).op == 6 && !(stepDies n lg).all s.unitReady) then none
        else some (commitStep s n t so lg)

end Sys2Proof.Machine
end

