-- ==== Sys2Proof/Machine/MacroExch.lean ====
section
/-!
DEFINITION. Index-bit maps at work (R258–R268, R243, R410): holders and their pieces, exchanges, MIXCH, and the passes of MGATE and MBFLY.
-/
namespace Sys2Proof.Machine

/-! ### Holders (R258, R259) -/

/-- The shape a tensor without a map needs to be read as all LOCAL (R258). -/
def Desc.flatVec (d : Desc) : Bool :=
  d.ndim == 1 && d.dim 0 == 2 ^ Nat.log2 (d.dim 0) && decide (d.dim 0 ≤ 2 ^ 31) && (d.fmt == 0 || d.fmt == 9) && !d.bt
def Desc.lg (d : Desc) : Nat := if d.mapped then d.logn else Nat.log2 (d.dim 0)
/-- Whether a descriptor gives a map at all: checks against LOGN apply only then, else FORMAT alone is raised (R99, R213, R254). -/
def Desc.mapKnown (d : Desc) : Bool := d.v && d.wf && (d.mapped || d.flatVec)
def Desc.lgBelow (d : Desc) (b : Nat) : Bool := !d.mapKnown || decide (b < d.lg)
/-- The map bytes, those of a tensor without a map all LOCAL. -/
def Desc.mapBytes (d : Desc) : List Nat := if d.mapped then d.map.take d.logn else List.range d.lg
def Desc.esize (d : Desc) : Nat := if d.fmt = 9 then 8 else 4
def mapIsLocal (mp : List Nat) (b : Nat) : Bool := mapKind (mp.getD b 64) == 0
def mapCount (mp : List Nat) (p : Nat → Bool) : Nat := (mp.filter fun b => p (mapKind b)).length
def mapL (mp : List Nat) : Nat := mapCount mp (· == 0)
def mapC (mp : List Nat) : Nat := mapCount mp (· == 1)
def mapG (mp : List Nat) : Nat := mapCount mp (fun k => 2 ≤ k)
/-- The logical index of local index `l` at holder (p, tidx). -/
def elemIndex (mp : List Nat) (p tidx l : Nat) : Nat :=
  (mp.zipIdx.filter fun b => (match mapKind b.1 with
    | 0 => l
    | 1 => tidx
    | _ => p).testBit (mapPos b.1)).foldl (fun e b => e + 2 ^ b.2) 0
/-- The LOCAL bit of highest position other than `b`. -/
def topLocal (mp : List Nat) (b : Nat) : Option Nat :=
  ((mp.zipIdx.filter fun x => mapKind x.1 == 0 && x.2 != b).foldl (fun (best : Option (Nat × Nat)) x => match best with
    | some y => if mapPos y.1 < mapPos x.1 then some x else some y
    | none => some x) none).map (·.2)

/-- What names a package and die in a peer table or member table. -/
def placeNum (s : State) (n : Nat) : Nat := s.pkgNum + dieOf n * 2 ^ 14
/-- Entry `i` of a peer table's bytes: piece address and place. Bytes 10 to 15 are RES0; a nonzero value is ignored, since the specification names neither a
fault nor a status for it (DESIGN CHOICE, log 94). -/
def peerEntry (bs : List Byte) (i : Nat) : Nat × Nat := (bytesToNat (slice bs (16 * i) 8), bytesToNat (slice bs (16 * i + 8) 2))
def peerEntries (bs : List Byte) : List (Nat × Nat) := (List.range (bs.length / 16)).map (peerEntry bs)
/-- The peer table read for TD0, or for TD2. -/
def MSlot.peerTab (m : MSlot) (i : Nat) : List (Nat × Nat) := m.peers.getD (i / 2) []
/-- The task's peer index for descriptor `i` of a macro, and the address of its piece; none if it is no holder (R259). -/
def holderOf (s : State) (n : Nat) (m : MSlot) (i : Nat) : Option (Nat × Nat) :=
  let d := m.desc i
  let mp := d.mapBytes
  if 2 ^ mapC mp ≤ (s.core n).tidx then none
  else if mapG mp = 0 then some (0, d.base)
  else
    match ((m.peerTab i).take (2 ^ mapG mp)).zipIdx.filter fun e => e.1.2 == placeNum s n with
    | [x] => some (x.2, x.1.1)
    | _ => none

/-! ### The plan of an exchange macro (R243, R263, R268) -/

/-- The next step: chunk `k` of the exchange of bits b and c, or a chunk of a pass. -/
inductive PlanStep where
  | exch (b c k : Nat)
  | pass (j : Nat)
  | bad

def MSlot.mapb (m : MSlot) : List Nat := (m.desc 0).mapBytes
/-- MGATE's gates and MBFLY's stages, by their target bits. -/
def MSlot.targets (m : MSlot) : List Nat :=
  if m.op = 0x11 then (List.range (m.f 16 1)).map fun g => m.f (32 + 48 * g) 1
  else if m.op = 8 then (List.range (m.f 16 1)).map fun i => m.f (32 + 8 * i) 1
  else [m.f 16 1]
/-- The first gate of MGATE's pass, or the first stage of MBFLY's. -/
def MSlot.first (m : MSlot) : Nat := if m.op = 0x11 then m.work.headD 0 else if m.op = 8 then m.ix 2 else 0
/-- MBFLY's exchange steps before the pass. -/
def MSlot.exDone (m : MSlot) : Nat := if m.op = 8 then m.work.headD 0 else 0
def MSlot.planStep (m : MSlot) : PlanStep :=
  let b := m.targets.getD m.first 0
  if m.op = 0x12 then .exch (m.f 16 1) (m.f 17 1) (m.ix 0)
  else if mapIsLocal m.mapb b then .pass (m.ix 0 - m.exDone)
  else match topLocal m.mapb b with
    | some c => .exch b c (m.ix 0)
    | none => .bad
/-- Gates or stages of the pass (R243, R268). -/
def MSlot.passItems (m : MSlot) : List Nat :=
  (((m.targets.drop m.first).take 8).takeWhile fun b => mapIsLocal m.mapb b)
/-- The chunk positions of MGATE's pass. -/
def MSlot.chunkPos (m : MSlot) : List Nat :=
  let l := mapL m.mapb
  let ps := (m.passItems.map fun b => mapPos (m.mapb.getD b 0)).eraseDups
  let more := ((List.range l).filter fun p => !ps.contains p).take (Nat.min 11 l - ps.length)
  (List.range l).filter fun p => ps.contains p || more.contains p
/-- Deposits the bits of `v` at the given positions. -/
def deposit (ps : List Nat) (v : Nat) : Nat := (ps.zipIdx.filter fun p => v.testBit p.2).foldl (fun a p => a + 2 ^ p.1) 0

/-! ### Elements of a piece -/

def pieceRead (e : REnv) (base l : Nat) : SM (List Nat) := do
  let n := (e.m.desc 0).esize
  let v ← readNat e ((base + l * n : Nat) : Int) n
  pure (if n = 8 then [v % 2 ^ 32, v / 2 ^ 32] else [v])
def pieceWrite (e : REnv) (base l : Nat) (bs : List Byte) : SM (List Dest) := writeAt e ((base + l * (e.m.desc 0).esize : Nat) : Int) bs false

/-! ### One chunk of a pass -/

def allFlags (fs : List Flags) : Flags := fs.foldl (· ||| ·) 0#6
/-- Applies MGATE's gate `g` to a chunk whose element `i` has logical index `lg i` (R204, R267). -/
def gateOn (m : MSlot) (ps : List Nat) (lg : Nat → Nat) (g : Nat) (d : List Nat) : List Nat × Flags :=
  let b := m.f (32 + 48 * g) 1
  let cm := m.f (36 + 48 * g) 4
  let u := slice m.blk (48 + 48 * g) 32
  stageWords true (ps.idxOf (mapPos (m.mapb.getD b 0))) (fun i => lg i &&& cm == cm && !cm.testBit b) (fun _ => 0) (fun _ _ => .fin false 0 0)
    (fun _ i => weightComplex u 0 i) d
/-- IDX0 to IDX3 after a step of a plan (R264). -/
def planNext (m : MSlot) (i0 i1 i2 : Nat) : List Nat := [i0, i1, i2, m.ix 3]
/-- The positions a chunk of an MGATE pass does not move within, whose values number the chunks. -/
def MSlot.restPos (m : MSlot) : List Nat := (List.range (mapL m.mapb)).filter fun q => !m.chunkPos.contains q
/-- Local index of element `i` of chunk `j` of an MGATE pass. -/
def MSlot.chunkIndex (m : MSlot) (j i : Nat) : Nat := deposit m.chunkPos i + deposit m.restPos j
/-- The writes of chunk `j` of an MGATE pass, from its words. -/
def gateOut (e : REnv) (base j : Nat) (ws : List Nat) : SM (List Dest) :=
  (List.range (2 ^ e.m.chunkPos.length)).flatMapM fun i => pieceWrite e base (e.m.chunkIndex j i) ((slice ws (2 * i) 2).flatMap (natToBytes 4))
/-- A chunk of a pass of MGATE. -/
def gatePass (e : REnv) (p base j : Nat) : SM StepOut := do
  let m := e.m
  let ps := m.chunkPos
  let loc := m.chunkIndex j
  let lg := fun (i : Nat) => elemIndex m.mapb p (e.s.core e.n).tidx (loc i)
  let d ← (List.range (2 ^ ps.length)).flatMapM fun i => pieceRead e base (loc i)
  let (r, fl) := (List.range m.passItems.length).foldl (fun (a : List Nat × Flags) i =>
    let x := gateOn m ps lg (m.first + i) a.1
    (x.1, a.2 ||| x.2)) (d, 0#6)
  SM.note fl
  let ds ← gateOut e base j r
  let img := r.flatMap (natToBytes 4)
  let free := (List.range (16384 - img.length)).map fun i => Config.freeByte e.s.fresh i
  let next := m.first + m.passItems.length
  let (nx, wk, last) :=
    if j + 1 < 2 ^ m.restPos.length then (planNext m (j + 1) 1 (m.ix 2), m.work, false)
    else if next < m.f 16 1 then
      (planNext m 0 (if mapIsLocal m.mapb (m.targets.getD next 0) then 1 else 0) (m.ix 2 + 1), [next], false)
    else (planNext m (m.ix 0 + 1) 1 (m.ix 2), m.work, true)
  pure { tiles := [(m.zb, img ++ free)], dests := ds, next := nx, last := last, work := wk, wtile := m.zb }

/-- Elements of MBFLY's weight tables before stage `i`, and of the stage's own (R207, R243). -/
def MSlot.stageElems (m : MSlot) (i : Nat) : Nat := 4 * (if m.f (34 + 8 * i) 1 % 2 = 1 then 1 else 2 ^ m.f (33 + 8 * i) 1)
def MSlot.stageBase (m : MSlot) (i : Nat) : Nat := ((List.range i).map m.stageElems).foldl (· + ·) 0
/-- A stage of MBFLY over a whole piece (R204, R243). -/
def stageOn (e : REnv) (p i : Nat) (d : List Nat) : SM (List Nat × Flags) := do
  let m := e.m
  let b := m.f (32 + 8 * i) 1
  let cm := m.f (36 + 8 * i) 4
  let lp := mapPos (m.mapb.getD b 0)
  let cplx := m.kind 1 == .el .c32
  let lg := fun (l : Nat) => elemIndex m.mapb p (e.s.core e.n).tidx l
  let blk := fun (q : Nat) =>
    let x := lg (q / 2 ^ lp * 2 ^ (lp + 1) + q % 2 ^ lp)
    if m.f (34 + 8 * i) 1 % 2 = 1 then 0 else (x / 2 ^ (b + 1) * 2 ^ b + x % 2 ^ b) % 2 ^ m.f (33 + 8 * i) 1
  let td := m.desc 1
  let ws ← (List.range (m.stageElems i)).mapM fun w => readCode e td (m.kind 1) (td.unflat (m.stageBase i + w))
  let wa := ws.toArray
  let wv := fun (w k : Nat) => codeValue e.fmte td (m.kind 1) (wa.getD (4 * w + k) 0)
  let wc := fun (w k : Nat) => let c := wa.getD (4 * w + k) 0; (f32V (c % 2 ^ 32), f32V (c / 2 ^ 32))
  pure (stageWords cplx lp (fun l => lg l &&& cm == cm && !cm.testBit b) blk wv wc d)
/-- The member of a core's group with a TIDX, if it runs. -/
def memberCore (s : State) (n tidx : Nat) : Option Nat :=
  let c := s.core n
  (Tab.get? s.groups c.gid).bind fun g => g.cores.find? fun k => (s.core k).gid == c.gid && (s.core k).st != .free && (s.core k).tidx == tidx
/-- Where element `x` of a mapped TD2 lies (R259): its peer index, TIDX and local index, and the address and place of the piece. -/
structure ElemPlace where
  peer  : Nat
  tidx  : Nat
  loc   : Nat
  base  : Nat
  place : Nat
def elemPlace (s : State) (n : Nat) (m : MSlot) (x : Nat) : Option ElemPlace :=
  let o := m.desc 2
  let mp := o.mapBytes
  let part := fun (p : Nat → Bool) => (mp.zipIdx.filter fun b => p (mapKind b.1) && x.testBit b.2).foldl (fun a b => a + 2 ^ mapPos b.1) 0
  let q := part fun k => 2 ≤ k
  (if mapG mp = 0 then some (o.base, placeNum s n) else (m.peerTab 2)[q]?).map fun e => ⟨q, if mapC mp = 0 then (s.core n).tidx else part (· == 1), part (· == 0), e.1, e.2⟩
/-- The address of an element of a mapped TD2, as the core names it: a piece of its own, another member's by that member's core number,
another peer's by the peer's entry. None where the piece lies in the scratchpad of a core on another die, which no address of this core names. -/
def elemAddr (s : State) (n : Nat) (m : MSlot) (x : Nat) : Option Int :=
  (elemPlace s n m x).bind fun e =>
    let at' := fun (b : Nat) => ((b + e.loc * (m.desc 2).esize : Nat) : Int)
    if e.base < 2 ^ 63 then some (at' e.base)
    else if e.place ≠ placeNum s n then none
    else if e.tidx = (s.core n).tidx then some (at' e.base)
    else (memberCore s n e.tidx).map fun k => at' (2 ^ 63 + k % 40 * 2 ^ 40 + e.base % 2 ^ 40)
/-- The core and scratchpad offset of an element of a mapped TD2 that lies on another die of this package: the piece's core as its address names it there, or the
core of that die that runs the macro as the element's holder (DEDUCED, log 92). -/
def elemFar (s : State) (n : Nat) (m : MSlot) (x : Nat) : Option (Nat × Nat) :=
  (elemPlace s n m x).bind fun e =>
    if e.base < 2 ^ 63 ∨ e.place % 2 ^ 14 ≠ s.pkgNum then none
    else
      let die := e.place / 2 ^ 14
      let off := e.base % 2 ^ 40 + e.loc * (m.desc 2).esize
      let f := natBits e.base 40 6
      let fits := fun (k : Nat) => let d := s.core k; d.st != .free && d.ctx == (s.core n).ctx && decide (off + (m.desc 2).esize ≤ d.padSize)
      ((List.range 40).map (40 * die + ·)).findSome? fun k =>
        if fits k && (if f = 63 then (s.core k).tidx == e.tidx && (s.core k).slots.toList.any fun v =>
            v.op == 8 && v.pchk == m.pchk && (holderOf s k v 2).map (·.1) == some e.peer
          else k % 40 == f) then some (k, off) else none
/-- Stores elements of a holder, given as (logical index, code) in ascending order, into a TD2 without a map (R47, R243). Elements of f32 and c32 are
stored bit for bit, and an element of a 4-bit format whose neighbour another holder has as its own four bits. A BX block some of whose elements another holder
has takes free bytes from each: its scale depends on all sixteen, and the specification does not say who forms it (DESIGN CHOICE, log 93). -/
def flyStore (e : REnv) (xs : List (Nat × Nat)) : SM (List Dest) :=
  let o := e.m.desc 2
  let k := e.m.kind 2
  let g := k.group
  if k = .el .f32 ∨ isC32 k then xs.flatMapM fun x => writeAll e o k [(o.unflat x.1, OutV.code x.2)]
  else (xs.map fun x => x.1 / g).eraseDups.flatMapM fun u =>
    let ys := xs.filter fun x => x.1 / g == u
    if ys.length = g then writeGroup e o k (o.unflat (g * u)) (ys.map fun y => OutV.val (f32V y.2))
    else if k.width = 4 then ys.flatMapM fun y => do
      let c ← outCode e o k (.val (f32V y.2))
      let sh := 4 * (y.1 % 2)
      match ← resolve e o (o.off k (o.unflat y.1)) with
      | none => SM.outside; pure []
      | some a => writeBitsAt e a (BitVec.ofNat 8 (c * 2 ^ sh)) (BitVec.ofNat 8 (15 * 2 ^ sh))
    else writeUnit e o k (o.unflat (g * u)) ((List.range k.unit).map (Config.freeByte e.s.fresh)) (bytesToNat ((List.range 2).map fun i => Config.freeByte e.s.fresh (64 + i)))
/-- The writes of a pass of MBFLY, from the words of its piece: back into TD0, or, of the last pass, into TD2 (R243). -/
def flyOut (e : REnv) (p base : Nat) (img : List Byte) : SM (List Dest) :=
  let m := e.m
  let n := 2 ^ mapL m.mapb
  let es := (m.desc 0).esize
  let code := fun (i : Nat) => slice img (es * i) es
  let index := fun (i : Nat) => elemIndex m.mapb p (e.s.core e.n).tidx i
  if m.first + m.passItems.length ≠ m.f 16 1 ∨ m.td2 = m.td0 then (List.range n).flatMapM fun i => pieceWrite e base i (code i)
  else if (m.desc 2).mapped then (List.range n).flatMapM fun i =>
    match elemAddr e.s e.n m (index i) with
    | some x => writeAt e x (code i) false
    | none => match elemFar e.s e.n m (index i) with
      | some (k, off) => pure [.pad k off (code i)]
      -- an element that no write of this package reaches: the step stops as at an address that fails CheckAddr (DESIGN CHOICE, log 92)
      | none => SM.stop (.halt 3 (m.desc 2).base (transAuxv (1, 3) 1 e.wr.num))
  else flyStore e (((List.range n).map fun i => (index i, bytesToNat (code i))).mergeSort fun a b => decide (a.1 ≤ b.1))
/-- The pass of MBFLY at a holder: its whole piece is one chunk (R243). -/
def flyPass (e : REnv) (p base : Nat) : SM StepOut := do
  let m := e.m
  let d ← (List.range (2 ^ mapL m.mapb)).flatMapM fun i => pieceRead e base i
  let n := m.passItems.length
  let r ← (List.range n).foldlM (fun (a : List Nat) i => do
    let x ← stageOn e p (m.first + i) a
    SM.note x.2
    pure x.1) d
  let img := r.flatMap (natToBytes 4)
  let last := m.first + n == m.f 16 1
  let ds ← flyOut e p base img
  let tiles := (List.range (Nat.min m.zn (ceilDiv img.length 16384))).map fun t =>
    let b := slice img (16384 * t) 16384
    (m.zb + t, b ++ (List.range (16384 - b.length)).map fun i => Config.freeByte e.s.fresh (16384 * t + i))
  pure { tiles := tiles, dests := ds, last := last, wtile := m.zb, work := [],
         next := if last then planNext m (m.ix 0 + 1) (m.ix 1) (m.ix 2) else planNext m 0 (m.ix 1 + 1) (m.first + n) }

/-! ### Exchanges (R260, R261) -/

/-- Element `j` of a moving half, and the number of its elements. -/
def movingIndex (t v j : Nat) : Nat := j / 2 ^ t * 2 ^ (t + 1) + (1 - v) * 2 ^ t + j % 2 ^ t
/-- Everything about the exchange a slot is at: the bits, the chunk, its elements, the holder's index and piece, the partner. -/
structure Exch where
  b : Nat
  c : Nat
  k : Nat
  steps : Nat
  idxs  : List Nat
  p     : Nat
  base  : Nat
  /-- The partner: its peer index, TIDX and place. -/
  pp    : Nat
  ptidx : Nat
  place : Nat
def exchOf (s : State) (n : Nat) (m : MSlot) (b c k : Nat) : Option Exch :=
  let d := m.desc 0
  let mp := d.mapBytes
  (holderOf s n m 0).bind fun h =>
    let tidx := (s.core n).tidx
    let kb := mapKind (mp.getD b 0)
    let pb := mapPos (mp.getD b 0)
    let t := mapPos (mp.getD c 0)
    let own := if kb = 1 then tidx else h.1
    let v := if own.testBit pb then 1 else 0
    let per := 16384 / d.esize
    let half := 2 ^ (mapL mp - 1)
    let flip := fun (x : Nat) => if x.testBit pb then x - 2 ^ pb else x + 2 ^ pb
    let ids := (List.range (Nat.min per (half - per * k))).map fun i => movingIndex t v (per * k + i)
    let e : Exch := ⟨b, c, k, ceilDiv half per, ids, h.1, h.2, h.1, tidx, placeNum s n⟩
    if kb = 1 then some { e with ptidx := flip tidx }
    else (m.peerTab 0)[flip h.1]?.map fun q => { e with pp := flip h.1, place := q.2 }
/-- Whether a slot holds an exchange macro that is BUSY or HALTED. -/
def MSlot.exchanging (m : MSlot) : Bool := (m.st == .busy || m.st == .halted) && isExchange m.op
/-- The slot of core `n` that exchanges a tensor of which the core is holder `p`. -/
def exchangeSlot (s : State) (n p : Nat) : Option Nat :=
  (List.range 4).find? fun t => let m := s.slotAt n t; m.exchanging && ((holderOf s n m 0).map (·.1)) == some p
/-- The partner's core on this package (R410, R456): another member of the group, or the core of the named die that holds the exchange. -/
def partnerCore (s : State) (n : Nat) (x : Exch) : Option Nat :=
  let c := s.core n
  if x.place = placeNum s n ∧ x.pp = x.p then memberCore s n x.ptidx
  else
    (List.range 40).findSome? fun i =>
      let k := 40 * (x.place / 2 ^ 14) + i
      let d := s.core k
      if d.st ≠ .free ∧ d.ctx = c.ctx ∧ d.tidx = x.ptidx ∧ (exchangeSlot s k x.pp).isSome then some k else none
def Exch.remote (s : State) (x : Exch) : Bool := x.place % 2 ^ 14 != s.pkgNum

/-- Two arrivals of one chunk: the sender is at the same step of the same issue. -/
def Arrival.same (a b : Arrival) : Bool := { a with taken := false } == { b with taken := false }
/-- Whether an arriving chunk is one that the holder has committed: its sender was rewound and sends it again (R261, R410). -/
def Core.chunkTaken (c : Core) (a : Arrival) : Bool := c.xin.any fun b => b.taken && b.same a
/-- The slot of core `k` whose work region holds an arrival, BUSY or HALTED in an exchange macro. -/
def arrivalSlot (s : State) (k : Nat) (a : Arrival) : Option Nat :=
  (List.range 4).find? fun t => let m := s.slotAt k t; m.exchanging && m.woff + 16384 * (a.k % 2) == a.off
/-- What becomes of a chunk sent to a holder. -/
inductive ChunkEnd where
  | goes | again | wait
  deriving DecidableEq, Repr
/-- A chunk may go into the holder's slot once the holder has committed step k − 2 and its placement writes are acknowledged (R261), and before that for k < 2,
whether or not the holder has issued the macro (R456); `first` tells whether it belongs to its macro's first exchange. A later exchange of the same macro waits until
the holder is at it too, since the slots still serve the earlier one (DEDUCED, log 128). A chunk with other parameters goes in at once, and the disagreement is
found there. -/
def chunkEnd (s : State) (k : Nat) (a : Arrival) (first : Bool) : ChunkEnd :=
  if (s.core k).chunkTaken a then .again
  else match arrivalSlot s k a with
    | none => if first && decide (a.k < 2) then .goes else .wait
    | some t =>
      let m := s.slotAt k t
      if m.pchk ≠ a.pchk then .goes
      else if m.ix 3 ≠ a.epoch then (if (a.epoch + 65536 - m.ix 3) % 65536 < 32768 then .wait else .goes)
      else if (a.k < 2 ∨ a.k ≤ m.ix 0 + 1) ∧ !(m.outs.any fun o => o.tile == 256 + a.k % 2) then .goes else .wait
/-- A chunk arrives in a holder's slot (R261): the bytes as a background write, and what came with them. -/
def arriveChunk (s : State) (k : Nat) (bs : List Byte) (a : Arrival) : State :=
  s.modCore k fun c =>
    let c1 := c.bgWrite s.fresh false (c.padCells false a.off bs)
    { c1 with xin := c1.xin.filter (fun b => !(b.off == a.off && (!b.taken || (b.peer == a.peer && b.tidx == a.tidx)))) ++ [a] }
/-- The descriptor part of an XCHG: context, epoch, bits, chunk, sender's PCHK, both ends' indices. -/
def xchgBytes (a : Arrival) (pp : Nat) (first : Bool) : List Byte :=
  natToBytes 4 a.epoch ++ natToBytes 1 a.b ++ natToBytes 1 a.c ++ natToBytes 2 pp ++ natToBytes 4 a.k ++ natToBytes 4 a.pchk.toNat ++
  natToBytes 8 a.serial ++ natToBytes 1 (if first then 1 else 0)
/-- The address of a collective or exchange message (R403): core field, die, scratchpad offset, context. -/
def engineAddr (coreField die off ctx : Nat) : Nat := coreField + die * 2 ^ 6 + off * 2 ^ 8 + ctx * 2 ^ 40
/-- Sends two messages on one route, descriptor first. -/
def sendTwo (s : State) (o : Owner) (m1 m2 : Msg) : Option State := (s.request m1 .nothing).bind fun s1 => s1.request m2 o

/-- Sends a holder's chunk to its partner. -/
def sendChunk (s : State) (n t : Nat) (x : Exch) (bs : List Byte) : Option State :=
  let m := s.slotAt n t
  let c := s.core n
  let off := m.woff + 16384 * (x.k % 2)
  let a : Arrival := ⟨off, x.p, c.tidx, m.ix 3, x.b, x.c, x.k, m.pchk, m.serial, false⟩
  let first := m.ix 3 == m.epoch0
  let mark := fun (s : State) => s.modSlot n t fun m => { m with sent := x.k + 1 }
  if x.remote s then
    let mk := fun (d : List Byte) => mkMsg s 7 0 (x.place % 2 ^ 14) (engineAddr c.tidx (x.place / 2 ^ 14) off c.ctx) d.length x.p d
    (sendTwo s (.slot n t) (mk (xchgBytes a x.pp first)) (mk bs)).map mark
  else
    match partnerCore s n x with
    | some k => match chunkEnd s k a first with
      | .goes => if (s.core k).portHeld true (cellBanks ((s.core k).padCells false off bs)) then none else some (mark (arriveChunk s k bs a))
      | .again => some (mark s)
      | .wait => none
    | none => none
def State.owes (s : State) (o : Owner) : Bool := s.links.toList.any fun l => l.requests.any fun r => r.owner == o

/-- The descriptor with bits b and c exchanged and the epoch raised (R265). -/
def swapMap (v : BitVec 1024) (b c : Nat) : BitVec 1024 :=
  let bs := natToBytes 128 v.toNat
  let x := bs.getD (80 + b) 0#8
  let y := bs.getD (80 + c) 0#8
  let e := bytesToNat (slice bs 114 2) + 1
  let bs1 := (bs.set (80 + b) y).set (80 + c) x
  BitVec.ofNat 1024 (bytesToNat (slice bs1 0 114 ++ natToBytes 2 e ++ slice bs1 116 12))
/-- The placement writes of exchange step k, from the slot it was received in (R261). -/
def chunkOut (e : REnv) (x : Exch) : SM (List Dest) :=
  let es := (e.m.desc 0).esize
  let bs := (e.s.core e.n).padBytes false (e.m.woff + 16384 * (x.k % 2)) 16384
  x.idxs.zipIdx.flatMapM fun l => pieceWrite e x.base l.1 (slice bs (es * l.2) es)
/-- The commit of exchange step k: the received chunk goes into place (R261, R265). -/
def placeChunk (e : REnv) (x : Exch) : SM StepOut := do
  let m := e.m
  let ds ← chunkOut e x
  let lastK := x.k + 1 == x.steps
  let v := swapMap (m.descs.getD 0 0#1024) x.b x.c
  let mep := (Desc.ofBits v).mepoch
  let i3 := if lastK then mep else m.ix 3
  let nx := if !lastK then [m.ix 0 + 1, m.ix 1, m.ix 2, i3]
    else if m.op = 0x12 then [m.ix 0 + 1, 0, 0, i3]
    else if m.op = 0x11 then [0, 1, m.ix 2, i3]
    else [m.ix 0 + 1, m.ix 1, m.ix 2, i3]
  pure { dests := ds, next := nx, last := lastK && m.op == 0x12, entry := if lastK then some v else none, wtile := 256 + x.k % 2,
         work := if m.op = 8 ∧ lastK then [x.steps] else m.work }

/-- A slot halts with MISMATCH (R261, R417), RSM unchanged: a BUSY one at its step boundary, and one that is HALTED already takes the reason. -/
def State.mismatch (s : State) (n t : Nat) : State :=
  if (s.slotAt n t).st = .halted then haltRecord (s.modSlot n t fun m => { m with reason := 8 }) n t 8 0 0 else s.stopSlot n t 8 0 0
/-- Halts the holder on this package that sent an arrival. -/
def haltSender (s : State) (n : Nat) (a : Arrival) : State :=
  match (List.range 160).findSome? (fun q =>
    let d := s.core q
    if d.st ≠ .free ∧ d.ctx = (s.core n).ctx ∧ d.tidx = a.tidx ∧ q ≠ n then
      ((List.range 4).find? fun u => (s.slotAt q u).exchanging && (s.slotAt q u).serial == a.serial).map fun u => (q, u)
    else none) with
  | some (q, u) => s.mismatch q u
  | none => s
/-- The moving half's chunk, as it is sent. -/
def readChunk (e : REnv) (x : Exch) : SM (List Byte) := do
  pure (slice (← x.idxs.flatMapM fun l => do pure ((← pieceRead e x.base l).flatMap (natToBytes 4))) 0 ((e.m.desc 0).esize * x.idxs.length))
/-- The pages and lines a step of an exchange touches: those of its chunk as it is sent, and as it comes to its place. -/
def chunkStep (x : Exch) (e : REnv) : SM StepOut := do
  let _ ← readChunk e x
  placeChunk e x
/-- One move of an exchange step: the send of the chunk, or its commit. -/
def exchangeMove (s : State) (n t b c k : Nat) : Option State :=
  let m := s.slotAt n t
  match exchOf s n m b c k with
  | none => some (s.stopSlot n t 8 0 0)
  | some x =>
    if m.sent ≤ k then
      -- translation comes first, then settling (R218, R391); the chunk is then read and sent, and a partner that is not ready leaves the step waiting
      match translateFails s n t (chunkStep x) with
      | some (r, a, v) => some (s.stopSlot n t r a v)
      | none =>
        if settleWaits s n t (chunkStep x) then none
        else match (readChunk (renv s n t) x).run .zero with
          | .error .wait => none
          | .error (.need key va) => askLine s n t key va
          | .error (.halt r a v) => some (s.stopSlot n t r a v)
          | .ok (bs, _) => sendChunk s n t x bs
    else if s.owes (.slot n t) then none
    else match (s.core n).xin.find? (fun a => a.off == m.woff + 16384 * (k % 2) && !a.taken) with
      | none => none
      | some a =>
        if a.peer ≠ x.pp ∨ a.tidx ≠ x.ptidx ∨ a.pchk ≠ m.pchk ∨ a.epoch ≠ m.ix 3 ∨ a.b ≠ b ∨ a.c ≠ c ∨ a.k ≠ k then
          some (haltSender (s.stopSlot n t 8 0 0) n a)
        else
          (runStep s n t fun e => placeChunk e x).map fun s1 =>
            if (s1.slotAt n t).done = m.done then s1
            else (s1.modCore n fun c => { c with xin := c.xin.map fun b => if b = a then { b with taken := true } else b }).modSlot n t fun m' =>
              if k + 1 = x.steps then { m' with sent := 0 } else m'

/-- EXCHANGE_STEP: the next move of a MIXCH, MGATE or MBFLY at an exchange. -/
def execExchangeStep (core slot : Nat) (s : State) : Host.Outcome State Fault Refusal :=
  stepIf "EXCHANGE_STEP" <|
    let m := s.slotAt core slot
    if !slotRuns s core slot || !isExchange m.op || s.pathHeld core .lk then none
    else match m.planStep with
      | .exch b c k => exchangeMove s core slot b c k
      | _ => none
/-- A pass step of MGATE or MBFLY. -/
def planPass (s : State) (n t : Nat) : Option State :=
  let e := renv s n t
  match e.m.planStep, holderOf s n e.m 0 with
  | .pass j, some (p, base) => runStep s n t fun e => if e.m.op = 0x11 then gatePass e p base j else flyPass e p base
  | _, _ => none

end Sys2Proof.Machine
end

