-- ==== Sys2Proof/Machine/MacroColl.lean ====
section
/-!
DEFINITION. Collectives and the link messages that carry engine data (R170, R171, R409–R418): landings, XCHG, PIECE, NEED, and the steps of MCOLL.
-/
namespace Sys2Proof.Machine

/-! ### Addresses of engine messages (R403) -/

def msgCore (m : Msg) : Nat := natBits m.addr.toNat 0 6
def msgDie (m : Msg) : Nat := natBits m.addr.toNat 6 2
def msgOff (m : Msg) : Nat := natBits m.addr.toNat 8 32
def msgCtx (m : Msg) : Nat := natBits m.addr.toNat 40 24
/-- Whether a group of the context that is pre-empted, or on its way to or from that state, has the core (R279). -/
def awayOn (s : State) (ctx n : Nat) : Bool :=
  s.groups.any fun g => g.2.ctx == ctx && g.2.cores.contains n && (g.2.st == .preempted || g.2.st == .resuming)

/-! ### Landings (R170, R171) -/

/-- A landing error's record in a context's fault queue. -/
def landRecord (s : State) (ctx n : Nat) : State := sendRecord s ctx { FaultRec.zero with code := 33, pcore := n, time := s.dieCycle (dieOf n) }
/-- A landing error in the receiving context's fault queue, and in that of a sender in this package; a sender in another package logs it when the reply
ends its transfer (R171). -/
def landError (s : State) (ctx n : Nat) (away : Bool) : State :=
  let c := s.core n
  let s1 := if away then s else landRecord s ctx n
  if c.st ≠ .free ∧ (away ∨ c.ctx ≠ ctx) then landRecord s1 c.ctx n else s1
/-- Bytes arrive at a landing slot, from another package or from this one: the state, and whether the sender's transfer ends with an error. -/
def landBytes (s : State) (ctx n slot off : Nat) (bs : List Byte) (away : Bool) : State × Bool :=
  let c := s.core n
  let l := c.lands[slot]?.getD LandSlot.zero
  if c.st = .free ∨ c.ctx ≠ ctx ∨ !l.armed then (landError s ctx n away, true)
  else
    let fit := bs.take (l.len - off)
    let s1 := s.modCore n fun c =>
      let c1 := c.bgWrite s.fresh false (c.padCells false (l.off + off) fit)
      let got := l.got ||| (2 ^ fit.length - 1) * 2 ^ off
      let full := fun (line : Nat) => (List.range (l.len / 128)).any fun i =>
        c.padAddr false (l.off + 128 * i) / 128 == line && natBits got (128 * i) 128 == 2 ^ 128 - 1
      let all := got == 2 ^ l.len - 1
      { c1 with fills := c1.fills.filter (fun f => !(f.id == slot && f.kind == .landing && full f.line)),
                lands := c1.lands.setIfInBounds slot (if all then LandSlot.zero else { l with got := got }) }
    if fit.length < bs.length then (landError s1 ctx n away, true) else (s1, false)

/-- Bytes arrive at one landing slot of several cores. -/
def landAll (s : State) (ctx slot off : Nat) (bs : List Byte) (away : Bool) (ns : List Nat) : State × Bool :=
  ns.foldl (fun p n => let q := landBytes p.1 ctx n slot off bs away; (q.1, p.2 || q.2)) (s, false)
/-- Whether the issue side of a core holds a port that a landing wants (R160). -/
def landHeld (s : State) (n slot off len : Nat) : Bool :=
  let c := s.core n
  let l := c.lands[slot]?.getD LandSlot.zero
  l.armed && c.portHeld true (cellBanks (c.padCells false (l.off + off) (List.replicate (Nat.min len (l.len - off)) 0#8)))

/-! ### Two-part messages -/

/-- The first part that a message completes. -/
def firstPart (s : State) (l : Nat) (m : Msg) : Option Msg :=
  (s.pieces.find? fun (p : Nat × Msg) => p.1 == l && p.2.opc == m.opc && p.2.spkg == m.spkg && p.2.rid + 1#16 == m.rid).map (·.2)
/-- Keeps a first part and acknowledges it. -/
def keepFirst (s : State) (l : Nat) (m : Msg) : State :=
  let s1 := { s with pieces := s.pieces.filter (fun (p : Nat × Msg) => !(p.1 == l && p.2.rid == m.rid && p.2.spkg == m.spkg)) ++ [(l, m)] }
  s1.answer l m [0#8, 0#8] true
def dropFirst (s : State) (l : Nat) (f : Msg) : State := { s with pieces := s.pieces.filter fun (p : Nat × Msg) => !(p.1 == l && p.2 == f) }
def msgNat (m : Msg) (o n : Nat) : Nat := bytesToNat (slice m.data o n)

/-- The core field of a multicast LAND's first part, whose data is a bitmap of the package's cores that the second part goes to (R415; DESIGN CHOICE, log 22). -/
def manyCores : Nat := 63
/-- The cores a LAND goes to: those its first part lists, or the one it names. -/
def landCores (m : Msg) : Option Msg → List Nat
  | some f => (List.range 160).filter fun n => (msgNat f 0 20).testBit n
  | none => [40 * msgDie m + msgCore m]
/-- LAND (R409, R415): bytes for a landing slot of one core, or of every core its first part lists; RETRY while a receiving task is PRE-EMPTED. -/
def execLand (l : Nat) (m : Msg) (s : State) : Host.Outcome State Fault Refusal :=
  stepIf "LAND" <|
    if !atHead s l m 5 then none
    else
      let f := firstPart s l m
      let ns := landCores m f
      if msgCore m ≠ manyCores ∧ ns.any (fun n => landHeld s n m.aux.toNat (msgOff m) m.data.length) then none
      else some ((s.popInbox l).exactlyOnce l m fun s1 =>
        if msgCore m = manyCores then keepFirst s1 l m
        else if ns.any (awayOn s1 (msgCtx m)) then s1.sendTo (retryMsg s1 m)
        else
          let (s2, bad) := landAll s1 (msgCtx m) m.aux.toNat (msgOff m) m.data true ns
          ((f.map (dropFirst s2 l)).getD s2).answer l m [if bad then 5#8 else 0#8, 0#8] true)

/-- What an XCHG finds of its receiver. -/
inductive XchgEnd where
  | retry
  | again
  | clash (k t : Nat)
  | goes (k : Nat)
/-- The core of the named die whose task has the sender's TIDX and holds an exchange of a tensor at the partner's peer index (R410), in the slot whose work region the
chunk's offset names, and what its state makes of the chunk (R261). -/
def xchgEnd (s : State) (die ctx pp : Nat) (a : Arrival) (first : Bool) : XchgEnd :=
  let here := (List.range 40).flatMap fun i =>
    let k := 40 * die + i
    let d := s.core k
    if d.st ≠ .free ∧ d.ctx = ctx ∧ d.tidx = a.tidx then
      ((List.range 4).filter fun t => let m := s.slotAt k t; m.exchanging && (holderOf s k m 0).map (·.1) == some pp).map fun t => (k, t)
    else []
  match here.find? fun p => arrivalSlot s p.1 a == some p.2 with
  | none => .retry
  | some (k, t) =>
    let m := s.slotAt k t
    let off : Bool := (match m.planStep with
      | .exch b c _ => m.ix 3 == a.epoch && (b != a.b || c != a.c)
      | _ => false)
    match chunkEnd s k a first with
    | .again => .again
    | .wait => .retry
    | .goes => if m.pchk ≠ a.pchk ∨ off then .clash k t
               else if (s.core k).portHeld true (cellBanks ((s.core k).padCells false a.off (List.replicate 128 0#8))) then .retry else .goes k
/-- XCHG (R410): a chunk for the holder on the named die; RETRY when no core matches or its slot is taken. -/
def execXchg (l : Nat) (m : Msg) (s : State) : Host.Outcome State Fault Refusal :=
  stepIf "XCHG" <|
    if !atHead s l m 7 then none
    else some <| (s.popInbox l).exactlyOnce l m fun s1 =>
      match firstPart s1 l m with
      | none => keepFirst s1 l m
      | some f =>
        let a : Arrival := ⟨msgOff m, m.aux.toNat, msgCore m, msgNat f 0 4, msgNat f 4 1, msgNat f 5 1, msgNat f 8 4, BitVec.ofNat 32 (msgNat f 12 4), msgNat f 16 8, false⟩
        match xchgEnd s1 (msgDie m) (msgCtx m) (msgNat f 6 2) a (msgNat f 24 1 == 1) with
        | .retry => s1.sendTo (retryMsg s1 m)
        | .again => (dropFirst s1 l f).answer l m [0#8, 0#8] true
        -- the exchange under way there has other parameters: both holders halt (R261)
        | .clash k t => (dropFirst (s1.mismatch k t) l f).answer l m [4#8, 0#8] true
        | .goes k => (dropFirst (arriveChunk s1 k m.data a) l f).answer l m [0#8, 0#8] true

/-! ### MCOLL's parameters (R411, R412, R414) -/

def MSlot.cid (m : MSlot) : Nat := m.f 16 4
def MSlot.nm (m : MSlot) : Nat := m.f 20 4
def MSlot.root (m : MSlot) : Nat := m.f 34 2
def MSlot.net (m : MSlot) : Bool := (m.f 36 1).testBit 0
def MSlot.reduces (m : MSlot) : Bool := m.flx ≤ 1
def MSlot.xchk (m : MSlot) : Word := foldWords (wordsOf (slice m.blk 0 64))
/-- What MCOLL keeps in `work`: the step's flags, its rank, the members (place, and core above bit 16). -/
def MSlot.rank (m : MSlot) : Nat := m.work.getD 1 0
def MSlot.member (m : MSlot) (q : Nat) : Nat := m.work.getD (2 + q) 0
/-- Elements of the source and of the destination. -/
def MSlot.srcN (m : MSlot) : Nat := (m.desc 0).count
def MSlot.dstN (m : MSlot) : Nat := (m.desc 1).count
/-- The source's bytes for SEND: its units in logical order. -/
def MSlot.sendBytes (m : MSlot) : Nat :=
  let k := m.kind 0
  ceilDiv ((m.desc 0).dim 0) k.group * k.unit * ((m.desc 0).dim 1 * (m.desc 0).dim 2 * (m.desc 0).dim 3)
def MSlot.nch (m : MSlot) : Nat := if m.flx = 5 then ceilDiv m.sendBytes 16384 else ceilDiv m.dstN 1024
def MSlot.chunkLen (m : MSlot) (k : Nat) : Nat := Nat.min 1024 (m.dstN - 1024 * k)
/-- Bytes of one element in RES. -/
def MSlot.resSize (m : MSlot) : Nat := if m.reduces then 16 else (m.kind 1).unit
def MSlot.ownerOf (m : MSlot) (k q : Nat) : Nat := if m.flx = 0 then k % Nat.max 1 m.nm else q

/-- A send of step k: receiver, first source element, first element of the chunk, number; a result has no source. -/
structure CSend where
  q      : Nat
  result : Bool
  src    : Nat
  first  : Nat
  n      : Nat
def meetRange (lo hi a b : Nat) : Nat × Nat := (Nat.max lo a, Nat.min hi b)
/-- The sends of step k at this member (R415): the pieces it supplies, then the sums of a chunk it owns. -/
def MSlot.csends (m : MSlot) (k : Nat) : List CSend :=
  let r := m.rank
  let cnt := m.chunkLen k
  let all := List.range m.nm
  let part := fun (b : Nat) (src : Nat → Nat → Nat) =>
    let (x, y) := meetRange (1024 * k) (1024 * k + cnt) (r * b) ((r + 1) * b)
    if x < y then all.map fun q => (⟨q, false, src q (x - r * b), x - 1024 * k, y - x⟩ : CSend) else []
  match m.flx with
  | 0 => (⟨k % Nat.max 1 m.nm, false, 1024 * k, 0, cnt⟩ : CSend) :: if k % Nat.max 1 m.nm = r then all.map fun q => ⟨q, true, 0, 0, cnt⟩ else []
  | 1 => (all.map fun q => (⟨q, false, q * m.dstN + 1024 * k, 0, cnt⟩ : CSend)) ++ [⟨r, true, 0, 0, cnt⟩]
  | 2 => part m.srcN fun _ o => o
  | 3 => if r = m.root then all.map fun q => ⟨q, false, 1024 * k, 0, cnt⟩ else []
  | 4 => part (m.srcN / Nat.max 1 m.nm) fun q o => q * (m.srcN / Nat.max 1 m.nm) + o
  -- a LAND goes to each package once, by its member of least rank
  | _ => if r = m.root then (all.filter fun q => q != r && (all.find? fun p => p != r && m.member p % 2 ^ 14 == m.member q % 2 ^ 14) == some q).map
      fun q => ⟨q, false, 16384 * k, 16384 * k, Nat.min 16384 (m.sendBytes - 16384 * k)⟩ else []
/-- The chunk a collective is at: one past the last once that is committed. -/
def MSlot.chunkNow (m : MSlot) : Nat := if m.fin then m.nch else m.ix 0

/-! ### The work region (R414) -/

def accOff (k : Nat) : Nat := 16384 * (k % 2)
def resOff (k : Nat) : Nat := 32768 + 16384 * (k % 2)
def cbmOff (k : Nat) : Nat := 65536 + 2048 * (k % 2)
def pflOff (k : Nat) : Nat := 69632 + 128 * (k % 2)
def lbmOff (k : Nat) : Nat := 69888 + 16 * (k % 2)
/-- In the bytes reserved for the device (DESIGN CHOICE, log 19): one more than the chunk held, for ACC0, ACC1, RES0, RES1, arrived elements of RES0, RES1, and one
more than the chunk last freed, for ACC0 and ACC1. -/
def heldOff (res : Bool) (k : Nat) : Nat := 69920 + (if res then 8 else 0) + 4 * (k % 2)
def elemsOff (k : Nat) : Nat := 69936 + 128 * (k % 2)
def freedOff (k : Nat) : Nat := 70192 + 4 * (k % 2)
def wkRead (s : State) (n : Nat) (m : MSlot) (o len : Nat) : Nat := bytesToNat ((s.core n).padBytes false (m.woff + o) len)
def wkWrite (s : State) (n : Nat) (m : MSlot) (o len v : Nat) : State :=
  s.modCore n fun c => c.bgWrite s.fresh false (c.padCells false (m.woff + o) (natToBytes len v))
def heldChunk (s : State) (n : Nat) (m : MSlot) (res : Bool) (k : Nat) : Nat := wkRead s n m (heldOff res k) 4
def bitRange (lo n : Nat) : Nat := (2 ^ n - 1) * 2 ^ lo

/-! ### Pieces (R416–R418) -/

/-- A piece: identifiers, chunk, first element, ranks it counts for (none for a data piece), and its bytes. -/
structure Piece where
  cid   : Nat
  xchk  : Nat
  rank  : Nat
  k     : Nat
  first : Nat
  ranks : Option Nat
  /-- The poison flags of a partial sum; none for a contribution, whose code 2^127 is POISON (R50). -/
  pfl   : Option Nat
  bytes : List Byte
/-- What becomes of a piece. -/
inductive PieceEnd where
  | taken (s : State)
  | retry
  | mismatch (s : State)
/-- A NEED message to a rank, which names the collective and the chunk. -/
def needMsg (s : State) (m : MSlot) (ctx q k : Nat) : Msg :=
  let d := natToBytes 4 m.cid ++ natToBytes 4 k ++ natToBytes 4 m.rank
  mkMsg s 8 0 (m.member q % 2 ^ 14) (engineAddr (m.member q / 2 ^ 16) (natBits (m.member q) 14 2) 0 ctx) d.length q d
/-- The owner's acknowledgment to a rank whose contribution reached it in a switch's partial sum (R418): a REPLY that names the collective and the chunk (DESIGN
CHOICE, log 22). -/
def ackMsg (s : State) (m : MSlot) (ctx q k : Nat) : Msg :=
  let d := [0#8, 0#8] ++ natToBytes 4 m.cid ++ natToBytes 4 k
  mkMsg s 4 0 (m.member q % 2 ^ 14) (engineAddr (m.member q / 2 ^ 16) (natBits (m.member q) 14 2) 0 ctx) d.length q d

/-- Adds WQ codes to ACC (R416), of which the ranks `old` are in already. -/
def addAcc (s : State) (n : Nat) (m : MSlot) (p : Piece) (old ranks : Nat) : State :=
  let cnt := p.bytes.length / 16
  let codes := (List.range cnt).map fun i => bytesToNat (slice p.bytes (16 * i) 16)
  let sums := codes.zipIdx.map fun c => (if p.pfl.isNone ∧ c.1 = wqPoison then 0 else c.1) + (if old = 0 then 0 else wkRead s n m (accOff p.k + 16 * (p.first + c.2)) 16)
  let pois := (codes.zipIdx.filter fun c => p.pfl.isNone ∧ c.1 = wqPoison).foldl (fun a c => a + 2 ^ (p.first + c.2)) 0
  let s1 := wkWrite s n m (accOff p.k + 16 * p.first) (16 * cnt) (bytesToNat (sums.flatMap fun v => natToBytes 16 (v % 2 ^ 128)))
  let s2 := wkWrite s1 n m (pflOff p.k) 128 ((if old = 0 then 0 else wkRead s n m (pflOff p.k) 128) ||| pois ||| p.pfl.getD 0)
  wkWrite (wkWrite s2 n m (cbmOff p.k) 2048 (old ||| ranks)) n m (heldOff false p.k) 4 (p.k + 1)
/-- Whether the issue side holds a port that a piece's write wants (R160). -/
def pieceHeld (s : State) (n : Nat) (m : MSlot) (p : Piece) : Bool :=
  let c := s.core n
  c.portHeld true (cellBanks (c.padCells false (m.woff + if p.ranks.isSome then accOff p.k + 16 * p.first else resOff p.k + m.resSize * p.first) p.bytes))
/-- A piece reaches a core (R416, R417). -/
def takePiece (s : State) (n : Nat) (p : Piece) : PieceEnd :=
  match (List.range 4).find? (fun t => let m := s.slotAt n t; (m.st == .busy || m.st == .halted) && m.op == 0x13 && m.cid == p.cid) with
  | none => .retry
  | some t =>
    let m := s.slotAt n t
    let ctx := (s.core n).ctx
    -- of a switch's partial sum, each rank that the sums have is acknowledged (R418)
    let acks := fun (r : Nat) (s : State) => if p.pfl.isNone then s else (List.range m.nm).foldl (fun s q => if r.testBit q then s.sendTo (ackMsg s m ctx q p.k) else s) s
    if m.xchk.toNat ≠ p.xchk then .mismatch (s.mismatch n t)
    else if p.k < m.chunkNow then .taken (acks (p.ranks.getD 0) s)
    else
      match p.ranks with
      | some r =>
        let h := heldChunk s n m false p.k
        -- the sums of a chunk that ACC no longer holds are sent: every rank is in them
        if p.k < wkRead s n m (freedOff p.k) 4 then .taken (acks r s)
        else if (h ≠ 0 ∧ h ≠ p.k + 1) ∨ pieceHeld s n m p then .retry
        else
          let cbm := if h = 0 then 0 else wkRead s n m (cbmOff p.k) 2048
          if r &&& cbm = 0 then .taken (acks r (addAcc s n m p cbm r))
          else .taken (acks (r &&& cbm) ((List.range m.nm).foldl (fun s q => if r.testBit q && !cbm.testBit q then s.sendTo (needMsg s m ctx q p.k) else s) s))
      | none =>
        let h := heldChunk s n m true p.k
        if (h ≠ 0 ∧ h ≠ p.k + 1) ∨ pieceHeld s n m p then .retry
        else
          let es := m.resSize
          let cnt := p.bytes.length / es
          let s1 := wkWrite s n m (resOff p.k + es * p.first) p.bytes.length (bytesToNat p.bytes)
          let els := (if h = 0 then 0 else wkRead s n m (elemsOff p.k) 128) ||| bitRange p.first cnt
          let need := m.chunkLen p.k
          let lines := (List.range 128).foldl (fun a i =>
            let lo := 128 * i / es
            let hi := Nat.min need (ceilDiv (128 * (i + 1)) es)
            if lo < hi ∧ natBits els lo (hi - lo) = 2 ^ (hi - lo) - 1 then a + 2 ^ i else a) 0
          .taken (wkWrite (wkWrite (wkWrite s1 n m (elemsOff p.k) 128 els) n m (lbmOff p.k) 16 lines) n m (heldOff true p.k) 4 (p.k + 1))

/-- A piece as a message's descriptor part. -/
def Piece.head (p : Piece) (rgrp : Option Nat) : List Byte :=
  natToBytes 4 p.cid ++ natToBytes 4 p.xchk ++ natToBytes 4 p.k ++ natToBytes 4 p.first ++
  natToBytes 2 (if p.ranks.isSome then 1 else 0) ++ natToBytes 2 (match rgrp with | some g => g | none => 0xFFFF)
def pieceOf (f m : Msg) : Piece :=
  let partSum := decide (20 < f.data.length)
  { cid := (msgNat f 0 4), xchk := (msgNat f 4 4), rank := m.aux.toNat, k := (msgNat f 8 4), first := (msgNat f 12 4),
    ranks := if partSum then some ((msgNat f 20 2048)) else if (msgNat f 16 2) = 1 then some (2 ^ m.aux.toNat) else none,
    pfl := if partSum then some (msgNat f 2068 128) else none, bytes := m.data }
/-- A piece's message reaches this package. -/
def pieceArrives (s : State) (l : Nat) (m : Msg) : State :=
  (s.popInbox l).exactlyOnce l m fun s1 => match firstPart s1 l m with
  | none => keepFirst s1 l m
  | some f =>
    let n := 40 * msgDie m + msgCore m
    let c := s1.core n
    if c.st = .free ∨ c.ctx ≠ (msgCtx m) then s1.sendTo (retryMsg s1 m)
    else match takePiece s1 n (pieceOf f m) with
      | .retry => s1.sendTo (retryMsg s1 m)
      | .mismatch s2 => (dropFirst s2 l f).answer l m [4#8, 0#8] true
      | .taken s2 => (dropFirst s2 l f).answer l m [0#8, 0#8] true
/-- PIECE (R416, R417). -/
def execPiece (l : Nat) (m : Msg) (s : State) : Host.Outcome State Fault Refusal :=
  stepIf "PIECE" (if atHead s l m 6 then some (pieceArrives s l m) else none)
/-- SWITCH_FORWARD (R418): a switch's partial sum, with the bitmap of ranks it holds, reaches the owner. -/
def execSwitchForward (l : Nat) (m : Msg) (s : State) : Host.Outcome State Fault Refusal :=
  stepIf "SWITCH_FORWARD" <|
    if atHead s l m 6 then
      match firstPart s l m with
      | some f => if 20 < f.data.length then some (pieceArrives s l m) else none
      | none => none
    else none

/-! ### Sending -/

/-- The bytes of a contribution or of a data piece, read from the source afresh. -/
def sourceBytes (e : REnv) (x : CSend) : SM (List Byte) := do
  let m := e.m
  let d := m.desc 0
  let k := m.kind 0
  if m.flx = 5 then
    let u0 := x.src / k.unit
    let us ← (List.range (ceilDiv (x.src + x.n) k.unit - u0)).flatMapM fun i => do pure (← readUnit e d k (d.unflat ((u0 + i) * k.group))).1
    pure (slice us (x.src - u0 * k.unit) x.n)
  else if m.reduces then
    (List.range x.n).flatMapM fun i => do
      let c := d.unflat (x.src + i)
      if k = .wq then pure (natToBytes 16 (← readCode e d k c))
      else pure (natToBytes 16 (← noted (toWQ (← readVal e d k c) (m.f 32 1))))
  else (List.range x.n).flatMapM fun i => do pure (natToBytes k.unit (← readCode e d k (d.unflat (x.src + i))))
/-- The sums of an owned chunk (R50). -/
def sumBytes (e : REnv) (k cnt : Nat) : List Byte × Flags :=
  let pf := wkRead e.s e.n e.m (pflOff k) 128
  let rs := (List.range cnt).map fun i => (⟨pf.testBit i, BitVec.ofNat 128 (wkRead e.s e.n e.m (accOff k + 16 * i) 16)⟩ : WQAcc).store
  (rs.flatMap fun r => natToBytes 16 r.1.toNat, rs.foldl (fun f r => f ||| r.2) 0#6)
/-- Sends one piece, directly or, with NET, into the switch slot (R418); a member of this package takes it at once. -/
def sendPiece (s : State) (n t q : Nat) (p : Piece) (direct : Bool) : Option State :=
  let m := s.slotAt n t
  let pl := m.member q
  let c := s.core n
  let addr := engineAddr (pl / 2 ^ 16) (natBits pl 14 2) (m.woff + if p.ranks.isSome then accOff p.k else resOff p.k) c.ctx
  if pl % 2 ^ 14 = s.pkgNum then
    let k := 40 * natBits pl 14 2 + pl / 2 ^ 16
    if (s.core k).st = .free ∨ (s.core k).ctx ≠ c.ctx then none
    else match takePiece s k p with
      | .taken s1 => some s1
      | .retry => none
      | .mismatch s1 => some (s1.mismatch n t)
  else
    let h := p.head (if m.net && p.ranks.isSome && !direct then some (m.f 38 2) else none)
    sendTwo s (.slot n t) (mkMsg s 6 0 (pl % 2 ^ 14) addr h.length p.rank h) (mkMsg s 6 0 (pl % 2 ^ 14) addr p.bytes.length p.rank p.bytes)
/-- The piece of a send. -/
def pieceFor (e : REnv) (k : Nat) (x : CSend) (bs : List Byte) : Piece :=
  let m := e.m
  ⟨m.cid, m.xchk.toNat, m.rank, k, x.first, if m.reduces && !x.result then some (2 ^ m.rank) else none, none, bs⟩
/-- A chunk of a SEND to one member: LAND messages (R409, R415). -/
def sendLand (s : State) (n t : Nat) (x : CSend) (bs : List Byte) : Option State :=
  let m := s.slotAt n t
  let pl := m.member x.q
  let ctx := (s.core n).ctx
  let slot := m.f 33 1
  -- the members of the package, the sender apart
  let ks := ((List.range m.nm).filter fun q => q != m.rank && m.member q % 2 ^ 14 == pl % 2 ^ 14).map fun q => 40 * natBits (m.member q) 14 2 + m.member q / 2 ^ 16
  if pl % 2 ^ 14 = s.pkgNum then
    -- a landing error ends the transfer: the record is sent, and the step goes on (R171)
    if ks.any fun k => awayOn s ctx k || landHeld s k slot x.first bs.length then none else some (landAll s ctx slot x.first bs false ks).1
  else
    let mk := fun (core : Nat) (d : List Byte) => mkMsg s 5 0 (pl % 2 ^ 14) (engineAddr core (natBits pl 14 2) x.first ctx) d.length slot d
    sendTwo s (.slot n t) (mk manyCores (natToBytes 20 (ks.foldl (fun b k => b ||| 2 ^ k) 0))) (mk (pl / 2 ^ 16) bs)
/-! ### Steps (R415) -/

/-- The writes of step k: the received chunk goes to TD1. -/
def collOut (e : REnv) (k : Nat) : SM (List Dest) :=
  let m := e.m
  let es := m.resSize
  if m.flx = 5 then pure []
  else writeAll e (m.desc 1) (m.kind 1) ((List.range (m.chunkLen k)).map fun i =>
    let w := wkRead e.s e.n m (resOff k + es * i) es
    ((m.desc 1).unflat (1024 * k + i), if m.reduces && m.kind 1 != .wq then OutV.val (wqValue w (m.f 32 1)) else OutV.code w))
/-- The sources and the destination of step k, as its translate and settle phases see them (R218, R391). -/
def collStep (k : Nat) (e : REnv) : SM StepOut := do
  let srcs := (((e.m.csends k).filter fun x => !x.result).map fun x => (x.src, x.n)).eraseDups
  for x in srcs do
    let _ ← sourceBytes e ⟨0, false, x.1, 0, x.2⟩
  let ds ← collOut e k
  pure { dests := ds, next := [], last := false }
/-- Makes send number `i` of step k: the state after it, none while it must wait. -/
def makeSend (s : State) (n t k : Nat) (x : CSend) : Option State :=
  let e := renv s n t
  let m := e.m
  let mark := fun (fl : Flags) (s : State) => s.modSlot n t fun m =>
    { m with sent := m.sent + 1, work := ((BitVec.ofNat 6 (m.work.headD 0)) ||| fl).toNat :: m.work.tail }
  match if m.sent = 0 then translateFails s n t (collStep k) else none with
  | some (r, a, v) => some (s.stopSlot n t r a v)
  | none =>
  if x.result then
    if wkRead s n m (cbmOff k) 2048 ≠ 2 ^ m.nm - 1 ∨ heldChunk s n m false k ≠ k + 1 then none
    else
      let (bs, fl) := sumBytes e k x.n
      (sendPiece s n t x.q (pieceFor e k x bs) true).map (mark fl)
  else
    match (sourceBytes e x).run .zero with
    | .error .wait => none
    | .error (.need key va) => askLine s n t key va
    | .error (.halt r a v) => some (s.stopSlot n t r a v)
    | .ok (bs, lg) => (if m.flx = 5 then sendLand s n t x bs else sendPiece s n t x.q (pieceFor e k x bs) false).map (mark lg.fl)
/-- The commit of step k. -/
def collCommit (e : REnv) (k : Nat) : SM StepOut := do
  let m := e.m
  SM.note (BitVec.ofNat 6 (m.work.headD 0))
  let ds ← collOut e k
  let (nx, last) := advance [k, 0, 0, 0] [m.nch, 1, 1, 1]
  pure { dests := ds, next := nx, last := last, work := 0 :: m.work.tail, wtile := 256 + k % 2,
         landed := if m.flx = 5 then Nat.min 16384 (m.sendBytes - 16384 * k) else 0 }
/-- Frees the ACC slot of an owned chunk whose result sends are acknowledged (R416), once. -/
def freeAcc (s : State) (n t k : Nat) : State :=
  let m := s.slotAt n t
  if heldChunk s n m false k ≠ k + 1 then s
  else wkWrite (wkWrite (wkWrite (wkWrite s n m (cbmOff k) 2048 0) n m (pflOff k) 128 0) n m (heldOff false k) 4 0) n m (freedOff k) 4 (k + 1)
def freeRes (s : State) (n t k : Nat) : State :=
  let m := s.slotAt n t
  wkWrite (wkWrite (wkWrite s n m (lbmOff k) 16 0) n m (elemsOff k) 128 0) n m (heldOff true k) 4 0
/-- Whether LBM covers chunk k. -/
def resFull (s : State) (n : Nat) (m : MSlot) (k : Nat) : Bool :=
  m.flx == 5 || (heldChunk s n m true k == k + 1 && wkRead s n m (elemsOff k) 128 == 2 ^ m.chunkLen k - 1)
/-- MCOLL_STEP: the next send of a step, or its commit. -/
def execMcollStep (core slot : Nat) (s : State) : Host.Outcome State Fault Refusal :=
  stepIf "MCOLL_STEP" <|
    let m := s.slotAt core slot
    if !slotRuns s core slot || m.op != 0x13 then none
    else
      let k := m.ix 0
      match (m.csends k)[m.sent]? with
      | some x => makeSend s core slot k x
      | none =>
        if s.owes (.slot core slot) then none
        else if m.reduces && m.ownerOf k m.rank == m.rank && heldChunk s core m false k == k + 1 then some (freeAcc s core slot k)
        else if !resFull s core m k then none
        else
          (runStep s core slot fun e => collCommit e k).map fun s1 =>
            if (s1.slotAt core slot).done = m.done then s1 else s1.modSlot core slot fun m => { m with sent := 0 }
/-- The RES slot of an MCOLL's step whose writes are acknowledged is free again (R416). -/
def settleColl (s : State) (n t : Nat) (o : Out) : State :=
  let m := s.slotAt n t
  let s1 := settleOut s n t o
  if m.op = 0x13 ∧ m.flx ≠ 5 ∧ !o.owes then freeRes s1 n t o.step else s1

/-- MACRO_WRITES_ACK: every write of a committed step is acknowledged. -/
def execMacroWritesAck (core slot : Nat) (s : State) : Host.Outcome State Fault Refusal :=
  stepIf "MACRO_WRITES_ACK" <|
    let m := s.slotAt core slot
    match m.outs.find? (fun o => m.st == .busy && !o.failed && !s.jobLeft core o) with
    | some o => some (settleColl s core slot o)
    | none => none

/-! ### NEED and the acknowledgment time-out (R418) -/

/-- Sends this member's contribution to chunk k directly to its owner `q`. -/
def sendDirect (s : State) (n t k q : Nat) : Option State :=
  let e := renv s n t
  let m := e.m
  match (m.csends k).find? (fun x => !x.result && x.q == q) with
  | none => none
  | some x =>
    match (sourceBytes e x).run .zero with
    | .ok (bs, _) => sendPiece s n t x.q (pieceFor e k x bs) true
    | .error _ => none
/-- NEED: the owner lacks this member's contribution. -/
def execNeed (l : Nat) (m : Msg) (s : State) : Host.Outcome State Fault Refusal :=
  stepIf "NEED" <|
    if (s.link l).inbox.head?.map (·.1) == some m && m.opc.toNat == 8 then
      let s1 := s.popInbox l
      let n := 40 * msgDie m + msgCore m
      match (List.range 4).find? (fun t => let v := s1.slotAt n t; (v.st == .busy || v.st == .halted) && v.op == 0x13 && v.cid == (msgNat m 0 4)) with
      | some t =>
        if (s1.slotAt n t).chunkNow = msgNat m 4 4 ∧ (s1.core n).ctx = msgCtx m ∧ (s1.core n).st ≠ .free then (sendDirect s1 n t (msgNat m 4 4) (msgNat m 8 4)).or (some s1)
        else some s1
      | none => some s1
    else none
/-- The acknowledgment of a contribution that reached its owner in a partial sum (R418): the request it was sent with is complete. -/
def collAck (s : State) (m : Msg) : State :=
  let n := 40 * msgDie m + msgCore m
  let mine := fun (r : Request) => r.msg.opc.toNat == 6 && r.msg.dpkg == m.spkg && (List.range 4).any fun t =>
    let v := s.slotAt n t
    r.owner == .slot n t && v.op == 0x13 && v.cid == msgNat m 2 4 && v.chunkNow == msgNat m 6 4
  { s with links := s.links.map fun l => { l with requests := l.requests.filter fun r => !mine r } }
/-- REPLY (R406): the request it answers is complete, or the contribution it acknowledges (R418). -/
def execReply (l : Nat) (m : Msg) (s : State) : Host.Outcome State Fault Refusal :=
  stepIf "REPLY" <|
    if (s.link l).inbox.head?.map (·.1) == some m && m.opc.toNat == 4 then
      let s1 := s.popInbox l
      if m.addr ≠ 0#64 then some (collAck s1 m)
      else match requestOf s1 l m with
      | some (k, r) => some (replyOwner (s1.modLink k fun k => { k with requests := k.requests.filter fun x => x.rid != r.rid }) m r.owner)
      | none => some s1
    else none
/-- ACK_TIMEOUT: fifty microseconds after a contribution was sent into the network, it is sent to its owner directly. -/
def execAckTimeout (core slot peer : Nat) (s : State) : Host.Outcome State Fault Refusal :=
  stepIf "ACK_TIMEOUT" <|
    let m := s.slotAt core slot
    let pl := m.member peer
    let late := fun (r : Request) => r.owner == .slot core slot && r.msg.opc.toNat == 6 && decide (r.sentAt + 50 * usRounds ≤ s.hubTime) &&
      r.msg.dpkg.toNat == pl % 2 ^ 14 && msgCore r.msg == pl / 2 ^ 16 && msgDie r.msg == natBits pl 14 2
    if m.st == .busy && m.op == 0x13 && m.net && m.reduces && decide (peer < m.nm) && s.links.toList.any (fun l => l.requests.any late) then
      sendDirect { s with links := s.links.map fun l => { l with requests := l.requests.filter fun r => !late r } } core slot (m.ix 0) peer
    else none

end Sys2Proof.Machine
end

