-- ==== Sys2Proof/Machine/Macro.lean ====
section
/-!
DEFINITION. The issue of macro-instructions (R211–R216, R222–R226, R263–R266, R411, R412), the automatic reissue after pre-emption, the steps of
the sequencer, and the descriptor instructions (R262).
-/
namespace Sys2Proof.Machine

/-! ### Parameter blocks -/

/-- Bytes of a global range as a bundle's parameter read has brought them, line by line by virtual address (R213); none while one has not been read. -/
def paramRead (s : State) (n va len : Nat) : Option (List Byte) :=
  (partsOf va len).foldl (fun acc p => acc.bind fun bs =>
    ((s.core n).rlines.find? fun l => l.1 == p.1 - p.1 % 128).map fun l => bs ++ slice l.2 (p.1 % 128) p.2.2) (some [])
/-- Where a parameter block or an image lies: its place, none for the ADDRESS fault. R213 names global memory and the scratchpad; an address in another
core's scratchpad raises ADDRESS (DESIGN CHOICE, log 86). -/
def paramPlace (s : State) (n : Nat) (x : DWord) : Option Place :=
  if x.toNat % 64 ≠ 0 then none
  else match checkAddr s n x with
    | some (.glob va) => some (.glob va)
    | some (.loc k off) => if k = n ∧ off + 64 ≤ (s.core n).padSize then some (.loc k off) else none
    | none => none
/-- The bytes of a parameter block, table or image: in the scratchpad, stores issued before are seen (R159, R214). -/
def placeBytes (s : State) (n len : Nat) : Place → Option (List Byte)
  | .glob va => paramRead s n va len
  | .loc k off => some ((List.range len).map fun i => poolSeen (s.core k) ((s.core k).padAddr false (off + i)))
def placeExcs (s : State) (n len : Nat) : Place → List Exc
  | .glob va => transExc s n wantRead 0 va len
  | .loc k off => if off + len ≤ (s.core k).padSize then [] else [addrExc off]
/-- The length of a macro's block, from its first bytes. -/
def blockLen (op : Nat) (head : List Byte) : Nat :=
  let k := bytesToNat (slice head 16 1)
  if op = 8 then 32 + 8 * k else if op = 0x11 then 32 + 48 * k else 64
/-- A slot as an issue finds it: what R214 captures. -/
def slotFor (s : State) (n op flx : Nat) (td0 td1 td2 : BitVec 8) (addr : DWord) (blk : List Byte) : MSlot :=
  { MSlot.zero with op := op, flx := flx, fmte := (s.core n).fmte, td0 := td0, td1 := td1, td2 := td2, zb := bytesToNat (slice blk 0 1),
                    zn := bytesToNat (slice blk 1 1), blkAddr := addr, blk := blk,
                    descs := [readDesc s n td0, readDesc s n td1, readDesc s n td2, readDesc s n (BitVec.ofNat 8 (bytesToNat (slice blk 16 1)))] }

/-! ### Checks of the exchange macros and of MCOLL -/

/-- A byte range of a piece in the core's own scratchpad. -/
def pieceHull (e : REnv) (i : Nat) : List (Nat × Nat) :=
  let d := e.m.desc i
  match holderOf e.s e.n e.m i with
  | some h => ownRange' e.s e.n h.2 0 ((2 ^ mapL d.mapBytes * d.esize : Nat) : Int)
  | none => []
/-- TD0 as a vector the task holds a piece of (R258, R259). -/
def vecExcs (e : REnv) (p : EKind → Bool) : List Exc :=
  let m := e.m
  let d := m.desc 0
  let mp := d.mapBytes
  let size := match Tab.get? e.s.groups (e.s.core e.n).gid with
    | some g => g.size
    | none => 0
  needF m 0 p ++ needD m 0 ((d.mapped || d.flatVec) && decide (2 ^ mapC mp ≤ size)) ++
  match holderOf e.s e.n m 0 with
  | none => [fmtExc m.td0 d]
  | some h =>
    let len := 2 ^ mapL mp * d.esize
    match checkAddr e.s e.n (BitVec.ofNat 64 h.2) with
    | some (.glob va) => if va + len ≤ 2 ^ 56 then [] else [addrExc h.2]
    | some (.loc k off) => if off + len ≤ (e.s.core k).padSize then [] else [addrExc h.2]
    | none => [addrExc h.2]
/-- A target that only an exchange could bring in, on a tensor with no LOCAL bit (R243, R268). -/
def stuckTarget (m : MSlot) : Bool := mapL m.mapb == 0 && m.targets.any fun b => !mapIsLocal m.mapb b
def mixchChk (e : REnv) : MChk :=
  let m := e.m
  let loc := mapIsLocal m.mapb (m.f 16 1)
  { excs := needP (m.headerOk (e.s.core e.n) 0 0 0 && m.zeros 18 46 && ((m.desc 0).lgBelow (m.f 16 1) && (m.desc 0).lgBelow (m.f 17 1) && (loc || mapIsLocal m.mapb (m.f 17 1) || !(m.desc 0).mapKnown))) ++
      vecExcs e (fun k => k == .el .f32 || k == .el .c32),
    done := loc, reads := pieceHull e 0, writes := pieceHull e 0 }
def gateChk (e : REnv) : MChk :=
  let m := e.m
  let lg := (m.desc 0).lg
  let g := List.range (m.f 16 1)
  { excs := needP (m.headerOk (e.s.core e.n) 1 1 0 && decide (1 ≤ m.f 16 1) && decide (m.f 16 1 ≤ 64) && m.zeros 17 15 &&
        g.all fun i => (m.desc 0).lgBelow (m.f (32 + 48 * i) 1) && m.zeros (33 + 48 * i) 3 && m.zeros (40 + 48 * i) 8 && (decide (m.f (36 + 48 * i) 4 < 2 ^ lg) || !(m.desc 0).mapKnown)) ++
      vecExcs e isC32 ++ needD m 0 (!stuckTarget m),
    reads := pieceHull e 0, writes := pieceHull e 0 }
def flyChk (e : REnv) : MChk :=
  let m := e.m
  let lg := (m.desc 0).lg
  let ns := m.f 16 1
  let st := List.range ns
  let data := fun (k : EKind) => k == .el .f32 || k == .el .c32
  let weights := fun (k : EKind) => k == .el .f32 || k == .el .bf16 || k == .el .c32
  -- the weights give the mode (R207, R243): data, weights and output are complex together or real together
  let same := fun (a b : EKind) => isC32 a == isC32 b
  let o := m.desc 2
  { excs := needP (m.headerOk (e.s.core e.n) 1 64 0 && decide (1 ≤ ns) && decide (ns ≤ 16) && m.zeros 17 15 &&
        st.all fun i => (m.desc 0).lgBelow (m.f (32 + 8 * i) 1) && (m.desc 0).lgBelow (m.f (33 + 8 * i) 1) && decide (m.f (33 + 8 * i) 1 < 16) && decide (m.f (34 + 8 * i) 1 < 2) && m.zeros (35 + 8 * i) 1) ++
      vecExcs e data ++ needPair m 0 1 data weights same ++ needPair m 0 2 data (fun _ => true) same ++ needD m 0 (!stuckTarget m) ++
      needF m 1 weights ++ needD m 1 (decide (m.stageBase ns ≤ (m.desc 1).count)) ++
      needF m 2 (fun _ => true) ++ needD m 2 (o.count == 2 ^ lg && (!o.mapped || o.fmt == (m.desc 0).fmt)),
    reads := pieceHull e 0 ++ m.hull e 1, writes := pieceHull e 0 ++ (if o.mapped then pieceHull e 2 else m.hull e 2) }

/-- The members of a collective as its table names them (R412). Bytes 3 to 15 of an entry are RES0; a nonzero value is ignored, since the specification names
neither a fault nor a status for it (DESIGN CHOICE, log 94). A CORE above 39 is a field outside its range and raises PARAM as one of the block does (DEDUCED
from R213, log 94). -/
def memberList (bs : List Byte) (nm : Nat) : List Nat := (List.range nm).map fun i => bytesToNat (slice bs (16 * i) 3)
def ranksOf (s : State) (n : Nat) (ms : List Nat) : List Nat :=
  (List.range ms.length).filter fun i => ms.getD i 0 == placeNum s n + n % 40 * 2 ^ 16
def collChk (e : REnv) (tbl : List Byte) : MChk :=
  let m := e.m
  let red := m.reduces
  let ms := memberList tbl (Nat.min m.nm 16384)
  let rs := ranksOf e.s e.n ms
  let root := rs == [m.root]
  let useS := m.flx != 3 || root
  let srcOk := fun k => if red then isFloatK k || k == .el .i32 || k == .wq else m.flx == 5 || (!k.isBx && decide (8 ≤ k.width))
  let dstOk := fun k => if red then isFloatK k || k == .wq else !k.isBx && decide (8 ≤ k.width)
  let pb := fun (i : Nat) => needD m i (!red || m.kind i != .wq || (m.desc i).pbin == m.f 32 1)
  let n0 := m.srcN
  let n1 := m.dstN
  { excs := needP (m.headerOk (e.s.core e.n) 0 0 71680 && decide (1 ≤ m.nm) && decide (m.nm ≤ 16384) && m.f 24 8 % 16 == 0 && decide (m.f 24 8 < 2 ^ 56) &&
        (red || m.f 32 1 == 0) && decide (m.f 33 1 ≤ 7) && (m.flx == 5 || m.f 33 1 == 0) && (if m.flx = 3 ∨ m.flx = 5 then decide (m.root < m.nm) else m.root == 0) &&
        decide (m.f 36 1 < 2) && m.zeros 37 1 && (m.net || m.f 38 2 == 0) && m.zeros 48 16 && ms.all fun v => decide (v / 2 ^ 16 < 40)) ++
      (if rs.length = 1 then [] else [fmtExc m.td0 (m.desc 0)]) ++
      (if useS then needF m 0 srcOk ++ pb 0 ++ (if red || m.flx == 5 then [] else needPair m 0 1 srcOk dstOk (· == ·)) else if m.td0 = 0#8 then [] else [fmtExc m.td0 (m.desc 0)]) ++
      (if m.flx = 5 then needD m 0 (m.sendBytes % 128 == 0) ++ (if root then [] else [fmtExc m.td0 (m.desc 0)])
       else needF m 1 dstOk ++ pb 1 ++
         needD m 1 (match m.flx with
           | 0 => n1 == n0
           | 1 => n0 % Nat.max 1 m.nm == 0 && n1 * m.nm == n0
           | 2 => n1 == m.nm * n0
           | 3 => !useS || n1 == n0
           | _ => n0 % Nat.max 1 m.nm == 0 && n1 == n0)),
    reads := if useS then m.hull e 0 else [], writes := if m.flx = 5 then [] else m.hull e 1 }

/-! ### Issue -/

/-- The named operand a FORMAT record names first; past the last for any other fault. -/
def excPos (m : MSlot) (x : Exc) : Nat := if x.code = 15 then ((namedDescs m).find? fun i => (m.td i).toNat == x.xinfo % 256).getD 4 else 4
/-- Puts a fault of operand `i` before those of later operands. -/
def insertExc (m : MSlot) (i : Nat) (x : Exc) : List Exc → List Exc
  | [] => [x]
  | y :: ys => if y.code = 15 ∧ i < excPos m y then x :: y :: ys else y :: insertExc m i x ys
/-- Every operand with a map needs a group of no fewer tasks than its CORE bits make holders (R258): FORMAT names the others, in the order of the fields. -/
def withMaps (e : REnv) (k : MChk) : MChk :=
  let m := e.m
  let size := match Tab.get? e.s.groups (e.s.core e.n).gid with
    | some g => g.size
    | none => 0
  let bad := (namedDescs m).filter fun i => let d := m.desc i; d.v && d.wf && d.mapped && decide (size < 2 ^ mapC d.mapBytes)
  { k with excs := bad.foldr (fun i xs => insertExc m i (fmtExc (m.td i) (m.desc i)) xs) k.excs }
/-- The checks of a macro by its operation. -/
def macroChk (e : REnv) (tbl : List Byte) : MChk :=
  withMaps e (match e.m.op with
  | 0x00 => convChk e | 0x01 => mulChk e | 0x02 => attnChk e | 0x03 => poolChk e | 0x04 => sortChk e | 0x05 => copyChk e | 0x06 => gathChk e
  | 0x07 => mapChk e | 0x08 => flyChk e | 0x11 => gateChk e | 0x12 => mixchChk e | _ => collChk e tbl)
def meets (a b : Nat × Nat) : Bool := decide (a.1 < b.2) && decide (b.1 < a.2) && decide (a.1 < a.2) && decide (b.1 < b.2)
/-- Whether a macro's hulls or accumulators meet those of a BUSY slot (R215). -/
def Core.macroClash (c : Core) (r w : Nat × Nat) (zb zn : Nat) : Bool :=
  (c.slots.toList.any fun m => m.st == .busy && (meets w (m.rlo, m.rhi) || meets w (m.wlo, m.whi) || meets r (m.wlo, m.whi))) ||
  (List.range zn).any fun i => c.tileOwned (zb + i)
/-- The paths an issue orders behind the LSU path (R214). -/
def macroPaths (op : Nat) : List Path := if op = 6 then [.gu] else if op = 0x13 then [.lk] else if isExchange op then [.mo, .sq, .lk] else [.mo, .sq]
def orderPaths (s : State) (n op : Nat) (baddr : DWord) : State :=
  (macroPaths op).foldl (fun s q => s.pushAccess (pseudoAccess ⟨n, baddr, 0, .x, 0⟩ (s.core n).ctx .lsu (.xfence .lsu q) 2#2)) s
def ownTiles (s : State) (n t zb zn : Nat) : State :=
  s.modCore n fun c => (List.range zn).foldl (fun (c : Core) i =>
    { c with tiles := Tab.set c.tiles (zb + i) { c.tileInfo (zb + i) with owner := some (BitVec.ofNat 2 t) } }) c

/-- MCOLL's reserved bytes are zero at its first issue (R414). -/
def clearReserved (s : State) (n : Nat) (m : MSlot) : State := if m.op = 0x13 then wkWrite s n m 69920 1760 0 else s
/-- A fresh issue (R212, R222). -/
def startSlot (s : State) (n t : Nat) (m : MSlot) (k : MChk) (baddr : DWord) : State :=
  let i3 := if isExchange m.op then (m.desc 0).mepoch else 0
  let m1 : MSlot := { m with idx := #v[0, 0, 0, i3], zcur := 255, baddr := baddr, serial := s.nextId, epoch0 := i3 }
  if k.zero then s.modSlot n t fun _ => { m1 with st := .free, reason := 2 }
  else if k.done then s.modSlot n t fun _ => { m1 with st := .free, reason := 1 }
  else
    let s1 : State := { s with nextId := s.nextId + 1 }
    ownTiles (orderPaths (clearReserved (s1.modSlot n t fun _ => { m1 with st := .busy }) n m1) n m.op baddr) n t m.zb m.zn
/-- Whether a RESUME issue matches the recorded macro (R224, R264). -/
def sameMacro (o m : MSlot) : Bool :=
  o.op == m.op && o.flx == m.flx && o.td0 == m.td0 && o.td1 == m.td1 && o.td2 == m.td2 &&
  o.fmte.extractLsb' 0 15 == m.fmte.extractLsb' 0 15 && o.pchk == m.pchk && (!isExchange m.op || (m.desc 0).mepoch == o.ix 3)
/-- The first write of a slot's outstanding steps that no longer translates (R225). -/
def outFail (s : State) (n : Nat) (m : MSlot) : Option (Nat × Nat) :=
  m.outs.findSome? fun o => o.globRanges.findSome? fun g =>
    (firstFail s (s.core n).ctx ⟨if g.1 then .atomic else .write, true, false, false⟩ (lineStarts g.2.1 g.2.2)).map fun f =>
      (f.1, transAuxv f.2 (if g.1 then 2 else 1) (wrPath m.op).num)
/-- The first tile that a slot's outstanding steps write from and that holds poison (R426). -/
def outPoison (s : State) (n : Nat) (m : MSlot) : Option Nat := (m.outs.find? fun o => decide (o.tile < 255) && (s.core n).tileBad o.tile).map (·.tile)
/-- The writes of an outstanding step made again from what they come from: the accumulator tiles, the exchange's slot or RES as they stand (R225); none where
they come from the device's own part of the work region. -/
def outAgain (e : REnv) (o : Out) : Option (SM (List Dest)) :=
  let m := e.m
  let words := fun (z : Nat) => imgWords (e.tile z)
  match m.op with
  | 0x00 => some (convOut e o.idx o.bias (words o.tile))
  | 0x01 => some (mulOut e o.idx o.bias (words o.tile))
  | 0x02 =>
    if o.tile = 255 then none
    else
      let tiles := (List.range ((m.desc 0).dim 0 / 64)).map fun t => words (m.zb + 1 + t)
      some (attnOut e o.idx ((List.range 64).map fun r => (m.work.getD (64 + r) 0, attnRowOf tiles r)))
  | 0x13 => some (collOut e (o.idx.headD 0))
  | _ =>
    if !isExchange m.op then none
    else match m.planStep with
      | .exch b c k => (exchOf e.s e.n m b c k).map (chunkOut e)
      | .pass j => (holderOf e.s e.n m 0).bind fun h =>
          let len := 2 ^ mapL m.mapb * (m.desc 0).esize
          if m.op = 0x11 then some (gateOut e h.2 j (words m.zb))
          else if len ≤ 16384 * m.zn then some (flyOut e h.1 h.2 (((List.range m.zn).flatMap fun i => e.tile (m.zb + i)).take len))
          else none
      | .bad => none
/-- An outstanding step of a resumed slot, its writes made again; a step of which only the engine arrival is left stays as it is. -/
def refreshOut (s : State) (n t : Nat) (m : MSlot) (o : Out) : Out :=
  if o.glob.isEmpty ∧ o.cells.isEmpty ∧ o.bits.isEmpty ∧ o.cellBits.isEmpty then o
  else
    let m' : MSlot := { m with idx := Vector.ofFn fun i => o.idx.getD i.val 0, work := if m.op = 2 then m.work else o.work, descs := m.descs.set 0 o.desc0 }
    match outAgain { renv s n t with m := m' } o with
    | none => o
    | some f => match f.run .zero with
      | .ok (ds, _) => { o with glob := joinGlob (ds.filterMap globOf), bits := ds.filterMap bitsOf, cells := ds.flatMap (cellsOf s), cellBits := ds.filterMap (cellBitOf s) }
      | .error _ => o
/-- A RESUME issue (R225): `m` is the slot as captured now. -/
def resumeSlot (s : State) (n t : Nat) (m : MSlot) (baddr : DWord) : State :=
  let o := if regionKept s n (s.slotAt n t) then s.slotAt n t else (s.slotAt n t).disturbed s.fresh
  let halt := fun (r : Nat) => haltRecord (s.modSlot n t fun x => { x with st := .halted, reason := r, baddr := baddr }) n t r 0 0
  if o.st = .free then (if (o.reason = 1 ∨ o.reason = 2) ∧ sameMacro o m then s else halt 8)
  else if !sameMacro o m || !o.rsm then halt 8
  else if o.zcur ≠ 255 ∧ ((s.core n).tileInfo o.zcur).kdone ≠ o.kdone then halt 9
  else match outFail s n o with
    | some (a, x) => haltRecord (s.modSlot n t fun y => { y with reason := 3, rsm := true, baddr := baddr }) n t 3 a x
    | none => match outPoison s n o with
    | some z => haltRecord (s.modSlot n t fun y => { y with reason := 4, rsm := true, baddr := baddr }) n t 4 z (6 * 256)
    | none =>
      let o1 : MSlot := { o with st := .busy, reason := 0, stop := none, blk := m.blk, blkAddr := m.blkAddr, descs := m.descs, zb := m.zb, zn := m.zn,
                                 peers := m.peers, baddr := baddr, rlo := m.rlo,
                                 rhi := m.rhi, wlo := m.wlo, whi := m.whi, lines := [], work := if m.op = 0x13 then m.work else o.work,
                                 sealAt := none, reissue := false }
      let o2 : MSlot := { o1 with
        outs := o1.outs.map (refreshOut s n t o1),
        sent := match o1.planStep with
          | .exch _ _ k => if m.op = 0x13 then 0 else k
          | _ => 0 }
      let s1 := ownTiles (orderPaths (s.modSlot n t fun _ => o2) n m.op baddr) n t m.zb m.zn
      finishSlot (o2.outs.foldl (fun s x => issueOut s n t x) s1) n t

/-- Where the peer table of descriptor `i` lies, for a descriptor of a macro that needs one, with its length (R259). -/
def peerPlace (s : State) (n : Nat) (d : Desc) : Option (Place × Nat) :=
  let g := mapG d.mapBytes
  if !d.v || !d.wf || !d.mapped || g = 0 then none
  else (checkAddr s n (BitVec.ofNat 64 d.peer)).map fun p => (p, 16 * 2 ^ g)
/-- The descriptors of an exchange macro whose peer tables its issue reads. -/
def peerDescs (op : Nat) (ds : List (BitVec 1024)) : List Desc :=
  if !isExchange op then [] else (if op = 8 then [0, 2] else [0]).map fun i => Desc.ofBits (ds.getD i 0#1024)
/-- The peer tables as read; none while lines are still to be read. -/
def peersFor (s : State) (n op : Nat) (ds : List (BitVec 1024)) : Option (List (List (Nat × Nat))) :=
  (peerDescs op ds).mapM fun d => match peerPlace s n d with
    | some (p, len) => (placeBytes s n len p).map peerEntries
    | none => some []
/-- Everything an issue finds out: the slot to be, and its checks; none while lines are still to be read. -/
def macroFor (s : State) (n t op flx : Nat) (td0 td1 td2 : BitVec 8) (addr : DWord) (pl : Place) : Option (MSlot × MChk) :=
  (placeBytes s n 64 pl).bind fun head => (placeBytes s n (blockLen op head) pl).bind fun blk =>
    let m0 := slotFor s n op flx td0 td1 td2 addr blk
    (peersFor s n op m0.descs).bind fun ps =>
    let m : MSlot := { m0 with peers := ps }
    let tab := if op = 0x13 then (if m.f 24 8 < 2 ^ 56 then paramRead s n (m.f 24 8) (16 * Nat.min m.nm 16384) else some []) else some []
    tab.map fun tbl =>
      let e : REnv := ⟨s, n, t, m, rdPath op, wrPath op, .compute⟩
      let k := macroChk e tbl
      let ms := memberList tbl (Nat.min m.nm 16384)
      let r := hullOf (k.reads ++ (match pl with | .loc _ off => [(off, off + blk.length)] | .glob _ => []))
      let w := hullOf (k.writes ++ m.region)
      ({ m with pchk := pchkOf m, rlo := r.1, rhi := r.2, wlo := w.1, whi := w.2,
                work := if op = 0x13 then 0 :: (ranksOf s n ms).headD 0 :: ms else if op = 0x11 then [0] else [] }, k)
/-- The faults of reading a macro's block, its peer tables, and MCOLL's table. -/
def blockExcs (s : State) (n op : Nat) (tds : List (BitVec 8)) (pl : Place) : List Exc :=
  let e1 := placeExcs s n 64 pl
  if !e1.isEmpty then e1
  else match placeBytes s n 64 pl with
    | none => []
    | some head =>
      placeExcs s n (blockLen op head) pl ++
        ((peerDescs op (tds.map (readDesc s n))).filterMap (peerPlace s n)).flatMap (fun p => placeExcs s n p.2 p.1) ++
        (let f := fun o k => bytesToNat (slice head o k)
         if op = 0x13 ∧ f 24 8 < 2 ^ 56 ∧ f 20 4 ≤ 16384 then transExc s n wantRead 0 (f 24 8) (16 * f 20 4) else [])

/-- A macro's issue: it stalls while its slot is BUSY, while its block is to be read, and while its ranges meet those of a BUSY slot, whatever its checks then
find (R94, R212, R213, R215). A tile that an M instruction of the same bundle names too is QUIET for the macro, and not yet OWNED for that instruction (R60
allows the pair, R190 and R191 leave it open: DESIGN CHOICE, log 129). -/
def macroIssue (op : Nat) (o : XOps) : Op := fun s a =>
  let c := s.core a.n
  let t := o.tag.toNat
  let base : Issue := { reads := pairRegs o.bp, stall := c.param == 0 || (c.slotAt o.tag).st == .busy }
  let x := blockAddr c o.bp o.p3
  match paramPlace s a.n x with
  | none => { base with excs := [addrExc x.toNat] }
  | some pl =>
    let e1 := blockExcs s a.n op [o.td0, o.td1, o.td2] pl
    if !e1.isEmpty then { base with excs := e1 }
    else match macroFor s a.n t op (o.fl.toNat / 2) o.td0 o.td1 o.td2 x pl with
      | none => { base with stall := true }
      | some (m, k) =>
        let tiles := (List.range m.zn).map (m.zb + ·)
        let arr := tiles.any c.landing
        -- MMAP without a second input has no TD1 (R70, R242)
        let ill : List Exc := if op = 7 ∧ m.f 17 1 = 0 ∧ o.td1 ≠ 0#8 then [⟨1, 3, a.parcel, 0, 0⟩] else []
        let excs := ill ++ k.excs ++ (if arr && k.excs.isEmpty then [⟨14, 0, 0, 0, 0⟩] else [])
        { base with
          excs := excs,
          stall := base.stall || c.macroClash (m.rlo, m.rhi) (m.wlo, m.whi) m.zb m.zn,
          eff := fun s' =>
            let s1 := s'.modCore a.n fun c => { c with rlines := [] }
            if o.fl.getLsbD 0 then resumeSlot s1 a.n t m a.addr else startSlot s1 a.n t m k a.addr }

/-- Marks the slots of a resumed core that the device reissues before the task's first bundle (R226). -/
def Core.markReissue (c : Core) : Core := { c with slots := c.slots.map fun m => { m with reissue := m.st == .halted && m.reason == 6 } }
/-- The tasks of a resumed group issue in one die cycle, once no slot is left to be reissued (R226, R277, R334). -/
def startResumed (s : State) (gid : Nat) : State :=
  match Tab.get? s.groups gid with
  | none => s
  | some g =>
    let mine := fun (n : Nat) => (s.core n).gid == gid && (s.core n).st == .claiming
    if g.st = .resuming ∧ g.cores.all (fun n => !mine n || (s.core n).slots.toList.all fun m => !m.reissue) then
      ((g.cores.filter mine).foldl State.startTask s).modGroup gid
        fun g => { g with st := if g.reqd then .preempting else .running, since := s.hubTime }
    else s
/-- The device's reissue of a slot (R226), its block read: as by a RESUME issue, whose faults stop the task before its first bundle. -/
def reissueSlot (s : State) (n t : Nat) (pl : Place) : State :=
  let o := s.slotAt n t
  match blockExcs s n o.op [o.td0, o.td1, o.td2] pl with
  | e :: _ => oweRecord s n e
  | [] => match macroFor s n t o.op o.flx o.td0 o.td1 o.td2 o.blkAddr pl with
    | none => s
    | some (m, k) => match k.excs with
      | e :: _ => oweRecord s n e
      | [] => resumeSlot s n t m o.baddr

def opMconv (o : XOps) : Op := macroIssue 0x00 o
def opMmul (o : XOps) : Op := macroIssue 0x01 o
def opMattn (o : XOps) : Op := macroIssue 0x02 o
def opMpool (o : XOps) : Op := macroIssue 0x03 o
def opMsort (o : XOps) : Op := macroIssue 0x04 o
def opMcopy (o : XOps) : Op := macroIssue 0x05 o
def opMgath (o : XOps) : Op := macroIssue 0x06 o
def opMmap (o : XOps) : Op := macroIssue 0x07 o
def opMbfly (o : XOps) : Op := macroIssue 0x08 o
def opMgate (o : XOps) : Op := macroIssue 0x11 o
def opMixch (o : XOps) : Op := macroIssue 0x12 o
def opMcoll (o : XOps) : Op := macroIssue 0x13 o

/-! ### Descriptor instructions (R262) -/

def tdPlace (s : State) (n : Nat) (x : DWord) : Option Place :=
  match paramPlace s n x with
  | some (.loc k off) => if off + 128 ≤ (s.core k).padSize then some (.loc k off) else none
  | p => p
/-- What TDW makes of an image: the entry, or PARAM. -/
def imageEntry (img : BitVec 1024) : Option (BitVec 1024) :=
  let d := Desc.ofBits img
  if !d.v then some 0#1024 else if d.wf then some img else none
def descIssue (a : At) (c : Core) (td : BitVec 8) (v : BitVec 1024) (base : Issue) : Issue :=
  { base with flights := [flightAt c a 1 0#6 (.desc td v)],
              -- entries of other cores written before this one are older than it
              eff := fun s => updateTable (s.modCore a.n fun c => { c with rlines := [], descNew := c.descNew.filter fun p => p.n != td }) a.n td v (5 * a.n + 2) }
/-- TDW (R262): its image has been read, as an acquire by path SQ (`paramLine`). -/
def opTdw (bp : BitVec 5) (td0 : BitVec 8) (p3 : BitVec 16) : Op := fun s a =>
  let c := s.core a.n
  let base : Issue := { reads := pairRegs bp }
  let x := blockAddr c bp p3
  match tdPlace s a.n x with
  | none => { base with excs := [addrExc x.toNat] }
  | some pl =>
    let e1 := placeExcs s a.n 128 pl
    if !e1.isEmpty then { base with excs := e1 }
    else match placeBytes s a.n 128 pl with
      | none => { base with stall := true }
      | some bs =>
        match imageEntry (BitVec.ofNat 1024 (bytesToNat bs)) with
        | none => { base with stall := c.param == 0, excs := [exc0 16] }
        | some v => descIssue a c td0 v { base with stall := c.param == 0 }
def opTdr (bp : BitVec 5) (td0 : BitVec 8) (p3 : BitVec 16) : Op := fun s a =>
  let c := s.core a.n
  let base : Issue := { reads := pairRegs bp }
  let x := blockAddr c bp p3
  let img := natToBytes 128 (readDesc s a.n td0).toNat
  match tdPlace s a.n x with
  | none => { base with excs := [addrExc x.toNat] }
  | some (.glob va) =>
    let w : Want := ⟨.write, true, false, false⟩
    { base with excs := transExc s a.n w 0 va 128,
                eff := fun s' => s'.pushLines ⟨a.n, .lsu, .write, w, false, false, 0#2, 0, a.addr⟩ va img [] (List.replicate 128 true) }
  | some (.loc _ off) =>
    { base with stall := c.hullStall false off 128 true, flights := [flightAt c a 3 0#6 (.pool (c.padCells false off img))],
                banks := [lBank c 2 false off 128 true 0 0], uses := { viewW := [(false, bankSet false off 128)], wlines := c.padLines false off 128 } }
def opTdinv (td0 : BitVec 8) : Op := fun s a => descIssue a (s.core a.n) td0 0#1024 {}

/-! ### Meanings -/

def execMconv (o : XOps) (s : State) : Host.Outcome State Fault Refusal := runSolo (.mconv o) (opMconv o) s
def execMmul (o : XOps) (s : State) : Host.Outcome State Fault Refusal := runSolo (.mmul o) (opMmul o) s
def execMattn (o : XOps) (s : State) : Host.Outcome State Fault Refusal := runSolo (.mattn o) (opMattn o) s
def execMpool (o : XOps) (s : State) : Host.Outcome State Fault Refusal := runSolo (.mpool o) (opMpool o) s
def execMsort (o : XOps) (s : State) : Host.Outcome State Fault Refusal := runSolo (.msort o) (opMsort o) s
def execMcopy (o : XOps) (s : State) : Host.Outcome State Fault Refusal := runSolo (.mcopy o) (opMcopy o) s
def execMgath (o : XOps) (s : State) : Host.Outcome State Fault Refusal := runSolo (.mgath o) (opMgath o) s
def execMmap (o : XOps) (s : State) : Host.Outcome State Fault Refusal := runSolo (.mmap o) (opMmap o) s
def execMbfly (o : XOps) (s : State) : Host.Outcome State Fault Refusal := runSolo (.mbfly o) (opMbfly o) s
def execMgate (o : XOps) (s : State) : Host.Outcome State Fault Refusal := runSolo (.mgate o) (opMgate o) s
def execMixch (o : XOps) (s : State) : Host.Outcome State Fault Refusal := runSolo (.mixch o) (opMixch o) s
def execMcoll (o : XOps) (s : State) : Host.Outcome State Fault Refusal := runSolo (.mcoll o) (opMcoll o) s
def execTdw (bp : BitVec 5) (td0 : BitVec 8) (p3 : BitVec 16) (s : State) : Host.Outcome State Fault Refusal :=
  runSolo (.tdw bp td0 p3) (opTdw bp td0 p3) s
def execTdr (bp : BitVec 5) (td0 : BitVec 8) (p3 : BitVec 16) (s : State) : Host.Outcome State Fault Refusal :=
  runSolo (.tdr bp td0 p3) (opTdr bp td0 p3) s
def execTdinv (td0 : BitVec 8) (s : State) : Host.Outcome State Fault Refusal := runSolo (.tdinv td0) (opTdinv td0) s

/-! ### Steps of the sequencer and of its reads -/

/-- A tile step by its macro (R217). -/
def tileStep (e : REnv) : SM StepOut :=
  match e.m.op with
  | 0x00 => stepConv e | 0x01 => stepMul e | 0x02 => stepAttn e | 0x03 => stepPool e | 0x04 => stepSort e | 0x05 => stepCopy e | 0x06 => stepGath e
  | _ => stepMap e
/-- MACRO_STEP: the next tile step of a slot, or a stop. -/
def execMacroStep (core slot : Nat) (s : State) : Host.Outcome State Fault Refusal :=
  stepIf "MACRO_STEP" <|
    let m := s.slotAt core slot
    if !slotRuns s core slot || m.op == 0x13 || m.op == 0x12 then none
    else if isExchange m.op then planPass s core slot
    else runStep s core slot tileStep

/-- What an instruction's parameter read starts from: its operation, the pair and P3 of its address, and its descriptors. -/
structure ParamOf where
  op  : Nat
  bp  : BitVec 5
  p3  : BitVec 16
  tds : List (BitVec 8)
  deriving DecidableEq, Repr
def paramSource (i : Instr) : Option ParamOf :=
  let of := fun (op : Nat) (o : XOps) => some (⟨op, o.bp, o.p3, [o.td0, o.td1, o.td2]⟩ : ParamOf)
  match i with
  | .mconv o => of 0x00 o | .mmul o => of 0x01 o | .mattn o => of 0x02 o | .mpool o => of 0x03 o | .msort o => of 0x04 o | .mcopy o => of 0x05 o
  | .mgath o => of 0x06 o | .mmap o => of 0x07 o | .mbfly o => of 0x08 o | .mgate o => of 0x11 o | .mixch o => of 0x12 o | .mcoll o => of 0x13 o
  | .tdw bp _ p3 => some ⟨0x0E, bp, p3, []⟩
  | .mxt o => some ⟨0x0D, o.bp, o.p3, []⟩
  | _ => none
/-- The bytes of a macro's block that a parameter read covers, so far as it has read them. -/
def blockRange (s : State) (n op : Nat) (pl : Place) : Nat :=
  if op = 0x0E then 128 else match placeBytes s n 64 pl with
    | some h => blockLen op h
    | none => 64
/-- MCOLL's member table, as a global range. -/
def memberRange (s : State) (n op : Nat) (pl : Place) : List (Nat × Nat) :=
  if op ≠ 0x13 then [] else match placeBytes s n 64 pl with
    | some h => let f := fun o k => bytesToNat (slice h o k)
                if f 24 8 < 2 ^ 56 ∧ f 20 4 ≤ 16384 then [(f 24 8, 16 * f 20 4)] else []
    | none => []
/-- Everything a parameter read covers: the block or image, MCOLL's table and the peer tables. -/
def paramPlaces (s : State) (n op : Nat) (tds : List (BitVec 8)) (pl : Place) : List (Place × Nat) :=
  (pl, blockRange s n op pl) :: ((memberRange s n op pl).map fun r => (Place.glob r.1, r.2)) ++
    (peerDescs op (tds.map (readDesc s n))).filterMap (peerPlace s n)
/-- The global lines of some places. -/
def globLines (ps : List (Place × Nat)) : List Nat := ps.flatMap fun p => match p.1 with
  | .glob va => (partsOf va p.2).map (·.1)
  | .loc .. => []
/-- Whether the scratchpad lines of some places are settled (R164). -/
def placesSettled (s : State) (ps : List (Place × Nat)) : Bool := ps.all fun p => match p.1 with
  | .loc k off => padLinesSettled (s.core k) off (Nat.min p.2 65536)
  | .glob _ => true
/-- What a parameter read finds: the state once it has its lines, a fault, or a wait, with the state after asking for a line if one is asked for now. -/
inductive LineRead where
  | ready (s : State)
  | fails (e : Exc)
  | waits (s : Option State)
/-- Reads one line of a parameter read, whose bytes the issue then takes (R213). `chk` tells whether it is race-checked; a TDW image is not (R380), and is read as an
acquire at device scope by path SQ (R262). A line that does not translate faults at the issue. -/
def paramLine (s : State) (n : Nat) (chk : Bool) (va : Nat) : LineRead :=
  let c := s.core n
  let line := va - va % 128
  if c.rlines.any fun l => l.1 == line then .ready s else
  match translate s c.ctx wantRead va with
  | .error _ => .ready s
  | .ok k =>
    let key := k - k % 128
    if keyTier k = 3 then
      if s.owes (.param n line va) then .waits none
      else match Tab.get? s.windows (keyWin k) with
        | some w => .waits (s.request (mkMsg s 1 (if chk then 0 else 9) w.pkg (windowAddr w (keyPa key)) 128 (if chk then 0 else auxExempt) []) (.param n line va))
        | none => .ready s
    else match if chk then s.race (.core n .lsu) (k / 128) true false else none with
      | some t => .fails ⟨20, 0, 0, line, raceAuxv t false n .lsu⟩
      | none =>
        if s.poisoned k then .fails ⟨21, 0, 0, va, locOf k * 256⟩
        else .ready (((if chk then s else s.acquire n 4 scDev (s.tagOf (k / 128))).useAt c.ctx va (k / 128)).modCore n fun c => { c with rlines := c.rlines ++ [(line, s.mem.bytes key 128)] })
/-- Reads lines one after another. -/
def paramLines (n : Nat) (chk : Bool) : List Nat → State → LineRead
  | [], s => .ready s
  | va :: rest, s => match paramLine s n chk va with
    | .ready s1 => paramLines n chk rest s1
    | r => r
/-- Reads all lines of a parameter read, of which those read first say where the others lie. -/
def paramAll (n : Nat) (chk : Bool) (lines : State → List Nat) : Nat → State → LineRead
  | 0, _ => .waits none
  | f + 1, s => match paramLines n chk (lines s) s with
    | .ready s1 => if lines s1 == lines s then .ready s1 else paramAll n chk lines f s1
    | r => r
/-- Whether a parameter read waits for an earlier access or fence of its path: LSU, after every one of whose accesses it comes (R184, R185, R213, R372), or for a TDW
image SQ, behind the accesses to its own line (R262, R372). -/
def paramBehind (s : State) (n : Nat) (chk : Bool) (vas : List Nat) : Bool := s.accesses.any fun a => a.core == n && (match a.op with
  | .fence acq _ => chk && a.path == .lsu && acq
  | .xfence _ q => q == (if chk then .lsu else .sq)
  | _ => !a.done && (if chk then a.path == .lsu else a.path == .sq && vas.any fun v => v / 128 == a.va / 128))
/-- The read of the block of a slot to be reissued, and the reissue (R226). -/
def reissueRead (s : State) (n t : Nat) : Option State :=
  let c := s.core n
  let o := s.slotAt n t
  let behind := fun (s : State) => startResumed
    ((s.modCore n fun c => { c with rlines := [] }).modSlot n t fun m => { m with reissue := false }) c.gid
  match paramPlace s n o.blkAddr with
  | none => some (behind (oweRecord s n (addrExc o.blkAddr.toNat)))
  | some pl =>
    let ps := fun (s : State) => paramPlaces s n o.op [o.td0, o.td1, o.td2] pl
    if !placesSettled s (ps s) ∨ paramBehind s n true [] then none
    else match paramAll n true (fun s => globLines (ps s)) 4 s with
      | .fails e => some (behind (oweRecord s n e))
      | .ready s1 => some (behind (reissueSlot s1 n t pl))
      | .waits r => r
/-- PARAMETER_BLOCK_READ (R213): a parameter block, table or image is read on behalf of the bundle to be issued, or of a slot to be reissued (R226), after the
earlier accesses of the LSU path. -/
def execParameterBlockRead (core : Nat) (s : State) : Host.Outcome State Fault Refusal :=
  stepIf "PARAMETER_BLOCK_READ" <|
    let c := s.core core
    match (List.range 4).find? fun t => (s.slotAt core t).reissue with
    | some t => reissueRead s core t
    | none =>
      if c.st ≠ .running ∨ !c.owed.isEmpty then none
      else match fetchBundle s core c.pc with
      | .ok items _ =>
        (match items.findSome? fun i => paramSource i.2.2 with
         | none => none
         | some p =>
           let chk := p.op != 0x0E
           let ps := fun (s : State) => if p.op = 0x0D then [(Place.loc core (c.rx (p.bp ++ 0#1)).toNat, 16 * (c.rx (oddOf (p.bp ++ 0#1))).toNat)]
             else match paramPlace s core (blockAddr c p.bp p.p3) with
               | some pl => paramPlaces s core p.op p.tds pl
               | none => []
           let ls := globLines (ps s)
           -- once done, only a line that has come to translate since is still to be read
           let done := c.param != 0 && ls.all fun va => c.rlines.any (fun l => l.1 == va - va % 128) || (translate s c.ctx wantRead va).toOption.isNone
           if done ∨ !placesSettled s (ps s) ∨ (!ls.isEmpty ∧ paramBehind s core chk ls) then none
           else match paramAll core chk (fun s => globLines (ps s)) 4 s with
             | .fails e => some (oweRecord s core e)
             | .ready s1 => some (s1.modCore core fun c => { c with param := 1 })
             | .waits r => r)
      | _ => none

end Sys2Proof.Machine
end

