-- ==== Sys2Proof/Machine/Groups.lean ====
section
/-!
DEFINITION. Groups and the dispatcher (R332–R349): placement and claims (R276, R336–R340), reservations and quanta (R339–R341), pre-emption
and resumption (R274, R277–R280), and the completion of SYNC with its carves (R347, R348, R353, R354).
-/
namespace Sys2Proof.Machine

/-! ### Parameters (R342, R419, R439) -/

/-- The operator part in force starts with OMAGIC; moduleReset keeps it only when it is valid. -/
def State.cfgNat (s : State) (o n : Nat) : Nat := bytesToNat (slice s.cfg o n)
def State.opValid (s : State) : Bool := s.cfgNat 512 4 == 0x4F505A31
/-- AGE, QUANT and CPER in hub rounds. -/
def State.age (s : State) : Nat := (if s.opValid then s.cfgNat 528 4 else 64) * usRounds
def State.quant (s : State) : Nat := (if s.opValid then s.cfgNat 532 4 else 200) * usRounds
def State.cper (s : State) : Nat := (if s.opValid then s.cfgNat 536 4 else 100) * 1000 * usRounds

/-! ### The dispatcher's order and eligible cores (R336, R337) -/

/-- The dispatcher's order: priority, entry time, queue, group number. -/
def earlier (g h : Nat × Group) : Bool :=
  let a := g.2
  let b := h.2
  decide (b.prio < a.prio) || (a.prio == b.prio && (decide (a.entered < b.entered) || (a.entered == b.entered &&
    (decide (a.queue < b.queue) || (a.queue == b.queue && (decide (a.gnum < b.gnum) || (a.gnum == b.gnum && decide (g.1 < h.1))))))))
def State.ctxActive (s : State) (n : Nat) : Bool := match s.ctx? n with
  | some c => c.st == .active
  | none => false
def State.inCset (s : State) (ctx n : Nat) : Bool := match s.ctx? ctx with
  | some c => c.cset.testBit n
  | none => false
/-- Whether the cruise rules withhold a core from new placement (R421, R423, R425). -/
def State.coreWithheld (s : State) (n : Nat) : Bool :=
  let r := s.rot[n]?.getD RotEntry.zero
  r.withheld || r.failed || decide (s.cper < s.hubTime - r.passTime)
def State.cruising (s : State) (n : Nat) : Bool := match s.cruise with
  | some (e, _, _) => e == n
  | none => false
/-- R339: a PRE-EMPTED group keeps its cores from its own context's other groups and from lower priorities. -/
def heldBack (s : State) (g : Nat × Group) (n : Nat) : Bool :=
  s.groups.any fun p => p.1 != g.1 && p.2.st == .preempted && p.2.cores.contains n && (p.2.ctx == g.2.ctx || decide (g.2.prio < p.2.prio))
/-- R340: an aging reservation keeps a die from the groups after its holder. -/
def agedOut (s : State) (g : Nat × Group) (d : Nat) : Bool :=
  match s.aging[d]?.getD none with
  | some a => a != g.1 && (match Tab.get? s.groups a with
    | some h => earlier (a, h) g
    | none => false)
  | none => false
/-- Whether core `n` is eligible for a group (R337, R439); the cruise rule withholds no core from a resumption. -/
def eligibleCore (s : State) (g : Nat × Group) (resume : Bool) (n : Nat) : Bool :=
  (s.core n).st == .free && s.inCset g.2.ctx n && (s.cfgNat 8 20).testBit n && !s.cruising n && (resume || !s.coreWithheld n) && !heldBack s g n && !agedOut s g (dieOf n)

/-! ### Placement (R338) -/

def eligibleOn (s : State) (g : Nat × Group) (d : Nat) : List Nat := ((List.range 40).map (40 * d + ·)).filter (eligibleCore s g false)
/-- The cores a group would be placed on, die by die. -/
def placeOn (s : State) (g : Nat × Group) : List Nat → Option (List Nat)
  | [] => none
  | d :: ds =>
    let e := eligibleOn s g d
    let n := g.2.size
    if n ≤ e.length then
      let stand := ((List.range 5).map fun i => e.filter fun c => c % 40 / 8 == i).find? fun l => decide (n ≤ l.length)
      some (match stand with
        | some l => if n ≤ 8 then l.take n else e.take n
        | none => e.take n)
    else placeOn s g ds
def placeable (s : State) (g : Nat × Group) : Option (List Nat) :=
  if g.2.st = .queued ∧ s.ctxActive g.2.ctx then placeOn s g [0, 1, 2, 3] else none
/-- The members of a group that are on their cores. -/
def membersOn (s : State) (gid : Nat) : List Nat :=
  match Tab.get? s.groups gid with
  | some g => g.cores.filter fun n => (s.core n).gid == gid && (s.core n).st != .free
  | none => []
/-- The dies whose unwithheld cores of the context suffice for a group (R340). -/
def agingDies (s : State) (g : Group) : List Nat :=
  ([0, 1, 2, 3] : List Nat).filter fun d =>
    decide (g.size ≤ (((List.range 40).map (40 * d + ·)).filter fun n => s.inCset g.ctx n && (s.cfgNat 8 20).testBit n && !s.coreWithheld n).length)
/-- The die on which a group is due an aging reservation, if it is (R340). -/
def agingDue (s : State) (gid : Nat) (g : Group) : Option Nat :=
  if g.st ≠ .queued ∨ !s.ctxActive g.ctx ∨ s.hubTime - g.entered ≤ s.age ∨ s.aging.toList.contains (some gid) then none
  else (agingDies s g).find? fun d => match s.aging[d]?.getD none with
    | none => true
    | some a => match Tab.get? s.groups a with
      | some h => earlier (gid, g) (a, h)
      | none => true
def resumable (s : State) (g : Nat × Group) : Bool :=
  g.2.st == .preempted && s.ctxActive g.2.ctx && g.2.cores.all (fun n => (s.core n).st == .free) &&
    g.2.saved.all fun c => eligibleCore s g true (g.2.cores.getD c.tidx 0)
/-- The dispatcher considers earlier groups first (R336), and places none before a reservation that is due (R340, R343). -/
def firstInLine (s : State) (g : Nat × Group) : Bool :=
  s.groups.all fun h => (agingDue s h.1 h.2).isNone && (!earlier h g || ((placeable s h).isNone && !resumable s h))

/-- The low and high halves of a number in a register pair. -/
def lowWord (v : Nat) : Word := BitVec.ofNat 32 v
def highWord (v : Nat) : Word := BitVec.ofNat 32 (v / 2 ^ 32)
/-- A task's state at its first bundle (R87, R91, R320), before the claim. -/
def placeTask (s : State) (gid : Nat) (g : Group) (i n : Nat) : Core :=
  let old := s.core n
  let k := g.kern
  let cx := s.ctx? g.ctx
  let pv := fun (f : Ctx → Nat) => (cx.map f).getD 0
  let part := partWord k.vg k.ab
  let lin := g.gnum * g.size + i
  let x0 := Vector.replicate 64 0#32
  let x1 := (x0.set 2 (lowWord (16384 * (192 - partFirst part)))).set 4 (g.karg.extractLsb' 0 32)
  let c0 := { Core.zero with
    st := .claiming, ctx := g.ctx, gid := gid, tidx := i, pool := old.pool, gtags := old.gtags, cache := old.cache, poison := old.poison,
    x := x1.set 5 (g.karg.extractLsb' 32 32), part := part, blzb := lowWord (Nat.min k.blz (pv (·.blzMax))),
    sysTile := BitVec.ofNat 64 (lin % g.gx + lin / g.gx % g.gy * 2 ^ 16 + lin / g.gx / g.gy * 2 ^ 32) }
  let c1 := { c0 with
    group := BitVec.ofNat 64 (g.gnum * 2 ^ 16 + k.glog * 2 ^ 8 + i), cwin := BitVec.ofNat 64 (pv (·.cwin) * 2 ^ 32),
    ltb := BitVec.ofNat 64 (pv (·.ltb)), ltn := lowWord (pv (·.ltn)), consts := k.consts, phases := k.phases, pc := k.entry }
  match g.acqQv with
  | none => c1
  | some qv => (List.range 7).foldl (fun c p => c.acquireAll p qv) c1
/-- Counts a placed task or a pre-emption in a core's header of the scale sheet (R344). -/
def State.countHeader (s : State) (ctx n : Nat) (pre : Bool) : State :=
  let sh := (Tab.get? s.sheets ctx).getD []
  let e := (Tab.get? sh (257 * n)).getD (0, 0)
  { s with sheets := Tab.set s.sheets ctx (Tab.set sh (257 * n) (if pre then (e.1, (e.2 + 1) % 2 ^ 64) else ((e.1 + 1) % 2 ^ 64, e.2))) }

/-- PLACEMENT (R338): the first group in line that fits is placed; its tasks start to claim their granules. -/
def execPlacement (gid : Nat) (s : State) : Host.Outcome State Fault Refusal :=
  stepIf "PLACEMENT" <|
    match Tab.get? s.groups gid with
    | none => none
    | some g =>
      match placeable s (gid, g) with
      | none => none
      | some cs =>
        if !firstInLine s (gid, g) then none
        else
          let s1 := cs.zipIdx.foldl (fun s p => (s.setCore p.1 (placeTask s gid g p.2 p.1)).countHeader g.ctx p.1 false) s
          some ({ s1 with aging := s1.aging.map fun a => if a = some gid then none else a }.modGroup gid fun g =>
            { g with st := .claiming, cores := cs, since := s.hubTime })

/-! ### Claims (R276) -/

def ctxField (s : State) (ctx : Nat) (f : Ctx → Nat) : Nat := ((s.ctx? ctx).map f).getD 0
/-- The rank of a core in a context's core set, and the set's size (R273). -/
def rankIn (s : State) (ctx n : Nat) : Nat := popCount n (ctxField s ctx (·.cset) % 2 ^ n)
def csetSize (s : State) (ctx : Nat) : Nat := popCount 160 (ctxField s ctx (·.cset))
def coreSlotAddr (s : State) (ctx n : Nat) : Nat := ctxField s ctx (·.saveA) + 8192 * rankIn s ctx n
def spillAddr (s : State) (ctx n g : Nat) : Nat :=
  ctxField s ctx (·.saveA) + 8192 * csetSize s ctx + 16384 * (192 * rankIn s ctx n + g)
/-- The IN bits of a granule in a set of fills, line 0 in bit 0. -/
def inBits (fs : List Fill) (g : Nat) : Nat :=
  (List.range 128).foldl (fun v l => if fs.any fun f => !f.out && f.line == 128 * g + l then v + 2 ^ l else v) 0
/-- The member of a PRE-EMPTED group of a context that left core `n`. -/
def savedOn (s : State) (ctx n : Nat) : Option Core :=
  s.groups.findSome? fun g => if g.2.ctx = ctx ∧ g.2.st = .preempted then g.2.saved.find? fun c => g.2.cores.getD c.tidx 160 == n else none

/-- Moves poison with a copied line (R426). -/
def State.poisonKeys (s : State) (ks : List Nat) : State := { s with memPoison := (ks ++ s.memPoison).eraseDups }
/-- The line keys of a context's virtual lines. -/
def keysOf (s : State) (ctx : Nat) (vas : List Nat) : List Nat := vas.filterMap fun va => match translate s ctx (wantDev false) va with
  | .ok k => some (k / 128)
  | .error _ => none
/-- A write to a save area for core `n`: the new state or the failing address. -/
def saveWrite (s : State) (ctx n va : Nat) (bs : List Byte) : Except DevStop State :=
  (devWrite s (some (.write 1 n)) ctx va bs agDev).mapError .fail
/-- Spills granule `g` of core `n` to its owner's save area, for what `use` says. -/
def spillGranule (s : State) (use : DevUse) (o n g : Nat) : Except DevStop State := do
  let c := s.core n
  let fs := ((savedOn s o n).map (·.fills)).getD []
  let a := spillAddr s o n g
  let slot := coreSlotAddr s o n
  let bad := ((List.range 128).filter fun l => c.poison.contains (128 * g + l)).map fun l => a + 128 * l
  let s1 ← saveWrite s o n a (c.pool.bytes (16384 * g) 16384)
  let s2 ← saveWrite (s1.poisonKeys (keysOf s1 o bad)) o n (slot + 2048 + 16 * g) (natToBytes 16 (inBits fs g))
  let b ← devRead s2 use o (slot + 1248 + g / 8) 1
  saveWrite s2 o n (slot + 1248 + g / 8) (natToBytes 1 (bytesToNat b ||| 2 ^ (g % 8)))
/-- A granule zeroed: bytes, fill bits and poison. -/
def Core.zeroGranule (c : Core) (g : Nat) : Core :=
  { c with pool := c.pool.clear (16384 * g) 16384, fills := c.fills.filter (fun f => f.line / 128 != g),
           poison := c.poison.filter fun l => l / 128 != g }
def Core.setTag (c : Core) (g : Nat) (t : GTag) : Core := { c with gtags := c.gtags.setIfInBounds g t }
/-- CLAIM of one granule for context `ctx` (R276): a spill that faults is fatal to the owner only. -/
def claimGranule (s : State) (use : DevUse) (ctx n g : Nat) : Except DevStop State :=
  let t := (s.core n).gtags[g]?.getD GTag.zero
  let spilt : Except DevStop State := if t.valid && t.owner != ctx && t.held then
      match spillGranule s use t.owner n g with
      | .ok s' => .ok s'
      | .error (.fail a) => .ok (ctxFatal s t.owner 1 n a)
      | .error e => .error e
    else .ok s
  spilt.map fun s1 => s1.modCore n fun c => ((if t.valid && t.owner != ctx then c.zeroGranule g else c) : Core).setTag g ⟨true, ctx, false⟩

/-- Loads a core's copy of the descriptor table (R251). -/
def loadDescs (s : State) (use : DevUse) (ctx n : Nat) : Except DevStop State :=
  (devRead s use ctx (ctxField s ctx (·.tdBase)) 32768).map fun bs => (s.useRange ctx (ctxField s ctx (·.tdBase)) 32768).modCore n fun c =>
      { c with descs := (List.range 256).filterMap fun i =>
          let v := BitVec.ofNat 1024 (bytesToNat (slice bs (128 * i) 128))
          if v = 0#1024 then none else some (i, v)
               -- only later updates may change the copy
               descNew := [] }
/-- The reference word at placement (R330): one atomic, an acquire for the task. -/
def pinReference (s : State) (n refa : Nat) : State :=
  if refa = 0 then s else pinRef (s.modCore n fun c => { c with refa := refa }) n .pin

/-- Whether a task that has claimed still waits for another package: for the acknowledgments of its spills (R276), or for its reference word (R330). -/
def claimUnder (s : State) (n : Nat) : Bool :=
  s.refUnder n (s.core n).gid || s.accesses.any fun a => a.dev == some (.write 1 n) && !a.done
/-- Whether every task of a CLAIMING group has claimed. -/
def canStart (s : State) (g : Group) : Bool := g.st == .claiming && g.cores.all fun n => (s.core n).arrived && !claimUnder s n
/-- Every task of a CLAIMING group has claimed: they start in one die cycle, or go on to a pre-emption asked for meanwhile (R334). -/
def startGroup (s : State) (gid : Nat) : State :=
  match Tab.get? s.groups gid with
  | none => s
  | some g =>
    if canStart s g then
      (g.cores.foldl (fun s n => (s.startTask n).modCore n fun c => { c with viewL := 0#32, viewS := 0#32 }) s).modGroup gid
        fun g => { g with st := if g.reqd then .preempting else .running }
    else s
/-- CLAIM: one task claims every granule of its partition, loads its descriptors and pins its reference word; what lies in another package is asked for first, and
a group whose last answers have come starts. -/
def execClaim (core : Nat) (s : State) : Host.Outcome State Fault Refusal :=
  stepIf "CLAIM" <|
    let c := s.core core
    let use := DevUse.claim core c.gid
    if c.st ≠ .claiming then none
    else if c.arrived then (match Tab.get? s.groups c.gid with
      | some g => if canStart s g then some (startGroup s c.gid) else none
      | none => none)
    else
      match (List.range 192).foldlM (fun s g => claimGranule s use c.ctx core g) s with
      | .error (.need ctx key va) => askDev s use ctx key va
      | .error (.fail _) => none
      | .ok s1 =>
        match loadDescs s1 use c.ctx core with
        | .error (.need ctx key va) => askDev s use ctx key va
        | .error (.fail a) => some (ctxFatal s1 c.ctx 3 core a)
        | .ok s2 =>
          let refa := ((Tab.get? s2.groups c.gid).map (·.kern.refa)).getD 0
          some (startGroup ((pinReference (s2.dropLines use) core refa).modCore core fun c => { c with arrived := true }) c.gid)

/-! ### Aging and quanta (R340, R341) -/

/-- AGING_RESERVATION (R340). -/
def execAgingReservation (gid : Nat) (s : State) : Host.Outcome State Fault Refusal :=
  stepIf "AGING_RESERVATION" <|
    match Tab.get? s.groups gid with
    | none => none
    | some g => (agingDue s gid g).map fun d => { s with aging := s.aging.setIfInBounds d (some gid) }

/-- Requests pre-emption of a group (R341, R269). -/
def requestPreempt (s : State) (gid : Nat) : State :=
  s.modGroup gid fun g => match g.st with
    | .running => { g with st := .preempting, reqd := true }
    | .claiming => { g with reqd := true }
    | .resuming => { g with reqd := true }
    | _ => g
/-- A victim before another (R341): lower priority, later start, higher first core. -/
def victimBefore (a b : Nat × Group) : Bool :=
  decide (a.2.prio < b.2.prio) || (a.2.prio == b.2.prio && (decide (b.2.since < a.2.since) ||
    (a.2.since == b.2.since && decide (b.2.cores.headD 0 < a.2.cores.headD 0))))
def insertVictim (v : Nat × Group) : List (Nat × Group) → List (Nat × Group)
  | [] => [v]
  | w :: ws => if victimBefore v w then v :: w :: ws else w :: insertVictim v ws
/-- The victims taken in order until enough cores are requested; a member that has ended has left its core (R86). -/
def takeVictims (s : State) (need : Nat) : List (Nat × Group) → List Nat
  | [] => []
  | v :: vs => if need = 0 then [] else v.1 :: takeVictims s (need - (membersOn s v.1).length) vs
/-- The groups to pre-empt for a group, on the lowest die that serves. -/
def victimsFor (s : State) (g : Nat × Group) : List Nat :=
  (([0, 1, 2, 3] : List Nat).findSome? fun d =>
    let f := (eligibleOn s g d).length
    let v := s.groups.filter fun h => h.2.st == .running && decide (h.2.prio < g.2.prio) && decide (s.quant ≤ s.hubTime - h.2.since) &&
      h.2.cores.all (fun n => dieOf n == d && s.inCset g.2.ctx n)
    if g.2.size ≤ f + (v.map fun h => (membersOn s h.1).length).foldl (· + ·) 0 then
      some (takeVictims s (g.2.size - f) (v.foldl (fun l x => insertVictim x l) [])) else none).getD []
/-- QUANT_EXPIRY (R341). -/
def execQuantExpiry (gid : Nat) (s : State) : Host.Outcome State Fault Refusal :=
  stepIf "QUANT_EXPIRY" <|
    match Tab.get? s.groups gid with
    | none => none
    | some g =>
      if g.st ≠ .queued ∨ !s.ctxActive g.ctx ∨ s.hubTime - g.entered < s.quant ∨
          g.reqFor.any (fun r => ((Tab.get? s.groups r).map (·.st)) == some .preempting) then none
      else match victimsFor s (gid, g) with
        | [] => none
        | vs => some ((vs.foldl requestPreempt s).modGroup gid fun g => { g with reqFor := vs })

/-! ### Pre-emption (R274, R278–R280) -/

/-- Whether what a held member must see finished has finished (R279): its jobs and accesses, transfers and slots. -/
def memberIdle (s : State) (n : Nat) : Bool :=
  let c := s.core n
  !c.anyBusy && !c.anyChannel && c.remotes.isEmpty && c.regFills.isEmpty && c.pend.isEmpty && !c.feBusy && c.owed.isEmpty &&
    !(s.accesses.any fun a => a.core == n)
/-- Bytes padded with zeros to a length. -/
def padTo (n : Nat) (bs : List Byte) : List Byte := bs ++ List.replicate (n - bs.length) 0#8
def loopBytes (l : Loop) : List Byte :=
  natToBytes 4 l.start.toNat ++ natToBytes 4 l.stop.toNat ++ natToBytes 1 l.stages.toNat ++ natToBytes 1 (if l.active then 1 else 0) ++
  natToBytes 1 (if l.isX then 1 else 0) ++ natToBytes 1 0 ++ natToBytes 4 l.depth
def landBytesOf (l : LandSlot) : List Byte :=
  natToBytes 4 l.off ++ natToBytes 4 l.len ++ natToBytes 4 (popCount l.len l.got) ++ natToBytes 1 (if l.armed then 1 else 0) ++ natToBytes 3 0
/-- The eager area (R274), up to the spilled-granule bitmap. The blaze counter is that of the pre-emption point's own issue cycle (R119). -/
def eagerBytes (c : Core) : List Byte :=
  let ws := fun (l : List Word) => l.flatMap fun w => natToBytes 4 w.toNat
  padTo 256 (ws (c.x.toList.drop 1)) ++ c.k.toList.flatMap (fun m => natToBytes 16 m.toNat) ++ ws c.bs.toList ++
  padTo 32 (ws [c.fpc, c.fmte, c.phase, c.erc, c.part]) ++ padTo 32 (ws (c.xs.toList.map (·.setWidth 32))) ++
  c.xa.toList.flatMap (fun a => natToBytes 8 a.toNat) ++
  c.slots.toList.flatMap (fun m => (List.range 8).flatMap fun k => natToBytes 8 (m.pr k)) ++
  ws c.lc.toList ++ c.loops.toList.flatMap loopBytes ++ natToBytes 4 c.depth ++ natToBytes 4 (c.blaze - 1) ++ natToBytes 8 c.pc.toNat ++
  c.lands.toList.flatMap landBytesOf
/-- A core slot: eager area and fill map (R273). -/
def coreSlotBytes (c : Core) : List Byte :=
  padTo 8192 (padTo 2048 (eagerBytes c) ++ (List.range 192).flatMap fun g => natToBytes 16 (inBits c.fills g))
/-- A core whose task is PRE-EMPTED: its granules HELD (R275). -/
def Core.leave (c : Core) : Core :=
  { c.vacate with gtags := c.gtags.map fun t => if t.valid ∧ t.owner = c.ctx then { t with held := true } else t }
/-- What of a task outlives its core: everything but the pool. -/
def Core.shelve (c : Core) : Core :=
  { c with pool := [], cache := [], jobs := [], poison := [], held := false, noReq := false, param := 0, rlines := [], rcode := [] }
/-- Saves the members one after another; the failing core and address. -/
def saveMembers (gid : Nat) (g : Group) : List Nat → State → Except (Nat × Nat) State
  | [], s => .ok s
  | n :: ns, s =>
    let c := s.core n
    match devWrite s (some (.write 1 n)) g.ctx (coreSlotAddr s g.ctx n) (coreSlotBytes c) agDev with
    | .error a => .error (n, a)
    -- what the task's engines have asked other packages for reaches no later task (R285)
    | .ok s1 => saveMembers gid g ns ((((s1.orphan n).setCore n c.leave).countHeader g.ctx n true).modGroup gid fun g => { g with saved := g.saved ++ [c.shelve] })
/-- GROUP_PREEMPT (R278): every member is held and idle; the eager saves are made, the granules become HELD. -/
def execGroupPreempt (gid : Nat) (s : State) : Host.Outcome State Fault Refusal :=
  stepIf "GROUP_PREEMPT" <|
    match Tab.get? s.groups gid with
    | none => none
    | some g =>
      let ms := membersOn s gid
      if g.st ≠ .preempting ∨ !s.allHeld gid ∨ ms.isEmpty ∨ !ms.all (memberIdle s) then none
      else match saveMembers gid g ms s with
        | .error (n, a) => some (ctxFatal s g.ctx 1 n a)
        | .ok s1 => some (settleSuspend (s1.modGroup gid fun g => { g with st := .preempted, reqd := false }) g.ctx)

/-! ### Resumption (R277) -/

def wordsAt (bs : List Byte) (o n : Nat) : List Nat := (List.range n).map fun i => bytesToNat (slice bs (o + 4 * i) 4)
def nat8 (bs : List Byte) (o : Nat) : Nat := bytesToNat (slice bs o 8)
/-- A slot with its progress registers as saved. -/
def restoreSlot (bs : List Byte) (o : Nat) (m : MSlot) : MSlot :=
  let r := fun k => nat8 bs (o + 8 * k)
  let st := r 7
  { m with pchk := highWord (r 0), done := r 0 % 2 ^ 32, idx := Vector.ofFn fun i => r (i.val + 1), kdone := natBits (r 5) 24 16, zcur := natBits (r 5) 8 8,
           kc := natBits (r 5) 0 8, ostep := natBits (r 6) 16 32, on := natBits (r 6) 0 16, op := natBits st 58 6, flx := natBits st 55 3,
           td0 := BitVec.ofNat 8 (natBits st 32 8), td1 := BitVec.ofNat 8 (natBits st 24 8), td2 := BitVec.ofNat 8 (natBits st 16 8),
           reason := natBits st 8 6, rsm := st.testBit 7, oob := st.testBit 6 }
/-- A shelved task with its eager area restored (R274). -/
def restoreCore (c : Core) (bs : List Byte) : Core :=
  let w := fun o => BitVec.ofNat 32 (bytesToNat (slice bs o 4))
  let hi := c.cwin &&& 0xFFFFFFFF00000000#64
  let c1 := { c with
    x := Vector.ofFn fun i => if i.val = 0 then 0#32 else w (4 * (i.val - 1)),
    k := Vector.ofFn fun i => BitVec.ofNat 128 (bytesToNat (slice bs (256 + 16 * i.val) 16)),
    bs := Vector.ofFn fun i => w (384 + 4 * i.val), fpc := w 416, fmte := w 420, phase := w 424, erc := w 428, part := w 432,
    xs := Vector.ofFn fun i => (w (448 + 4 * i.val)).setWidth 6, xa := Vector.ofFn fun i => BitVec.ofNat 64 (nat8 bs (480 + 8 * i.val)) }
  { c1 with
    slots := c1.slots.mapFinIdx fun i m _ => restoreSlot bs (768 + 64 * i) m,
    lc := Vector.ofFn fun i => w (1024 + 4 * i.val),
    loops := c1.loops.mapFinIdx fun i _ _ =>
      let o := 1040 + 16 * i
      { start := hi ||| (w o).setWidth 64, stop := hi ||| (w (o + 4)).setWidth 64, stages := BitVec.ofNat 2 (bytesToNat (slice bs (o + 8) 1)),
        active := bytesToNat (slice bs (o + 9) 1) == 1, isX := bytesToNat (slice bs (o + 10) 1) == 1, depth := bytesToNat (slice bs (o + 12) 4) },
    depth := (w 1104).toNat, blaze := (w 1108).toNat + 1, pc := BitVec.ofNat 64 (nat8 bs 1112),
    lands := c1.lands.mapFinIdx fun i l _ =>
      let o := 1120 + 16 * i
      { l with off := (w o).toNat, len := (w (o + 4)).toNat, armed := bytesToNat (slice bs (o + 12) 1) == 1 } }
/-- The drained loop at which a task was held starts its next pass (R111). -/
def Core.refill (c : Core) : Core :=
  match c.drainAt with
  | none => c
  | some l =>
    let c1 := (c.wk 1 ones128).setLc l (c.lcAt l - 1#32)
    let st := (c.loopAt l).stages.toNat
    let c2 := if 2 ≤ st then c1.wk 2 0#128 else c1
    { (if st = 3 then c2.wk 3 0#128 else c2) with drainAt := none }
/-- A read of the save area that poison makes fatal (R280, R426). -/
def saveRead (s : State) (use : DevUse) (ctx va n : Nat) : Except DevStop (List Byte) :=
  (devRead s use ctx va n).bind fun bs => if (keysOf s ctx ((partsOf va n).map (·.1))).any s.memPoison.contains then .error (.fail va) else .ok bs
/-- The fills of a task whose granule `g` comes back with IN bits `m`: the transfers that still had a part in them, and for any other bit one of no landing
slot (R277; log 60). -/
def fillsFrom (fs : List Fill) (g m : Nat) : List Fill :=
  fs.filter (fun f => f.out || f.line / 128 != g || m.testBit (f.line % 128)) ++
  ((List.range 128).filter fun l => m.testBit l && !(fs.any fun f => !f.out && f.line == 128 * g + l)).map fun l =>
    ⟨8, 128 * g + l, false, .landing, .unknown, [], false⟩
/-- A granule comes back from its spill slot, poison and all (R426), and its IN bits from the fill map, whose uncorrectable error is fatal (R280). -/
def fillGranule (s : State) (use : DevUse) (ctx n g : Nat) (fs : List Fill) : Except DevStop (State × List Fill) := do
  let a := spillAddr s ctx n g
  let bs ← devRead s use ctx a 16384
  let m ← saveRead s use ctx (coreSlotAddr s ctx n + 2048 + 16 * g) 16
  let bad := (List.range 128).filter fun l => (keysOf s ctx [a + 128 * l]).any s.memPoison.contains
  .ok ((s.useRange ctx a 16384).modCore n fun c => { c with pool := c.pool.write (16384 * g) bs, poison := bad.map (128 * g + ·) ++ c.poison }, fillsFrom fs g (bytesToNat m))
/-- One granule's part of a resumption, with the task's fills. -/
def resumeGranule (use : DevUse) (ctx n bitmap : Nat) (s : State × List Fill) (g : Nat) : Except DevStop (State × List Fill) :=
  if bitmap.testBit g then do
    let s1 ← claimGranule s.1 use ctx n g
    fillGranule s1 use ctx n g s.2
  else .ok (s.1.modCore n fun c =>
    let t := c.gtags[g]?.getD GTag.zero
    c.setTag g { t with held := false }, s.2)
/-- Resumes one member on its core. -/
def resumeMember (s : State) (use : DevUse) (g : Group) (c : Core) : Except (Nat × DevStop) State :=
  let n := g.cores.getD c.tidx 0
  let slot := coreSlotAddr s g.ctx n
  let r : Except DevStop State := do
    let eager ← saveRead s use g.ctx slot 2048
    let bm := bytesToNat (slice eager 1248 24)
    let (s1, fs) ← (List.range 192).foldlM (resumeGranule use g.ctx n bm) (s.useRange g.ctx slot 2048, c.fills)
    let s2 ← (devWrite s1 (some (.write 2 n)) g.ctx (slot + 1248) (List.replicate 24 0#8) agDev).mapError DevStop.fail
    let old := s2.core n
    let c1 := (restoreCore c eager).refill.markReissue
    let c2 := { c1 with pool := old.pool, gtags := old.gtags, cache := old.cache, poison := old.poison, viewL := 0#32, viewS := 0#32, acq := [],
                        fills := fs, st := .claiming, arrived := true }
    .ok (s2.setCore n ((List.range 7).foldl (fun c p => c.acquireAll p s2.rct) c2))
  match r with
  | .ok s' => .ok s'
  | .error a => .error (n, a)
def resumeMembers (use : DevUse) (g : Group) : List Core → State → Except (Nat × DevStop) State
  | [], s => .ok s
  | c :: cs, s => (resumeMember s use g c).bind (resumeMembers use g cs)
/-- GROUP_RESUME (R277, R334): granules and eager state come back; once the slots halted by the pre-emption are reissued (PARAMETER_BLOCK_READ) the tasks
restart in one die cycle. -/
def execGroupResume (gid : Nat) (s : State) : Host.Outcome State Fault Refusal :=
  stepIf "GROUP_RESUME" <|
    match Tab.get? s.groups gid with
    | none => none
    | some g =>
      if !resumable s (gid, g) || !firstInLine s (gid, g) then none
      else match resumeMembers (.resume gid) g g.saved s with
        | .error (n, .fail a) => some (ctxFatal s g.ctx 2 n a)
        | .error (_, .need ctx key va) => askDev s (.resume gid) ctx key va
        | .ok s1 => some (startResumed ((s1.dropLines (.resume gid)).modGroup gid fun g => { g with st := .resuming, saved := [] }) gid)

/-! ### SYNC's completion (R347, R348, R353, R354) -/

/-- What a granule holds in a partition: 0 vector registers, 1 + t tile t, 100 scratchpad. -/
def granuleUse (part : Word) (g : Nat) : Nat :=
  if g < partVg part then 0 else if g < partFirst part then 1 + (g - partVg part) else 100
/-- A pending partition takes effect: granules that do not hold what they held are zeroed. -/
def Core.applyCarve (c : Core) : Core :=
  match c.carve with
  | none => c
  | some (vg, ab) =>
    let p := partWord vg ab
    let lost := (List.range 192).filter fun g => granuleUse c.part g != granuleUse p g
    let c1 := lost.foldl (fun c g => c.zeroGranule g) c
    { c1 with part := p, carve := none, tiles := c1.tiles.filter fun t => !(lost.contains (partVg p + t.1)) && decide (t.1 < 4 * ab) }
/-- SYNC_RELEASE: every member on its core has arrived; the next bundles issue in die cycle T + 4, where in T the last arrival bit is up. -/
def execSyncRelease (gid : Nat) (s : State) : Host.Outcome State Fault Refusal :=
  stepIf "SYNC_RELEASE" <|
    match Tab.get? s.groups gid with
    | none => none
    | some g =>
      let ms := membersOn s gid
      if ms.isEmpty ∨ g.st = .claiming ∨ g.st = .resuming ∨ !ms.all (fun n => (s.core n).arrived && (s.core n).releaseAt == 0) then none
      else
        let t := (ms.map fun n => (s.core n).arriveDie).foldl Nat.max g.endDie
        let counts : Tab Nat := (ms.map fun n => (5 * n, (s.core n).acq.count (acqKey 0 (5 * n)))) ++
          g.endCnt.map fun e => (5 * g.cores.getD e.1 0, e.2)
        some (ms.foldl (fun s n => s.modCore n fun c => { (c.applyCarve.acquireAll 0 counts) with releaseAt := t + 4 }) s)

end Sys2Proof.Machine
end

