-- ==== Sys2Proof/Machine/Queue.lean ====
section
/-!
DEFINITION. Queues and the command processor (R287–R313): binding, the packets' start and completion, waits and their monitors; kernel records
(R318–R321) and queue vectors (R378).
-/
namespace Sys2Proof.Machine

/-! ### The command processor's accesses -/

/-- Whether the links have room for what a command-processor step may send: a FEED of 256 records takes 513 messages of 769 flits (R306). -/
def cpReady (s : State) : Bool := s.links.toList.all fun l => !(l.live || l.st == .training) || (decide (l.replay.length ≤ 240) && decide (l.requests.length ≤ 1500))
/-- A message of the command processor or the hub to another package's memory; but for the read of a count it is exempt from race detection (R380). -/
def remoteMsg (s : State) (key opc attr len aux : Nat) (data : List Byte) (chk : Bool := false) : Option Msg :=
  (Tab.get? s.windows (keyWin key)).map fun w => mkMsg s opc attr w.pkg (windowAddr w (keyPa key)) len (aux + if chk then 0 else auxExempt) data
/-- Whether a page of another package can be reached: its window's package has a route. An access without one fails at once (R311, R404). -/
def State.routed (s : State) (key : Nat) : Bool := keyTier key != 3 || ((Tab.get? s.windows (keyWin key)).bind fun w => s.routeOf w.pkg).isSome
/-- Whether a write to a line of another package is still unanswered: a read of the line waits for it. -/
def State.lineOwed (s : State) (m : Msg) : Bool :=
  (s.links.toList.any fun l => l.requests.any fun r => r.msg.opc != 1#8 && r.msg.dpkg == m.dpkg && r.msg.addr.toNat / 128 == m.addr.toNat / 128) ||
  s.accesses.any fun a => a.core == 160 && !a.done && (match a.win with
    | some w => BitVec.ofNat 16 w.pkg == m.dpkg && windowAddr w (keyPa a.key) / 128 == m.addr.toNat / 128
    | none => false)
/-- Writes through a context's tables as agent CP, remote lines by messages that serve `owner`. -/
def State.cpPut (s : State) (owner : Owner) (ctx va : Nat) (bs : List Byte) (rel : Bool) (sc : Nat) : Except CpStop State :=
  let w : Want := ⟨.write, true, false, false⟩
  if (lineStarts va bs.length).any (fun a => match translate s ctx w a with
      | .error _ => true
      | .ok k => !s.routed k) then .error (.err 2)
  else .ok ((partsOf va bs.length).foldl (fun s p => match translate s ctx w p.1 with
      | .error _ => s
      | .ok k =>
        let d := slice bs p.2.1 p.2.2
        if keyTier k = 3 then match remoteMsg s k 2 ((if rel then 2 else 0) + 4 * sc) d.length 0 d with
          | some m => (s.request m owner).getD s
          | none => s
        else if keyTier k = 4 then s
        else ((({ s with mem := s.mem.write k d, memPoison := if d.length = 128 then s.memPoison.filter (· != k / 128) else s.memPoison } : State).useAt
          ctx p.1 (k / 128)).tagWrite (k / 128) agCp rel rel (if rel then sc else 0)).afterWrite s.mem k d.length) s)
/-- One atomic of agent CP on a 64-bit word (R299, R308): `set` stores, else it adds. -/
def State.cpAtomic (s : State) (owner : Owner) (ctx va v : Nat) (set rel : Bool) (sc : Nat) : Except CpStop State :=
  match translate s ctx ⟨.atomic, true, false, false⟩ va with
  | .error _ => .error (.err 2)
  | .ok k =>
    if !s.routed k then .error (.err 2)
    else if keyTier k = 3 then match remoteMsg s k 3 ((if rel then 2 else 0) + 4 * sc) 8 (if set then 1 else 0) (natToBytes 8 v) with
      | some m => .ok ((s.request m owner).getD s)
      | none => .error (.err 2)
    else if keyTier k = 4 then .error (.err 2)
    else if s.poisoned k then .error (.err 2)
    else
      let new := if set then v else (s.mem.nat k 8 + v) % 2 ^ 64
      .ok (((({ s with mem := s.mem.write k (natToBytes 8 new) } : State).useAt ctx va (k / 128)).tagWrite
        (k / 128) agCp true rel (if rel then sc else 0)).afterWrite s.mem k 8)

/-! ### Kernel records (R318–R321) -/

def allZero (bs : List Byte) : Bool := bs.all (· == 0#8)
/-- The fields of a record in range (R320), but for its phase table. -/
def recordOk (kobj cwin : Nat) (b : List Byte) : Bool :=
  let f := fun o n => bytesToNat (slice b o n)
  let entry := (kobj + f 8 4 + (if 2 ^ 31 ≤ f 8 4 then 2 ^ 64 - 2 ^ 32 else 0)) % 2 ^ 64
  kobj % 64 == 0 && f 0 2 == 1 && decide (f 2 1 ≤ 5) && decide (f 3 1 ≤ 3) && decide (f 4 1 ≤ 16) && allZero (slice b 5 3) && f 8 4 % 2 == 0 &&
  entry % 2 == 0 && entry / 2 ^ 32 == cwin && decide (64 ≤ f 12 4) && decide (f 12 4 < 2 ^ 24) && f 16 8 % 64 == 0 && f 24 8 % 8 == 0 &&
  decide (f 32 2 ≤ 256) && (f 24 8 != 0 || f 32 2 == 0) && allZero (slice b 34 2) && f 36 4 % 64 == 0 &&
  decide (f 36 4 ≤ 16384 * (192 - partFirst (partWord (f 3 1) (f 4 1)))) && f 40 8 % 8 == 0 && allZero (slice b 48 16)
/-- A phase table's entries, if they stand in order (R319). -/
def phaseEntries (kobj : Nat) (b : List Byte) (n : Nat) : Option (List (DWord × Nat)) :=
  let e := (List.range n).map fun i => (sInt 32 (bytesToNat (slice b (8 * i) 4)), bytesToNat (slice b (8 * i + 4) 1), slice b (8 * i + 5) 3)
  let rising := (e.zip (e.drop 1)).all fun p => decide (p.1.1 < p.2.1)
  if rising && e.all (fun x => allZero x.2.2) then some (e.map fun x => (BitVec.ofInt 64 (kobj + x.1), x.2.1)) else none
/-- The kernel of a packet: from the record cache, or read and captured. -/
def getKernel (s : State) (hv : List (Nat × List Byte)) (ctx kobj : Nat) : Except CpStop Kernel :=
  match s.records.find? (fun r => r.1 == ctx && r.2.1 == kobj) with
  | some r => .ok r.2.2
  | none => do
    if kobj % 64 ≠ 0 then throw (.err 6)
    let b ← cpGet s hv ctx kobj 64
    let f := fun o n => bytesToNat (slice b o n)
    if !recordOk kobj (ctxField s ctx (·.cwin)) b then throw (.err 6)
    let cs ← if f 16 8 = 0 then pure [] else cpGet s hv ctx (f 16 8) 1024
    let ph ← if f 24 8 = 0 then pure [] else cpGet s hv ctx (f 24 8) (8 * f 32 2)
    match phaseEntries kobj ph (f 32 2) with
    | none => throw (.err 6)
    | some phases =>
      pure { entry := BitVec.ofNat 64 kobj + (BitVec.ofNat 32 (f 8 4)).signExtend 64, glog := f 2 1, vg := f 3 1, ab := f 4 1, blz := f 12 4,
             refa := f 40 8, consts := cs, phases := phases }
/-- The record cache holds 512 captures, the least recently used replaced (R321). -/
def State.useRecord (s : State) (ctx kobj : Nat) (k : Kernel) : State :=
  { s with records := (ctx, kobj, k) :: (s.records.filter fun r => !(r.1 == ctx && r.2.1 == kobj)).take 511 }

/-! ### Packets (R296, R301–R310) -/

/-- A queue's packet as it is read: queue, index, remote lines at hand, its 64 bytes, and the queue vector at its start. -/
structure Pkt where
  q   : Nat
  ctx : Nat
  idx : Nat
  hv  : List (Nat × List Byte)
  b   : List Byte
  qv  : Tab Nat
def Pkt.f (p : Pkt) (o n : Nat) : Nat := bytesToNat (slice p.b o n)
def Pkt.kind (p : Pkt) : Nat := p.f 1 1
def Pkt.rel (p : Pkt) : Nat := natBits (p.f 0 1) 4 2
def Pkt.acq (p : Pkt) : Nat := natBits (p.f 0 1) 2 2
def Pkt.barrier (p : Pkt) : Bool := (p.f 0 1).testBit 1
/-- Byte ranges that must be zero, and the other checks of a packet's form (R297, R302, R306–R310). -/
def Pkt.ok (p : Pkt) : Bool :=
  let z := fun o n => p.f o n == 0
  let hdr := natBits (p.f 0 1) 6 2 == 0 && z 2 2 && decide (p.kind ≤ 7) && p.rel != 1 && p.acq != 1 && p.f 8 8 % 8 == 0
  hdr && match p.kind with
    | 0 => z 16 48
    | 1 => z 38 2 && z 40 24
    | 2 => z 32 8 && z 52 12 && p.f 40 8 % 4 == 0 && decide (1 ≤ p.f 48 4) && decide (p.f 48 4 ≤ 65536)
    | 3 => p.f 16 8 % 64 == 0 && p.f 24 8 % 64 == 0 && decide (1 ≤ p.f 32 4) && decide (p.f 32 4 ≤ 256) && z 36 28
    | 4 => p.f 16 8 % 8 == 0 && decide (p.f 32 1 ≤ 3) && z 33 31
    | 5 => p.f 16 8 % 8 == 0 && decide (p.f 32 1 ≤ 1) && z 33 31
    | 6 => p.f 16 8 % 64 == 0 && p.f 24 8 % 64 == 0 && p.f 32 8 % 64 == 0 && decide (64 ≤ p.f 32 8) && decide (p.f 32 8 ≤ 2 ^ 40) && z 40 24 &&
        (decide (p.f 16 8 + p.f 32 8 ≤ p.f 24 8) || decide (p.f 24 8 + p.f 32 8 ≤ p.f 16 8))
    | _ => p.f 16 8 % 8 == 0 && z 24 40

/-- Whether some die has enough cores of the context's set for a group (R272). -/
def sizeFits (s : State) (ctx size : Nat) : Bool :=
  ([0, 1, 2, 3] : List Nat).any fun d => decide (size ≤ ((List.range 40).filter fun i => s.inCset ctx (40 * d + i)).length)
/-- `n` groups of a packet enter the dispatcher (R303). -/
def addGroups (s : State) (p : Pkt) (k : Kernel) (n gx gy : Nat) : State :=
  let prio := ((Tab.get? s.queues p.q).map (·.prio)).getD 0
  let g := fun (i : Nat) => (⟨.queued, p.ctx, p.q, p.idx, i, prio, s.hubTime, 0, 2 ^ k.glog, k, BitVec.ofNat 64 (p.f 24 8), gx, gy,
    if p.acq = 0 then none else some p.qv, [], [], [], 0, [], [], false⟩ : Group)
  { s with groups := s.groups ++ (List.range n).map (fun i => (s.nextId + i, g i)), nextId := s.nextId + n }
/-- LAUNCH (R302, R303): the groups, and their number. -/
def startLaunch (s : State) (p : Pkt) : Except CpStop (State × Nat) := do
  let k ← getKernel s p.hv p.ctx (p.f 16 8)
  let gx := p.f 32 2 + 1
  let gy := p.f 34 2 + 1
  let n := gx * gy * (p.f 36 2 + 1)
  if n % 2 ^ k.glog ≠ 0 then throw (.err 1)
  if !sizeFits s p.ctx (2 ^ k.glog) then throw (.err 3)
  pure (addGroups (s.useRecord p.ctx (p.f 16 8) k) p k (n / 2 ^ k.glog) gx gy, n / 2 ^ k.glog)
/-- LAUNCHI (R304, R305): its count is read once and checked against the queue vector. -/
def startLaunchI (s : State) (p : Pkt) : Except CpStop (State × Nat) := do
  let k ← getKernel s p.hv p.ctx (p.f 16 8)
  let b ← cpGet s p.hv p.ctx (p.f 40 8) 4 2 9
  let t := match translate s p.ctx wantRead (p.f 40 8) with
    | .ok key => if keyTier key = 3 then tagNone else s.tagOf (key / 128)
    | .error _ => tagNone
  if !s.ordered t (some agCp) (p.qv.count (tagWa t)) true true then throw (.err 5)
  let c := bytesToNat b
  if p.f 48 4 < c ∨ 65536 < c * 2 ^ k.glog then throw (.err 4)
  if c ≠ 0 ∧ !sizeFits s p.ctx (2 ^ k.glog) then throw (.err 3)
  pure (addGroups (s.useRecord p.ctx (p.f 16 8) k) p k c (c * 2 ^ k.glog) 1, c)
/-- WIDX of a FEED's ring moves from `w` to `w + n` (R306): here at once, since nothing comes between; in another package by a compare-and-swap there, whose
answer stands among the thread's lines beside the control block's. -/
def takeIndices (s : State) (p : Pkt) (ring w n : Nat) : Except CpStop State :=
  match translate s p.ctx ⟨.atomic, true, false, false⟩ ring with
  | .error _ => throw (.err 2)
  | .ok k =>
    if keyTier k ≠ 3 then s.cpPut (.packet p.q p.idx 0) p.ctx ring (natToBytes 8 (w + n)) true scDev
    else match p.hv.find? (fun l => l.1 == k + 1) with
      | none => throw (.swap k w (w + n))
      | some l => if bytesToNat (slice l.2 0 8) = w then pure s else throw .again
/-- FEED (R306): all records are appended, or the thread waits for RIDX to move. -/
def startFeed (s : State) (p : Pkt) : Except CpStop State := do
  let ring := p.f 16 8
  let n := p.f 32 4
  let h ← cpGet s p.hv p.ctx ring 32 5 9
  let r := ringOf h
  if !r.ok || decide (2 ^ r.logn < n) then throw (.err 1)
  let recs ← cpGet s p.hv p.ctx (p.f 24 8) (64 * n)
  let seqs ← (List.range n).mapM fun j => cpGet s p.hv p.ctx (r.slot (r.widx + j)) 8
  if (seqs.zipIdx.all fun q => bytesToNat q.1 == (r.widx + q.2) % 2 ^ 64) then do
    let s1 ← takeIndices s p ring r.widx n
    (List.range n).foldlM (fun s j => do
      let a := r.slot (r.widx + j)
      let s2 ← s.cpPut (.packet p.q p.idx 0) p.ctx (a + 8) (slice recs (64 * j + 8) 56) false 0
      s2.cpPut (.packet p.q p.idx 0) p.ctx a (natToBytes 8 (r.widx + j + 1)) true scDev) s1
  else match translate s p.ctx wantRead (ring + 8) with
    | .ok k => throw (.block k)
    | .error _ => throw (.err 2)
/-- What a packet's start does, and the groups it starts. -/
def startEffect (s : State) (p : Pkt) : Except CpStop (State × Nat) :=
  match p.kind with
  | 1 => startLaunch s p
  | 2 => startLaunchI s p
  | 3 => (startFeed s p).map (·, 0)
  | 4 => match translate s p.ctx wantRead (p.f 16 8) with
    | .ok _ => .ok (s, 0)
    | .error _ => .error (.err 2)
  | 5 => (s.cpAtomic (.packet p.q p.idx 0) p.ctx (p.f 16 8) (p.f 24 8) (p.f 32 1 == 0) (p.rel != 0) p.rel).map (·, 0)
  | 7 => (s.cpPut (.packet p.q p.idx 0) p.ctx (p.f 16 8) (natToBytes 8 (s.dieCycle 0)) (p.rel != 0) p.rel).map (·, 0)
  | _ => .ok (s, 0)

/-! ### Starting (R288, R297, R298, R378) -/

def maxCounts (a b : Tab Nat) : Tab Nat := b.foldl (fun t e => if e.1 ≤ 811 then t.setCount e.1 (Nat.max (t.count e.1) e.2) else t) a
/-- The queue vector at a packet's start. -/
def startVector (s : State) (q : Queue) (barrier : Bool) (tag : Word) : Tab Nat :=
  let v := if barrier then maxCounts q.qv s.rct else q.qv
  let w := tagWa tag
  if tagRel tag && decide (w ≤ 811) && (tagSc tag == 3 || (tagSc tag == 2 && decide (w < 800))) then v.setCount w (Nat.max (v.count w) (s.recon tag)) else v
/-- Sends a thread's message, once, when the writes to its line are answered; `key` names what the answer will be. -/
def sendThread (s : State) (th key : Nat) (m : Option Msg) : Option State :=
  if s.links.toList.any (fun l => l.requests.any fun r => r.owner == .thread th key) then none
  else m.bind fun m => if s.lineOwed m then none else s.request m (.thread th key)
/-- Asks for a remote line for a thread, with order and scope `attr`. Only the read of a count is checked for races (R305, R380). -/
def askThread (s : State) (th key attr : Nat) : Option State :=
  sendThread s th key (remoteMsg s (key - key % 128) 1 attr 128 0 [] (key % 128 == 2))
/-- A thread is in the middle of a packet's start from now on, or no more. -/
def State.setMid (s : State) (th : Nat) (i : Option Nat) : State := s.setThread th { s.thread th with mid := i }
/-- Sends the compare-and-swap of a remote ring's WIDX for a thread: acquire and release at device scope. -/
def askSwap (s : State) (th idx key old new : Nat) : Option State :=
  sendThread (s.setMid th (some idx)) th (key + 1) (remoteMsg s key 3 11 16 3 (natToBytes 8 new ++ natToBytes 8 old))
/-- Zeroes the header of a slot in another package for a thread; RIDX moves on when it is acknowledged (R288, R371). -/
def askZero (s : State) (th idx key : Nat) : Option State :=
  sendThread (s.setMid th (some idx)) th (key + 3) (remoteMsg s key 2 0 4 0 (natToBytes 4 0))
/-- What a packet that cannot go on yet leaves of its thread and queue. -/
def stopPacket (s : State) (th : Nat) (p : Pkt) : CpStop → Option State
  | .need k attr => askThread s th k attr
  | .swap k old new => askSwap s th p.idx k old new
  | .again => some (s.setThread th { s.thread th with lines := [], mid := none })
  | .err e => some (packetError s p.q p.idx e)
  | .block k => some ((s.modQueue p.q fun v => { v with monitor := some (k, false) }).setThread th { s.thread th with lines := [] })
/-- What a started packet leaves with its queue: its groups, and what a WAIT or a COPY has to do. -/
def Pkt.record (p : Pkt) (ring : Ring) (groups first : Nat) : Packet :=
  { idx := p.idx, sig := p.f 8 8, rel := p.rel, acq := p.acq, groups := groups, first := first, total := groups,
    kind := if p.kind = 4 ∨ p.kind = 6 then p.kind else 0, a := p.f 16 8, b := p.f 24 8,
    c := if p.kind = 4 then p.f 32 1 else if p.kind = 6 then p.f 32 8 else 0, asked := false, lines := [], slot := ring.slot p.idx }
/-- Whether a packet's start is its effect, which is made before the packet is passed (R301): launches and FEED. The others start before they touch their word, so
that its fault finds RIDX past them (R311). -/
def Pkt.early (p : Pkt) : Bool := decide (1 ≤ p.kind) && decide (p.kind ≤ 3)
/-- What a packet's start reads beside its slot, as (address, bytes): its kernel's record, constants and phase table where they are not captured, a count, a FEED's
ring and records. -/
def Pkt.reads (s : State) (p : Pkt) : List (Nat × Nat) :=
  let kern := match getKernel s p.hv p.ctx (p.f 16 8), s.records.any (fun r => r.1 == p.ctx && r.2.1 == p.f 16 8) with
    | .ok k, false => (p.f 16 8, 64) :: (match cpGet s p.hv p.ctx (p.f 16 8) 64 with
      | .ok b => [(bytesToNat (slice b 16 8), k.consts.length), (bytesToNat (slice b 24 8), 8 * k.phases.length)]
      | .error _ => [])
    | _, _ => []
  match p.kind with
  | 1 => kern
  | 2 => kern ++ [(p.f 40 8, 4)]
  | 3 => [(p.f 16 8, 32), (p.f 24 8, 64 * p.f 32 4)]
  | _ => []
/-- A packet's effect, and the packet among those its queue has started, with the queue vector of its start (R378). Its reads use their lines' slices (R368). -/
def takeEffect (s0 : State) (ring : Ring) (p : Pkt) : Except CpStop State :=
  let s := ((p.reads s0) ++ [(ring.slot p.idx, 64)]).foldl (fun (s : State) (r : Nat × Nat) => s.useRange p.ctx r.1 r.2) s0
  (startEffect s p).map fun e => e.1.modQueue p.q fun v => { v with qv := p.qv, packets := v.packets ++ [p.record ring e.2 (e.1.nextId - e.2)], monitor := none }
/-- RIDX passes a packet whose header is zero, as a release at system scope (R288). -/
def passPacket (s : State) (p : Pkt) : Except CpStop State :=
  s.cpPut (.packet p.q p.idx 0) p.ctx (((Tab.get? s.queues p.q).map (·.cb)).getD 0 + 8) (natToBytes 8 (p.idx + 1)) true scSys
/-- The end of a packet's start: RIDX advances, and a packet that was not started by its effect has it now. -/
def endStart (s : State) (th : Nat) (ring : Ring) (p : Pkt) : Option State :=
  match passPacket s p with
  | .error e => stopPacket s th p e
  | .ok s1 =>
    let s2 := s1.setThread th { s1.thread th with lines := [], mid := none }
    if p.early then some s2
    else match takeEffect s2 ring p with
      | .error e => stopPacket (s2.modQueue p.q fun v => { v with qv := p.qv }) th p e
      | .ok s3 => some s3
/-- A packet's start (R288, R298, R301): a launch or a FEED takes effect, the header is zeroed, RIDX advances, any other packet takes effect. A header in another
package is zeroed there first. -/
def startPacket (s : State) (th : Nat) (ring : Ring) (p : Pkt) : Option State :=
  let slot := ring.slot p.idx
  match if !p.ok then .error (.err 1) else passPacket s p, translate s p.ctx ⟨.write, true, false, false⟩ slot with
  | .error e, _ => stopPacket s th p e
  | _, .error _ => stopPacket s th p (.err 2)
  | .ok _, .ok k =>
    if keyTier k = 3 ∧ p.hv.any (fun l => l.1 == k + 3) then endStart s th ring p
    else match if p.early then takeEffect s ring p else .ok s with
      | .error e => stopPacket s th p e
      | .ok s1 =>
        if keyTier k = 3 then askZero s1 th p.idx k
        else match s1.cpPut .nothing p.ctx slot (natToBytes 4 0) false 0 with
          | .error e => stopPacket s th p e
          | .ok s2 => endStart s2 th ring p

/-- Whether a WAIT's condition holds for a word (R307). -/
def waitHolds (word val cond : Nat) : Bool :=
  let a := sInt 64 word
  let b := sInt 64 val
  match cond with
  | 0 => decide (a = b) | 1 => decide (a ≠ b) | 2 => decide (a < b) | _ => decide (b ≤ a)
/-- A WAIT's word has been read: it completes, or the monitor is armed. -/
def settleWait (s : State) (qn : Nat) (q : Queue) (w : Packet) (word : Nat) : State :=
  if waitHolds word w.b w.c then
    s.modQueue qn fun v => { v with monitor := none, qv := maxCounts v.qv s.rct,
                                    packets := v.packets.map fun p => if p.idx = w.idx then { p with kind := 0 } else p }
  else match translate s q.ctx wantRead w.a with
    | .ok k => s.modQueue qn fun v => { v with monitor := some (k, false), packets := v.packets.map fun p => if p.idx = w.idx then { p with lines := [] } else p }
    | .error _ => packetError s qn w.idx 2
/-- The order and scope a WAIT reads its word with: acquire at ACQ, or at device scope (R307). -/
def Packet.readAttr (w : Packet) : Nat := if w.acq = 3 then 13 else 9
/-- Evaluates the WAIT a bound queue is at. -/
def tryWait (s : State) (th qn : Nat) (w : Packet) : Option State :=
  match Tab.get? s.queues qn with
  | none => none
  | some q => match cpGet s (s.thread th).lines q.ctx w.a 8 0 w.readAttr with
    | .error (.need k attr) => askThread s th k attr
    | .error _ => some (packetError s qn w.idx 2)
    | .ok b => some (settleWait ((s.useRange q.ctx w.a 8).setThread th { s.thread th with lines := [] }) qn q w (bytesToNat b))
/-- Asks for a remote line for a started packet, once. -/
def askPacket (s : State) (qn idx key attr : Nat) : Option State :=
  if s.links.toList.any (fun l => l.requests.any fun r => r.owner == .packet qn idx key) then none
  else (remoteMsg s key 1 attr 128 0 []).bind fun m => if s.lineOwed m then none else s.request m (.packet qn idx key)
/-- Evaluates a started WAIT of a queue that has no thread any more (R291, R311). -/
def parkedWait (s : State) (qn : Nat) (q : Queue) (w : Packet) : Option State :=
  match cpGet s w.lines q.ctx w.a 8 0 w.readAttr with
  | .error (.need k attr) => askPacket s qn w.idx k attr
  | .error _ => some (packetError s qn w.idx 2)
  | .ok b => some (settleWait (s.useRange q.ctx w.a 8) qn q w (bytesToNat b))

/-- READY queues of contexts that dispatch (R293). -/
def readyQueues (s : State) : List (Nat × Queue) := s.queues.filter fun e => e.2.st == .ready && s.ctxActive e.2.ctx
/-- Whether a thread's binding quantum of 20 µs is over (R293). -/
def quantumOver (s : State) (th : Nat) : Bool := decide (20 * usRounds ≤ s.hubTime - (s.thread th).since)
/-- Whether a queue of equal or higher priority is READY. -/
def outranked (s : State) (q : Queue) : Bool := (readyQueues s).any fun e => decide (q.prio ≤ e.2.prio)

/-- Frees a thread; its queue takes another state. -/
def freeThread (s : State) (th qn : Nat) (st : QState) : State :=
  { ((s.modQueue qn fun v => { v with st := st, notified := false, readySeq := s.nextId }).dropThread th) with nextId := s.nextId + 1 }
/-- A bound thread's next packet (R292, R297, R298). -/
def serveQueue (s : State) (th qn : Nat) : Option State :=
  let mid := (s.thread th).mid.isSome
  match Tab.get? s.queues qn with
  | none => none
  | some q =>
    -- a packet in the middle of its start is carried through whatever has become of the queue (R294)
    if !mid && q.st != .bound then some ((s.dropThread th).settleUnmap qn)
    else if !mid && !s.ctxActive q.ctx then some (freeThread s th qn .ready)
    else if q.monitor.isSome then none
    else if !mid && q.waiting.isNone && quantumOver s th && outranked s q then some (freeThread s th qn .ready)
    else match q.waiting with
      | some w => tryWait s th qn w
      | none =>
        let hv := (s.thread th).lines
        let idx0 := queueIdx s qn
        match cpGet s hv q.ctx q.cb 32 with
        | .error (.need k attr) => askThread s th k attr
        | .error _ => some (packetError s qn idx0 2)
        | .ok h =>
          let r := ringOf h
          if !r.ok || decide (16 < r.logn) then some (packetError s qn r.ridx 1)
          else
            let a := r.slot r.ridx
            match cpGet s hv q.ctx a 4 4 13 with
            | .error (.need k attr) => askThread s th k attr
            | .error _ => some (packetError s qn r.ridx 2)
            | .ok low =>
              if !(bytesToNat low).testBit 0 then
                if q.notified then some ((s.modQueue qn fun v => { v with notified := false }).setThread th { s.thread th with lines := [] })
                else some ((s.modQueue qn fun v => { v with st := .idle }).dropThread th)
              else match cpGet s hv q.ctx a 64 4 13 with
                | .error (.need k attr) => askThread s th k attr
                | .error _ => some (packetError s qn r.ridx 2)
                | .ok b =>
                  let barrier := (bytesToNat low).testBit 1
                  if barrier && !q.packets.isEmpty && !mid then none
                  else
                    let tag := match translate s q.ctx wantRead a with
                      | .ok k => if keyTier k = 3 then tagNone else s.tagOf (k / 128)
                      | .error _ => tagNone
                    startPacket s th r ⟨qn, q.ctx, r.ridx, hv, b, startVector s q barrier tag⟩

/-- The READY queue a free thread binds (R293). -/
def bestReady (s : State) : Option Nat :=
  ((readyQueues s).foldl (fun (best : Option (Nat × Queue)) e => match best with
    | none => some e
    | some b => if b.2.prio < e.2.prio ∨ (b.2.prio = e.2.prio ∧ e.2.readySeq < b.2.readySeq) then some e else best) none).map (·.1)
/-- THREAD_BIND (R293): a free thread binds the best READY queue; a bound thread starts its queue's next packet. -/
def execThreadBind (th : Nat) (s : State) : Host.Outcome State Fault Refusal :=
  stepIf "THREAD_BIND" <|
    if 32 ≤ th ∨ !cpReady s then none
    else match (s.thread th).queue with
      | some q => serveQueue s th q
      | none => (bestReady s).bind fun q =>
        let s1 := (s.modQueue q fun v => { v with st := .bound, notified := false }).setThread th ⟨some q, s.hubTime, [], none⟩
        some ((serveQueue s1 th q).getD s1)

/-- BINDING_QUANTUM_EXPIRY (R293): 20 µs of binding are over. -/
def execBindingQuantumExpiry (th : Nat) (s : State) : Host.Outcome State Fault Refusal :=
  stepIf "BINDING_QUANTUM_EXPIRY" <|
    match (s.thread th).queue with
    | none => none
    | some qn => match Tab.get? s.queues qn with
      | none => none
      | some q =>
        if !quantumOver s th || (s.thread th).mid.isSome then none
        else if q.monitor.isSome then (if (readyQueues s).isEmpty then none else some (freeThread s th qn .waiting))
        else if outranked s q then some (freeThread s th qn .ready) else none

/-- MONITOR_CHANGE (R295): the word a queue waits for has been written (a REMOTE word may have been, at any time): a bound queue looks
again, a WAITING one is READY; a WAIT that was started in a queue now DISABLED or in ERROR is looked at without a thread. -/
def execMonitorChange (q : Nat) (s : State) : Host.Outcome State Fault Refusal :=
  stepIf "MONITOR_CHANGE" <|
    match Tab.get? s.queues q with
    | none => none
    | some v => match v.monitor with
      | none => none
      | some (k, hit) =>
        if !hit && keyTier k != 3 then none
        else
          let s1 := s.modQueue q fun v => { v with monitor := none }
          match v.st with
          | .waiting => some { (s1.modQueue q fun v => { v with st := .ready, readySeq := s.nextId }) with nextId := s.nextId + 1 }
          | .bound => match s.threads.toList.findIdx? (fun t => t.queue == some q), v.waiting with
            | some th, some w => if cpReady s then tryWait s1 th q w else none
            | _, _ => some s1
          | _ => match v.waiting with
            | some w => if cpReady s then parkedWait s q v w else none
            | none => some s1

/-- NOTIFY (R289–R292): a store of the host to a notify register; nothing comes through a port that is down (R441). -/
def execNotify (q : Nat) (s : State) : Host.Outcome State Fault Refusal := .next (if s.portUp then s.notifyQueue q else s).tickFresh

/-! ### Completion (R299) -/

/-- Whether messages of a packet are still unanswered. -/
def packetBusy (s : State) (q idx : Nat) : Bool := s.links.toList.any fun l => l.requests.any fun r => match r.owner with
  | .packet a b _ => a == q && b == idx
  | _ => false
/-- Whether stores of a packet's tasks are still to be performed (R299): a group that was ended leaves them behind. -/
def storesLeft (s : State) (p : Packet) : Bool := s.accesses.any fun a => !a.done && decide (p.first ≤ a.gid) && decide (a.gid < p.first + p.total)
/-- Moves the next line of a COPY (R309). -/
def copyPiece (s : State) (qn : Nat) (q : Queue) (p : Packet) : Option State :=
  let n := Nat.min p.c (Nat.min (128 - p.a % 128) (128 - p.b % 128))
  match cpGet s p.lines q.ctx p.a n with
  | .error (.need k attr) => askPacket s qn p.idx k attr
  | .error _ => some (packetError s qn p.idx 2)
  | .ok bs => match (s.useRange q.ctx p.a n).cpPut (.packet qn p.idx 0) q.ctx p.b bs false 0 with
    | .error _ => some (packetError s qn p.idx 2)
    | .ok s1 => some (s1.modQueue qn fun v => { v with packets := v.packets.map fun x =>
        if x.idx = p.idx then { x with a := p.a + n, b := p.b + n, c := p.c - n, lines := [] } else x })
/-- PACKET_COMPLETE (R299): the next line of a COPY is moved; a packet whose work is done has its signal decremented. -/
def execPacketComplete (q idx : Nat) (s : State) : Host.Outcome State Fault Refusal :=
  stepIf "PACKET_COMPLETE" <|
    match Tab.get? s.queues q with
    | none => none
    | some v => match v.packets.find? (fun p => p.idx == idx) with
      | none => none
      | some p =>
        if p.groups ≠ 0 ∨ p.kind = 4 ∨ p.asked ∨ !cpReady s ∨ s.threads.toList.any (fun t => t.queue == some q && t.mid == some idx) then none
        else if p.kind = 6 ∧ p.c ≠ 0 then copyPiece s q v p
        else if packetBusy s q idx || (p.rel != 0 && storesLeft s p) then none
        else if p.sig = 0 then some (s.packetDone q idx)
        else
          let remote := match translate s v.ctx wantRead p.sig with
            | .ok k => keyTier k == 3
            | .error _ => false
          match s.cpAtomic (.signal q idx) v.ctx p.sig (2 ^ 64 - 1) false (p.rel != 0) p.rel with
          | .error _ => some (packetError s q idx 2)
          | .ok s1 => if remote then some (s1.modQueue q fun v => { v with packets := v.packets.map fun x => if x.idx = idx then { x with asked := true } else x })
            else some (s1.packetDone q idx)

end Sys2Proof.Machine
end

