-- ==== Sys2Proof/Machine/Admin.lean ====
section
/-!
DEFINITION. The admin queue (R434) and its commands: contexts (R269–R273, R281, R286), queues (R291), scale sheets (R345), pages and frames
(R387, R388, R394–R396, R399), links (R404, R405, R412, R413), recovery (R424, R428, R429), configuration (R439, R440).
-/
namespace Sys2Proof.Machine

/-! ### The queue itself -/

def adminRing (s : State) : Ring := ringOf (s.mem.bytes (keyOf 2 s.admq) 32)
/-- The address of the admin entry to be performed next, if there is one. -/
def adminEntry (s : State) : Option Nat :=
  let r := adminRing s
  if s.boot ≠ .ready ∨ !s.adminRun ∨ s.admq = 0 ∨ !r.ok then none
  else if s.hostNat (r.slot r.ridx) 8 = (r.ridx + 1) % 2 ^ 64 then some (r.slot r.ridx) else none
/-- Whether the next entry holds this command with these operands. -/
def adminHolds (s : State) (code : Nat) (ops : List Nat) : Bool :=
  match adminEntry s with
  | none => false
  | some a => s.hostNat (a + 8) 1 == code && (ops.zipIdx.all fun p => s.hostNat (a + 16 + 8 * p.2) 8 == p.1)
/-- The command is complete: STATUS, then SEQ, then vector 0; the queue runs on while entries are there. -/
def finishAdmin (s : State) (status : Nat) : State :=
  let r := adminRing s
  let a := r.slot r.ridx
  let s1 := (s.writeHost s.admq (s.mem.bytes (keyOf 2 s.admq) 8 ++ natToBytes 8 (r.ridx + 1))).writeHost (a + 12) (natToBytes 4 (2 ^ 31 + status))
  let s2 := { (s1.writeHost a (natToBytes 8 (r.ridx + 2 ^ r.logn))).sendMsi 0 with adminCur := none, adminLines := [] }
  { s2 with adminRun := (adminEntry s2).isSome }
/-- An admin command's step: nothing while it has to wait, else a status and, where that is DONE, the new state. -/
inductive Cmd where
  | wait
  | go (s : State)
  | done (s : State)
  | fail (status : Nat)
def adminStep (name : String) (code : Nat) (ops : List Nat) (f : State → Cmd) (s : State) : Host.Outcome State Fault Refusal :=
  stepIf name <|
    if !adminHolds s code ops then none
    else match f s with
      | .wait => none
      | .go s' => some s'
      | .done s' => some (finishAdmin s' 0)
      | .fail st => some (finishAdmin s st)
def stMalformed : Nat := 1
def stState : Nat := 2
def stLimit : Nat := 3
def stChanged : Nat := 4
def stUnknown : Nat := 5
def stTranslation : Nat := 6
/-- A physical operand address: HBM below 2^39, T2 at 2^52 and above, HOST between (assumption 40). -/
def physKey (a : Nat) : Nat := if a < 2 ^ 39 then keyOf 0 a else if 2 ^ 52 ≤ a then keyOf 1 (a % 2 ^ 52) else keyOf 2 a

/-! ### Contexts -/

/-- Writes a context's status block; a failure is context-fatal (R280). -/
def putStatus (s : State) (n st : Nat) : State := match writeStatus s n st with
  | .ok s' => s'
  | .error a => ctxFatal s n 4 0 a
/-- A field of a context block: `k` bytes at `o`. -/
def blockNat (b : List Byte) (o k : Nat) : Nat := bytesToNat (slice b o k)
def blockOk1 (n : Nat) (b : List Byte) : Bool :=
  decide (n < 4096) && blockNat b 0 2 == n && decide (blockNat b 2 1 ≤ 7) && decide (blockNat b 3 1 ≤ 8) && decide (64 ≤ blockNat b 4 4) &&
  decide (blockNat b 4 4 < 2 ^ 24)
def blockOk2 (b : List Byte) : Bool :=
  blockNat b 8 8 % 4096 == 0 && decide (blockNat b 8 8 < 2 ^ 39) && blockNat b 19 1 == 0 && decide (1 ≤ blockNat b 20 2) &&
  decide (blockNat b 20 2 ≤ 4096) && blockNat b 22 2 == 0
def blockOk3 (b : List Byte) : Bool :=
  blockNat b 24 8 % 128 == 0 && blockNat b 32 8 % 8 == 0 && decide (blockNat b 40 4 < 2 ^ 20) && blockNat b 44 4 == 0 &&
  blockNat b 48 8 % 16384 == 0 && decide (3153920 * popCount 160 (blockNat b 80 20) ≤ blockNat b 56 8)
def blockOk4 (b : List Byte) : Bool :=
  blockNat b 64 8 % 64 == 0 && blockNat b 72 8 % 64 == 0 && blockNat b 80 20 != 0 && blockNat b 100 28 == 0 &&
  ([24, 32, 48, 64, 72] : List Nat).all fun o => decide (blockNat b o 8 < 2 ^ 56)
/-- The context a block describes, if the block is well-formed (R271, R273). -/
def blockCtx (n : Nat) (b : List Byte) : Option Ctx :=
  if blockOk1 n b && blockOk2 b && blockOk3 b && blockOk4 b then
    some { st := .active, prioMax := blockNat b 2 1, retW := blockNat b 3 1, blzMax := blockNat b 4 4, ptRoot := blockNat b 8 8,
           cwin := blockNat b 16 3, maxQ := blockNat b 20 2, tdBase := blockNat b 24 8, ltb := blockNat b 32 8, ltn := blockNat b 40 4,
           saveA := blockNat b 48 8, fqcb := blockNat b 64 8, statb := blockNat b 72 8, cset := blockNat b 80 20, fcause := 0, fcore := 0,
           faddr := 0, dropped := 0 }
  else none
/-- A context whose descriptor table has been zeroed (R269); a failure there is context-fatal (R280). -/
def zeroTable (s : State) (n addr size : Nat) : State := match devWrite s (some (.write 3 0)) n addr (List.replicate size 0#8) agDev with
  | .ok s' => s'
  | .error e => ctxFatal s n 3 0 e
/-- CREATE (R269). -/
def cmdCreate (n addr : Nat) (s : State) : Cmd :=
  if (s.ctx? n).isSome then .fail stState
  else if addr % 128 ≠ 0 then .fail stMalformed
  else match blockCtx n (s.mem.bytes (physKey addr) 128) with
    | none => .fail stMalformed
    | some c =>
      let s1 := { s with ctxs := Tab.set s.ctxs n c }
      let s2 := zeroTable s1 n c.tdBase 32768
      .done (if ((s2.ctx? n).map (·.st)) = some .active then putStatus s2 n 1 else s2)
def groupsOf (s : State) (n : Nat) : List Nat := (s.groups.filter fun g => g.2.ctx == n).map (·.1)
/-- SUSPEND and RESUME (R269). -/
def cmdSuspend (n : Nat) (s : State) : Cmd :=
  if !s.ctxActive n then .fail stState
  else .done (settleSuspend (putStatus ((groupsOf s n).foldl requestPreempt (s.modCtx n fun c => { c with st := .suspending })) n 2) n)
def cmdResume (n : Nat) (s : State) : Cmd :=
  if ((s.ctx? n).map (·.st)) ≠ some .suspended then .fail stState
  else .done (putStatus (s.modCtx n fun c => { c with st := .active }) n 1)
/-- Zeroes and frees the granules of a context on a core, and drops what the core caches for it (R286). -/
def Core.scrub (n : Nat) (c : Core) : Core :=
  let mine := (List.range 192).filter fun g => let t := c.gtags[g]?.getD GTag.zero; t.valid && t.owner == n
  let c1 := mine.foldl (fun c g => (c.zeroGranule g).setTag g GTag.zero) c
  { c1 with cache := c1.cache.filter fun l => l.1 != n }
/-- DESTROY (R269, R286): the groups end; once their last stores are performed the scrub proceeds. -/
def cmdDestroy (n : Nat) (s : State) : Cmd :=
  match s.ctx? n with
  | none => .fail stState
  | some c =>
    if c.st ≠ .scrubbing then .go (disableQueues (endGroupsOf (s.modCtx n fun c => { c with st := .scrubbing }) n true) n)
    else if s.accesses.any (fun a => a.ctx == n && !a.done) || s.recq.any (fun e => e.1 == n) || s.queues.any (fun e => e.2.ctx == n && s.starting e.1) then .wait
    else
      let s1 := { s with accesses := s.accesses.filter (fun a => a.ctx != n), retains := s.retains.filter (fun r => r.ctx != n),
                         cores := s.cores.map (Core.scrub n), tlb := s.tlb.filter (fun t => t.ctx != n),
                         records := s.records.filter (fun r => r.1 != n), sheets := Tab.erase s.sheets n,
                         queues := s.queues.map fun e => if e.2.ctx = n then (e.1, { e.2 with packets := [] }) else e }
      let s2 := match writeStatus s1 n 0 with
        | .ok s' => s'
        | .error _ => s1
      .done { s2 with ctxs := Tab.erase s2.ctxs n, tlb := s2.tlb.filter fun t => t.ctx != n }
/-- TASKGO and GROUPEND (R270): the core must hold a STOPPED task of the context. -/
def stoppedOn (s : State) (n core : Nat) : Bool := decide (core < 160) && (s.core core).st == .stopped && (s.core core).ctx == n
def cmdTaskgo (n core : Nat) (s : State) : Cmd := if stoppedOn s n core then .done (resumeTask s core) else .fail stState
def cmdGroupend (n core : Nat) (s : State) : Cmd := if stoppedOn s n core then .done (endGroup s (s.core core).gid false) else .fail stState

/-! ### Queues (R291) -/

/-- Asks for a remote line for an admin command, once. -/
def askAdmin (s : State) (key : Nat) : Cmd :=
  if s.links.toList.any (fun l => l.requests.any fun r => r.owner == .admin key) then .wait
  else match (remoteMsg s key 1 0 128 0 []).bind fun m => if s.lineOwed m then none else s.request m (.admin key) with
    | some s' => .go s'
    | none => .wait
/-- MAPQ. The control block's reserved bytes (28 to 31 and 44 to 63) are not looked at: R291 names alignment and LOGN alone (DESIGN CHOICE, log 132). -/
def cmdMapq (n q cb prio : Nat) (s : State) : Cmd :=
  if 4096 ≤ q ∨ 8 ≤ prio then .fail stMalformed
  else if (Tab.get? s.queues q).isSome ∨ !s.ctxActive n then .fail stState
  else if cb % 64 ≠ 0 then .fail stMalformed
  else match cpGet s s.adminLines n cb 64 with
    | .error (.need k _) => askAdmin s k
    | .error _ => .fail stTranslation
    | .ok b =>
      let logn := bytesToNat (slice b 24 4)
      if b.length < 64 then .fail stTranslation
      else if logn < 1 ∨ 16 < logn then .fail stMalformed
      else if ctxField s n (·.maxQ) ≤ (s.queues.filter fun e => e.2.ctx == n).length then .fail stLimit
      else
        let v : Queue := ⟨.idle, n, cb, Nat.min prio (ctxField s n (·.prioMax)), 0, false, false,
          s.rct.filter (fun e => decide (e.1 ≤ 811)), [], none⟩
        .done { s with queues := Tab.set s.queues q v }
def cmdUnmapq (q : Nat) (s : State) : Cmd :=
  match Tab.get? s.queues q with
  | none => .fail stState
  | some v =>
    .done (((s.dropThreads none (· == q)).modQueue q fun v =>
      { v with st := .disabled, unmapping := true, monitor := v.parked, notified := false }).settleUnmap q)
def cmdResetq (q : Nat) (s : State) : Cmd :=
  match Tab.get? s.queues q with
  | none => .fail stState
  | some v =>
    if v.st ≠ .error then .fail stState
    -- a start carried through after the error is over first
    else if s.starting q then .wait
    else
      let s1 := s.modQueue q fun v => { v with st := .idle }
      .done ((cpWrite s1 v.ctx (v.cb + 40) (natToBytes 4 0) false false 0).toOption.getD s1)

/-! ### Scale sheets (R345) -/

/-- Where SHEET is: the cycle of the hub in which it took its last entry, one higher, and the next entry. -/
def sheetMark (s : State) (i : Nat) : Nat := (if i = 0 then 0 else s.hubTime + 1) * 65536 + i
/-- SHEET: one entry after another, each whole from one snapshot, no two in one cycle of the hub (log 105). `adminCur` holds that cycle and the next entry. -/
def cmdSheet (n addr clear : Nat) (s : State) : Cmd :=
  if (s.ctx? n).isNone then .fail stState
  else if addr % 64 ≠ 0 then .fail stMalformed
  else match s.adminCur with
    | none => .go { s with adminCur := some (sheetMark s 0) }
    | some m =>
      let i := m % 65536
      if m / 65536 = s.hubTime + 1 then .wait
      else
        let sh := (Tab.get? s.sheets n).getD []
        let e := (Tab.get? sh i).getD (0, 0)
        let s1 := s.writeKey (physKey (addr + 16 * i)) (natToBytes 8 e.1 ++ natToBytes 8 e.2) agDev
        let s2 := if clear % 2 = 1 then { s1 with sheets := Tab.modify s1.sheets n fun t => Tab.erase t i } else s1
        if i + 1 = 160 * 257 then .done s2 else .go { s2 with adminCur := some (sheetMark s (i + 1)) }

/-! ### Pages (R387, R388, R395, R396) -/

/-- Whether a cached translation or an access of a context meets a range. -/
def meetsRange (lo hi a b : Nat) : Bool := decide (a < hi) && decide (lo < b)
/-- The lines of a core's code that lie outside a range of its context. -/
def Core.dropCode (ctx lo hi : Nat) (c : Core) : Core :=
  let out := fun (l : Nat) => !meetsRange lo hi (128 * l) (128 * l + 128)
  { c with cache := c.cache.filter (fun e => e.1 != ctx || out e.2.1), rcode := if c.ctx = ctx then c.rcode.filter (fun e => out e.1) else c.rcode }
/-- Drops the cached translations and table pointers of a range, and the code lines that came through them (R395). -/
def dropTlb (s : State) (ctx lo hi : Nat) : State :=
  { s with tlb := s.tlb.filter (fun t => !(t.ctx == ctx && meetsRange lo hi (t.page * 2 ^ levelBits t.lv) ((t.page + 1) * 2 ^ levelBits t.lv))),
           cores := s.cores.map (Core.dropCode ctx lo hi) }
/-- Whether an access made before mark `cut`, or a request without one, still uses a translation of the range. A BARW of another package is one until its wait ends:
its request is (log 65). -/
def undrained (s : State) (ctx lo hi cut : Nat) : Bool :=
  s.accesses.any (fun a => decide (a.id < cut) && a.ctx == ctx && !a.done && a.op.real && meetsRange lo hi a.va (a.va + a.en.length)) ||
  s.links.toList.any (fun l => l.requests.any fun r => match r.owner with
    | .access _ => false
    | _ => true)
/-- What waits at a word of a range goes on at the word's present translation (R395): a BARW that waits there reads its object anew, and the WAIT of a queue of the
context its word. -/
def rewatch (s : State) (ctx lo hi : Nat) : State :=
  let key := fun (s : State) (a : Access) => match translate s ctx wantRead a.va with
    | .ok k => if keyTier k = 3 then a.key else k - k % 128
    | .error _ => a.key
  let mine := fun (a : Access) => a.ctx == ctx && a.op == .barw && a.sent && keyTier a.key != 3 && meetsRange lo hi a.va (a.va + 64)
  let moved := s.accesses.filter fun a => mine a && key s a != a.key
  let s1 := { s with accesses := s.accesses.map (fun a => if mine a then { a with key := key s a } else a),
                     queues := s.queues.map fun (e : Nat × Queue) => if e.2.ctx = ctx then (e.1, { e.2 with monitor := e.2.monitor.map fun m => (m.1, true) }) else e }
  moved.foldl (fun s a => s.afterWrite s.mem (key s a + a.off) 64) s1
/-- SHOOT (R395): invalidates at once, completes when the users of what it invalidated are done. -/
def cmdShoot (ctx va cnt : Nat) (s : State) : Cmd :=
  let hi := if cnt = 0 then 2 ^ 56 else va + 131072 * cnt
  let lo := if cnt = 0 then 0 else va
  if (s.ctx? ctx).isNone then .fail stState
  else if va % 131072 ≠ 0 ∨ 2 ^ 56 < hi ∨ 2 ^ 56 ≤ va then .fail stMalformed
  else match s.adminCur with
    | none => .go { dropTlb s ctx lo hi with adminCur := some s.nextId }
    | some cut => if undrained s ctx lo hi cut then .wait else .done (rewatch (dropTlb s ctx lo hi) ctx lo hi)
/-- The address of the leaf entry of a page, the entry and its level; or the status of a page without one (R396, R434): V = 0, or an entry that does not translate. -/
def leafFrom (s : State) (va : Nat) : Nat → Nat → Nat → Except Nat (Nat × Nat × Nat)
  | 0, _, _ => .error stTranslation
  | fuel + 1, lv, t =>
    let a := t + 8 * walkIndex va lv
    let e := s.mem.nat (keyOf 0 a) 8
    if s.poisoned (keyOf 0 a) then .error stTranslation
    else if !pteV e then .error stMalformed
    else if !pteWellFormed e lv then .error stTranslation
    else if pteLeaf e then .ok (a, e, lv) else leafFrom s va fuel (lv - 1) (pteAddr e)
/-- Copies a page's frame, tags and poison with it; tags of a HOST target read NONE (R374, R396). -/
def copyFrame (s : State) (src dst size : Nat) : State :=
  let cells := (s.mem.filter fun c => decide (src ≤ c.1) && decide (c.1 < src + size)).map fun c => (c.1 - src + dst, c.2)
  let tags := (s.tags.filter fun c => decide (src / 128 ≤ c.1) && decide (c.1 < (src + size) / 128)).map fun c => (c.1 - src / 128 + dst / 128, c.2)
  let rest := s.tags.filter fun c => decide (c.1 < dst / 128) || decide ((dst + size) / 128 ≤ c.1)
  { s with mem := s.mem.filter (fun c => decide (c.1 < dst)) ++ (cells ++ s.mem.filter fun c => decide (dst + size ≤ c.1)),
           tags := if keyTier dst = 2 then rest else
             rest.filter (fun c => decide (c.1 < dst / 128)) ++ (tags ++ rest.filter fun c => decide (dst / 128 ≤ c.1)),
           memPoison := s.memPoison.filter (fun l => !(decide (dst / 128 ≤ l) && decide (l < (dst + size) / 128))) ++
             (s.memPoison.filter fun l => decide (src / 128 ≤ l) && decide (l < (src + size) / 128)).map fun l => l - src / 128 + dst / 128 }
/-- What waits at a page of a context for a change goes with the page to its new frame (R295, R362): its queues' monitors and its BARWs. -/
def moveWatches (s : State) (ctx src dst size : Nat) : State :=
  let mv := fun (k : Nat) => if src ≤ k ∧ k < src + size then k - src + dst else k
  { s with queues := s.queues.map fun e => if e.2.ctx = ctx then (e.1, { e.2 with monitor := e.2.monitor.map fun m => (mv m.1, m.2) }) else e,
           accesses := s.accesses.map fun a => if a.ctx = ctx ∧ a.op = .barw ∧ a.sent then { a with key := mv a.key } else a }
/-- A leaf with another tier and address. -/
def movedLeaf (e tier pa : Nat) : Nat := e - pteTier e * 2 ^ 7 - pteAddr e + tier * 2 ^ 7 + pa
/-- MIGRATE (R396): the leaf is read; once no access to the page is under way it is compared, the frame copied and the leaf swapped. -/
def cmdMigrate (ctx va tier addr : Nat) (s : State) : Cmd :=
  if (s.ctx? ctx).isNone then .fail stState
  else if 2 ^ 56 ≤ va then .fail stTranslation
  else match leafFrom s va 4 3 (ctxField s ctx (·.ptRoot)) with
    | .error st => .fail (if s.adminCur.isSome then stChanged else st)
    | .ok (ea, e, lv) =>
      let size := 2 ^ pageBits lv
      let lo := va / size * size
      let src := keyOf (pteTier e) (pteAddr e)
      if s.adminCur.isSome ∧ s.adminCur ≠ some e then .fail stChanged
      else if 3 ≤ pteTier e ∨ 3 ≤ tier ∨ addr % size ≠ 0 ∨ tierLimit tier < addr + size then .fail stMalformed
      -- a page outside its tier, or in a withheld frame, does not translate (R386)
      else if tierLimit (pteTier e) < pteAddr e + size ∨ (pteTier e ≤ 1 ∧ s.isWithheld (pteTier e) (pteAddr e + va % size)) then .fail stTranslation
      else if s.frames.any (fun f => f.2.st == .moving && decide (src ≤ 131072 * f.1) && decide (131072 * f.1 < src + size)) then .wait
      else if s.adminCur.isNone then .go { s with adminCur := some e }
      else if undrained s ctx lo (lo + size) s.nextId then .wait
      else
        let s1 := moveWatches (copyFrame s src (keyOf tier addr) size) ctx src (keyOf tier addr) size
        .done (dropTlb (s1.writeKey (keyOf 0 ea) (natToBytes 8 (movedLeaf e tier addr)) agDev) ctx lo (lo + size))
def cmdWinset (w v pkg rtier rbase rlen : Nat) (s : State) : Cmd :=
  if 4096 ≤ w ∨ 2 ≤ v ∨ 2 ^ 14 ≤ pkg ∨ 2 ≤ rtier ∨ rbase % 131072 ≠ 0 ∨ rlen % 131072 ≠ 0 then .fail stMalformed
  else .done { s with windows := if v = 1 then Tab.set s.windows w ⟨pkg, rtier, rbase, rlen⟩ else Tab.erase s.windows w }
def cmdExport (e spkg tier base len : Nat) (s : State) : Cmd :=
  if 4096 ≤ e ∨ 2 ^ 14 ≤ spkg ∨ 3 ≤ tier then .fail stMalformed
  else .done { s with exports := if len = 0 then Tab.erase s.exports e else Tab.set s.exports e ⟨spkg, tier, base, len⟩ }
/-- The snag list as SNAGRD writes it (R399). -/
def snagBytes (s : State) : List Byte := s.snag.flatMap fun f => natToBytes 1 f.1 ++ natToBytes 7 0 ++ natToBytes 8 f.2
def cmdSnagrd (addr : Nat) (s : State) : Cmd :=
  if addr % 64 ≠ 0 then .fail stMalformed
  else .done (s.writeKey (physKey addr) (natToBytes 4 s.snag.length ++ natToBytes 60 0 ++ snagBytes s) agDev)

/-! ### Links (R404, R405, R413) -/

def cmdRoute (pkg link : Nat) (s : State) : Cmd :=
  if 2 ^ 14 ≤ pkg ∨ (12 ≤ link ∧ link ≠ 15) then .fail stMalformed
  else if link ≠ 15 ∧ !((s.link link).live || (s.link link).retraining) then .fail stState
  else
    let busy := match Tab.get? s.routes pkg with
      | some l => (s.link l).requests.any fun r => r.msg.dpkg.toNat == pkg
      | none => false
    if busy then .wait else .done { s with routes := if link = 15 then Tab.erase s.routes pkg else Tab.set s.routes pkg link }
def cmdLinkreset (l : Nat) (s : State) : Cmd :=
  if 12 ≤ l then .fail stMalformed else if (s.link l).live || (s.link l).retraining then .fail stState else .done (s.resetLink l)
def cmdLinkfence (l : Nat) (s : State) : Cmd :=
  if 12 ≤ l then .fail stMalformed
  else if (s.link l).live || (s.link l).retraining then .done (fenceLink s l) else .fail stState
def linkRecord (k : Link) : List Byte :=
  natToBytes 1 (linkCode k.st) ++ natToBytes 1 (if k.live then k.width else 0) ++ natToBytes 1 k.plink ++ natToBytes 1 0 ++ natToBytes 2 k.ppkg ++
  natToBytes 2 0 ++ natToBytes 8 k.replays ++ natToBytes 8 k.crcErr ++ natToBytes 4 k.fences ++ natToBytes 4 0
def cmdLinkrd (addr : Nat) (s : State) : Cmd :=
  if addr % 64 ≠ 0 then .fail stMalformed else .done (s.writeKey (physKey addr) (s.links.toList.flatMap linkRecord) agDev)

/-! ### Recovery (R424, R428, R429) -/

/-- T over the counted entries (R422); it never falls. -/
def settleConfirm (s : State) : State :=
  let ps := (s.rot.toList.filter fun r => !r.acked).map (·.passCycle)
  match ps with
  | [] => { s with confirm := Nat.max s.confirm (s.dieCycle 0) }
  | p :: ps => { s with confirm := Nat.max s.confirm (ps.foldl Nat.min p) }
def modRot (s : State) (e : Nat) (f : RotEntry → RotEntry) : State :=
  { s with rot := s.rot.setIfInBounds e (f (s.rot[e]?.getD RotEntry.zero)) }
def cmdConfack (entry : Nat) (s : State) : Cmd :=
  if (s.rot[entry]?.map (·.failed)) = some true then .done (settleConfirm (modRot s entry fun r => { r with acked := true })) else .fail stState

/-- Bytes from another package through an outbound window, line by line (R387). -/
def windowLine (s : State) (win off : Nat) : Option Msg := remoteMsg s (remoteKey win (off - off % 128)) 1 13 128 0 []
/-- Sends `bs` to a window offset within one line. -/
def windowPut (s : State) (win off : Nat) (bs : List Byte) : Option State :=
  (remoteMsg s (remoteKey win off) 2 14 bs.length 0 bs).bind fun m => s.request m (.ckpt 0)
def ckptAsked (s : State) (key : Nat) : Bool := s.links.toList.any fun l => l.requests.any fun r => r.owner == .ckpt key
def ckptBusy (s : State) : Bool := s.links.toList.any fun l => l.requests.any fun r => match r.owner with
  | .ckpt _ => true
  | _ => false
/-- One line of a window: at hand, or asked for. -/
def windowGet (s : State) (j : CkptJob) (off : Nat) : List Byte ⊕ Option State :=
  let key := remoteKey j.win (off - off % 128)
  match j.lines.find? (fun l => l.1 == key) with
  | some l => .inl (l.2.drop (off % 128))
  | none => .inr (if ckptAsked s key then none else (windowLine s j.win off).bind fun m => s.request m (.ckpt key))
def toCmd : Option State → Cmd
  | none => .wait
  | some s => .go s
def winLen (s : State) (w : Nat) : Nat := ((Tab.get? s.windows w).map (·.rlen)).getD 0
/-- The slot to write, and the stamp of the newest committed slot: from the two headers. -/
def newestSlot (a b : List Byte) : Option Bool :=
  let st := fun (l : List Byte) => bytesToNat (slice l 8 1) == 2
  let t := fun (l : List Byte) => bytesToNat (slice l 0 8)
  if st a && (!st b || decide (t b ≤ t a)) then some false else if st b then some true else none
/-- The header of a checkpoint slot: stamp, state, and the count of descriptors at byte 12 (assumption 41). -/
def ckptHeader (stamp state cnt : Nat) : List Byte := natToBytes 8 stamp ++ natToBytes 4 state ++ natToBytes 4 cnt ++ natToBytes 48 0
/-- The byte at position `p` of a slot after its header: the descriptor list, then the listed ranges. -/
def listRanges (bs : List Byte) (cnt : Nat) : List (Nat × Nat) :=
  (List.range cnt).map fun i => (bytesToNat (slice bs (16 * i) 8), bytesToNat (slice bs (16 * i + 8) 8))
def rangeAt : List (Nat × Nat) → Nat → Nat
  | [], _ => 0
  | (a, n) :: rs, p => if p < n then physKey a + p else rangeAt rs (p - n)
/-- How many bytes of its range are left at position `p`. -/
def rangeLeft : List (Nat × Nat) → Nat → Nat
  | [], _ => 0
  | (_, n) :: rs, p => if p < n then n - p else rangeLeft rs (p - n)
def rangesLen (rs : List (Nat × Nat)) : Nat := (rs.map (·.2)).foldl (· + ·) 0
/-- The start of a CKPT or RESTORE; messages of an earlier one that failed are answered first. -/
def ckptStart (s : State) (win stamp : Nat) : Cmd :=
  if ckptBusy s then .wait else .go { s with ckptRun := some ⟨win, stamp, 0, 0, 0, [], [], false⟩, adminCur := some 0 }
/-- CKPT (R428): it reads the two headers, marks a slot PENDING, sends list and data, and completes when all is acknowledged; the slot is
committed once SYS.CONFIRM has reached the stamp. A link that fails ends it with STATE (log 67). -/
def cmdCkpt (list cnt win : Nat) (s : State) : Cmd :=
  let bs := s.mem.bytes (keyOf 0 list) (16 * cnt)
  let rs := listRanges bs cnt
  let half := winLen s win / 2
  let total := 16 * cnt + rangesLen rs
  if list % 64 ≠ 0 ∨ 2 ^ 39 ≤ list ∨ cnt < 1 ∨ 256 < cnt ∨ rs.any (fun r => r.1 % 131072 != 0 || r.2 % 131072 != 0) then .fail stMalformed
  else if (Tab.get? s.windows win).isNone then .fail stState
  else if half < 64 + total then .fail stMalformed
  else match s.adminCur, s.ckptRun with
    | none, _ => ckptStart s win (s.dieCycle 0)
    | _, none => .fail stState
    | _, some j =>
      if j.failed then .fail stState
      else match j.phase with
        | 0 => match windowGet s j 0, windowGet s j half with
          | .inl a, .inl b =>
            let slot := if newestSlot a b = some false then half else 0
            -- a checkpoint that waited in the slot goes with it
            toCmd ((windowPut s win slot (ckptHeader j.stamp 1 cnt)).map fun s' => { s' with ckptRun := some { j with slot := slot, phase := 1, lines := [] }, ckpt := none })
          | .inr r, _ => toCmd r
          | _, .inr r => toCmd r
        | 1 =>
          let off := j.slot + 64 + j.pos
          let k := if j.pos < 16 * cnt then 16 else Nat.min (128 - off % 128) (rangeLeft rs (j.pos - 16 * cnt))
          let d := if j.pos < 16 * cnt then slice bs j.pos 16 else s.mem.bytes (rangeAt rs (j.pos - 16 * cnt)) k
          if total ≤ j.pos then .go { s with ckptRun := some { j with phase := 2 } }
          else toCmd ((windowPut s win off d).map fun s' => { s' with ckptRun := some { j with pos := j.pos + k } })
        | _ => if ckptBusy s then .wait else .done { s with ckpt := some { j with phase := 3 }, ckptRun := none }
/-- Commits a checkpoint whose stamp SYS.CONFIRM has reached (R428): COMMITTED, then the older slot EMPTY. -/
def settleCkpt (s : State) : State :=
  match s.ckpt with
  | some j =>
    if j.phase = 3 ∧ j.stamp ≤ s.confirm ∧ !j.failed then
      let put := fun (s : State) (off v : Nat) => (remoteMsg s (remoteKey j.win off) 2 14 1 0 (natToBytes 1 v)).bind fun m => s.request m .nothing
      let older := if j.slot = 0 then winLen s j.win / 2 else 0
      match (put s (j.slot + 8) 2).bind fun s1 => put s1 (older + 8) 0 with
      | some s1 => { s1 with ckpt := none }
      | none => s
    else s
  | none => s
/-- The ranges of a restored checkpoint, written one after another. -/
def restoreRanges (data : List Byte) : List (Nat × Nat) → State → State
  | [], s => s
  | (a, n) :: rs, s => restoreRanges (data.drop n) rs (s.writeKey (physKey a) (data.take n) agDev)
/-- RESTORE (R429): the newer committed slot is read whole, then its ranges are written; a link that fails before that ends it with STATE and nothing written
(R424; log 67). -/
def cmdRestore (win : Nat) (s : State) : Cmd :=
  let half := winLen s win / 2
  if (Tab.get? s.windows win).isNone then .fail stState
  else match s.adminCur, s.ckptRun with
    | none, _ => ckptStart s win 0
    | _, none => .fail stState
    | _, some j =>
      if j.failed then .fail stState
      else match windowGet s j 0, windowGet s j half with
        | .inr r, _ => toCmd r
        | _, .inr r => toCmd r
        | .inl a, .inl b => match newestSlot a b with
          | none => .fail stState
          | some second =>
            let base := if second then half else 0
            let cnt := Nat.min 256 (bytesToNat (slice (if second then b else a) 12 4))
            -- the lines of the descriptor list, then the data line at `pos`
            let need := (List.range ((64 + 16 * cnt + 127) / 128)).find? fun i => (j.lines.find? fun l => l.1 == remoteKey win (base + 128 * i)).isNone
            match need with
            | some i => (match windowGet s j (base + 128 * i) with
              | .inr r => toCmd r
              | .inl _ => .wait)
            | none =>
              let all := (List.range ((64 + 16 * cnt + 127) / 128)).flatMap fun i => ((j.lines.find? fun l => l.1 == remoteKey win (base + 128 * i)).map (·.2)).getD []
              let rs := listRanges (all.drop 64) cnt
              let off := base + 64 + 16 * cnt + j.pos
              if rangesLen rs ≤ j.pos then .done { restoreRanges j.data rs s with ckptRun := none }
              else match windowGet s j off with
                | .inr r => toCmd r
                | .inl d =>
                  let k := Nat.min (128 - off % 128) (rangesLen rs - j.pos)
                  .go { s with ckptRun := some { j with pos := j.pos + k, data := j.data ++ d.take k } }

/-! ### Configuration (R439, R440) -/

def zeroAt (bs : List Byte) (o n : Nat) : Bool := allZero (slice bs o n)
def recNat (bs : List Byte) (o n : Nat) : Nat := bytesToNat (slice bs o n)
/-- Whether the factory part of a record is valid under the root key (R439). -/
def factoryOk (bs : List Byte) : Bool :=
  recNat bs 0 4 == 0x43465A31 && zeroAt bs 4 4 && zeroAt bs 28 4 && zeroAt bs 296 84 &&
  ([0, 1, 2, 3] : List Nat).all (fun d => decide (8 ≤ recNat bs (32 + d) 1) && decide (recNat bs (32 + d) 1 ≤ 21)) && decide (recNat bs 36 4 ≤ 2400) &&
  Config.signatureValid (slice bs 0 380) (slice bs 380 132)
/-- Whether an operator part is valid beside a factory part. -/
def operatorOk (fac op : List Byte) : Bool :=
  let us := fun o => decide (4 ≤ recNat op o 4) && decide (recNat op o 4 ≤ 10000)
  recNat op 0 4 == 0x4F505A31 && zeroAt op 4 2 && decide (recNat op 6 2 < 2 ^ 14) && zeroAt op 160 220 &&
  ([0, 1, 2, 3] : List Nat).all (fun d => decide (8 ≤ recNat op (8 + d) 1) && decide (recNat op (8 + d) 1 ≤ recNat fac (32 + d) 1)) &&
  decide (400 ≤ recNat op 12 4) && decide (recNat op 12 4 ≤ recNat fac 36 4) && us 16 && us 20 && decide (10 ≤ recNat op 24 4) &&
  decide (recNat op 24 4 ≤ 1000) && natToBytes 64 (Config.digest (slice op 28 132)).toNat == slice fac 40 64 &&
  Config.signatureValid (slice op 0 380) (slice op 28 132 ++ slice op 380 132)
def cmdCfgw (addr : Nat) (s : State) : Cmd :=
  let op := s.mem.bytes (keyOf 2 addr) 512
  if operatorOk (s.cfg.take 512) op then .done { s with cfgFlash := (padTo 512 (s.cfgFlash.take 512)) ++ op } else .fail stMalformed
/-- PWRLIM and CLKLIM in force (R439). -/
def State.pwrLim (s : State) : Nat := if s.opValid then s.cfgNat 524 4 else s.cfgNat 36 4
def State.clkLim (s : State) (d : Nat) : Nat := if s.opValid then s.cfgNat (520 + d) 1 else s.cfgNat (32 + d) 1
def cmdPwrset (w : Nat) (s : State) : Cmd := if w < 400 then .fail stMalformed else .done { s with plim := Nat.min w s.pwrLim }

/-! ### Clocks (R441) -/

def State.die (s : State) (d : Nat) : DiePower := s.dies[d]?.getD DiePower.zero
def State.modDie (s : State) (d : Nat) (f : DiePower → DiePower) : State := { s with dies := s.dies.setIfInBounds d (f (s.die d)) }
/-- The smallest of a die's four limits. -/
def clockTarget (s : State) (d : Nat) : Nat :=
  let p := s.die d
  Nat.min (Nat.min p.clkSet p.pTarget) (Nat.min p.tTarget (s.clkLim d))
/-- Which limits hold the clock, as WHY gives them: CLKSET, power, thermal. -/
def whyBits (s : State) (d : Nat) : Nat :=
  let p := s.die d
  let t := clockTarget s d
  if t = s.clkLim d then 0
  else (if p.clkSet = t then 1 else 0) + (if p.pTarget = t then 2 else 0) + (if p.tTarget = t then 4 else 0)
/-- Moves a die's clock one step towards its target, at most one step in 10 µs, with event 5. It is asked at the end of each cycle of the hub, when all that has moved
the targets in it is known (R441). -/
def moveClock (s : State) (d : Nat) : State :=
  let p := s.die d
  let t := clockTarget s d
  if p.clk = t ∨ (p.steps ≠ 0 ∧ s.hubTime < p.lastStep + 10 * usRounds) then s
  else
    let clk := if p.clk < t then p.clk + 1 else p.clk - 1
    sendEvent (s.modDie d fun p => { p with clk := clk, steps := p.steps + 1, lastStep := s.hubTime }) 5 d clk (whyBits s d * 2 ^ 16)
def cmdClkset (d u : Nat) (s : State) : Cmd :=
  if 4 ≤ d ∨ u < 8 ∨ s.clkLim d < u then .fail stMalformed else .done (s.modDie d fun p => { p with clkSet := u })

/-! ### Meanings -/

def execCreate (ctx addr : Nat) (s : State) : Host.Outcome State Fault Refusal := adminStep "CREATE" 1 [ctx, addr] (cmdCreate ctx addr) s
def execSuspend (ctx : Nat) (s : State) : Host.Outcome State Fault Refusal := adminStep "SUSPEND" 2 [ctx] (cmdSuspend ctx) s
def execResume (ctx : Nat) (s : State) : Host.Outcome State Fault Refusal := adminStep "RESUME" 3 [ctx] (cmdResume ctx) s
def execDestroy (ctx : Nat) (s : State) : Host.Outcome State Fault Refusal := adminStep "DESTROY" 4 [ctx] (cmdDestroy ctx) s
def execTaskgo (ctx core : Nat) (s : State) : Host.Outcome State Fault Refusal := adminStep "TASKGO" 5 [ctx, core] (cmdTaskgo ctx core) s
def execGroupend (ctx core : Nat) (s : State) : Host.Outcome State Fault Refusal := adminStep "GROUPEND" 6 [ctx, core] (cmdGroupend ctx core) s
def execMapq (ctx q cb prio : Nat) (s : State) : Host.Outcome State Fault Refusal := adminStep "MAPQ" 16 [ctx, q, cb, prio] (cmdMapq ctx q cb prio) s
def execUnmapq (q : Nat) (s : State) : Host.Outcome State Fault Refusal := adminStep "UNMAPQ" 17 [q] (cmdUnmapq q) s
def execResetq (q : Nat) (s : State) : Host.Outcome State Fault Refusal := adminStep "RESETQ" 18 [q] (cmdResetq q) s
def execSheet (ctx addr clear : Nat) (s : State) : Host.Outcome State Fault Refusal := adminStep "SHEET" 20 [ctx, addr, clear] (cmdSheet ctx addr clear) s
def execShoot (ctx va cnt : Nat) (s : State) : Host.Outcome State Fault Refusal := adminStep "SHOOT" 24 [ctx, va, cnt] (cmdShoot ctx va cnt) s
def execMigrate (ctx va tier addr : Nat) (s : State) : Host.Outcome State Fault Refusal :=
  adminStep "MIGRATE" 25 [ctx, va, tier, addr] (cmdMigrate ctx va tier addr) s
def execWinset (w v pkg rtier rbase rlen : Nat) (s : State) : Host.Outcome State Fault Refusal :=
  adminStep "WINSET" 26 [w, v, pkg, rtier, rbase, rlen] (cmdWinset w v pkg rtier rbase rlen) s
def execExportWin (e spkg tier base len : Nat) (s : State) : Host.Outcome State Fault Refusal :=
  adminStep "EXPORT" 27 [e, spkg, tier, base, len] (cmdExport e spkg tier base len) s
def execSnagrd (addr : Nat) (s : State) : Host.Outcome State Fault Refusal := adminStep "SNAGRD" 28 [addr] (cmdSnagrd addr) s
def execRoute (pkg link : Nat) (s : State) : Host.Outcome State Fault Refusal := adminStep "ROUTE" 32 [pkg, link] (cmdRoute pkg link) s
def execLinkreset (link : Nat) (s : State) : Host.Outcome State Fault Refusal := adminStep "LINKRESET" 33 [link] (cmdLinkreset link) s
def execLinkfence (link : Nat) (s : State) : Host.Outcome State Fault Refusal := adminStep "LINKFENCE" 34 [link] (cmdLinkfence link) s
def execLinkrd (addr : Nat) (s : State) : Host.Outcome State Fault Refusal := adminStep "LINKRD" 35 [addr] (cmdLinkrd addr) s
def execConfack (entry : Nat) (s : State) : Host.Outcome State Fault Refusal := adminStep "CONFACK" 40 [entry] (cmdConfack entry) s
def execCkpt (list cnt win : Nat) (s : State) : Host.Outcome State Fault Refusal := adminStep "CKPT" 41 [list, cnt, win] (cmdCkpt list cnt win) s
def execRestore (win : Nat) (s : State) : Host.Outcome State Fault Refusal := adminStep "RESTORE" 42 [win] (cmdRestore win) s
def execCfgw (addr : Nat) (s : State) : Host.Outcome State Fault Refusal := adminStep "CFGW" 48 [addr] (cmdCfgw addr) s
def execPwrset (w : Nat) (s : State) : Host.Outcome State Fault Refusal := adminStep "PWRSET" 49 [w] (cmdPwrset w) s
def execClkset (die u : Nat) (s : State) : Host.Outcome State Fault Refusal := adminStep "CLKSET" 50 [die, u] (cmdClkset die u) s
/-- The codes that a chapter assigns. -/
def knownCodes : List Nat := [1, 2, 3, 4, 5, 6, 16, 17, 18, 20, 24, 25, 26, 27, 28, 32, 33, 34, 35, 40, 41, 42, 48, 49, 50]
/-- UNKNOWN_ADMIN_COMMAND (R434). -/
def execUnknownAdminCommand (code : Nat) (s : State) : Host.Outcome State Fault Refusal :=
  adminStep "UNKNOWN_ADMIN_COMMAND" code [] (fun _ => if knownCodes.contains code then .wait else .fail stUnknown) s
/-- ADMN (R433): processing starts; while ADMQ is zero the write is discarded. -/
def execAdmn (s : State) : Host.Outcome State Fault Refusal :=
  .next (if s.boot = .ready ∧ s.portUp ∧ s.admq ≠ 0 then { s with adminRun := true } else s).tickFresh

end Sys2Proof.Machine
end

