-- ==== Sys2Proof/Machine/Branch.lean ====
section
/-!
DEFINITION. Branches, calls, returns and hardware loops (R105–R116).
-/
namespace Sys2Proof.Machine

/-! ### Shared forms -/

def targetOf (a : At) (imm : BitVec 32) : DWord := a.addr + (imm.signExtend 64 <<< 1)
def returnAddr (a : At) : DWord := a.addr + BitVec.ofNat 64 (2 * a.len)
def targetExc (c : Core) (t : DWord) : List Exc := if codeOk c t then [] else [addrExc t.toNat]

/-- B and the conditional branches (R106). -/
def opBranch (cond : Word → Word → Bool) (regs : List (BitVec 6)) (ra rb : BitVec 6) (imm : BitVec 32) : Op := fun s a =>
  let c := s.core a.n
  let t := targetOf a imm
  if cond (c.rx ra) (c.rx rb) then { reads := regs, excs := targetExc c t, ctl := .jump t } else { reads := regs }

/-- A call to `t` (R107): the link goes to x1. -/
def callIssue (c : Core) (a : At) (regs : List (BitVec 6)) (t : DWord) : Issue :=
  { reads := regs, writes := [1#6], excs := targetExc c t, ctl := .call t,
    flights := xres c a 1 0#6 1#6 ((returnAddr a).extractLsb' 0 32), wports := xport c 1 1#6 }

/-- The level a loop setup takes: the lowest free one (R110). -/
def Core.freeLevel (c : Core) : Option Nat := ([0, 1, 2, 3] : List Nat).find? fun l => !(c.loopAt l).active

/-- The setup shared by LOOP and LOOPX with trip count `n`; `base` holds what the instruction asks besides. -/
def loopIssue (s : State) (a : At) (st : BitVec 2) (isX : Bool) (n : Nat) (imm : BitVec 32) (base : Issue) : Issue :=
  let c := s.core a.n
  let e := targetOf a imm
  let badOff : Option Nat := if imm.toInt < (a.len : Int) then some 4 else none
  match c.freeLevel with
  | none => { base with ill := badOff, excs := base.excs ++ targetExc c e ++ [⟨5, 0, 0, 0, 0⟩] }
  | some l =>
    let b := { base with ill := badOff, excs := base.excs ++ targetExc c e }
    if n = 0 ∧ badOff.isNone ∧ codeOk c e then
      -- the end bundle is decoded as part of the issue, which waits for a code-cache miss
      match fetchBundle s a.n e with
      | .ok _ len => { b with ctl := .skip (e + BitVec.ofNat 64 (2 * len)) }
      | .bad _ _ off cause => { b with excs := b.excs ++ [⟨1, cause, off, e.toNat, 0⟩] }
      | .fault x => { b with excs := b.excs ++ [x] }
      | .miss _ => { b with stall := true }
    else { b with ctl := .setup l ⟨true, returnAddr a, e, st, isX, c.depth⟩ (BitVec.ofNat 32 (n - 1)) }

/-! ### Operations -/

def opBra (imm : BitVec 32) : Op := opBranch (fun _ _ => true) [] 0#6 0#6 imm
def opBeq (x y : BitVec 6) (imm : BitVec 32) : Op := opBranch (· == ·) [x, y] x y imm
def opBne (x y : BitVec 6) (imm : BitVec 32) : Op := opBranch (· != ·) [x, y] x y imm
def opBlt (x y : BitVec 6) (imm : BitVec 32) : Op := opBranch BitVec.slt [x, y] x y imm
def opBge (x y : BitVec 6) (imm : BitVec 32) : Op := opBranch (fun p q => !p.slt q) [x, y] x y imm
def opBltn (x y : BitVec 6) (imm : BitVec 32) : Op := opBranch (fun p q => decide (p < q)) [x, y] x y imm
def opBgen (x y : BitVec 6) (imm : BitVec 32) : Op := opBranch (fun p q => !decide (p < q)) [x, y] x y imm
def opCall (imm : BitVec 32) : Op := fun s a => callIssue (s.core a.n) a [] (targetOf a imm)
def opCallx (x : BitVec 6) : Op := fun s a =>
  let c := s.core a.n
  callIssue c a (bothOf x) (c.rpair x)
/-- CALLI (R107): the slot is read through the code cache, which a miss stalls, with the value in memory at the issue and as an acquire at device
scope. -/
def opCalli (imm : BitVec 32) : Op := fun s a =>
  let c := s.core a.n
  match calliSlot c imm with
  | none => { writes := [1#6], excs := [addrExc (c.ltb.toNat + 8 * imm.toNat)] }
  | some slot => match readSlot s a.n slot with
    | .error x => { writes := [1#6], excs := [x] }
    | .ok none => { writes := [1#6], stall := true }
    | .ok (some v) =>
      let t := BitVec.ofNat 64 v
      let bad := slotPoison s a.n slot
      if t = 0#64 then { writes := [1#6], excs := addrExc slot :: bad }
      else
        let i := callIssue c a [] t
        { i with excs := i.excs ++ bad, eff := fun s => useSlot s a.n slot }
def opRet (x : BitVec 6) : Op := fun s a =>
  let c := s.core a.n
  let t : DWord := (c.cwin &&& 0x00FFFFFF00000000#64) ||| (c.rx (oddOf x)).setWidth 64
  { reads := [oddOf x], excs := targetExc c t, ctl := .ret t }
def opJx (x : BitVec 6) : Op := fun s a =>
  let c := s.core a.n
  { reads := bothOf x, excs := targetExc c (c.rpair x), ctl := .jump (c.rpair x) }
def opLoop (f4 : BitVec 4) (x : BitVec 6) (imm : BitVec 32) : Op := fun s a =>
  loopIssue s a (f4.extractLsb' 0 2) false ((s.core a.n).rx x).toNat imm { reads := [x] }
/-- LOOPX (R114). -/
def opLoopx (f4 : BitVec 4) (x y : BitVec 6) (imm : BitVec 32) : Op := fun s a =>
  let c := s.core a.n
  let o := (c.rx x).toNat + 4 * (c.rx y).toNat
  match loopxCount s a.n x y with
  -- the checks of LOOP are made all the same (R99)
  | none => loopIssue s a (f4.extractLsb' 0 2) true 1 imm { reads := [x, y], writes := [y], excs := [addrExc o] }
  | some n =>
    loopIssue s a (f4.extractLsb' 0 2) true n imm
      { reads := [x, y], writes := [y], stall := c.hullStall false o 8 false, empty := 5,
        flights := xres c a 1 0#6 y (c.rx y + 1#32), wports := xport c 1 y,
        banks := [lBank c 0 false o 8 false 1 0],
        uses := { viewR := [(false, bankSet false o 8)], rlines := c.padLines false o 8 } }
/-- LMARK (R116): the copy is the one fetched at the issue, which waits for what the code cache lacks. -/
def opLmark (i : BitVec 10) : Op := fun s a =>
  let first := returnAddr a
  { stall := (pinEnd s a.n first i.toNat first none).isLeft,
    eff := fun s' => s'.modCore a.n fun c => { c with pin := pinCopy s a.n first i.toNat } }

/-! ### Meanings -/

def execCallx (x : BitVec 6) (s : State) : Host.Outcome State Fault Refusal := runSolo (.callx x) (opCallx x) s
def execRet (x : BitVec 6) (s : State) : Host.Outcome State Fault Refusal := runSolo (.ret x) (opRet x) s
def execJx (x : BitVec 6) (s : State) : Host.Outcome State Fault Refusal := runSolo (.jx x) (opJx x) s
def execLmark (i : BitVec 10) (s : State) : Host.Outcome State Fault Refusal := runSolo (.lmark i) (opLmark i) s
def execBra (imm : BitVec 32) (s : State) : Host.Outcome State Fault Refusal := runSolo (.bra imm) (opBra imm) s
def execBeq (x y : BitVec 6) (imm : BitVec 32) (s : State) : Host.Outcome State Fault Refusal := runSolo (.beq x y imm) (opBeq x y imm) s
def execBne (x y : BitVec 6) (imm : BitVec 32) (s : State) : Host.Outcome State Fault Refusal := runSolo (.bne x y imm) (opBne x y imm) s
def execBlt (x y : BitVec 6) (imm : BitVec 32) (s : State) : Host.Outcome State Fault Refusal := runSolo (.blt x y imm) (opBlt x y imm) s
def execBge (x y : BitVec 6) (imm : BitVec 32) (s : State) : Host.Outcome State Fault Refusal := runSolo (.bge x y imm) (opBge x y imm) s
def execBltn (x y : BitVec 6) (imm : BitVec 32) (s : State) : Host.Outcome State Fault Refusal := runSolo (.bltn x y imm) (opBltn x y imm) s
def execBgen (x y : BitVec 6) (imm : BitVec 32) (s : State) : Host.Outcome State Fault Refusal := runSolo (.bgen x y imm) (opBgen x y imm) s
def execCall (imm : BitVec 32) (s : State) : Host.Outcome State Fault Refusal := runSolo (.call imm) (opCall imm) s
def execCalli (imm : BitVec 32) (s : State) : Host.Outcome State Fault Refusal := runSolo (.calli imm) (opCalli imm) s
def execLoop (f4 : BitVec 4) (x : BitVec 6) (imm : BitVec 32) (s : State) : Host.Outcome State Fault Refusal :=
  runSolo (.loop f4 x imm) (opLoop f4 x imm) s
def execLoopx (f4 : BitVec 4) (x y : BitVec 6) (imm : BitVec 32) (s : State) : Host.Outcome State Fault Refusal :=
  runSolo (.loopx f4 x y imm) (opLoopx f4 x y imm) s

end Sys2Proof.Machine
end

