-- ==== Sys2Proof/Machine/Host.lean ====
section
/-!
DEFINITION. The host port: the management aperture (R433), host accesses (R431, R432), SPDM (R438), module reset and boot (R400, R405,
R436–R439), and power and heat (R441, R442).
-/
namespace Sys2Proof.Machine

/-! ### Management aperture (R433) -/

/-- Whether a ring is empty: no control block, or equal indices. -/
def ringEmpty (s : State) (cb : Nat) : Bool :=
  cb == 0 || (let r := ringOf (s.mem.bytes (keyOf 2 cb) 32); r.ridx == r.widx)
/-- The effect of a write to an offset of BAR 0. -/
def mgmtWrite (s : State) (off bytes val : Nat) : State :=
  if s.boot ≠ .ready ∨ !s.portUp then s
  else if off = 0x8 ∧ bytes = 8 then (if ringEmpty s s.admq ∧ val % 64 = 0 then { s with admq := val % 2 ^ 64 } else s)
  else if off = 0x18 ∧ bytes = 8 then (if ringEmpty s s.evq ∧ val % 64 = 0 then { s with evq := val % 2 ^ 64 } else s)
  else if off = 0x10 ∧ bytes = 4 then (if s.admq ≠ 0 then { s with adminRun := true } else s)
  else if 0x1000 ≤ off ∧ off < 0x1000 + 2 * 4096 ∧ off % 2 = 0 ∧ bytes = 2 then
    (if 2 ≤ val ∧ val ≤ 2047 then { s with intmap := Tab.set s.intmap ((off - 0x1000) / 2) val } else s)
  else s

def bootCode : Boot → Nat
  | .rom => 0 | .firmware => 1 | .ready => 2 | .failed => 3
/-- The four words of DIETEL d (R442). -/
def dietel (s : State) (d : Nat) : List Byte :=
  let p := s.die d
  natToBytes 4 (p.clk + clockTarget s d * 2 ^ 8 + whyBits s d * 2 ^ 16) ++ natToBytes 4 p.temp ++ natToBytes 4 p.power ++ natToBytes 4 p.steps
/-- WHELD: the withheld frames, ended by tier 0xFF. -/
def wheldBytes (s : State) : List Byte :=
  s.withheld.flatMap (fun f => natToBytes 8 f.1 ++ natToBytes 8 f.2) ++ natToBytes 16 255
/-- The bytes of the management aperture. -/
def mgmtImage (s : State) : List Byte :=
  if s.boot ≠ .ready then padTo 0x40000 (natToBytes 4 (bootCode s.boot))
  else
    let low := natToBytes 8 (bootCode s.boot) ++ natToBytes 8 s.admq ++ natToBytes 8 0 ++ natToBytes 8 s.evq ++ natToBytes 8 s.confirm
    let mid := padTo 0x40 low ++ natToBytes 4 s.modPwr ++ natToBytes 4 s.plim
    let tel := padTo 0x80 mid ++ (List.range 4).flatMap (dietel s)
    padTo 0x10000 (padTo 0x1000 tel ++ (List.range 4096).flatMap fun c => natToBytes 2 (s.vectorOf c)) ++ padTo 0x30000 (wheldBytes s)
/-- What the host reads at an offset of BAR 0; reading changes nothing. -/
def mgmtRead (s : State) (off n : Nat) : List Byte := if s.portUp then padTo n (slice (mgmtImage s) off n) else natToBytes n 0

/-- MGMT_REGISTER_WRITE (R433). -/
def execMgmtRegisterWrite (off bytes val : Nat) (s : State) : Host.Outcome State Fault Refusal := .next (mgmtWrite s off bytes val).tickFresh

/-! ### Host accesses (R431, R432) -/

/-- Whether a host access goes through: the tier is one the port shows, and the bytes lie in it. -/
def hostRange (s : State) (tier addr len : Nat) : Bool := s.boot == .ready && s.portUp && decide (tier ≤ 2) && decide (addr + len ≤ tierLimit tier)
/-- What the host reads: zero in withheld and spare frames. -/
def hostRead (s : State) (tier addr len : Nat) : List Byte :=
  if !hostRange s tier addr len then natToBytes len 0
  else (List.range len).map fun i => if tier ≤ 1 ∧ s.isWithheld tier (addr + i) then 0#8 else s.mem.read (keyOf tier (addr + i))
/-- The doorbell aperture, BAR 2, for the host (R289, R431): a 4-byte or 8-byte access at the start of a queue's page reads its state or notifies it. -/
def bellAt (s : State) (addr len : Nat) : Option Nat :=
  if s.boot = .ready ∧ s.portUp ∧ addr % 131072 = 0 ∧ addr < 2 ^ 29 ∧ (len = 4 ∨ len = 8) then some (addr / 131072) else none
def bellRead (s : State) (addr len : Nat) : List Byte := match bellAt s addr len with
  | some q => natToBytes len (s.notifyWord q)
  | none => natToBytes len 0
/-- A host write, line by line, as agent HO; withheld and spare frames discard it. -/
def hostWrite (s : State) (tier addr : Nat) (bs : List Byte) : State :=
  if !hostRange s tier addr bs.length then s
  else (partsOf addr bs.length).foldl (fun s p =>
    if tier ≤ 1 ∧ s.isWithheld tier p.1 then s
    else s.writeKey (keyOf tier p.1) (slice bs p.2.1 p.2.2) agHost) s
/-- Whether a host access lies in BAR 4 (R431): 64 KiB of MSI-X table and pending bits, whose layout the specification does not give, so that it is storage which the
host writes and reads (DESIGN CHOICE, log 136). -/
def bar4At (s : State) (addr len : Nat) : Bool := s.boot == .ready && s.portUp && decide (addr + len ≤ 65536)
/-- HOST_MEMORY_ACCESS (R289, R431, R432, R433): a write of memory, or a notify; a read of memory, of a queue's state, or (tier 5) of the management aperture, none of
which changes anything; tier 6 is BAR 4. -/
def execHostMemoryAccess (wr : Bool) (tier addr len : Nat) (data : List Byte) (s : State) : Host.Outcome State Fault Refusal :=
  .next (if !wr then
      { s with hostData := if tier = 4 then bellRead s addr len else if tier = 5 then mgmtRead s addr len
                          else if tier = 6 then (if bar4At s addr len then s.bar4.bytes addr len else natToBytes len 0) else hostRead s tier addr len }
    else if tier = 4 then (match bellAt s addr len with
      | some q => s.notifyQueue q
      | none => s)
    else if tier = 6 then (if bar4At s addr len then { s with bar4 := s.bar4.write addr (padTo len data) } else s)
    else hostWrite s tier addr (padTo len data)).tickFresh

/-! ### SPDM over DOE (R438) -/

/-- The five measurements; the operator part counts as 512 zero bytes where it is not in force. -/
def measurements (s : State) : List Byte :=
  let d := fun (bs : List Byte) => natToBytes 64 (Config.digest bs).toNat
  d Config.romImage ++ d s.runningImg ++ d (padTo 512 (s.cfg.take 512)) ++ d (padTo 512 (s.cfg.drop 512)) ++ d (snagBytes s)
/-- DOE answers once the identity is derived, and as long as the port is up (R437, R441). -/
def doeUp (s : State) : Bool := s.boot != .rom && s.portUp
def doeStep (name : String) (f : State → State) (s : State) : Host.Outcome State Fault Refusal :=
  stepIf name (if doeUp s then some (f s) else none)
/-- The chain from the root to the alias key, which depends on the running firmware. -/
def certChain (s : State) : List Byte := Config.rootOfTrust 1 s.runningImg
def execGetDigests (s : State) : Host.Outcome State Fault Refusal :=
  doeStep "GET_DIGESTS" (fun s => { s with doe := natToBytes 64 (Config.digest (certChain s)).toNat }) s
def execGetCertificate (off len : Nat) (s : State) : Host.Outcome State Fault Refusal :=
  doeStep "GET_CERTIFICATE" (fun s => { s with doe := (certChain s).drop off |>.take len }) s
/-- The alias key's signature over a request and what answers it. -/
def aliasSign (s : State) (bs : List Byte) : List Byte := Config.rootOfTrust 2 (s.runningImg ++ bs)
def execChallenge (req : List Byte) (s : State) : Host.Outcome State Fault Refusal :=
  doeStep "CHALLENGE" (fun s => { s with doe := natToBytes 64 (Config.digest (certChain s)).toNat ++ aliasSign s req }) s
def execGetMeasurements (req : List Byte) (s : State) : Host.Outcome State Fault Refusal :=
  doeStep "GET_MEASUREMENTS" (fun s => { s with doe := measurements s ++ aliasSign s (req ++ measurements s) }) s
/-- KEY_EXCHANGE opens a session for the IDE keys; FINISH completes it. -/
def execKeyExchange (req : List Byte) (s : State) : Host.Outcome State Fault Refusal :=
  doeStep "KEY_EXCHANGE" (fun s =>
    let ans := Config.rootOfTrust 3 (natToBytes 8 s.fresh ++ req)
    { s with doe := ans ++ aliasSign s (req ++ ans), doeTranscript := req ++ ans }) s
def execFinish (req : List Byte) (s : State) : Host.Outcome State Fault Refusal :=
  doeStep "FINISH" (fun s =>
    if s.doeTranscript.isEmpty then { s with doe := [] }
    else { s with doe := Config.rootOfTrust 4 (s.doeTranscript ++ req), doeTranscript := [], ideKeyed := true }) s

/-! ### Module reset and boot (R436–R439) -/

/-- An image's security version: the first four bytes of its header. -/
def imageVersion (img : List Byte) : Nat := recNat img 0 4
/-- The boot ROM's check of an image under the Pafort root. -/
def firmwareOk (floor : Nat) (img : List Byte) : Bool := decide (floor ≤ imageVersion img) && Config.signatureValid img (Config.rootOfTrust 0 [])
/-- The spare pool: the last 32 frames of each HBM stack and the last 256 of second-tier memory (R398). -/
def spareFrames : List (Nat × Nat) :=
  ((List.range 8).flatMap fun k => (List.range 32).map fun i => (0, 2 ^ 36 * (k + 1) - 131072 * (32 - i))) ++
  (List.range 256).map fun i => (1, 2 ^ 40 - 131072 * (256 - i))
/-- What survives a module reset: flash, host memory, and what the model itself counts. -/
def afterReset (s : State) : State :=
  let host := s.mem.filter fun c => decide (keyOf 2 0 ≤ c.1) && decide (c.1 < keyOf 3 0)
  { State.reset with mem := host, flashA := s.flashA, flashB := s.flashB, floor := s.floor, cfgFlash := s.cfgFlash, snag := s.snag,
                     inputs := s.inputs, fresh := s.fresh, nextId := s.nextId }
/-- The record's operator part, or zero bytes where it is not valid. -/
def recordInForce (rec : List Byte) : List Byte :=
  let fac := padTo 512 (rec.take 512)
  let op := padTo 512 (rec.drop 512)
  fac ++ if operatorOk fac op then op else natToBytes 512 0
/-- The power and clock limits of the record in force. -/
def applyLimits (s : State) : State :=
  { s with plim := s.pwrLim,
           dies := Vector.ofFn fun (d : Fin 4) => let u := s.clkLim d.val; ⟨u, u, u, u, 0, 0, 0, 0, false, 0⟩ }
/-- The lane map: byte 0 of an entry enables the link, byte 1 gives its peer link, bytes 2 and 3 the peer package. -/
def applyLanes (s : State) : State :=
  (List.range 12).foldl (fun s l =>
    if s.cfgNat (104 + 16 * l) 1 % 2 = 1 then
      (s.modLink l fun k => { k with plink := s.cfgNat (105 + 16 * l) 1, ppkg := s.cfgNat (106 + 16 * l) 2 % 2 ^ 14 }).resetLink l
    else s) s
/-- FAILED: the module keeps the factory part that it found, for its measurement (R438). -/
def bootFailed (s : State) : State := { s with boot := .failed, cfg := padTo 512 (s.cfgFlash.take 512) }
/-- FIRMWARE: the record is checked, frames are withheld, links enter RESET. -/
def bootFirmware (s : State) : State :=
  if !factoryOk s.cfgFlash then bootFailed s
  else
    let s1 := { s with cfg := recordInForce s.cfgFlash, withheld := s.snag ++ spareFrames, boot := .ready }
    applyLanes (applyLimits s1)
/-- ROM: image A, then image B; the floor rises to the version of the image that boots. -/
def bootRom (s : State) : State :=
  let go := fun (img : List Byte) => ({ s with runningImg := img, floor := Nat.max s.floor (imageVersion img), boot := .firmware } : State)
  if firmwareOk s.floor s.flashA then go s.flashA else if firmwareOk s.floor s.flashB then go s.flashB else bootFailed s
/-- MODULE_RESET (R437), in three stages between which BSTATE reads ROM and FIRMWARE: the reset, the ROM's part, the firmware's part, to READY or FAILED. A reset
that comes while the module boots changes nothing that the boot would not give. -/
def execModuleReset (s : State) : Host.Outcome State Fault Refusal :=
  .next (match s.boot with
    | .rom => bootRom s
    | .firmware => bootFirmware s
    | _ => afterReset s).tickFresh

/-! ### Power and heat (R441) -/

/-- The readings of a 100 µs window: module power, then the dies', in units of 0.1 W. -/
def readPower (s : State) (power : List Nat) : State :=
  (List.range 4).foldl (fun s d => s.modDie d fun p => { p with power := power.getD (d + 1) 0 }) { s with modPwr := power.getD 0 0 }
/-- The die drawing the most power, the lower number on a tie. -/
def hottest (s : State) : Nat := (List.range 4).foldl (fun b d => if (s.die b).power < (s.die d).power then d else b) 0
/-- Lowers a target by a step; at the floor of 0.8 GHz event 6 is raised. -/
def lowerPower (s : State) (d : Nat) : State :=
  if 8 < (s.die d).pTarget then s.modDie d fun p => { p with pTarget := p.pTarget - 1 } else sendEvent s 6 d (s.die d).temp 0
/-- POWER_WINDOW (R441): the end of a window; over PLIM the die drawing the most is lowered. -/
def execPowerWindow (power : List Nat) (s : State) : Host.Outcome State Fault Refusal :=
  stepIf "POWER_WINDOW" <|
    if s.boot ≠ .ready ∨ s.tripped then none
    else
      let s1 := readPower s power
      let s2 := if s1.modPwr * 100 < 95 * (10 * s1.plim) then s1 else { s1 with lowSince := s1.hubTime }
      some (if 10 * s2.plim < s2.modPwr then lowerPower s2 (hottest s2) else s2)
/-- The lowest-numbered die that the power target holds below its limit. -/
def heldDie (s : State) : Option Nat := (List.range 4).find? fun d => decide ((s.die d).pTarget < Nat.min (s.die d).clkSet (s.clkLim d))
/-- POWER_RAISE (R441): after 1 ms below 95 % of PLIM a held die is raised by a step. -/
def execPowerRaise (power : List Nat) (s : State) : Host.Outcome State Fault Refusal :=
  stepIf "POWER_RAISE" <|
    if s.boot ≠ .ready ∨ s.tripped then none
    else
      let s1 := readPower s power
      if s1.modPwr * 100 < 95 * (10 * s1.plim) ∧ s1.lowSince + 1000 * usRounds ≤ s1.hubTime then
        some (match heldDie s1 with
          | some d => { s1 with lowSince := s1.hubTime }.modDie d fun p => { p with pTarget := p.pTarget + 1 }
          | none => s1)
      else none
/-- THERMAL_STEP (R441): a reading in units of 0.125 °C; from 100 °C, until below 95 °C, one step down per 100 µs. -/
def execThermalStep (die temp : Nat) (s : State) : Host.Outcome State Fault Refusal :=
  stepIf "THERMAL_STEP" <|
    if s.boot ≠ .ready ∨ s.tripped ∨ 4 ≤ die ∨ 880 ≤ temp then none
    else
      let hot := decide (800 ≤ temp) || ((s.die die).hot && decide (760 ≤ temp))
      let due := hot && (!(s.die die).hot || decide ((s.die die).lastHot + 100 * usRounds ≤ s.hubTime))
      let s1 := s.modDie die fun p => { p with temp := temp, hot := hot }
      some (if !due then s1
        else if 8 < (s.die die).tTarget then
          s1.modDie die fun p => { p with tTarget := p.tTarget - 1, lastHot := s.hubTime }
        else sendEvent (s1.modDie die fun p => { p with lastHot := s.hubTime }) 6 die temp 0)
/-- THERMAL_TRIP (R441): from 110 °C every die stops, every link fences and the port drops its link. -/
def execThermalTrip (die temp : Nat) (s : State) : Host.Outcome State Fault Refusal :=
  stepIf "THERMAL_TRIP" <|
    if s.boot ≠ .ready ∨ s.tripped ∨ 4 ≤ die ∨ temp < 880 then none
    else
      let s1 := sendEvent (s.modDie die fun p => { p with temp := temp }) 6 die temp 0
      let s2 := (List.range 12).foldl fenceLink s1
      some { s2 with tripped := true, portUp := false, dies := s2.dies.map fun p => { p with clk := 0 } }

end Sys2Proof.Machine
end

