-- ==== Sys2Proof/Machine/Reliability.lean ====
section
/-!
DEFINITION. The cruise and confirmation (R419–R424), corrected errors and frames (R397–R399, R425), poison (R426).
-/
namespace Sys2Proof.Machine

/-! ### Cruises (R419–R423) -/

def rotAt (s : State) (e : Nat) : RotEntry := s.rot[e]?.getD RotEntry.zero
/-- Whether a rotation entry may be cruised: idle, not failed before, its last pass older than CPER/2. A gather unit is idle while no step of MGATH uses it. -/
def cruiseOk (s : State) (e : Nat) : Bool :=
  let r := rotAt s e
  let idle := if e < 160 then (s.core e).st == .free && !((s.core e).gtags.toList.any (·.held)) else !(s.unitsUsed ((e - 160) / 8)).contains e
  idle && !r.failed && decide (s.cper / 2 < s.hubTime - r.passTime)
/-- The eligible entry whose last pass is oldest, the lower number on a tie. -/
def nextCruise (s : State) : Option Nat :=
  ((List.range 192).filter (cruiseOk s)).foldl (fun b e => match b with
    | none => some e
    | some x => if (rotAt s e).passTime < (rotAt s x).passTime then some e else b) none
/-- CRUISE_START (R419). -/
def execCruiseStart (s : State) : Host.Outcome State Fault Refusal :=
  stepIf "CRUISE_START" <|
    if s.boot ≠ .ready ∨ s.tripped ∨ s.cruise.isSome then none
    else (nextCruise s).map fun e => { s with cruise := some (e, s.dieCycle 0, s.hubTime) }
/-- What a cruise leaves of a core (R420): zero granules, no tags, views, code or descriptors. -/
def Core.scanned (c : Core) : Core :=
  { c with pool := [], poison := [], fills := [], gtags := Vector.replicate 192 GTag.zero, viewL := 0#32, viewS := 0#32, cache := [],
           descs := [], descNew := [] }
/-- The length of a cruise in die cycles. -/
def cruiseLen : Nat := 42000
/-- CRUISE_COMPLETE (R420–R423): after 42,000 cycles an entry passes, and the confirmation time may move, or fails. -/
def execCruiseComplete (pass : Bool) (s : State) : Host.Outcome State Fault Refusal :=
  stepIf "CRUISE_COMPLETE" <|
    match s.cruise with
    | none => none
    | some (e, cyc, t) =>
      if s.dieCycle 0 < cyc + cruiseLen then none
      else
        let r := rotAt s e
        let s1 := { s with cruise := none }
        let s2 := if e < 160 then s1.modCore e Core.scanned else s1
        if pass then
          let r' := { r with passCycle := cyc, passTime := t, withheld := r.withheld && decide (t ≤ r.badSince) }
          some (settleConfirm (modRot s2 e fun _ => r'))
        else some (sendEvent (modRot s2 e fun r => { r with failed := true, withheld := true }) 1 e r.passCycle cyc)

/-! ### Corrected errors (R397, R425) -/

/-- 24 hours and one hour of the hub's timer. -/
def dayRounds : Nat := 86400000000 * usRounds
def hourRounds : Nat := 3600000000 * usRounds
/-- The last three errors with a new one, and whether they lie within 24 hours of the first of them. -/
def addError (now : Nat) (errs : List Nat) : List Nat × Bool :=
  let l := (errs ++ [now]).drop (errs.length - 2)
  (l, decide (l.length = 3) && decide (now ≤ l.headD 0 + dayRounds))
def Frame.zero : Frame := ⟨.inUse, [], 0, 0⟩
/-- A frame's state: WITHHELD from the reset that withheld it (R397, R400). -/
def frameOf (s : State) (f : Nat) : Frame :=
  if s.isWithheld (keyTier (131072 * f)) (keyPa (131072 * f)) then { Frame.zero with st := .withheld } else (Tab.get? s.frames f).getD Frame.zero
/-- The first spare frame that serves frame `f` and is not taken: of the same HBM stack, or of second-tier memory. -/
def freeSpare (s : State) (f : Nat) : Option Nat :=
  let taken := s.frames.filterMap fun e => if e.2.st = .moving ∨ e.2.st = .retired then some e.2.spare else none
  (spareFrames.map fun p => keyOf p.1 p.2 / 131072).find? fun k =>
    keyTier (131072 * k) == keyTier (131072 * f) && (keyTier (131072 * f) == 1 || k / 2 ^ 19 == f / 2 ^ 19) && !taken.contains k
/-- Whether the snag list has room for another frame. -/
def snagRoom (s : State) : Bool := decide (s.snag.length + (s.frames.filter fun e => e.2.st == .moving).length < 8192)
/-- A FAILING frame starts to move once a spare is free (R397). -/
def startMoving (s : State) (f : Nat) (v : Frame) : Option State :=
  match freeSpare s f with
  | some k => if snagRoom s then some { s with frames := Tab.set s.frames f { v with st := .moving, spare := k } } else none
  | none => none
def failEvent (s : State) (f : Nat) : State := sendEvent s 2 (keyPa (131072 * f)) (keyTier (131072 * f)) 0
/-- A corrected error in a memory frame. -/
def frameError (s : State) (f : Nat) : State :=
  let v := frameOf s f
  if v.st ≠ .inUse then s
  else
    let (l, third) := addError s.hubTime v.errs
    if !third then { s with frames := Tab.set s.frames f { v with errs := l } }
    else
      let v' := { v with st := .failing, errs := l, lastEvent := s.hubTime }
      let s1 := failEvent { s with frames := Tab.set s.frames f v' } f
      (startMoving s1 f v').getD s1
/-- A corrected error in a granule of a core's pool (R425). -/
def granuleError (s : State) (core g : Nat) : State :=
  let r := rotAt s core
  let (l, third) := addError s.hubTime ((Tab.get? r.errs g).getD [])
  modRot s core fun r => { r with errs := Tab.set r.errs g l, withheld := r.withheld || third, badSince := if third then s.hubTime else r.badSince }
/-- CORRECTED_ERROR (R397, R425): tiers 0 and 1 are memory frames; above, `addr` is 2^22 times the core plus the pool address. -/
def execCorrectedError (tier addr : Nat) (s : State) : Host.Outcome State Fault Refusal :=
  stepIf "CORRECTED_ERROR" <|
    if s.boot ≠ .ready ∨ s.tripped then none
    else if tier ≤ 1 then (if addr < tierLimit tier then some (frameError s (keyOf tier addr / 131072)) else none)
    else if addr / 2 ^ 22 < 160 ∧ addr % 2 ^ 22 < 3145728 then some (granuleError s (addr / 2 ^ 22) (addr % 2 ^ 22 / 16384)) else none
/-- FRAME_FAILING_REPEAT (R397): the frame moves if it now can, else the event is repeated once an hour. -/
def execFrameFailingRepeat (tier addr : Nat) (s : State) : Host.Outcome State Fault Refusal :=
  stepIf "FRAME_FAILING_REPEAT" <|
    let f := keyOf tier addr / 131072
    let v := frameOf s f
    if s.tripped ∨ v.st ≠ .failing then none
    else match startMoving s f v with
      | some s' => some s'
      | none =>
        if s.hubTime < v.lastEvent + hourRounds then none
        else some (failEvent { s with frames := Tab.set s.frames f { v with lastEvent := s.hubTime } } f)
/-- FRAME_RETIRE (R398): once no access to the frame is under way it is redirected, with its translations invalidated. -/
def execFrameRetire (tier addr : Nat) (s : State) : Host.Outcome State Fault Refusal :=
  stepIf "FRAME_RETIRE" <|
    let f := keyOf tier addr / 131072
    let v := frameOf s f
    if s.tripped ∨ v.st ≠ .moving ∨ s.accesses.any (fun a => !a.done && a.op.real && a.key / 131072 == f) then none
    else
      let leads := fun (t : TlbEntry) => pteLeaf t.leaf && pteTier t.leaf == keyTier (131072 * f) &&
        decide (pteAddr t.leaf / 131072 ≤ keyPa (131072 * f) / 131072) &&
        decide (keyPa (131072 * f) / 131072 < (pteAddr t.leaf + 2 ^ pageBits t.lv) / 131072)
      let s1 := { s with frames := Tab.set s.frames f { v with st := .retired }, tlb := s.tlb.filter (fun t => !leads t),
                         snag := s.snag ++ [(keyTier (131072 * f), keyPa (131072 * f))] }
      some (sendEvent s1 3 (keyPa (131072 * f)) (keyPa (131072 * v.spare)) 0)

/-! ### Poison (R426) -/

/-- UNCORRECTABLE_ERROR (R426): the data's check bits mark it poisoned. -/
def execUncorrectableError (t : ErrTarget) (s : State) : Host.Outcome State Fault Refusal :=
  .next (match t with
    | .line k => if s.memPoison.contains (k / 128) then s else { s with memPoison := s.memPoison ++ [k / 128] }
    | .pool c l => s.modCore c fun c => if c.poison.contains l then c else { c with poison := c.poison ++ [l] }
    | .xreg c r => s.modCore c fun c => if r = 0#6 ∨ c.xpoison.contains r then c else { c with xpoison := c.xpoison ++ [r] }
    | .kreg c r => s.modCore c fun c => if c.kpoison.contains r then c else { c with kpoison := c.kpoison ++ [r] } : State).tickFresh

end Sys2Proof.Machine
end

