-- ==== Sys2Proof/Machine/Scalar.lean ====
section
/-!
DEFINITION. The scalar instructions (R100–R104): each `opX` gives what the instruction asks of its issue cycle, each `execX` runs the bundle
that holds it alone.
-/
namespace Sys2Proof.Machine

/-! ### Shared forms -/

/-- A register-form instruction with result `f a b` after `lat` cycles. -/
def opBin (lat : Nat) (f : Word → Word → Word) (d ra rb : BitVec 6) : Op := fun s a =>
  let c := s.core a.n
  scalarIssue c a lat [ra, rb] d (f (c.rx ra) (c.rx rb)) 0#6
/-- An immediate-form instruction: b is the sign-extended immediate. -/
def opImm (f : Word → Word → Word) (d ra : BitVec 6) (i : BitVec 10) : Op := fun s a =>
  let c := s.core a.n
  scalarIssue c a 1 [ra] d (f (c.rx ra) (i.signExtend 32)) 0#6
/-- The DZ flag of the division rules (R102). -/
def divFlag (x y : Word) : Flags := if y = 0#32 ∧ x ≠ 0#32 then fDZ else 0#6
/-- A division: latency 18 (R93). -/
def opDivide (f : Word → Word → Word) (d ra rb : BitVec 6) : Op := fun s a =>
  let c := s.core a.n
  scalarIssue c a 18 [ra, rb] d (f (c.rx ra) (c.rx rb)) (divFlag (c.rx ra) (c.rx rb))
def boolWord (b : Bool) : Word := if b then 1#32 else 0#32

def aluShl (x y : Word) : Word := x <<< (y.toNat % 32)
def aluShr (x y : Word) : Word := x >>> (y.toNat % 32)
def aluSra (x y : Word) : Word := x.sshiftRight (y.toNat % 32)
def aluMulh (x y : Word) : Word := (x.signExtend 64 * y.signExtend 64).extractLsb' 32 32
def aluMulhn (x y : Word) : Word := (x.setWidth 64 * y.setWidth 64).extractLsb' 32 32
def aluDiv (x y : Word) : Word := if y = 0#32 then 0xFFFFFFFF#32 else x.sdiv y
def aluDivn (x y : Word) : Word := if y = 0#32 then 0xFFFFFFFF#32 else x / y
def aluRem (x y : Word) : Word := if y = 0#32 then x else x.srem y
def aluRemn (x y : Word) : Word := if y = 0#32 then x else x % y

/-! ### Operations -/

def opNop : Op := fun _ _ => {}
def opAdd (d a b : BitVec 6) : Op := opBin 1 (· + ·) d a b
def opSub (d a b : BitVec 6) : Op := opBin 1 (· - ·) d a b
def opAnd (d a b : BitVec 6) : Op := opBin 1 (· &&& ·) d a b
def opOr (d a b : BitVec 6) : Op := opBin 1 (· ||| ·) d a b
def opXor (d a b : BitVec 6) : Op := opBin 1 (· ^^^ ·) d a b
def opShl (d a b : BitVec 6) : Op := opBin 1 aluShl d a b
def opShr (d a b : BitVec 6) : Op := opBin 1 aluShr d a b
def opSra (d a b : BitVec 6) : Op := opBin 1 aluSra d a b
def opAddImm (d a : BitVec 6) (i : BitVec 10) : Op := opImm (· + ·) d a i
def opSubImm (d a : BitVec 6) (i : BitVec 10) : Op := opImm (· - ·) d a i
def opAndImm (d a : BitVec 6) (i : BitVec 10) : Op := opImm (· &&& ·) d a i
def opOrImm (d a : BitVec 6) (i : BitVec 10) : Op := opImm (· ||| ·) d a i
def opXorImm (d a : BitVec 6) (i : BitVec 10) : Op := opImm (· ^^^ ·) d a i
def opShlImm (d a : BitVec 6) (i : BitVec 10) : Op := opImm aluShl d a i
def opShrImm (d a : BitVec 6) (i : BitVec 10) : Op := opImm aluShr d a i
def opSraImm (d a : BitVec 6) (i : BitVec 10) : Op := opImm aluSra d a i
def opMul (d a b : BitVec 6) : Op := opBin 3 (· * ·) d a b
def opMulh (d a b : BitVec 6) : Op := opBin 3 aluMulh d a b
def opMulhn (d a b : BitVec 6) : Op := opBin 3 aluMulhn d a b
def opDiv (d a b : BitVec 6) : Op := opDivide aluDiv d a b
def opDivn (d a b : BitVec 6) : Op := opDivide aluDivn d a b
def opRem (d a b : BitVec 6) : Op := opDivide aluRem d a b
def opRemn (d a b : BitVec 6) : Op := opDivide aluRemn d a b
def opMin (d a b : BitVec 6) : Op := opBin 1 (fun x y => if x.slt y then x else y) d a b
def opMax (d a b : BitVec 6) : Op := opBin 1 (fun x y => if x.slt y then y else x) d a b
def opMinn (d a b : BitVec 6) : Op := opBin 1 (fun x y => if x < y then x else y) d a b
def opMaxn (d a b : BitVec 6) : Op := opBin 1 (fun x y => if x < y then y else x) d a b
def opSeq (d a b : BitVec 6) : Op := opBin 1 (fun x y => boolWord (x == y)) d a b
def opSne (d a b : BitVec 6) : Op := opBin 1 (fun x y => boolWord (x != y)) d a b
def opSlt (d a b : BitVec 6) : Op := opBin 1 (fun x y => boolWord (x.slt y)) d a b
def opSltn (d a b : BitVec 6) : Op := opBin 1 (fun x y => boolWord (decide (x < y))) d a b
/-- SEL reads its own destination as the condition (R103). -/
def opSel (d ra rb : BitVec 6) : Op := fun s a =>
  let c := s.core a.n
  scalarIssue c a 1 [d, ra, rb] d (if c.rx d ≠ 0#32 then c.rx ra else c.rx rb) 0#6
def opClz (d ra : BitVec 6) : Op := fun s a =>
  let c := s.core a.n
  scalarIssue c a 1 [ra] d (BitVec.ofNat 32 (leadingZeros 32 (c.rx ra).toNat)) 0#6
def opPopc (d ra : BitVec 6) : Op := fun s a =>
  let c := s.core a.n
  scalarIssue c a 1 [ra] d (BitVec.ofNat 32 (popCount 32 (c.rx ra).toNat)) 0#6
/-- ADDP and SUBP (R103). -/
def opPair (f : DWord → DWord → DWord) (d ra rb : BitVec 6) : Op := fun s a =>
  let c := s.core a.n
  pairIssue c a 1 (bothOf ra ++ bothOf rb) d (f (c.rpair ra) (c.rpair rb))
def opAddp (d a b : BitVec 6) : Op := opPair (· + ·) d a b
def opSubp (d a b : BitVec 6) : Op := opPair (· - ·) d a b
def opLi (d : BitVec 6) (imm : BitVec 32) : Op := fun s a => scalarIssue (s.core a.n) a 1 [] d imm 0#6
def opLa (d : BitVec 6) (imm : BitVec 32) : Op := fun s a => pairIssue (s.core a.n) a 1 [] d (a.addr + imm.signExtend 64)

/-! ### Meanings -/

def execNop (s : State) : Host.Outcome State Fault Refusal := runSolo .nop opNop s
def execAdd (d a b : BitVec 6) (s : State) : Host.Outcome State Fault Refusal := runSolo (.add d a b) (opAdd d a b) s
def execSub (d a b : BitVec 6) (s : State) : Host.Outcome State Fault Refusal := runSolo (.sub d a b) (opSub d a b) s
def execAnd (d a b : BitVec 6) (s : State) : Host.Outcome State Fault Refusal := runSolo (.and d a b) (opAnd d a b) s
def execOr (d a b : BitVec 6) (s : State) : Host.Outcome State Fault Refusal := runSolo (.or d a b) (opOr d a b) s
def execXor (d a b : BitVec 6) (s : State) : Host.Outcome State Fault Refusal := runSolo (.xor d a b) (opXor d a b) s
def execShl (d a b : BitVec 6) (s : State) : Host.Outcome State Fault Refusal := runSolo (.shl d a b) (opShl d a b) s
def execShr (d a b : BitVec 6) (s : State) : Host.Outcome State Fault Refusal := runSolo (.shr d a b) (opShr d a b) s
def execSra (d a b : BitVec 6) (s : State) : Host.Outcome State Fault Refusal := runSolo (.sra d a b) (opSra d a b) s
def execAddImm (d a : BitVec 6) (i : BitVec 10) (s : State) : Host.Outcome State Fault Refusal := runSolo (.addImm d a i) (opAddImm d a i) s
def execSubImm (d a : BitVec 6) (i : BitVec 10) (s : State) : Host.Outcome State Fault Refusal := runSolo (.subImm d a i) (opSubImm d a i) s
def execAndImm (d a : BitVec 6) (i : BitVec 10) (s : State) : Host.Outcome State Fault Refusal := runSolo (.andImm d a i) (opAndImm d a i) s
def execOrImm (d a : BitVec 6) (i : BitVec 10) (s : State) : Host.Outcome State Fault Refusal := runSolo (.orImm d a i) (opOrImm d a i) s
def execXorImm (d a : BitVec 6) (i : BitVec 10) (s : State) : Host.Outcome State Fault Refusal := runSolo (.xorImm d a i) (opXorImm d a i) s
def execShlImm (d a : BitVec 6) (i : BitVec 10) (s : State) : Host.Outcome State Fault Refusal := runSolo (.shlImm d a i) (opShlImm d a i) s
def execShrImm (d a : BitVec 6) (i : BitVec 10) (s : State) : Host.Outcome State Fault Refusal := runSolo (.shrImm d a i) (opShrImm d a i) s
def execSraImm (d a : BitVec 6) (i : BitVec 10) (s : State) : Host.Outcome State Fault Refusal := runSolo (.sraImm d a i) (opSraImm d a i) s
def execMul (d a b : BitVec 6) (s : State) : Host.Outcome State Fault Refusal := runSolo (.mul d a b) (opMul d a b) s
def execMulh (d a b : BitVec 6) (s : State) : Host.Outcome State Fault Refusal := runSolo (.mulh d a b) (opMulh d a b) s
def execMulhn (d a b : BitVec 6) (s : State) : Host.Outcome State Fault Refusal := runSolo (.mulhn d a b) (opMulhn d a b) s
def execDiv (d a b : BitVec 6) (s : State) : Host.Outcome State Fault Refusal := runSolo (.div d a b) (opDiv d a b) s
def execDivn (d a b : BitVec 6) (s : State) : Host.Outcome State Fault Refusal := runSolo (.divn d a b) (opDivn d a b) s
def execRem (d a b : BitVec 6) (s : State) : Host.Outcome State Fault Refusal := runSolo (.rem d a b) (opRem d a b) s
def execRemn (d a b : BitVec 6) (s : State) : Host.Outcome State Fault Refusal := runSolo (.remn d a b) (opRemn d a b) s
def execMin (d a b : BitVec 6) (s : State) : Host.Outcome State Fault Refusal := runSolo (.min d a b) (opMin d a b) s
def execMax (d a b : BitVec 6) (s : State) : Host.Outcome State Fault Refusal := runSolo (.max d a b) (opMax d a b) s
def execMinn (d a b : BitVec 6) (s : State) : Host.Outcome State Fault Refusal := runSolo (.minn d a b) (opMinn d a b) s
def execMaxn (d a b : BitVec 6) (s : State) : Host.Outcome State Fault Refusal := runSolo (.maxn d a b) (opMaxn d a b) s
def execSeq (d a b : BitVec 6) (s : State) : Host.Outcome State Fault Refusal := runSolo (.seq d a b) (opSeq d a b) s
def execSne (d a b : BitVec 6) (s : State) : Host.Outcome State Fault Refusal := runSolo (.sne d a b) (opSne d a b) s
def execSlt (d a b : BitVec 6) (s : State) : Host.Outcome State Fault Refusal := runSolo (.slt d a b) (opSlt d a b) s
def execSltn (d a b : BitVec 6) (s : State) : Host.Outcome State Fault Refusal := runSolo (.sltn d a b) (opSltn d a b) s
def execSel (d a b : BitVec 6) (s : State) : Host.Outcome State Fault Refusal := runSolo (.sel d a b) (opSel d a b) s
def execClz (d a : BitVec 6) (s : State) : Host.Outcome State Fault Refusal := runSolo (.clz d a) (opClz d a) s
def execPopc (d a : BitVec 6) (s : State) : Host.Outcome State Fault Refusal := runSolo (.popc d a) (opPopc d a) s
def execAddp (d a b : BitVec 6) (s : State) : Host.Outcome State Fault Refusal := runSolo (.addp d a b) (opAddp d a b) s
def execSubp (d a b : BitVec 6) (s : State) : Host.Outcome State Fault Refusal := runSolo (.subp d a b) (opSubp d a b) s
def execLi (d : BitVec 6) (imm : BitVec 32) (s : State) : Host.Outcome State Fault Refusal := runSolo (.li d imm) (opLi d imm) s
def execLa (d : BitVec 6) (imm : BitVec 32) (s : State) : Host.Outcome State Fault Refusal := runSolo (.la d imm) (opLa d imm) s

end Sys2Proof.Machine
end

