-- ==== Sys2Proof/Machine/Vector.lean ====
section
/-!
DEFINITION. The vector instructions (R128–R155): operand fetch, timing and write-back around the arithmetic of VecAlu.
-/
namespace Sys2Proof.Machine

/-! ### Shared forms -/

def vType (o : VOps) : ElemT := (ElemT.ofCode o.t).getD .f32
/-- The environment of an operation: FN[1:0] overrides the rounding mode (R29). -/
def vEnv (s : State) (n : Nat) (o : VOps) : VEnv :=
  let c := s.core n
  ⟨vType o, RMode.ofFn (o.fn.extractLsb' 0 2) c.rmode, o.sat == 1#1, readPred s n o.pk, c.fmte⟩
/-- Latency of the operations whose float and integer forms differ (R130). -/
def vLat (o : VOps) : Nat := if (vType o).int?.isSome then 2 else 4

/-- What every V instruction with a vector destination asks; `two` and `acc` say whether source B and the old destination are read,
`f` computes the result from the sources. -/
def vIssue (s : State) (a : At) (o : VOps) (lat : Nat) (two acc : Bool) (f : VEnv → VReg → VReg → VReg → VOut) : Issue :=
  let c := s.core a.n
  let t := vType o
  let bad := vIll c o.vd || srcIll c o.ka o.a || (two && srcIll c o.kb o.b)
  let bv := if two then srcVal s a.n t o.kb o.b else 0#4096
  let r := f (vEnv s a.n o) (srcVal s a.n t o.ka o.a) bv (if acc then readV s a.n o.vd else 0#4096)
  { reads := srcRegs t o.ka o.a ++ (if two then srcRegs t o.kb o.b else []),
    ill := if bad then some 7 else none,
    flights := [flightAt c a lat r.flags (.vreg o.vd r.val r.lanes)],
    wports := [⟨c.ic + lat, .v o.vd⟩],
    uses := { rregs := srcUse o.ka o.a ++ (if two then srcUse o.kb o.b else []) ++ (if acc then [.v o.vd] else []) ++ predUse o.pk,
              wregs := [.v o.vd] } }
def op1 (lat : VOps → Nat) (f : VOps → VEnv → VReg → VOut) (o : VOps) : Op := fun s a =>
  vIssue s a o (lat o) false false fun e x _ _ => f o e x
def op2 (lat : VOps → Nat) (f : VOps → VEnv → VReg → VReg → VOut) (o : VOps) : Op := fun s a =>
  vIssue s a o (lat o) true false fun e x y _ => f o e x y
def op3 (lat : VOps → Nat) (f : VOps → VEnv → VReg → VReg → VReg → VOut) (o : VOps) : Op := fun s a =>
  vIssue s a o (lat o) true true fun e x y z => f o e x y z
def lat2 : VOps → Nat := fun _ => 2
def lat5 : VOps → Nat := fun _ => 5
def lat8 : VOps → Nat := fun _ => 8
def lat12 : VOps → Nat := fun _ => 12
/-- An instruction that writes mask VD[2:0]. -/
def kIssue (c : Core) (a : At) (o : VOps) (reads : List (BitVec 6)) (ill : Bool) (rregs : List WTarget) (v en : Mask) (fl : Flags) : Issue :=
  let d : BitVec 3 := o.vd.extractLsb' 0 3
  { reads := reads, ill := if ill then some 7 else none, flights := [flightAt c a 2 fl (.kreg d v en)],
    wports := [⟨c.ic + 2, .k d⟩], uses := { rregs := rregs ++ predUse o.pk, wregs := [.k d] } }
/-- VROT's count (R149). A scalar or constant source of VROT.c32 must be even, as R71 asks of c32, and its even register or entry alone is read as the count
(DESIGN CHOICE, log 124). -/
def rotCount (c : Core) (o : VOps) : Int :=
  match o.kb.toNat with
  | 1 => ((c.rx (o.b.extractLsb' 0 6)).toNat : Int)
  | 2 => ((c.constAt o.b.toNat).toNat : Int)
  | _ => o.b.toInt

/-! ### Operations -/

def opVadd (o : VOps) : Op := op2 vLat (fun _ e x y => vArith .add e x y 0#4096) o
def opVsub (o : VOps) : Op := op2 vLat (fun _ e x y => vArith .sub e x y 0#4096) o
def opVmul (o : VOps) : Op := op2 vLat (fun _ e x y => vArith .mul e x y 0#4096) o
def opVfma (o : VOps) : Op := op3 vLat (fun _ e x y z => vArith .fma e x y z) o
def opVfms (o : VOps) : Op := op3 vLat (fun _ e x y z => vArith .fms e x y z) o
def opVfnma (o : VOps) : Op := op3 vLat (fun _ e x y z => vArith .fnma e x y z) o
def opVmin (o : VOps) : Op := op2 lat2 (fun _ e x y => vMinMax false e x y) o
def opVmax (o : VOps) : Op := op2 lat2 (fun _ e x y => vMinMax true e x y) o
def opVabs (o : VOps) : Op := op1 lat2 (fun _ e x => vAbs e x) o
def opVneg (o : VOps) : Op := op1 lat2 (fun _ e x => vNeg e x) o
def opVcmp (o : VOps) : Op := fun s a =>
  let c := s.core a.n
  let t := vType o
  let e := vEnv s a.n o
  let (m, fl) := vCmp e (o.fn.extractLsb' 0 3) (o.fn.getLsbD 3) (srcVal s a.n t o.ka o.a) (srcVal s a.n t o.kb o.b)
  kIssue c a o (srcRegs t o.ka o.a ++ srcRegs t o.kb o.b) (srcIll c o.ka o.a || srcIll c o.kb o.b)
    (srcUse o.ka o.a ++ srcUse o.kb o.b) m e.pred fl
def opVsel (o : VOps) : Op := fun s a =>
  let m := o.fn.extractLsb' 0 3
  let i := vIssue s a o 2 true false fun e x y _ => vSel e (readK s a.n m) x y
  { i with uses := { i.uses with rregs := .k m :: i.uses.rregs } }
def opVrcp (o : VOps) : Op := op1 lat12 (fun _ e x => vTransc .rcp e x) o
def opVrsq (o : VOps) : Op := op1 lat12 (fun _ e x => vTransc .rsq e x) o
def opVexp2 (o : VOps) : Op := op1 lat12 (fun _ e x => vTransc .exp2 e x) o
def opVlog2 (o : VOps) : Op := op1 lat12 (fun _ e x => vTransc .log2 e x) o
def opVsinp (o : VOps) : Op := op1 lat12 (fun _ e x => vTransc .sinp e x) o
def opVcosp (o : VOps) : Op := op1 lat12 (fun _ e x => vTransc .cosp e x) o
def opVcvt (o : VOps) : Op :=
  op1 lat5 (fun o e x => vCvt e ((ElemT.ofCode (o.b.extractLsb' 0 4)).getD .f32) (o.fn.extractLsb' 2 2).toNat x) o
def opVpackbx (o : VOps) : Op := op1 lat5 (fun o e x => vPackBx e (o.fn.getLsbD 3) (o.fn.extractLsb' 0 3).toNat x) o
def opVunpbx (o : VOps) : Op := op2 lat5 (fun o e x y => vUnpBx e (o.fn.extractLsb' 0 3).toNat x y) o
def opVmulh (o : VOps) : Op := op2 lat2 (fun _ e x y => vMulH e x y) o
def opVshl (o : VOps) : Op := op2 lat2 (fun _ e x y => vShl e x y) o
def opVshr (o : VOps) : Op := op2 lat2 (fun _ e x y => vShr e x y) o
def opVsra (o : VOps) : Op := op2 lat2 (fun _ e x y => vSra e x y) o
def opVfshl (o : VOps) : Op := op3 lat2 (fun _ e x y z => vFshl e x y z) o
def opVfshr (o : VOps) : Op := op3 lat2 (fun _ e x y z => vFshr e x y z) o
/-- VTLOG: A and B name vector registers, their kind tags hold the table's high bits (R65, R145). -/
def opVtlog (o : VOps) : Op := fun s a =>
  vIssue s a { o with ka := 0#2, kb := 0#2 } 2 true true fun e x y z => vTlog e (o.ka ++ o.kb ++ o.fn) x y z
def opVpopc (o : VOps) : Op := op1 lat2 (fun _ e x => vPopc e x) o
def opVclz (o : VOps) : Op := op1 lat2 (fun _ e x => vClz e x) o
def opVmov (o : VOps) : Op := op1 lat2 (fun _ e x => vMov e x) o
def opVperm (o : VOps) : Op := op2 lat2 (fun o e x y => vPerm e (o.fn.getLsbD 0) x y) o
/-- VROT: source B is a count, read as one scalar, a constant entry or a literal. -/
def opVrot (o : VOps) : Op := fun s a =>
  let c := s.core a.n
  let i := vIssue s a o 2 false false fun e x _ _ => vRot e (rotCount c o) x
  { i with reads := i.reads ++ (if o.kb = 1#2 then [o.b.extractLsb' 0 6] else []) }
def opViota (o : VOps) : Op := op2 lat2 (fun _ e x y => vIota e x y) o
def opVred (o : VOps) : Op := op1 lat8 (fun o e x => vRed e (o.fn.extractLsb' 2 2).toNat x) o
def opVscan (o : VOps) : Op := op1 lat8 (fun o e x => vScan e (o.fn.extractLsb' 2 2).toNat x) o
def opVcmul (o : VOps) : Op := fun s a =>
  vIssue s a o 4 true (o.fn.getLsbD 3) fun e x y z => vCmul e (o.fn.getLsbD 3) (o.fn.getLsbD 2) x y z
def opVklog (o : VOps) : Op := fun s a =>
  let ka := o.a.extractLsb' 0 3
  let kb := o.b.extractLsb' 0 3
  kIssue (s.core a.n) a o [] false [.k ka, .k kb] (vKlog o.fn (readK s a.n ka) (readK s a.n kb)) (readPred s a.n o.pk) 0#6
def opVkpop (o : VOps) : Op := fun s a =>
  let ka := o.a.extractLsb' 0 3
  let i := scalarIssue (s.core a.n) a 2 [] (o.vd.extractLsb' 0 6) (vKpop (o.fn.getLsbD 0) (readK s a.n ka)) 0#6
  { i with uses := { rregs := [.k ka] } }

/-! ### Meanings -/

def execVadd (o : VOps) (s : State) : Host.Outcome State Fault Refusal := runSolo (.vadd o) (opVadd o) s
def execVsub (o : VOps) (s : State) : Host.Outcome State Fault Refusal := runSolo (.vsub o) (opVsub o) s
def execVmul (o : VOps) (s : State) : Host.Outcome State Fault Refusal := runSolo (.vmul o) (opVmul o) s
def execVfma (o : VOps) (s : State) : Host.Outcome State Fault Refusal := runSolo (.vfma o) (opVfma o) s
def execVfms (o : VOps) (s : State) : Host.Outcome State Fault Refusal := runSolo (.vfms o) (opVfms o) s
def execVfnma (o : VOps) (s : State) : Host.Outcome State Fault Refusal := runSolo (.vfnma o) (opVfnma o) s
def execVmin (o : VOps) (s : State) : Host.Outcome State Fault Refusal := runSolo (.vmin o) (opVmin o) s
def execVmax (o : VOps) (s : State) : Host.Outcome State Fault Refusal := runSolo (.vmax o) (opVmax o) s
def execVabs (o : VOps) (s : State) : Host.Outcome State Fault Refusal := runSolo (.vabs o) (opVabs o) s
def execVneg (o : VOps) (s : State) : Host.Outcome State Fault Refusal := runSolo (.vneg o) (opVneg o) s
def execVcmp (o : VOps) (s : State) : Host.Outcome State Fault Refusal := runSolo (.vcmp o) (opVcmp o) s
def execVsel (o : VOps) (s : State) : Host.Outcome State Fault Refusal := runSolo (.vsel o) (opVsel o) s
def execVrcp (o : VOps) (s : State) : Host.Outcome State Fault Refusal := runSolo (.vrcp o) (opVrcp o) s
def execVrsq (o : VOps) (s : State) : Host.Outcome State Fault Refusal := runSolo (.vrsq o) (opVrsq o) s
def execVexp2 (o : VOps) (s : State) : Host.Outcome State Fault Refusal := runSolo (.vexp2 o) (opVexp2 o) s
def execVlog2 (o : VOps) (s : State) : Host.Outcome State Fault Refusal := runSolo (.vlog2 o) (opVlog2 o) s
def execVsinp (o : VOps) (s : State) : Host.Outcome State Fault Refusal := runSolo (.vsinp o) (opVsinp o) s
def execVcosp (o : VOps) (s : State) : Host.Outcome State Fault Refusal := runSolo (.vcosp o) (opVcosp o) s
def execVcvt (o : VOps) (s : State) : Host.Outcome State Fault Refusal := runSolo (.vcvt o) (opVcvt o) s
def execVpackbx (o : VOps) (s : State) : Host.Outcome State Fault Refusal := runSolo (.vpackbx o) (opVpackbx o) s
def execVunpbx (o : VOps) (s : State) : Host.Outcome State Fault Refusal := runSolo (.vunpbx o) (opVunpbx o) s
def execVmulh (o : VOps) (s : State) : Host.Outcome State Fault Refusal := runSolo (.vmulh o) (opVmulh o) s
def execVshl (o : VOps) (s : State) : Host.Outcome State Fault Refusal := runSolo (.vshl o) (opVshl o) s
def execVshr (o : VOps) (s : State) : Host.Outcome State Fault Refusal := runSolo (.vshr o) (opVshr o) s
def execVsra (o : VOps) (s : State) : Host.Outcome State Fault Refusal := runSolo (.vsra o) (opVsra o) s
def execVfshl (o : VOps) (s : State) : Host.Outcome State Fault Refusal := runSolo (.vfshl o) (opVfshl o) s
def execVfshr (o : VOps) (s : State) : Host.Outcome State Fault Refusal := runSolo (.vfshr o) (opVfshr o) s
def execVtlog (o : VOps) (s : State) : Host.Outcome State Fault Refusal := runSolo (.vtlog o) (opVtlog o) s
def execVpopc (o : VOps) (s : State) : Host.Outcome State Fault Refusal := runSolo (.vpopc o) (opVpopc o) s
def execVclz (o : VOps) (s : State) : Host.Outcome State Fault Refusal := runSolo (.vclz o) (opVclz o) s
def execVmov (o : VOps) (s : State) : Host.Outcome State Fault Refusal := runSolo (.vmov o) (opVmov o) s
def execVperm (o : VOps) (s : State) : Host.Outcome State Fault Refusal := runSolo (.vperm o) (opVperm o) s
def execVrot (o : VOps) (s : State) : Host.Outcome State Fault Refusal := runSolo (.vrot o) (opVrot o) s
def execViota (o : VOps) (s : State) : Host.Outcome State Fault Refusal := runSolo (.viota o) (opViota o) s
def execVred (o : VOps) (s : State) : Host.Outcome State Fault Refusal := runSolo (.vred o) (opVred o) s
def execVscan (o : VOps) (s : State) : Host.Outcome State Fault Refusal := runSolo (.vscan o) (opVscan o) s
def execVcmul (o : VOps) (s : State) : Host.Outcome State Fault Refusal := runSolo (.vcmul o) (opVcmul o) s
def execVklog (o : VOps) (s : State) : Host.Outcome State Fault Refusal := runSolo (.vklog o) (opVklog o) s
def execVkpop (o : VOps) (s : State) : Host.Outcome State Fault Refusal := runSolo (.vkpop o) (opVkpop o) s

end Sys2Proof.Machine
end

