-- ==== Sys2Proof/Machine/Dispatch.lean ====
section
/-!
DEFINITION. The dispatcher: one arm for each operation and event of spec/opcode_table.json.
-/
namespace Sys2Proof.Machine

/-- The meaning of an operation or event. -/
def exec (i : Instr) (s : State) : Host.Outcome State Fault Refusal :=
  match i with
  | .add d a b => Sys2Proof.Machine.execAdd d a b s
  | .sub d a b => Sys2Proof.Machine.execSub d a b s
  | .and d a b => Sys2Proof.Machine.execAnd d a b s
  | .or d a b => Sys2Proof.Machine.execOr d a b s
  | .xor d a b => Sys2Proof.Machine.execXor d a b s
  | .shl d a b => Sys2Proof.Machine.execShl d a b s
  | .shr d a b => Sys2Proof.Machine.execShr d a b s
  | .sra d a b => Sys2Proof.Machine.execSra d a b s
  | .addImm d a imm => Sys2Proof.Machine.execAddImm d a imm s
  | .subImm d a imm => Sys2Proof.Machine.execSubImm d a imm s
  | .andImm d a imm => Sys2Proof.Machine.execAndImm d a imm s
  | .orImm d a imm => Sys2Proof.Machine.execOrImm d a imm s
  | .xorImm d a imm => Sys2Proof.Machine.execXorImm d a imm s
  | .shlImm d a imm => Sys2Proof.Machine.execShlImm d a imm s
  | .shrImm d a imm => Sys2Proof.Machine.execShrImm d a imm s
  | .sraImm d a imm => Sys2Proof.Machine.execSraImm d a imm s
  | .mul d a b => Sys2Proof.Machine.execMul d a b s
  | .mulh d a b => Sys2Proof.Machine.execMulh d a b s
  | .mulhn d a b => Sys2Proof.Machine.execMulhn d a b s
  | .div d a b => Sys2Proof.Machine.execDiv d a b s
  | .divn d a b => Sys2Proof.Machine.execDivn d a b s
  | .rem d a b => Sys2Proof.Machine.execRem d a b s
  | .remn d a b => Sys2Proof.Machine.execRemn d a b s
  | .min d a b => Sys2Proof.Machine.execMin d a b s
  | .max d a b => Sys2Proof.Machine.execMax d a b s
  | .minn d a b => Sys2Proof.Machine.execMinn d a b s
  | .maxn d a b => Sys2Proof.Machine.execMaxn d a b s
  | .seq d a b => Sys2Proof.Machine.execSeq d a b s
  | .sne d a b => Sys2Proof.Machine.execSne d a b s
  | .slt d a b => Sys2Proof.Machine.execSlt d a b s
  | .sltn d a b => Sys2Proof.Machine.execSltn d a b s
  | .sel d a b => Sys2Proof.Machine.execSel d a b s
  | .clz d a => Sys2Proof.Machine.execClz d a s
  | .popc d a => Sys2Proof.Machine.execPopc d a s
  | .addp d a b => Sys2Proof.Machine.execAddp d a b s
  | .subp d a b => Sys2Proof.Machine.execSubp d a b s
  | .callx a => Sys2Proof.Machine.execCallx a s
  | .ret a => Sys2Proof.Machine.execRet a s
  | .jx a => Sys2Proof.Machine.execJx a s
  | .lmark imm => Sys2Proof.Machine.execLmark imm s
  | .li d imm => Sys2Proof.Machine.execLi d imm s
  | .la d imm => Sys2Proof.Machine.execLa d imm s
  | .bra imm => Sys2Proof.Machine.execBra imm s
  | .beq a b imm => Sys2Proof.Machine.execBeq a b imm s
  | .bne a b imm => Sys2Proof.Machine.execBne a b imm s
  | .blt a b imm => Sys2Proof.Machine.execBlt a b imm s
  | .bge a b imm => Sys2Proof.Machine.execBge a b imm s
  | .bltn a b imm => Sys2Proof.Machine.execBltn a b imm s
  | .bgen a b imm => Sys2Proof.Machine.execBgen a b imm s
  | .call imm => Sys2Proof.Machine.execCall imm s
  | .calli imm => Sys2Proof.Machine.execCalli imm s
  | .loop f4 a imm => Sys2Proof.Machine.execLoop f4 a imm s
  | .loopx f4 a b imm => Sys2Proof.Machine.execLoopx f4 a b imm s
  | .mfs d sys => Sys2Proof.Machine.execMfs d sys s
  | .mts d sys => Sys2Proof.Machine.execMts d sys s
  | .trap code => Sys2Proof.Machine.execTrap code s
  | .waitq d => Sys2Proof.Machine.execWaitq d s
  | .fwait d => Sys2Proof.Machine.execFwait d s
  | .carve d => Sys2Proof.Machine.execCarve d s
  | .vadd o => Sys2Proof.Machine.execVadd o s
  | .vsub o => Sys2Proof.Machine.execVsub o s
  | .vmul o => Sys2Proof.Machine.execVmul o s
  | .vfma o => Sys2Proof.Machine.execVfma o s
  | .vfms o => Sys2Proof.Machine.execVfms o s
  | .vfnma o => Sys2Proof.Machine.execVfnma o s
  | .vmin o => Sys2Proof.Machine.execVmin o s
  | .vmax o => Sys2Proof.Machine.execVmax o s
  | .vabs o => Sys2Proof.Machine.execVabs o s
  | .vneg o => Sys2Proof.Machine.execVneg o s
  | .vcmp o => Sys2Proof.Machine.execVcmp o s
  | .vsel o => Sys2Proof.Machine.execVsel o s
  | .vrcp o => Sys2Proof.Machine.execVrcp o s
  | .vrsq o => Sys2Proof.Machine.execVrsq o s
  | .vexp2 o => Sys2Proof.Machine.execVexp2 o s
  | .vlog2 o => Sys2Proof.Machine.execVlog2 o s
  | .vsinp o => Sys2Proof.Machine.execVsinp o s
  | .vcosp o => Sys2Proof.Machine.execVcosp o s
  | .vcvt o => Sys2Proof.Machine.execVcvt o s
  | .vpackbx o => Sys2Proof.Machine.execVpackbx o s
  | .vunpbx o => Sys2Proof.Machine.execVunpbx o s
  | .vmulh o => Sys2Proof.Machine.execVmulh o s
  | .vshl o => Sys2Proof.Machine.execVshl o s
  | .vshr o => Sys2Proof.Machine.execVshr o s
  | .vsra o => Sys2Proof.Machine.execVsra o s
  | .vfshl o => Sys2Proof.Machine.execVfshl o s
  | .vfshr o => Sys2Proof.Machine.execVfshr o s
  | .vtlog o => Sys2Proof.Machine.execVtlog o s
  | .vpopc o => Sys2Proof.Machine.execVpopc o s
  | .vclz o => Sys2Proof.Machine.execVclz o s
  | .vmov o => Sys2Proof.Machine.execVmov o s
  | .vperm o => Sys2Proof.Machine.execVperm o s
  | .vrot o => Sys2Proof.Machine.execVrot o s
  | .viota o => Sys2Proof.Machine.execViota o s
  | .vred o => Sys2Proof.Machine.execVred o s
  | .vscan o => Sys2Proof.Machine.execVscan o s
  | .vcmul o => Sys2Proof.Machine.execVcmul o s
  | .vklog o => Sys2Proof.Machine.execVklog o s
  | .vkpop o => Sys2Proof.Machine.execVkpop o s
  | .zzero zd => Sys2Proof.Machine.execZzero zd s
  | .zld zd xa f4 => Sys2Proof.Machine.execZld zd xa f4 s
  | .zst zd xa f4 => Sys2Proof.Machine.execZst zd xa f4 s
  | .zrd zd xa xb f4 => Sys2Proof.Machine.execZrd zd xa xb f4 s
  | .zrds zd xa xb f4 => Sys2Proof.Machine.execZrds zd xa xb f4 s
  | .zwm zd xa => Sys2Proof.Machine.execZwm zd xa s
  | .zmma o => Sys2Proof.Machine.execZmma o s
  | .bfset zd xa f4 => Sys2Proof.Machine.execBfset zd xa f4 s
  | .bfly o => Sys2Proof.Machine.execBfly o s
  | .bfch o => Sys2Proof.Machine.execBfch o s
  | .fmtw xa => Sys2Proof.Machine.execFmtw xa s
  | .sld o => Sys2Proof.Machine.execSld o s
  | .sst o => Sys2Proof.Machine.execSst o s
  | .sldx o => Sys2Proof.Machine.execSldx o s
  | .sstx o => Sys2Proof.Machine.execSstx o s
  | .slw o => Sys2Proof.Machine.execSlw o s
  | .ssw o => Sys2Proof.Machine.execSsw o s
  | .samo o => Sys2Proof.Machine.execSamo o s
  | .gld o => Sys2Proof.Machine.execGld o s
  | .gst o => Sys2Proof.Machine.execGst o s
  | .gamo o => Sys2Proof.Machine.execGamo o s
  | .enq o => Sys2Proof.Machine.execEnq o s
  | .deq o => Sys2Proof.Machine.execDeq o s
  | .fetch o => Sys2Proof.Machine.execFetch o s
  | .fetchLand d n => Sys2Proof.Machine.execFetchLand d n s
  | .wback o => Sys2Proof.Machine.execWback o s
  | .fence ord scope => Sys2Proof.Machine.execFence ord scope s
  | .xfence p q scope => Sys2Proof.Machine.execXfence p q scope s
  | .retain d bp imm xi => Sys2Proof.Machine.execRetain d bp imm xi s
  | .unpin d bp imm xi => Sys2Proof.Machine.execUnpin d bp imm xi s
  | .barm o => Sys2Proof.Machine.execBarm o s
  | .bara o => Sys2Proof.Machine.execBara o s
  | .barw o => Sys2Proof.Machine.execBarw o s
  | .mconv o => Sys2Proof.Machine.execMconv o s
  | .mmul o => Sys2Proof.Machine.execMmul o s
  | .mattn o => Sys2Proof.Machine.execMattn o s
  | .mpool o => Sys2Proof.Machine.execMpool o s
  | .msort o => Sys2Proof.Machine.execMsort o s
  | .mcopy o => Sys2Proof.Machine.execMcopy o s
  | .mgath o => Sys2Proof.Machine.execMgath o s
  | .mmap o => Sys2Proof.Machine.execMmap o s
  | .mbfly o => Sys2Proof.Machine.execMbfly o s
  | .xcp o => Sys2Proof.Machine.execXcp o s
  | .xmc o => Sys2Proof.Machine.execXmc o s
  | .mxt o => Sys2Proof.Machine.execMxt o s
  | .mwait tag fl => Sys2Proof.Machine.execMwait tag fl s
  | .mstat tag bp => Sys2Proof.Machine.execMstat tag bp s
  | .tdw bp td0 p3 => Sys2Proof.Machine.execTdw bp td0 p3 s
  | .tdr bp td0 p3 => Sys2Proof.Machine.execTdr bp td0 p3 s
  | .tdinv td0 => Sys2Proof.Machine.execTdinv td0 s
  | .mgate o => Sys2Proof.Machine.execMgate o s
  | .mixch o => Sys2Proof.Machine.execMixch o s
  | .mcoll o => Sys2Proof.Machine.execMcoll o s
  | .pendingLoadReturn core job => Sys2Proof.Machine.execPendingLoadReturn core job s
  | .vectorFillDone core job => Sys2Proof.Machine.execVectorFillDone core job s
  | .codeCacheFill core => Sys2Proof.Machine.execCodeCacheFill core s
  | .fetchEngineComplete core job => Sys2Proof.Machine.execFetchEngineComplete core job s
  | .onDieCopyStart core id => Sys2Proof.Machine.execOnDieCopyStart core id s
  | .onDieCopyLand core id dst => Sys2Proof.Machine.execOnDieCopyLand core id dst s
  | .mxtEntryStart core tag => Sys2Proof.Machine.execMxtEntryStart core tag s
  | .timing core tag => Sys2Proof.Machine.execTiming core tag s
  | .macroStep core slot => Sys2Proof.Machine.execMacroStep core slot s
  | .macroWritesAck core slot => Sys2Proof.Machine.execMacroWritesAck core slot s
  | .macroHalt core slot reason => Sys2Proof.Machine.execMacroHalt core slot reason s
  | .exchangeStep core slot => Sys2Proof.Machine.execExchangeStep core slot s
  | .mcollStep core slot => Sys2Proof.Machine.execMcollStep core slot s
  | .barrierArrival id => Sys2Proof.Machine.execBarrierArrival id s
  | .engineArrival id => Sys2Proof.Machine.execEngineArrival id s
  | .barwWake core job => Sys2Proof.Machine.execBarwWake core job s
  | .syncRelease gid => Sys2Proof.Machine.execSyncRelease gid s
  | .waitqWake core => Sys2Proof.Machine.execWaitqWake core s
  | .groupPreempt gid => Sys2Proof.Machine.execGroupPreempt gid s
  | .groupResume gid => Sys2Proof.Machine.execGroupResume gid s
  | .placement gid => Sys2Proof.Machine.execPlacement gid s
  | .claim core => Sys2Proof.Machine.execClaim core s
  | .agingReservation gid => Sys2Proof.Machine.execAgingReservation gid s
  | .quantExpiry gid => Sys2Proof.Machine.execQuantExpiry gid s
  | .notify q => Sys2Proof.Machine.execNotify q s
  | .threadBind th => Sys2Proof.Machine.execThreadBind th s
  | .bindingQuantumExpiry th => Sys2Proof.Machine.execBindingQuantumExpiry th s
  | .monitorChange q => Sys2Proof.Machine.execMonitorChange q s
  | .packetComplete q idx => Sys2Proof.Machine.execPacketComplete q idx s
  | .create ctx addr => Sys2Proof.Machine.execCreate ctx addr s
  | .suspend ctx => Sys2Proof.Machine.execSuspend ctx s
  | .resume ctx => Sys2Proof.Machine.execResume ctx s
  | .destroy ctx => Sys2Proof.Machine.execDestroy ctx s
  | .taskgo ctx core => Sys2Proof.Machine.execTaskgo ctx core s
  | .groupend ctx core => Sys2Proof.Machine.execGroupend ctx core s
  | .mapq ctx q cb prio => Sys2Proof.Machine.execMapq ctx q cb prio s
  | .unmapq q => Sys2Proof.Machine.execUnmapq q s
  | .resetq q => Sys2Proof.Machine.execResetq q s
  | .sheet ctx addr clear => Sys2Proof.Machine.execSheet ctx addr clear s
  | .shoot ctx va cnt => Sys2Proof.Machine.execShoot ctx va cnt s
  | .migrate ctx va tier addr => Sys2Proof.Machine.execMigrate ctx va tier addr s
  | .winset w v pkg rtier rbase rlen => Sys2Proof.Machine.execWinset w v pkg rtier rbase rlen s
  | .exportWin e spkg tier base len => Sys2Proof.Machine.execExportWin e spkg tier base len s
  | .snagrd addr => Sys2Proof.Machine.execSnagrd addr s
  | .route pkg link => Sys2Proof.Machine.execRoute pkg link s
  | .linkreset link => Sys2Proof.Machine.execLinkreset link s
  | .linkfence link => Sys2Proof.Machine.execLinkfence link s
  | .linkrd addr => Sys2Proof.Machine.execLinkrd addr s
  | .confack entry => Sys2Proof.Machine.execConfack entry s
  | .ckpt list cnt win => Sys2Proof.Machine.execCkpt list cnt win s
  | .restore win => Sys2Proof.Machine.execRestore win s
  | .cfgw addr => Sys2Proof.Machine.execCfgw addr s
  | .pwrset w => Sys2Proof.Machine.execPwrset w s
  | .clkset die u => Sys2Proof.Machine.execClkset die u s
  | .unknownAdminCommand code => Sys2Proof.Machine.execUnknownAdminCommand code s
  | .mgmtRegisterWrite off bytes val => Sys2Proof.Machine.execMgmtRegisterWrite off bytes val s
  | .hostMemoryAccess wr tier addr len data => Sys2Proof.Machine.execHostMemoryAccess wr tier addr len data s
  | .getCertificate off len => Sys2Proof.Machine.execGetCertificate off len s
  | .challenge req => Sys2Proof.Machine.execChallenge req s
  | .getMeasurements req => Sys2Proof.Machine.execGetMeasurements req s
  | .keyExchange req => Sys2Proof.Machine.execKeyExchange req s
  | .finish req => Sys2Proof.Machine.execFinish req s
  | .powerWindow power => Sys2Proof.Machine.execPowerWindow power s
  | .powerRaise power => Sys2Proof.Machine.execPowerRaise power s
  | .thermalStep die temp => Sys2Proof.Machine.execThermalStep die temp s
  | .thermalTrip die temp => Sys2Proof.Machine.execThermalTrip die temp s
  | .cruiseComplete pass => Sys2Proof.Machine.execCruiseComplete pass s
  | .correctedError tier addr => Sys2Proof.Machine.execCorrectedError tier addr s
  | .frameFailingRepeat tier addr => Sys2Proof.Machine.execFrameFailingRepeat tier addr s
  | .frameRetire tier addr => Sys2Proof.Machine.execFrameRetire tier addr s
  | .flit link bytes => Sys2Proof.Machine.execFlit link bytes s
  | .replayRequest link seq => Sys2Proof.Machine.execReplayRequest link seq s
  | .retrain link => Sys2Proof.Machine.execRetrain link s
  | .trainingDone link lanes => Sys2Proof.Machine.execTrainingDone link lanes s
  | .read link m => Sys2Proof.Machine.execRead link m s
  | .write link m => Sys2Proof.Machine.execWrite link m s
  | .atomic link m => Sys2Proof.Machine.execAtomic link m s
  | .reply link m => Sys2Proof.Machine.execReply link m s
  | .land link m => Sys2Proof.Machine.execLand link m s
  | .piece link m => Sys2Proof.Machine.execPiece link m s
  | .xchg link m => Sys2Proof.Machine.execXchg link m s
  | .need link m => Sys2Proof.Machine.execNeed link m s
  | .retry link m => Sys2Proof.Machine.execRetry link m s
  | .fenceMessage link => Sys2Proof.Machine.execFenceMessage link s
  | .retryTimer link rid => Sys2Proof.Machine.execRetryTimer link rid s
  | .ackTimeout core slot peer => Sys2Proof.Machine.execAckTimeout core slot peer s
  | .switchForward link m => Sys2Proof.Machine.execSwitchForward link m s
  | .globalAccessPerformed id => Sys2Proof.Machine.execGlobalAccessPerformed id s
  | .storeAcknowledged id => Sys2Proof.Machine.execStoreAcknowledged id s
  | .sstxLands core id => Sys2Proof.Machine.execSstxLands core id s
  | .parameterBlockRead core => Sys2Proof.Machine.execParameterBlockRead core s
  | .uncorrectableError t => Sys2Proof.Machine.execUncorrectableError t s
  | .nop => Sys2Proof.Machine.execNop s
  | .endTask => Sys2Proof.Machine.execEndTask s
  | .blaze => Sys2Proof.Machine.execBlaze s
  | .sync => Sys2Proof.Machine.execSync s
  | .vjoin => Sys2Proof.Machine.execVjoin s
  | .admn => Sys2Proof.Machine.execAdmn s
  | .getDigests => Sys2Proof.Machine.execGetDigests s
  | .moduleReset => Sys2Proof.Machine.execModuleReset s
  | .cruiseStart => Sys2Proof.Machine.execCruiseStart s

end Sys2Proof.Machine
end

