-- ==== Sys2Proof/Machine/Sched.lean ====
section
/-!
DEFINITION. What the device does next: the bundle a core issues (R62, R94), the release of held members (R278), the events that have become
due or may come about, and the end of a core's turn (R4).
-/
namespace Sys2Proof.Machine

/-- The operation of a bundle instruction; the device's own steps stand in no bundle. -/
def opOf : Instr → Op
  | .nop => opNop
  | .add d a b => opAdd d a b
  | .sub d a b => opSub d a b
  | .and d a b => opAnd d a b
  | .or d a b => opOr d a b
  | .xor d a b => opXor d a b
  | .shl d a b => opShl d a b
  | .shr d a b => opShr d a b
  | .sra d a b => opSra d a b
  | .addImm d a i => opAddImm d a i
  | .subImm d a i => opSubImm d a i
  | .andImm d a i => opAndImm d a i
  | .orImm d a i => opOrImm d a i
  | .xorImm d a i => opXorImm d a i
  | .shlImm d a i => opShlImm d a i
  | .shrImm d a i => opShrImm d a i
  | .sraImm d a i => opSraImm d a i
  | .mul d a b => opMul d a b
  | .mulh d a b => opMulh d a b
  | .mulhn d a b => opMulhn d a b
  | .div d a b => opDiv d a b
  | .divn d a b => opDivn d a b
  | .rem d a b => opRem d a b
  | .remn d a b => opRemn d a b
  | .min d a b => opMin d a b
  | .max d a b => opMax d a b
  | .minn d a b => opMinn d a b
  | .maxn d a b => opMaxn d a b
  | .seq d a b => opSeq d a b
  | .sne d a b => opSne d a b
  | .slt d a b => opSlt d a b
  | .sltn d a b => opSltn d a b
  | .sel d a b => opSel d a b
  | .clz d a => opClz d a
  | .popc d a => opPopc d a
  | .addp d a b => opAddp d a b
  | .subp d a b => opSubp d a b
  | .callx a => opCallx a
  | .ret a => opRet a
  | .jx a => opJx a
  | .lmark i => opLmark i
  | .li d imm => opLi d imm
  | .la d imm => opLa d imm
  | .bra imm => opBra imm
  | .beq a b imm => opBeq a b imm
  | .bne a b imm => opBne a b imm
  | .blt a b imm => opBlt a b imm
  | .bge a b imm => opBge a b imm
  | .bltn a b imm => opBltn a b imm
  | .bgen a b imm => opBgen a b imm
  | .call imm => opCall imm
  | .calli imm => opCalli imm
  | .loop f4 a imm => opLoop f4 a imm
  | .loopx f4 a b imm => opLoopx f4 a b imm
  | .mfs d sys => opMfs d sys
  | .mts d sys => opMts d sys
  | .trap code => opTrap code
  | .endTask => opEndTask
  | .blaze => opBlaze
  | .waitq d => opWaitq d
  | .fwait d => opFwait d
  | .sync => opSync
  | .carve d => opCarve d
  | .vadd o => opVadd o
  | .vsub o => opVsub o
  | .vmul o => opVmul o
  | .vfma o => opVfma o
  | .vfms o => opVfms o
  | .vfnma o => opVfnma o
  | .vmin o => opVmin o
  | .vmax o => opVmax o
  | .vabs o => opVabs o
  | .vneg o => opVneg o
  | .vcmp o => opVcmp o
  | .vsel o => opVsel o
  | .vrcp o => opVrcp o
  | .vrsq o => opVrsq o
  | .vexp2 o => opVexp2 o
  | .vlog2 o => opVlog2 o
  | .vsinp o => opVsinp o
  | .vcosp o => opVcosp o
  | .vcvt o => opVcvt o
  | .vpackbx o => opVpackbx o
  | .vunpbx o => opVunpbx o
  | .vmulh o => opVmulh o
  | .vshl o => opVshl o
  | .vshr o => opVshr o
  | .vsra o => opVsra o
  | .vfshl o => opVfshl o
  | .vfshr o => opVfshr o
  | .vtlog o => opVtlog o
  | .vpopc o => opVpopc o
  | .vclz o => opVclz o
  | .vmov o => opVmov o
  | .vperm o => opVperm o
  | .vrot o => opVrot o
  | .viota o => opViota o
  | .vred o => opVred o
  | .vscan o => opVscan o
  | .vcmul o => opVcmul o
  | .vklog o => opVklog o
  | .vkpop o => opVkpop o
  | .zzero zd => opZzero zd
  | .zld zd xa f4 => opZld zd xa f4
  | .zst zd xa f4 => opZst zd xa f4
  | .zrd zd xa xb f4 => opZrd zd xa xb f4
  | .zrds zd xa xb f4 => opZrds zd xa xb f4
  | .zwm zd xa => opZwm zd xa
  | .zmma o => opZmma o
  | .bfset zd xa f4 => opBfset zd xa f4
  | .bfly o => opBfly o
  | .bfch o => opBfch o
  | .fmtw xa => opFmtw xa
  | .sld o => opSld o
  | .sst o => opSst o
  | .sldx o => opSldx o
  | .sstx o => opSstx o
  | .slw o => opSlw o
  | .ssw o => opSsw o
  | .samo o => opSamo o
  | .gld o => opGld o
  | .gst o => opGst o
  | .gamo o => opGamo o
  | .enq o => opEnq o
  | .deq o => opDeq o
  | .fetch o => opFetch o
  | .fetchLand d n => opFetchLand d n
  | .wback o => opWback o
  | .fence ord scope => opFence ord scope
  | .xfence p q scope => opXfence p q scope
  | .vjoin => opVjoin
  | .retain d bp imm xi => opRetain d bp imm xi
  | .unpin d bp imm xi => opUnpin d bp imm xi
  | .barm o => opBarm o
  | .bara o => opBara o
  | .barw o => opBarw o
  | .mconv o => opMconv o
  | .mmul o => opMmul o
  | .mattn o => opMattn o
  | .mpool o => opMpool o
  | .msort o => opMsort o
  | .mcopy o => opMcopy o
  | .mgath o => opMgath o
  | .mmap o => opMmap o
  | .mbfly o => opMbfly o
  | .xcp o => opXcp o
  | .xmc o => opXmc o
  | .mxt o => opMxt o
  | .mwait tag fl => opMwait tag fl
  | .mstat tag bp => opMstat tag bp
  | .tdw bp td0 p3 => opTdw bp td0 p3
  | .tdr bp td0 p3 => opTdr bp td0 p3
  | .tdinv td0 => opTdinv td0
  | .mgate o => opMgate o
  | .mixch o => opMixch o
  | .mcoll o => opMcoll o
  | _ => opNop

/-! ### A core's turn -/

def toItems (l : List (Nat × Slot × Instr)) : List Item := l.map fun i => ⟨i.1, i.2.1, opOf i.2.2⟩
/-- Issues the bundle at the program counter of core `n`; a code-cache miss stalls (R94), a failed translation faults (R98). -/
def runBundle (s : State) (n : Nat) : State :=
  let c := s.core n
  match fetchBundle s n c.pc with
  | .ok items len => issueBundle s n c.pc len (toItems items) none
  | .bad items len off cause => issueBundle s n c.pc len (toItems items) (some (off, cause))
  | .fault e => issueBundle s n c.pc 0 [⟨0, .s, fun _ _ => { excs := [e] }⟩] none
  | .miss _ => s.countCycle n false
/-- What the core whose turn it is does in one die cycle; one that a task occupies without running counts an IDLE cycle (R344). -/
def coreTurn (s : State) : State :=
  let n := s.turn.val
  match (s.core n).st with
  | .free => s
  | .running =>
    let (spent, s1) := beforeIssue s n
    (if spent then s1 else runBundle s1 n).tickFresh
  | _ => s.countCycle n false

/-! ### Held members (R278) -/

/-- Whether a core has a BARW whose register is pending. -/
def Core.barwPending (c : Core) : Bool := c.jobs.any fun j => match j.kind with
  | .barw .. => true
  | _ => false
/-- Whether a core's next bundle stalls on the register of a BARW. -/
def stalledInBarw (s : State) (n : Nat) : Bool :=
  let c := s.core n
  c.barwPending && (match fetchBundle s n c.pc with
    | .ok items len => pendingStall { c with pend := c.pend.filter fun p => c.jobs.any fun j => j.id == p.1 && (match j.kind with
        | .barw .. => true
        | _ => false) } ((toItems items).map fun i => i.op s ⟨n, c.pc, len, i.slot, i.parcel⟩)
    | _ => false)
def Core.inSync (c : Core) : Bool := c.arrived || (match c.waits with
  | .sync _ :: _ => true
  | _ => false)
/-- A held member runs on, and a drained loop starts to fill again; `past` says that it holds no more before a barrier has completed. -/
def Core.unhold (past : Bool) (c : Core) : Core := if c.held then { c.refill with held := false, noReq := past } else c
/-- Releases the held members of a group while another waits at a barrier, or is STOPPED; then none is held before the driver has acted. -/
def releaseHeld (s : State) (gid : Nat) : State :=
  let ms := membersOn s gid
  if !(ms.any fun n => (s.core n).holds) then s
  else
    let barrier := ms.any (fun n => !(s.core n).held && ((s.core n).inSync || stalledInBarw s n)) ||
      (ms.all (fun n => (s.core n).held) && ms.any fun n => (s.core n).barwPending)
    if barrier || ms.any (fun n => (s.core n).st == .stopped) then ms.foldl (fun s n => s.modCore n (Core.unhold barrier)) s else s

/-! ### The end of a turn -/

/-- After the last core's turn the die cycle ends: clocks and the hub's timer go on, and what waits for time is looked at. -/
def endCycle (s : State) : State :=
  let s1 := { s with turn := 0, cycles := s.cycles.map (· + 1), hubTime := s.hubTime + 1 }
  let s2 := (List.range 4).foldl moveClock s1
  let s3 := settleCkpt (wakeRemote (captureCopies { s2 with cores := s2.cores.map Core.seeWaits })).tickFresh
  s3.groups.foldl (fun s g => releaseHeld s g.1) s3
/-- A turn of the core whose turn it is, and the next core's turn. A running core that has not reached its next issue cycle has stalled (R94). -/
def turnStep (s : State) : State :=
  let n := s.turn.val
  let c := s.core n
  let s1 := coreTurn s
  -- flags raised in a cycle without an issue belong to that cycle alone (R4, R55)
  let s2 := if (s1.core n).ic = c.ic then s1.modCore n fun c => { c with raised := [], stalled := c.st == .running }
            else delayCopies (s1.modCore n fun c => { c with stalled := false }) n c.ic (writeBanks c)
  if h : n + 1 < 160 then { s2 with turn := ⟨n + 1, h⟩ } else endCycle s2

/-! ### Events -/

/-- Whether an instruction is an event from outside the device: the host, its link partners, its sensors. -/
def isInput : Instr → Bool
  | .notify _ => true
  | .admn => true
  | .mgmtRegisterWrite .. => true
  | .hostMemoryAccess .. => true
  | .getDigests => true
  | .getCertificate .. => true
  | .challenge _ => true
  | .getMeasurements _ => true
  | .keyExchange _ => true
  | .finish _ => true
  | .moduleReset => true
  | .powerWindow _ => true
  | .powerRaise _ => true
  | .thermalStep .. => true
  | .thermalTrip .. => true
  | .correctedError .. => true
  | .uncorrectableError _ => true
  | .flit .. => true
  | .replayRequest .. => true
  | .retrain _ => true
  | .trainingDone .. => true
  | _ => false

/-- The next state an event gives, if it is enabled. -/
def tryEvent (s : State) (i : Instr) : Option State :=
  match exec i s with
  | .next s' => some s'
  | .fault _ => none
  | .refused _ => none
/-- The numbers of the cores that satisfy a condition. -/
def coresWhere (s : State) (p : Core → Bool) : List Nat := ((s.cores.toList.zipIdx).filter fun c => p c.1).map (·.2)
/-- Events that fall in fixed cycles (R168, R245, R247, R353): they come before any other step once due. -/
def dueEvents (s : State) : List Instr :=
  ((coresWhere s fun c => !c.copies.isEmpty || !c.tables.isEmpty).flatMap fun n =>
    let c := s.core n
    c.copies.map (fun k => Instr.onDieCopyStart n k.id) ++
    c.copies.flatMap (fun k => k.targets.map fun t => Instr.onDieCopyLand n k.id t) ++
    c.tables.map (fun t => Instr.mxtEntryStart n t.tag.toNat) ++ (List.range 4).map (Instr.timing n)) ++
  s.groups.map fun g => Instr.syncRelease g.1

/-- The events of a core's agents. -/
def coreEvents (s : State) (n : Nat) : List Instr :=
  let c := s.core n
  [.codeCacheFill n, .waitqWake n, .parameterBlockRead n, .claim n] ++
  c.jobs.flatMap (fun j => [.pendingLoadReturn n j.id, .vectorFillDone n j.id, .fetchEngineComplete n j.id, .barwWake n j.id]) ++
  c.remotes.map (fun r => .sstxLands n r.id) ++
  (c.slots.toList.zipIdx.filter fun m => m.1.st == .busy).flatMap fun m =>
    [.macroStep n m.2, .macroWritesAck n m.2, .macroHalt n m.2 ((m.1.stop.map (·.1)).getD 6), .exchangeStep n m.2, .mcollStep n m.2] ++
    if m.1.op = 0x13 ∧ m.1.net then (List.range (Nat.min 16384 m.1.nm)).map (.ackTimeout n m.2) else []
def accessEvents (a : Access) : List Instr := [.globalAccessPerformed a.id, .storeAcknowledged a.id, .barrierArrival a.id, .engineArrival a.id]
def groupEvents (g : Nat) : List Instr := [.placement g, .agingReservation g, .quantExpiry g, .groupPreempt g, .groupResume g]
def queueEvents (e : Nat × Queue) : List Instr := .monitorChange e.1 :: e.2.packets.map fun p => .packetComplete e.1 p.idx
def threadEvents (s : State) : List Instr :=
  let ready := !(readyQueues s).isEmpty
  (s.threads.toList.zipIdx.filter fun t => ready || t.1.queue.isSome).flatMap fun t => [.threadBind t.2, .bindingQuantumExpiry t.2]
/-- The message at the head of a link's arrivals, as the step that takes it (R403), and the requests to be sent again. -/
def linkEvents (l : Nat) (k : Link) : List Instr :=
  (match k.inbox with
   | [] => []
   | (m, _) :: _ => match m.opc.toNat with
     | 1 => [.read l m] | 2 => [.write l m] | 3 => [.atomic l m] | 4 => [.reply l m] | 5 => [.land l m] | 6 => [.piece l m, .switchForward l m]
     | 7 => [.xchg l m] | 8 => [.need l m] | 9 => [.retry l m] | _ => [.fenceMessage l]) ++
  k.requests.map fun r => .retryTimer l r.rid
/-- The admin command at hand (R434). -/
def adminInstr (code : Nat) (o : Nat → Nat) : Instr :=
  match code with
  | 1 => .create (o 0) (o 1) | 2 => .suspend (o 0) | 3 => .resume (o 0) | 4 => .destroy (o 0) | 5 => .taskgo (o 0) (o 1) | 6 => .groupend (o 0) (o 1)
  | 16 => .mapq (o 0) (o 1) (o 2) (o 3) | 17 => .unmapq (o 0) | 18 => .resetq (o 0) | 20 => .sheet (o 0) (o 1) (o 2)
  | 24 => .shoot (o 0) (o 1) (o 2) | 25 => .migrate (o 0) (o 1) (o 2) (o 3) | 26 => .winset (o 0) (o 1) (o 2) (o 3) (o 4) (o 5)
  | 27 => .exportWin (o 0) (o 1) (o 2) (o 3) (o 4) | 28 => .snagrd (o 0) | 32 => .route (o 0) (o 1) | 33 => .linkreset (o 0)
  | 34 => .linkfence (o 0) | 35 => .linkrd (o 0) | 40 => .confack (o 0) | 41 => .ckpt (o 0) (o 1) (o 2) | 42 => .restore (o 0)
  | 48 => .cfgw (o 0) | 49 => .pwrset (o 0) | 50 => .clkset (o 0) (o 1) | _ => .unknownAdminCommand code
def adminEvents (s : State) : List Instr :=
  match adminEntry s with
  | none => []
  | some a => [adminInstr (s.hostNat (a + 8) 1) fun i => s.hostNat (a + 16 + 8 * i) 8]
def frameEvents (e : Nat × Frame) : List Instr :=
  let k := 131072 * e.1
  [.frameFailingRepeat (keyTier k) (keyPa k), .frameRetire (keyTier k) (keyPa k)]
/-- Everything that may come about at a time of the device's own choosing. -/
def freeEvents (s : State) : List Instr :=
  (coresWhere s fun c => !(c.st == .free) || !c.jobs.isEmpty || !c.remotes.isEmpty).flatMap (coreEvents s) ++
  s.accesses.flatMap accessEvents ++ s.groups.flatMap (fun g => groupEvents g.1) ++ s.queues.flatMap queueEvents ++ threadEvents s ++
  (s.links.toList.zipIdx.flatMap fun k => linkEvents k.2 k.1) ++ adminEvents s ++ s.frames.flatMap frameEvents ++
  [.cruiseStart, .cruiseComplete true, .cruiseComplete false]
/-- The choice among what is enabled and the core whose turn it is; there is none to make when nothing else is enabled. -/
def chooseEvent (s : State) (es : List State) : Option State :=
  if es.isEmpty then none else es[Config.schedule s.fresh % (es.length + 1)]?

/-- An event from outside takes place; one that the state does not take passes without effect. -/
def takeInput (i : Instr) (s : State) : State := if isInput i then (tryEvent s i).getD s.tickFresh else s.tickFresh
/-- Whether the device has stopped until a module reset (R437, R441). -/
def stopped (s : State) : Bool := s.boot != .ready || s.tripped

/-! ### Placing an instruction -/

/-- The bytes of a table word as they lie in memory, E set (R58). -/
def fetchBytes (nbits w : Nat) : List Byte := natToBytes 8 (w % 2 ^ nbits ||| 2 ^ 15)
/-- The page tables, frame and code that `withFetchWord` needs: virtual page 0 of context 0 in the HBM frame at 0x20000, all rights. -/
def placeCode (m : Mem) (bs : List Byte) : Mem :=
  ((((m.write 0x1000 (natToBytes 8 0x2001)).write 0x2000 (natToBytes 8 0x3001)).write 0x3000 (natToBytes 8 0x10001)).write 0x10000
    (natToBytes 8 0x2001F)).write 0x20000 bs
/-- The context, group and task that an instruction needs to be issued. -/
def fetchCtx : Ctx :=
  { st := .active, prioMax := 7, retW := 8, blzMax := 0xFFFFFF, ptRoot := 0x1000, cwin := 0, maxQ := 1, tdBase := 0, ltb := 0, ltn := 0,
    saveA := 0, fqcb := 0, statb := 0, cset := 1, fcause := 0, fcore := 0, faddr := 0, dropped := 0 }
def fetchGroup : Group :=
  { st := .running, ctx := 0, queue := 0, packet := 0, gnum := 0, prio := 0, entered := 0, since := 0, size := 1,
    kern := ⟨0#64, 0, 3, 8, 0xFFFFFF, 0, [], []⟩, karg := 0#64, gx := 1, gy := 1, acqQv := none, cores := [0], saved := [], endCnt := [], endDie := 0,
    ended := [], reqFor := [], reqd := false }
def fetchCore (line : List Byte) : Core :=
  { Core.zero with st := .running, part := partWord 3 8, blzb := 0xFFFFFF#32, cache := [(0, 0, line)], param := 1 }
/-- A state in which core 0 issues the instruction of a table word in its next turn. -/
def placeWord (s : State) (nbits w : Nat) : State :=
  let m := placeCode s.mem (fetchBytes nbits w)
  { s with boot := .ready, tripped := false, inputs := [], turn := 0, mem := m, ctxs := Tab.set s.ctxs 0 fetchCtx,
           groups := Tab.set s.groups 0 fetchGroup, cores := s.cores.setIfInBounds 0 (fetchCore (m.bytes 0x20000 128)) }

end Sys2Proof.Machine
end

