-- ==== Sys2Proof/Machine/Step.lean ====
section
/-!
DEFINITION. One step of the package.
-/
namespace Sys2Proof.Machine

/-- One step: an event from outside first; the boot after reset; a due event; else one of the enabled events or the turn of the core
whose turn it is, as `Config.schedule` chooses. -/
def step (s : State) : Host.Outcome State Fault Refusal :=
  match s.inputs with
  | i :: rest => .next (takeInput i { s with inputs := rest })
  | [] =>
    if s.boot = .rom ∨ s.boot = .firmware then exec .moduleReset s
    else if stopped s then .fault .halted
    else match (dueEvents s).findSome? (tryEvent s) with
      | some s' => .next s'
      | none => match chooseEvent s ((freeEvents s).filterMap (tryEvent s)) with
        | some s' => .next s'
        | none => .next (turnStep s)

/-- `s` with the instruction of a table word where core 0 fetches next, in a state in which that core issues it in the very next step. -/
def State.withFetchWord (s : State) (nbits w : Nat) : State := placeWord s nbits w

end Sys2Proof.Machine
end

