-- ==== Sys2Proof/Safety.lean ====
section
/-!
DEFINITION. What counts as a safe state and a safe run: canonical memories, and steps that neither fault nor refuse.
-/
namespace Sys2Proof.Machine

/-- A core's pool is in canonical form. -/
def Core.poolWf (c : Core) : Bool := Mem.wf c.pool
/-- Every memory of the package is in canonical form. -/
def State.memWf (s : State) : Prop := Mem.wf s.mem = true ∧ Mem.wf s.bar4 = true ∧ ∀ n, (s.core n).poolWf = true

/-- The step from a state gives a next state. -/
def stepsOn (s : State) : Prop := ∃ s', step s = .next s'
/-- `k` steps in a row give next states. -/
def safeFor : Nat → State → Prop
  | 0, _ => True
  | k + 1, s => ∃ s', step s = .next s' ∧ safeFor k s'

/-! ### An undisturbed issue -/

/-- The core whose turn it is issues its next bundle, and nothing but that bundle and the loop engine acts on it: no stop is owed, no wait,
hold or TRAP is open, the pipes and ports are empty, no register or line is unsettled or poisoned, the blaze bound is not reached, and the
code object marks no phase at the program counter. -/
structure Calm (s : State) : Prop where
  running : (s.core s.turn.val).st = .running
  owed    : (s.core s.turn.val).owed = []
  held    : (s.core s.turn.val).held = false
  empty   : (s.core s.turn.val).empty = 0
  waits   : (s.core s.turn.val).waits = []
  trap    : (s.core s.turn.val).trapDue = none
  flights : (s.core s.turn.val).flights = []
  wports  : (s.core s.turn.val).wports = []
  banks   : (s.core s.turn.val).bankUse = []
  array   : (s.core s.turn.val).arrayEnd ≤ (s.core s.turn.val).ic
  pend    : (s.core s.turn.val).pend = []
  fills   : (s.core s.turn.val).fills = []
  regs    : (s.core s.turn.val).regFills = []
  timing  : (s.core s.turn.val).timingDue = false
  blaze   : (s.core s.turn.val).blaze ≤ (s.core s.turn.val).bound
  phases  : (s.core s.turn.val).phases.find? (fun p => p.1 == (s.core s.turn.val).pc) = none
  clean   : (s.core s.turn.val).poison = []
  cleanX  : (s.core s.turn.val).xpoison = []
  cleanK  : (s.core s.turn.val).kpoison = []
/-- The same with no hardware loop active at the call depth. -/
structure Quiet (s : State) : Prop extends Calm s where
  loops   : (s.core s.turn.val).innermost = none

/-! ### Later cycles -/

/-- A core `k` issue cycles on, with no further bundle issued: what is in flight lands (R92). -/
def later (fr : Nat) : Nat → Core → Core
  | 0, c => c
  | k + 1, c => later fr k (c.advance fr)
/-- A core without its program counter and the bookkeeping of its issue: the cycle and blaze counts, results in flight and the ports they
take, the address of the last bundle, the pinned copy, the parameter read, the REMOTE
code lines read for its next bundle and the exceptions of the cycle at hand. -/
def Core.rest (c : Core) : Core :=
  { c with pc := 0#64, ic := 0, blaze := 0, flights := [], wports := [], bankUse := [], lastB := 0#64, pin := none, param := 0, drainAt := none,
           raised := [], rcode := [] }
/-- The core whose turn it is. -/
abbrev State.me (s : State) : Core := s.core s.turn.val
/-- A bundle of the core whose turn it is took effect, went on to `next`, and touched nothing but that core, its scale-sheet counter and the
count of free choices: no other core, no byte of memory, no other state of the package. -/
structure Issued (s t : State) (next : DWord) : Prop where
  pc      : t.me.pc = next
  cycle   : t.me.ic = s.me.ic + 1
  turn    : t.turn = s.turn
  memory  : ∀ a, t.mem.read a = s.mem.read a
  others  : ∀ m, m ≠ s.turn.val → t.core m = s.core m
  package : { t with cores := s.cores, fresh := s.fresh } = s.countCycle s.turn.val true

end Sys2Proof.Machine
end

