-- ==== Sys2Proof/Certificates/Slice0/Obligations.lean ====
section
/-!
DEFINITION. The statements about the model, for the provers, and the words they are stated in. Every statement names the rule of spec/ it
formalises, or says that it is derived.
-/
namespace Sys2Proof.Spec
open Sys2Proof.Machine

/-- The address after a bundle of the one instruction `i` at the program counter (R58, R59). -/
def after (s : State) (i : Instr) : DWord := s.me.pc + BitVec.ofNat 64 (2 * lenOf i)
/-- R105: where a code target may lie. -/
def codeTarget (c : Core) (t : DWord) : Prop :=
  t.extractLsb' 56 8 = 0#8 ∧ t.extractLsb' 32 24 = c.cwin.extractLsb' 32 24 ∧ t.getLsbD 0 = false

/-! ### Scalar results -/

/-- Scalar register `d` holds `v` from `lat` cycles after the issue on and what it held until then (R92); `fl` is recorded in the S slot's
sticky record with it (R54). No other register and nothing else of the core changes; a write to x0 is discarded (R88). -/
def ScalarLands (s t : State) (d : BitVec 6) (lat : Nat) (v : Word) (fl : Flags) : Prop :=
  ∀ fr k,
    (∀ r, (later fr k t.me).rx r = if r = d ∧ d ≠ 0#6 ∧ lat ≤ k + 1 then v else s.me.rx r) ∧
    (later fr k t.me).xs = (if lat ≤ k + 1 then (s.me.raise .s fl s.me.pc).xs else s.me.xs) ∧
    (later fr k t.me).xa = (if lat ≤ k + 1 then (s.me.raise .s fl s.me.pc).xa else s.me.xa) ∧
    { (later fr k t.me).rest with x := s.me.x, xs := s.me.xs, xa := s.me.xa } = s.me.rest
/-- The even register `d` and the odd one after it hold the halves of `v` from the next cycle on (R88, R93). -/
def PairLands (s t : State) (d : BitVec 6) (v : DWord) : Prop :=
  ∀ fr k,
    (∀ r, (later fr k t.me).rx r = if r = d ∧ d ≠ 0#6 then v.extractLsb' 0 32 else if r = (d ||| 1#6) then v.extractLsb' 32 32 else s.me.rx r) ∧
    { (later fr k t.me).rest with x := s.me.x } = s.me.rest
/-- Nothing of the core changes but the program counter and the bookkeeping of the issue. -/
def NoResult (s t : State) : Prop := ∀ fr k, (later fr k t.me).rest = s.me.rest

/-- R101: an immediate operand. -/
def immOf (i : BitVec 10) : Word := BitVec.ofInt 32 i.toInt
/-- R101, R103, R104: the destination and the result of the instructions of latency 1 with one scalar result. -/
def aluResult (c : Core) : Instr → Option (BitVec 6 × Word)
  | .add d a b => some (d, BitVec.ofNat 32 ((c.rx a).toNat + (c.rx b).toNat))
  | .addImm d a i => some (d, BitVec.ofNat 32 ((c.rx a).toNat + (immOf i).toNat))
  | .sub d a b => some (d, BitVec.ofInt 32 ((c.rx a).toNat - (c.rx b).toNat))
  | .subImm d a i => some (d, BitVec.ofInt 32 ((c.rx a).toNat - (immOf i).toNat))
  | .and d a b => some (d, c.rx a &&& c.rx b)
  | .andImm d a i => some (d, c.rx a &&& immOf i)
  | .or d a b => some (d, c.rx a ||| c.rx b)
  | .orImm d a i => some (d, c.rx a ||| immOf i)
  | .xor d a b => some (d, c.rx a ^^^ c.rx b)
  | .xorImm d a i => some (d, c.rx a ^^^ immOf i)
  | .shl d a b => some (d, BitVec.ofNat 32 ((c.rx a).toNat * 2 ^ ((c.rx b).toNat % 32)))
  | .shlImm d a i => some (d, BitVec.ofNat 32 ((c.rx a).toNat * 2 ^ i.toNat))
  | .shr d a b => some (d, BitVec.ofNat 32 ((c.rx a).toNat / 2 ^ ((c.rx b).toNat % 32)))
  | .shrImm d a i => some (d, BitVec.ofNat 32 ((c.rx a).toNat / 2 ^ i.toNat))
  | .sra d a b => some (d, BitVec.ofInt 32 ((c.rx a).toInt / 2 ^ ((c.rx b).toNat % 32)))
  | .sraImm d a i => some (d, BitVec.ofInt 32 ((c.rx a).toInt / 2 ^ i.toNat))
  | .min d a b => some (d, if (c.rx a).toInt ≤ (c.rx b).toInt then c.rx a else c.rx b)
  | .max d a b => some (d, if (c.rx a).toInt ≤ (c.rx b).toInt then c.rx b else c.rx a)
  | .minn d a b => some (d, if (c.rx a).toNat ≤ (c.rx b).toNat then c.rx a else c.rx b)
  | .maxn d a b => some (d, if (c.rx a).toNat ≤ (c.rx b).toNat then c.rx b else c.rx a)
  | .seq d a b => some (d, if c.rx a = c.rx b then 1#32 else 0#32)
  | .sne d a b => some (d, if c.rx a = c.rx b then 0#32 else 1#32)
  | .slt d a b => some (d, if (c.rx a).toInt < (c.rx b).toInt then 1#32 else 0#32)
  | .sltn d a b => some (d, if (c.rx a).toNat < (c.rx b).toNat then 1#32 else 0#32)
  | .sel d a b => some (d, if c.rx d = 0#32 then c.rx b else c.rx a)
  | .clz d a => some (d, if c.rx a = 0#32 then 32#32 else BitVec.ofNat 32 (31 - Nat.log2 (c.rx a).toNat))
  | .popc d a => some (d, BitVec.ofNat 32 ((List.range 32).filter fun i => (c.rx a).getLsbD i).length)
  | .li d imm => some (d, imm)
  | _ => none
/-- R101: the products, of latency 3. -/
def mulResult (c : Core) : Instr → Option (BitVec 6 × Word)
  | .mul d a b => some (d, BitVec.ofNat 32 ((c.rx a).toNat * (c.rx b).toNat))
  | .mulh d a b => some (d, BitVec.ofInt 32 ((c.rx a).toInt * (c.rx b).toInt / 2 ^ 32))
  | .mulhn d a b => some (d, BitVec.ofNat 32 ((c.rx a).toNat * (c.rx b).toNat / 2 ^ 32))
  | _ => none
/-- R101, R102: the divisions, of latency 18, with DZ (bit 3) where the divisor is zero and the dividend is not. -/
def divResult (c : Core) : Instr → Option (BitVec 6 × Word × Flags)
  | .div d a b => some (d, if c.rx b = 0#32 then 0xFFFFFFFF#32 else BitVec.ofInt 32 ((c.rx a).toInt.tdiv (c.rx b).toInt), dz (c.rx a) (c.rx b))
  | .divn d a b => some (d, if c.rx b = 0#32 then 0xFFFFFFFF#32 else BitVec.ofNat 32 ((c.rx a).toNat / (c.rx b).toNat), dz (c.rx a) (c.rx b))
  | .rem d a b => some (d, if c.rx b = 0#32 then c.rx a else BitVec.ofInt 32 ((c.rx a).toInt.tmod (c.rx b).toInt), dz (c.rx a) (c.rx b))
  | .remn d a b => some (d, if c.rx b = 0#32 then c.rx a else BitVec.ofNat 32 ((c.rx a).toNat % (c.rx b).toNat), dz (c.rx a) (c.rx b))
  | _ => none
where
  dz (x y : Word) : Flags := if y = 0#32 ∧ x ≠ 0#32 then fDZ else 0#6
/-- R103, R104: the pair results of latency 1. -/
def pairResult (c : Core) : Instr → Option (BitVec 6 × DWord)
  | .addp d a b => some (d, BitVec.ofNat 64 ((c.rpair a).toNat + (c.rpair b).toNat))
  | .subp d a b => some (d, BitVec.ofInt 64 ((c.rpair a).toNat - (c.rpair b).toNat))
  | .la d imm => some (d, BitVec.ofInt 64 (c.pc.toNat + imm.toInt))
  | _ => none

/-! ### Control -/

/-- From `lat` cycles after the issue on the core is `c`, until then what it was, program counter and bookkeeping apart (R92). -/
def Lands (s t : State) (lat : Nat) (c : Core) : Prop := ∀ fr k, (later fr k t.me).rest = if lat ≤ k + 1 then c.rest else s.me.rest
/-- R106: whether a branch is taken, and its target. -/
def branchTo (c : Core) : Instr → Option (Bool × DWord)
  | .bra imm => some (true, t imm)
  | .beq a b imm => some (decide (c.rx a = c.rx b), t imm)
  | .bne a b imm => some (decide (c.rx a ≠ c.rx b), t imm)
  | .blt a b imm => some (decide ((c.rx a).toInt < (c.rx b).toInt), t imm)
  | .bge a b imm => some (decide ((c.rx b).toInt ≤ (c.rx a).toInt), t imm)
  | .bltn a b imm => some (decide ((c.rx a).toNat < (c.rx b).toNat), t imm)
  | .bgen a b imm => some (decide ((c.rx b).toNat ≤ (c.rx a).toNat), t imm)
  | _ => none
where
  t (imm : BitVec 32) : DWord := BitVec.ofInt 64 (c.pc.toNat + 2 * imm.toInt)
/-- R107, R426: what CALLI finds in a link-table slot of this package that lies in a line of the code cache: the value in memory, which is neither zero nor
uncorrectable, with the slot's key; in a line of another package the bytes the line came with. -/
def slotValue (s : State) (slot : Nat) : Option (Nat × Nat) :=
  match translate s s.me.ctx ⟨.read, false, false, false⟩ slot with
  | .ok k => match s.me.codeLine k slot with
    | some l =>
      let v := if keyTier k = 3 then bytesToNat (slice l (slot % 128) 8) else s.mem.nat k 8
      if v % 2 ^ 64 = 0 ∨ s.memPoison.contains (k / 128) then none else some (k, v)
    | none => none
  | .error _ => none
/-- R107: the address of CALLI's link-table slot. -/
def slotAddrOf (c : Core) (n : BitVec 32) : Nat := c.ltb.toNat + 8 * n.toNat
/-- R107: the target of a call; CALLI's is what it finds in its link-table slot. -/
def callTo (s : State) : Instr → Option DWord
  | .call imm => some (BitVec.ofInt 64 (s.me.pc.toNat + 2 * imm.toInt))
  | .callx a => some (s.me.rpair a)
  | .calli n => if s.me.ltn.toNat ≤ n.toNat then none else (slotValue s (slotAddrOf s.me n)).map fun p => BitVec.ofNat 64 p.2
  | _ => none
/-- R107, R377: the core that issues a call, with CALLI's acquire at device scope of its slot's line; a line of another package is read again for each CALLI
and leaves the cache (the model's choice, log 103). -/
def callCore (s : State) : Instr → Core
  | .calli n => match slotValue s (slotAddrOf s.me n) with
    | some (k, _) =>
      if keyTier k = 3 then { s.me with cache := s.me.cache.filter fun l => !(l.1 == s.me.ctx && l.2.1 == slotAddrOf s.me n / 128) }
      else (s.acquire s.turn.val 0 2 (s.tagOf (k / 128))).me
    | none => s.me
  | _ => s.me
/-- The address a link holds in full: what CALL and the calls like it leave to x1 (R107). -/
def linkOf (s : State) (i : Instr) : Word := (after s i).extractLsb' 0 32
/-- R108: RET's target. -/
def retTo (c : Core) (a : BitVec 6) : DWord := BitVec.ofNat 64 ((c.cwin.extractLsb' 32 24).toNat * 2 ^ 32 + (c.rx (a ||| 1#6)).toNat)

/-- Whether no macro slot is BUSY, so that no range hazard holds an instruction back (R216). -/
def NoBusy (c : Core) : Prop := c.slots.toList.all (fun m => m.st != .busy) = true
/-- R110: the lowest free loop level. -/
def FreeLevel (c : Core) (l : Nat) : Prop := l < 4 ∧ (c.loopAt l).active = false ∧ ∀ m, m < l → (c.loopAt m).active = true
/-- R110: a core whose loop level `l` has been set up with `n` iterations and `st` stages. -/
def looped (c : Core) (l n : Nat) (start stop : DWord) (st : BitVec 2) (isX : Bool) : Core :=
  let c1 := { c with loops := c.loops.setIfInBounds l ⟨true, start, stop, st, isX, c.depth⟩, lc := c.lc.setIfInBounds l (BitVec.ofNat 32 (n - 1)) }
  let c2 := if 1 ≤ st.toNat then c1.wk 1 (BitVec.allOnes 128) else c1
  let c3 := if 2 ≤ st.toNat then c2.wk 2 0#128 else c2
  if st.toNat = 3 then c3.wk 3 0#128 else c3
/-- R111: the stage predicates after a back-edge of a loop of `st` stages of which `lc` iterations have not started. -/
def stagesAfter (c : Core) (st : Nat) (lc : Word) : Core :=
  let k1 : Mask := if lc = 0#32 then 0#128 else BitVec.allOnes 128
  let c1 := if st = 3 then c.wk 3 (c.rk 2) else c
  let c2 := if 2 ≤ st then c1.wk 2 (c.rk 1) else c1
  if 1 ≤ st then c2.wk 1 k1 else c2
/-- R111: whether every stage predicate k1 to kS is zero. -/
def drained (c : Core) (st : Nat) : Prop := c.rk 1 = 0#128 ∧ (2 ≤ st → c.rk 2 = 0#128) ∧ (st = 3 → c.rk 3 = 0#128)

/-! ### System registers -/

/-- R122: what MTS makes of a core. A flag written from 1 to 0 clears its address register (R55). -/
def mtsCore (c : Core) (n : Nat) (v : Word) : Core :=
  if n = 0x001 then { c with fpc := v &&& 3#32 }
  else if n = 0x004 then { c with erc := v &&& 3#32 }
  else if n = 0x005 then { c with phase := v &&& 0xFF#32 }
  else { c with
    xs := Vector.ofFn fun j => if j.val = n - 0x010 then v.extractLsb' 0 6 else c.xs[j]
    xa := Vector.ofFn fun j =>
      if j.val / 6 = n - 0x010 ∧ (c.xs.toList.getD (j.val / 6) 0#6).getLsbD (j.val % 6) ∧ v.getLsbD (j.val % 6) = false then 0#64 else c.xa[j] }

/-- A fault taken at the bundle at the program counter, which takes no effect (R97, R98), in a cycle that counts as IDLE (R344). -/
def faulted (s : State) (e : Exc) (parcel : Nat) : State :=
  (takeFault (s.countCycle s.turn.val false) s.turn.val e parcel s.me.pc s.me.pc).tickFresh

/-! ### Waits -/

/-- An instruction whose bundle takes effect and leaves waits behind: nothing else of the core changes. -/
def Waiting (s t : State) (ws : List Wait) : Prop := t.me.waits = ws ∧ ∀ fr k, { (later fr k t.me).rest with waits := [] } = s.me.rest
/-- A running core between two bundles that waits for `ws` and is not held back by anything else. -/
structure Between (s : State) (ws : List Wait) : Prop where
  running : s.me.st = .running
  owed    : s.me.owed = []
  held    : s.me.held = false
  empty   : s.me.empty = 0
  flights : s.me.flights = []
  waits   : s.me.waits = ws

/-- A task whose waits are over: a TRAP whose bundle is done stops it (R123); otherwise the next bundle issues. -/
def issues (u : State) : Bool × State :=
  if u.me.trapDue.isSome then (true, settleTrap (u.countCycle u.turn.val false) u.turn.val) else (false, u)

/-! ### Vector instructions -/

/-- R71, R72: a source's image, by kind and field. -/
def source (c : Core) (t : ElemT) (k : BitVec 2) (f : BitVec 8) : VReg :=
  if k = 0#2 then c.rv (f.extractLsb' 0 7)
  else if k = 1#2 then
    if t = .c32 then broadcast64 (c.rx (f.extractLsb' 0 6)) (c.rx (f.extractLsb' 0 6 ||| 1#6)) else broadcast32 (c.rx (f.extractLsb' 0 6))
  else if k = 2#2 then
    if t = .c32 then broadcast64 (c.constAt f.toNat) (c.constAt (f.toNat + 1)) else broadcast32 (c.constAt f.toNat)
  else literalSrc t f
/-- R70, R89: a vector register of the task's partition. -/
def vLegal (c : Core) (r : BitVec 7) : Prop := r.toNat < 32 * ((c.part.extractLsb' 0 2).toNat + 1)
/-- R93, R130: the latency of the operations whose integer and float forms differ. -/
def arithLat (o : VOps) : Nat := if (vType o).int?.isSome then 2 else 4
/-- A V instruction with a vector destination: its fields, its latency (R93), whether it reads source B and its old destination, and its
value on what it reads (R132–R154). -/
structure VecOp where
  o   : VOps
  lat : Nat
  two : Bool
  acc : Bool
  f   : VEnv → VReg → VReg → VReg → VOut
def vecOp (c : Core) : Instr → Option VecOp
  | .vadd o => some ⟨o, arithLat o, true, false, fun e x y _ => vArith .add e x y 0#4096⟩
  | .vsub o => some ⟨o, arithLat o, true, false, fun e x y _ => vArith .sub e x y 0#4096⟩
  | .vmul o => some ⟨o, arithLat o, true, false, fun e x y _ => vArith .mul e x y 0#4096⟩
  | .vfma o => some ⟨o, arithLat o, true, true, vArith .fma⟩
  | .vfms o => some ⟨o, arithLat o, true, true, vArith .fms⟩
  | .vfnma o => some ⟨o, arithLat o, true, true, vArith .fnma⟩
  | .vmin o => some ⟨o, 2, true, false, fun e x y _ => vMinMax false e x y⟩
  | .vmax o => some ⟨o, 2, true, false, fun e x y _ => vMinMax true e x y⟩
  | .vabs o => some ⟨o, 2, false, false, fun e x _ _ => vAbs e x⟩
  | .vneg o => some ⟨o, 2, false, false, fun e x _ _ => vNeg e x⟩
  | .vsel o => some ⟨o, 2, true, false, fun e x y _ => vSel e (c.rk (o.fn.extractLsb' 0 3)) x y⟩
  | .vrcp o => some ⟨o, 12, false, false, fun e x _ _ => vTransc .rcp e x⟩
  | .vrsq o => some ⟨o, 12, false, false, fun e x _ _ => vTransc .rsq e x⟩
  | .vexp2 o => some ⟨o, 12, false, false, fun e x _ _ => vTransc .exp2 e x⟩
  | .vlog2 o => some ⟨o, 12, false, false, fun e x _ _ => vTransc .log2 e x⟩
  | .vsinp o => some ⟨o, 12, false, false, fun e x _ _ => vTransc .sinp e x⟩
  | .vcosp o => some ⟨o, 12, false, false, fun e x _ _ => vTransc .cosp e x⟩
  | .vcvt o => some ⟨o, 5, false, false, fun e x _ _ => vCvt e ((ElemT.ofCode (o.b.extractLsb' 0 4)).getD .f32) (o.fn.extractLsb' 2 2).toNat x⟩
  | .vpackbx o => some ⟨o, 5, false, false, fun e x _ _ => vPackBx e (o.fn.getLsbD 3) (o.fn.extractLsb' 0 3).toNat x⟩
  | .vunpbx o => some ⟨o, 5, true, false, fun e x y _ => vUnpBx e (o.fn.extractLsb' 0 3).toNat x y⟩
  | .vmulh o => some ⟨o, 2, true, false, fun e x y _ => vMulH e x y⟩
  | .vshl o => some ⟨o, 2, true, false, fun e x y _ => vShl e x y⟩
  | .vshr o => some ⟨o, 2, true, false, fun e x y _ => vShr e x y⟩
  | .vsra o => some ⟨o, 2, true, false, fun e x y _ => vSra e x y⟩
  | .vfshl o => some ⟨o, 2, true, true, vFshl⟩
  | .vfshr o => some ⟨o, 2, true, true, vFshr⟩
  | .vtlog o => some ⟨{ o with ka := 0#2, kb := 0#2 }, 2, true, true, fun e x y z => vTlog e (o.ka ++ o.kb ++ o.fn) x y z⟩
  | .vpopc o => some ⟨o, 2, false, false, fun e x _ _ => vPopc e x⟩
  | .vclz o => some ⟨o, 2, false, false, fun e x _ _ => vClz e x⟩
  | .vmov o => some ⟨o, 2, false, false, fun e x _ _ => vMov e x⟩
  | .vperm o => some ⟨o, 2, true, false, fun e x y _ => vPerm e (o.fn.getLsbD 0) x y⟩
  | .vrot o => some ⟨o, 2, false, false, fun e x _ _ => vRot e (rotCount c o) x⟩
  | .viota o => some ⟨o, 2, true, false, fun e x y _ => vIota e x y⟩
  | .vred o => some ⟨o, 8, false, false, fun e x _ _ => vRed e (o.fn.extractLsb' 2 2).toNat x⟩
  | .vscan o => some ⟨o, 8, false, false, fun e x _ _ => vScan e (o.fn.extractLsb' 2 2).toNat x⟩
  | .vcmul o => some ⟨o, 4, true, o.fn.getLsbD 3, fun e x y z => vCmul e (o.fn.getLsbD 3) (o.fn.getLsbD 2) x y z⟩
  | _ => none
/-- The registers a V instruction names lie in the partition. -/
def VecOp.Legal (v : VecOp) (c : Core) : Prop :=
  vLegal c v.o.vd ∧ (v.o.ka = 0#2 → vLegal c (v.o.a.extractLsb' 0 7)) ∧ (v.two = true → v.o.kb = 0#2 → vLegal c (v.o.b.extractLsb' 0 7))
/-- The value a V instruction computes from what it reads at its issue. -/
def VecOp.out (v : VecOp) (c : Core) : VOut :=
  v.f ⟨vType v.o, RMode.ofFn (v.o.fn.extractLsb' 0 2) c.rmode, v.o.sat == 1#1, c.pred v.o.pk, c.fmte⟩ (source c (vType v.o) v.o.ka v.o.a)
    (if v.two then source c (vType v.o) v.o.kb v.o.b else 0#4096) (if v.acc then c.rv v.o.vd else 0#4096)
/-- R128: vector register `d` holds `r` in the written lanes, from `lat` cycles after the issue on, and nothing else of the core changes but
slot V0's sticky record. -/
def VectorLands (s t : State) (d : BitVec 7) (lat : Nat) (r : VOut) : Prop := ∀ fr k,
  (∀ l, l < 128 → elemOf 32 ((later fr k t.me).rv d) l =
    if lat ≤ k + 1 ∧ r.lanes.getLsbD l = true then elemOf 32 r.val l else elemOf 32 (s.me.rv d) l) ∧
  (∀ a, a < 512 * d.toNat ∨ 512 * d.toNat + 512 ≤ a → (later fr k t.me).pool.read a = s.me.pool.read a) ∧
  { (later fr k t.me).rest with pool := s.me.pool } = (if lat ≤ k + 1 then s.me.raise .v0 r.flags s.me.pc else s.me).rest
/-- R133, R135, R136, R143, R144, R146, R147: an element of `w` bits of an integer operation without saturation, from the elements of its
sources `x` and `y` and of its old destination `z`, as bits; `sg` says whether the type is signed. -/
def intElem (sg : Bool) (w x y z : Nat) : Instr → Option Nat
  | .vadd _ => some ((x + y) % 2 ^ w)
  | .vsub _ => some ((x + (2 ^ w - y)) % 2 ^ w)
  | .vmul _ => some (x * y % 2 ^ w)
  | .vfma _ => some ((x * y + z) % 2 ^ w)
  | .vfms _ => some ((x * y + (2 ^ w - z)) % 2 ^ w)
  | .vfnma _ => some (((2 ^ w - x) * y + z) % 2 ^ w)
  | .vmin _ => some (if (if sg then sInt w x ≤ sInt w y else x ≤ y) then x else y)
  | .vmax _ => some (if (if sg then sInt w x ≤ sInt w y else x ≤ y) then y else x)
  | .vmulh _ => some (if sg then intBits w (sInt w x * sInt w y / 2 ^ w) else x * y / 2 ^ w)
  | .vshl _ => some (x * 2 ^ (y % w) % 2 ^ w)
  | .vshr _ => some (x / 2 ^ (y % w))
  | .vsra _ => some (intBits w (sInt w x / 2 ^ (y % w)))
  | .vfshl _ => some ((z * 2 ^ w + x) * 2 ^ (y % w) / 2 ^ w % 2 ^ w)
  | .vfshr _ => some ((x * 2 ^ w + z) / 2 ^ (y % w) % 2 ^ w)
  | .vpopc _ => some ((List.range w).filter fun i => x.testBit i).length
  | .vclz _ => some (if x = 0 then w else w - 1 - Nat.log2 x)
  | .vmov _ => some x
  | _ => none

/-! ### Tiles -/

/-- R70, R89: a tile of the task's partition. -/
def tLegal (c : Core) (t : BitVec 6) : Prop := t.toNat < 4 * (c.part.extractLsb' 8 5).toNat
/-- R196: the byte of a tile that byte `b` of its image stands for. -/
def imageByte (tr : Bool) (b : Nat) : Nat := if tr then 256 * (b / 4 % 64) + 4 * (b / 256) + b % 4 else b
/-- The state `k` issue cycles of the core whose turn it is later, with no further bundle issued, as a bundle of that cycle would find it: the array reads what each
cycle reads (R193), and what is in flight lands (R92). -/
def runs (fr : Nat) : Nat → State → State
  | 0, s => readArrays s s.turn.val
  | k + 1, s => runs fr k ((readArrays s s.turn.val).modCore s.turn.val fun c => c.advance fr)
/-- R40, R199: element `e` of line `i` of an integer panel at offset `off`, of a step of length `k`; none for a NaN marker. -/
def panelInt (c : Core) (t : ElemT) (off k i e : Nat) : Option Int :=
  let b := (bytesToNat (c.padBytes false (off + k * t.bits / 8 * i) (k * t.bits / 8)) / 2 ^ (t.bits * e)) % 2 ^ t.bits
  let half := 2 ^ (t.bits - 1)
  if t = .n8 ∨ t = .n4 then some b
  else if b = half ∧ fmteNsub c.fmte = 2#2 then none
  else if b = half ∧ fmteNsub c.fmte = 1#2 then some (1 - (half : Int))
  else some (if b < half then (b : Int) else (b : Int) - (2 * half : Nat))
/-- R44: an exact sum in a tile element, saturated symmetrically. -/
def tileInt (x : Int) : Nat := (Int.emod (max (1 - 2 ^ 31) (min (2 ^ 31 - 1) x)) (2 ^ 32)).toNat
/-- R44, R201: element (x, y) after an integer K step. -/
def denseInt (c : Core) (o : MOps) (ta tb : ElemT) (x y : Nat) : Nat :=
  let k := kStep ta tb
  let ps := (List.range k).map fun e => (panelInt c ta (c.rx o.xa).toNat k x e).bind fun a => (panelInt c tb (c.rx o.xb).toNat k y e).map fun b => a * b
  let z := c.tileElem o.zd.toNat x y
  if ps.any (·.isNone) then 0x80000000
  else
    let sum := (ps.map fun p => p.getD 0).foldl (· + ·) 0
    if o.f4.getLsbD 0 then tileInt sum
    else if z = 0x80000000 then z
    else tileInt ((if z < 2 ^ 31 then (z : Int) else (z : Int) - 2 ^ 32) + sum)
/-- R42, R43, R201: element (x, y) after a floating K step: the exact sum, rounded once. -/
def denseFloat (c : Core) (o : MOps) (ta tb : ElemT) (x y : Nat) : Nat :=
  let k := kStep ta tb
  let line := fun (t : ElemT) (off i : Nat) => panelLine t c.fmte k (c.padBytes false off (panelBytes t k)) (c.padBytes false (off + panelBytes t k) (scaleBytes t k)) i
  let ts := List.zipWith FVal.mul (line ta (c.rx o.xa).toNat x) (line tb (c.rx o.xb).toNat y)
  (FFmt.f32.round .rne false (exactSum .rne (if o.f4.getLsbD 0 then ts else ts ++ [FFmt.f32.decode (c.tileElem o.zd.toNat x y)]))).1
/-- R204, R205, R207: flat element `e` of tile `zd` after a real stage with stride register `b`, whose weights of format `ty` lie at `off`. -/
def realStage (c : Core) (ty : ElemT) (b : Word) (off zd e : Nat) : Nat :=
  let st := (b.extractLsb' 0 4).toNat
  let cm := (b.extractLsb' 16 12).toNat
  let e0 := if e.testBit st then e - 2 ^ st else e
  let p := e0 / 2 ^ (st + 1) * 2 ^ st + e0 % 2 ^ st
  let w := if b.getLsbD 28 then 0 else p % 2 ^ (b.extractLsb' 8 4).toNat
  let d := fun (x : Nat) => FFmt.f32.decode (c.tileElem zd (x / 64) (x % 64))
  let wt := fun (q : Nat) => if ty = .bf16 then FFmt.bf16.decode (bytesToNat (c.padBytes false (off + 8 * w + 2 * q) 2))
    else FFmt.f32.decode (bytesToNat (c.padBytes false (off + 16 * w + 4 * q) 4))
  let q := if e.testBit st then 2 else 0
  if e0 &&& cm = cm then (FFmt.f32.round .rne false (exactSum .rne [(wt q).mul (d e0), (wt (q + 1)).mul (d (e0 + 2 ^ st))])).1 else c.tileElem zd (e / 64) (e % 64)
/-- Pool bytes outside tile `zd` are those of `c`. -/
def OutsideTile (c c' : Core) (zd : Nat) : Prop := ∀ a, (a < c.tileBase zd ∨ c.tileBase zd + 16384 ≤ a) → c'.pool.read a = c.pool.read a
/-- R206: what BFSET leaves in a stride register, bits on RES0 fields discarded. -/
def strideWord (f4 : BitVec 4) (old x : Word) : Word :=
  (if f4.extractLsb' 0 2 = 1#2 then old &&& 0xFFFFFFF0#32 ||| x &&& 0xF#32
   else if f4.extractLsb' 0 2 = 2#2 then old &&& 0xF000FFFF#32 ||| (x &&& 0xFFF#32) <<< 16 else x) &&& 0x1FFF0F0F#32
/-- The place of a bundle of the one instruction `i` at the program counter. -/
def place (s : State) (i : Instr) : At := ⟨s.turn.val, s.me.pc, lenOf i, slotOf i, 0⟩

/-! ### The own scratchpad -/

/-- R158, R173: `off` is the offset an L instruction of `n` bytes names in its own scratchpad, aligned and inside. -/
def OwnAt (s : State) (o : LOps) (off : Nat) : Prop := ownRange s s.turn.val (eaOf s.me o.bp o.xi o.imm) (szBytes o.sz) (szBytes o.sz) = some off
/-- R162: no bank of a range waits for a VJOIN before it may be read in a view. -/
def ViewClear (c : Core) (view : Bool) (banks : BitVec 32) : Prop := (if view then c.viewL else c.viewS) &&& banks = 0#32
/-- R173: a vector operand of an L instruction lies in the partition. -/
def dLegal (c : Core) (o : LOps) : Prop := o.sz = 4#3 → vLegal c o.d
/-- R173, R174: a core whose load of `bs` into D has landed. -/
def loaded (c : Core) (o : LOps) (bs : List Byte) : Core :=
  let r : BitVec 6 := o.d.extractLsb' 0 6
  let v := bytesToNat bs
  match o.sz.toNat with
  | 0 => c.wx r (if o.aux.getLsbD 0 then (BitVec.ofNat 8 v).signExtend 32 else BitVec.ofNat 32 v)
  | 1 => c.wx r (if o.aux.getLsbD 0 then (BitVec.ofNat 16 v).signExtend 32 else BitVec.ofNat 32 v)
  | 2 => c.wx r (BitVec.ofNat 32 v)
  | 3 => (c.wx r (BitVec.ofNat 32 v)).wx (r ||| 1#6) (BitVec.ofNat 32 (v / 2 ^ 32))
  | 4 => c.wv o.d (mergeLanes (c.rv o.d) (BitVec.ofNat 4096 v) (c.pred o.pk)) (c.pred o.pk)
  | _ => c.mergeK (o.d.extractLsb' 0 3) (BitVec.ofNat 128 v) (c.pred o.pk)
/-- R173: byte `i` of what a store of D leaves where `old` stood: a disabled lane or mask bit keeps its value. -/
def storeByte (c : Core) (o : LOps) (i : Nat) (old : Byte) : Byte :=
  let r : BitVec 6 := o.d.extractLsb' 0 6
  match o.sz.toNat with
  | 3 => (c.rpair r).extractLsb' (8 * i) 8
  | 4 => if (c.pred o.pk).getLsbD (i / 4) then (c.rv o.d).extractLsb' (8 * i) 8 else old
  | 5 => ((c.rk (o.d.extractLsb' 0 3)).extractLsb' (8 * i) 8 &&& (c.pred o.pk).extractLsb' (8 * i) 8) |||
      (old &&& ~~~ (c.pred o.pk).extractLsb' (8 * i) 8)
  | _ => (c.rx r).extractLsb' (8 * i) 8
/-- R177: what an atomic makes of the old value, and whether it saturated. -/
def atomicNew (aux : BitVec 2) (w old v cmp : Nat) : Nat × Bool :=
  if aux = 0#2 then ((old + v) % 2 ^ w, false)
  else if aux = 1#2 then (v, false)
  else if aux = 2#2 then
    let sum := sInt w old + sInt w v
    if sum < -(2 ^ (w - 1) : Int) then (2 ^ (w - 1), true)
    else if (2 ^ (w - 1) : Int) ≤ sum then (2 ^ (w - 1) - 1, true)
    else (intBits w sum, false)
  else (if old = cmp then v else old, false)

/-! ### Queued accesses -/

/-- An instruction's accesses have been queued in issue order (R178, R372): they cover the enabled bytes `en` of the virtual range from `va`
on, with their enables, belong to job `job` of core `n`, and none has been performed. -/
def Queued (s t : State) (n : Nat) (op : AccOp) (path : Path) (job va : Nat) (en : Nat → Bool) (len : Nat) : Prop :=
  ∃ added, t.accesses = s.accesses ++ added ∧
    (∀ a ∈ added, a.core = n ∧ a.op = op ∧ a.path = path ∧ a.job = job ∧ a.done = false ∧ a.sent = false ∧ a.va = va + a.part ∧
      a.part + a.en.length ≤ len ∧ a.key % 128 = 0 ∧ a.off + a.en.length ≤ 128 ∧ ∀ j, j < a.en.length → a.en[j]? = some (en (a.part + j))) ∧
    (∀ j, j < len → en j = true → ∃ a ∈ added, a.part ≤ j ∧ j < a.part + a.en.length)
/-- A bundle that queues work leaves every byte of memory and of every pool, and every other core, as it was. -/
structure Enqueued (s t : State) (next : DWord) : Prop where
  pc     : t.me.pc = next
  turn   : t.turn = s.turn
  memory : ∀ a, t.mem.read a = s.mem.read a
  pools  : ∀ m, (t.core m).pool = (s.core m).pool
  regs   : t.me.x = s.me.x ∧ t.me.k = s.me.k ∧ t.me.xs = s.me.xs ∧ t.me.xa = s.me.xa
/-- The order and scope of an L instruction's accesses (R178); a store to a notify register is a release at system scope (R290). -/
def OrderedAs (s t : State) (o : LOps) (store : Bool) : Prop := ∀ a ∈ t.accesses.drop s.accesses.length,
  a.acq = o.ord.getLsbD 0 ∧
  (if store ∧ keyTier a.key = 4 ∧ keyPa (a.key + a.off) % 131072 = 0 then a.rel = true ∧ a.scope = 3#2 else a.rel = o.ord.getLsbD 1 ∧ a.scope = o.scope)
/-- A job for what an instruction's accesses will bring (R96, R164). -/
def JobAdded (s t : State) (k : JobKind) : Prop := t.me.jobs = s.me.jobs ++ [⟨s.nextId, k, s.me.pc, []⟩]
/-- R96, R173: what a load brings to D. -/
def loadJobKind (c : Core) (o : LOps) : JobKind :=
  if o.sz = 4#3 then .loadV o.d (c.pred o.pk)
  else if o.sz = 5#3 then .loadK (o.d.extractLsb' 0 3) (c.pred o.pk)
  else if o.sz = 3#3 then .loadX (o.d.extractLsb' 0 6) o.sz false true
  else .loadX (o.d.extractLsb' 0 6) o.sz (o.aux.getLsbD 0) false
/-- The register a variable-latency load leaves pending (R96), or the fill it leaves pending (R164), for job `id`. -/
def PendingFor (s t : State) (o : LOps) (id : Nat) : Prop :=
  (o.sz.toNat ≤ 2 → t.me.pend = s.me.pend ++ (if o.d.extractLsb' 0 6 = 0#6 then [] else [(id, o.d.extractLsb' 0 6)])) ∧
  (o.sz = 3#3 → t.me.pend = s.me.pend ++ (if o.d.extractLsb' 0 6 = 0#6 then [(id, 1#6)] else [(id, o.d.extractLsb' 0 6), (id, o.d.extractLsb' 0 6 ||| 1#6)])) ∧
  (o.sz = 4#3 → t.me.regFills = s.me.regFills ++ [(id, .v o.d)]) ∧
  (o.sz = 5#3 → t.me.regFills = s.me.regFills ++ [(id, .k (o.d.extractLsb' 0 3))])
/-- Whether byte `i` of an L instruction's data is enabled (R173). -/
def byteOn (c : Core) (o : LOps) (i : Nat) : Bool :=
  if o.sz = 4#3 then (c.pred o.pk).getLsbD (i / 4) else if o.sz = 5#3 then (c.pred o.pk).extractLsb' (8 * i) 8 != 0#8 else true
/-- The global address an L instruction names, at a multiple of `al`. -/
def GlobAt (s : State) (bp : BitVec 5) (xi : BitVec 6) (imm : BitVec 24) (al va : Nat) : Prop :=
  globRange s s.turn.val (eaOf s.me bp xi imm) al = some va
/-- Every line of a range translates for an access of kind `w` (R178, R390). -/
def Mapped (s : State) (w : Want) (va len : Nat) : Prop := ∀ p ∈ partsOf va len, (translate s s.me.ctx w p.1).toOption.isSome = true
/-- No cached translation or table pointer shows another walk than the page tables (R389). -/
def TlbFresh (s : State) : Prop := ∀ ctx va, walkCached s ctx va = walk s ctx va
/-- R182: offset and length of a transfer between memory and the scratchpad. -/
def XferAt (c : Core) (d : BitVec 7) (off len : Nat) : Prop :=
  off = (c.rx (d.extractLsb' 0 6)).toNat ∧ len = (c.rx (d.extractLsb' 0 6 ||| 1#6)).toNat ∧ off % 128 = 0 ∧ len % 128 = 0 ∧ off + len ≤ c.padSize

/-! ### Macro-instructions -/

/-- R213, R227, R263: the opcode of a macro-instruction, and its fields. -/
def macroOp : Instr → Option (Nat × XOps)
  | .mconv o => some (0x00, o) | .mmul o => some (0x01, o) | .mattn o => some (0x02, o) | .mpool o => some (0x03, o) | .msort o => some (0x04, o)
  | .mcopy o => some (0x05, o) | .mgath o => some (0x06, o) | .mmap o => some (0x07, o) | .mbfly o => some (0x08, o) | .mgate o => some (0x11, o)
  | .mixch o => some (0x12, o) | .mcoll o => some (0x13, o)
  | _ => none
/-- R213, R215: a macro's issue finds its parameter block read, captures `m`, and its checks `k` find nothing wrong; no slot is BUSY, and its
accumulators belong to no slot and have no row in flight. -/
structure MacroReady (s : State) (op : Nat) (o : XOps) (m : MSlot) (k : MChk) : Prop where
  param  : s.me.param ≠ 0
  block  : ∃ pl, paramPlace s s.turn.val (blockAddr s.me o.bp o.p3) = some pl ∧ blockExcs s s.turn.val op [o.td0, o.td1, o.td2] pl = [] ∧
    macroFor s s.turn.val o.tag.toNat op (o.fl.toNat / 2) o.td0 o.td1 o.td2 (blockAddr s.me o.bp o.p3) pl = some (m, k)
  checks : k.excs = []
  second : op = 7 → m.f 17 1 = 0 → o.td1 = 0#8
  slots  : NoBusy s.me
  tiles  : ∀ j, j < m.zn → (s.me.tileInfo (m.zb + j)).owner = none ∧ 64 ≤ (s.me.tileInfo (m.zb + j)).rowsAt s.me.ic
/-- R168, R244: copy `k` of core `n` as its issue leaves it. -/
structure NewCopy (s : State) (k : Copy) (tag : BitVec 2) (ts : List Nat) (src dst len start : Nat) : Prop where
  id      : k.id = s.nextId
  tag     : k.tag = tag
  targets : k.targets = ts
  range   : k.src = src ∧ k.dst = dst ∧ k.len = len
  start   : k.startIc = start ∧ k.started = false ∧ k.landed = []
/-- R255: what a write of entry `td` leaves of the descriptor table's memory. -/
def entryMem (s : State) (td : BitVec 8) (v : BitVec 1024) : Except Nat State :=
  devWrite s (some (.write 3 s.turn.val)) s.me.ctx (ctxField s s.me.ctx (·.tdBase) + 128 * td.toNat) (natToBytes 128 v.toNat) agDev
/-- R255: entry `td` of the descriptor table has become `v`: in memory (as `w` holds it), in the issuing core's copy one cycle on, and, for the
other cores of the context, as an entry that an acquire will bring. -/
structure EntryWritten (s t w : State) (next : DWord) (td : BitVec 8) (v : BitVec 1024) : Prop where
  pc     : t.me.pc = next
  turn   : t.turn = s.turn
  memory : ∀ a, t.mem.read a = w.mem.read a
  own    : ∀ fr k e, (Tab.get? (later fr k t.me).descs e).getD 0#1024 = if e = td.toNat then v else (Tab.get? s.me.descs e).getD 0#1024
  others : ∀ m, m ≠ s.turn.val → m < 160 → (s.core m).st ≠ .free → (s.core m).ctx = s.me.ctx →
    ∃ p, (t.core m).descNew = (s.core m).descNew ++ [p] ∧ p.n = td ∧ p.entry = v
  regs   : t.me.x = s.me.x ∧ t.me.k = s.me.k ∧ t.me.pool = s.me.pool

/-! ### Device steps -/

/-- One access of a core that may be performed now, at a line of this package that is not poisoned, and that brings no bytes of a WBACK. -/
structure Due (s : State) (id : Nat) (a : Access) : Prop where
  found : s.accesses.find? (fun b => b.id == id) = some a
  may   : eligible s a = true
  home  : keyTier a.key < 3
  clean : s.poisoned a.key = false
  plain : ∀ j, (s.core a.core).jobs.find? (fun j => j.id == a.job) = some j → ∀ v o l, j.kind ≠ .wback v o l ∧ j.kind ≠ .fetch v o l
/-- Bytes `lo` to `lo + n − 1` of memory become `f`, and no other byte of memory changes. -/
def MemBecomes (s t : State) (lo n : Nat) (f : Nat → Byte) : Prop :=
  ∀ a, t.mem.read a = if lo ≤ a ∧ a < lo + n then f (a - lo) else s.mem.read a
/-- R358: a barrier object that is ARMED takes `x` arrivals and `b` bytes without an overrun. -/
def arrived (o : BObj) (x b : Nat) : BObj :=
  { o with narr := o.narr + x, barr := o.barr + b, st := if o.narr + x = o.nexp ∧ o.barr + b = o.bexp then 2 else 1 }
/-- A core's scalar registers take the word `v` in `d` (R88), and no other changes. -/
def WordTaken (c c' : Core) (d : BitVec 6) (v : Word) : Prop := ∀ r, c'.rx r = if r = d ∧ d ≠ 0#6 then v else c.rx r
/-- A core's part in a job has ended (R96, R164). -/
def JobEnded (s t : State) (n job : Nat) : Prop :=
  (∀ j ∈ (t.core n).jobs, j.id ≠ job) ∧ (∀ p ∈ (t.core n).pend, p.1 ≠ job) ∧ (∀ p ∈ (t.core n).regFills, p.1 ≠ job) ∧
  (∀ a ∈ t.accesses, a.core = n → a.job ≠ job) ∧ ∀ a, t.mem.read a = s.mem.read a
/-- The slot of core `n` numbered `t` after a step has been committed (R218, R222). -/
structure StepCommitted (s u : State) (n t : Nat) (so : StepOut) (lg : MLog) : Prop where
  done   : (u.slotAt n t).done = ((s.slotAt n t).done + 1) % 2 ^ 32
  idx    : ∀ i, i < 4 → (u.slotAt n t).ix i = so.next.getD i 0
  result : (u.slotAt n t).result = so.result
  zcur   : (u.slotAt n t).zcur = so.zcur
  goes   : so.last = false → (u.slotAt n t).st = .busy
  ends   : so.last = true → so.dests = [] → (s.slotAt n t).outs = [] → (s.slotAt n t).arrivalObj = 0 →
    (u.slotAt n t).st = .free ∧ (u.slotAt n t).reason = 1
  writes : so.dests ≠ [] → (u.slotAt n t).outs.length = (s.slotAt n t).outs.length + 1 ∧
    ((u.slotAt n t).outs.getLast?).map (·.step) = some (s.slotAt n t).done
  sticky : (u.core n).xs = ((s.core n).raise .x lg.fl (s.slotAt n t).baddr).xs
/-- R218, R219, R391: the translate and the settle phase of a step find nothing, and the writes of an earlier block from the same tile or buffer are
acknowledged. -/
structure StepGoes (s : State) (n t : Nat) (f : REnv → SM StepOut) (so : StepOut) (lg : MLog) : Prop where
  runs    : slotRuns s n t = true
  pages   : translateFails s n t f = none
  settled : settleWaits s n t f = false
  result  : (f (renv s n t)).run .zero = .ok (so, lg)
  room    : ∀ o ∈ (s.slotAt n t).outs, (∀ z ∈ so.tiles, z.1 ≠ o.tile) ∧ (so.tiles = [] → o.tile ≠ so.wtile)
/-- The fault ring of core `n`'s context takes another record of 56 bytes behind its sequence word (R282, R283), or the context is gone. -/
def RingTakes (s : State) (n : Nat) : Prop :=
  ∀ c, s.ctx? (s.core n).ctx = some c → s.recq.any (fun e => e.1 == (s.core n).ctx) = false ∧
    (appendRing s (s.core n).ctx c.fqcb n (List.replicate 56 0#8)).ok = true

/-! ### The host's side -/

/-- R434: the admin command at hand completes with a status, on state `u`. -/
def AdminEnds (s : State) (i : Instr) (u : State) (status : Nat) : Prop := exec i s = .next (finishAdmin u status).tickFresh
/-- R433: what a write of `val` to `bytes` bytes at an offset of the management aperture does; every other write is discarded. -/
def mgmtAfter (s : State) (off bytes val : Nat) : State :=
  if s.boot ≠ .ready ∨ s.portUp = false then s
  else if off = 0x8 ∧ bytes = 8 ∧ val % 64 = 0 ∧ (s.admq = 0 ∨ s.mem.nat (keyOf 2 s.admq) 8 = s.mem.nat (keyOf 2 s.admq + 8) 8) then { s with admq := val }
  else if off = 0x18 ∧ bytes = 8 ∧ val % 64 = 0 ∧ (s.evq = 0 ∨ s.mem.nat (keyOf 2 s.evq) 8 = s.mem.nat (keyOf 2 s.evq + 8) 8) then { s with evq := val }
  else if off = 0x10 ∧ bytes = 4 ∧ s.admq ≠ 0 then { s with adminRun := true }
  else if 0x1000 ≤ off ∧ off < 0x3000 ∧ off % 2 = 0 ∧ bytes = 2 ∧ 2 ≤ val ∧ val ≤ 2047 then { s with intmap := Tab.set s.intmap ((off - 0x1000) / 2) val }
  else s
/-- R437: the boot state as BSTATE reads it. -/
def bootState : Boot → Nat
  | .rom => 0 | .firmware => 1 | .ready => 2 | .failed => 3
/-- R432: whether the port reaches a range of a memory tier. -/
abbrev hostReaches (s : State) (tier addr len : Nat) : Prop := s.boot = .ready ∧ s.portUp = true ∧ tier ≤ 2 ∧ addr + len ≤ tierLimit tier
/-- R289, R431: whether an access of the doorbell aperture is one of a notify register. -/
abbrev notifiesAt (s : State) (addr len : Nat) : Prop :=
  s.boot = .ready ∧ s.portUp = true ∧ addr % 131072 = 0 ∧ addr < 2 ^ 29 ∧ (len = 4 ∨ len = 8)
/-- R289: a queue's state in its notify register. -/
def queueCode : QState → Nat
  | .idle => 1 | .ready => 2 | .bound => 3 | .waiting => 4 | .error => 5 | .disabled => 6
/-- The bytes of a 64-bit word, as a function of their places. -/
def wordBytes (v : Nat) (i : Nat) : Byte := BitVec.ofNat 8 (v / 2 ^ (8 * i))
/-- Whether a leaf entry lies outside the bytes a frame is copied to. -/
def apart (k lo n : Nat) : Prop := k + 8 ≤ lo ∨ lo + n ≤ k
/-- R406: a request whose RID is newer than any its link has brought, so that no reply to it is cached. -/
def NewRid (s : State) (l : Nat) (m : Msg) : Prop := (s.link l).cache.find? (fun e => e.1 == m.rid.toNat) = none ∧ (s.link l).newest = none
/-- R388, R394, R406: the request at the head of a link's arrivals asks for `len` bytes of this package that its sender might reach when it arrived, of lines that are
not poisoned and with whose tags it does not race; only a READ or WRITE may go past the end of a line. -/
structure Served (s : State) (l : Nat) (m : Msg) (opc len : Nat) (isRead sync : Bool) : Prop where
  head   : atHead s l m opc = true
  link   : l < 12
  admitted : s.headIn l = true
  home   : ∀ k ∈ linesOf ((msgAccess m).key + (msgAccess m).off) len, keyTier (128 * k) < 3
  clean  : ∀ k ∈ linesOf ((msgAccess m).key + (msgAccess m).off) len, s.memPoison.contains k = false
  race   : ∀ k ∈ linesOf ((msgAccess m).key + (msgAccess m).off) len, s.race (.link l) k isRead sync = none
  within : opc ≤ 2 ∨ (msgAccess m).off + len ≤ 128
  order  : (msgAccess m).acq = false ∧ (msgAccess m).rel = false
  once   : NewRid s l m
  silent : s.queues = [] ∧ s.accesses = []

end Sys2Proof.Spec

open Sys2Proof Sys2Proof.Machine Sys2Proof.Spec

/-- R101, R103, R104, R88, R93. -/
def Obligations.ScalarAlu : Prop := ∀ (s : State) (i : Instr) (d : BitVec 6) (v : Word),
  Quiet s → i.cause = none → aluResult s.me i = some (d, v) →
  ∃ t, exec i s = .next t ∧ Issued s t (after s i) ∧ ScalarLands s t d 1 v 0#6
/-- R101, R102, R93: the products and the divisions. -/
def Obligations.ProductsAndDivisions : Prop := ∀ (s : State) (i : Instr) (d : BitVec 6) (v : Word), Quiet s →
  (mulResult s.me i = some (d, v) → ∃ t, exec i s = .next t ∧ Issued s t (after s i) ∧ ScalarLands s t d 3 v 0#6) ∧
  (∀ fl : Flags, divResult s.me i = some (d, v, fl) → ∃ t, exec i s = .next t ∧ Issued s t (after s i) ∧ ScalarLands s t d 18 v fl)
/-- R103, R104, R88. -/
def Obligations.PairResults : Prop := ∀ (s : State) (i : Instr) (d : BitVec 6) (v : DWord),
  Quiet s → i.cause = none → pairResult s.me i = some (d, v) → ∃ t, exec i s = .next t ∧ Issued s t (after s i) ∧ PairLands s t d v

/-- R105, R106, R93: a taken branch whose target passes its check makes the target the next bundle; one not taken goes on. -/
def Obligations.Branches : Prop := ∀ (s : State) (i : Instr) (taken : Bool) (dest : DWord),
  Quiet s → branchTo s.me i = some (taken, dest) → (taken = true → codeTarget s.me dest) →
  ∃ t, exec i s = .next t ∧ Issued s t (if taken then dest else after s i) ∧ NoResult s t
/-- R105: a computed target that fails its check raises ADDRESS at the branching bundle, and nothing of it takes effect. -/
def Obligations.BadTargets : Prop := ∀ (s : State) (i : Instr) (dest : DWord),
  Quiet s → i.cause = none → ¬ codeTarget s.me dest →
  (branchTo s.me i = some (true, dest) ∨ callTo s i = some dest ∨ (∃ a, i = .ret a ∧ retTo s.me a = dest) ∨ ∃ a, i = .jx a ∧ s.me.rpair a = dest) →
  exec i s = .next (faulted s ⟨2, 0, 0, dest.toNat, 0⟩ 0)
/-- R107, R112. -/
def Obligations.Calls : Prop := ∀ (s : State) (i : Instr) (dest : DWord),
  Quiet s → i.cause = none → callTo s i = some dest → codeTarget s.me dest →
  ∃ t, exec i s = .next t ∧ Issued s t dest ∧ Lands s t 1 { (callCore s i).wx 1 (linkOf s i) with depth := s.me.depth + 1 } ∧
    t.me.depth = s.me.depth + 1 ∧ t.me.rx 1 = linkOf s i
/-- R108. -/
def Obligations.Returns : Prop := ∀ (s : State) (a : BitVec 6), Quiet s →
  ((Instr.ret a).cause = none → codeTarget s.me (retTo s.me a) → ∃ t, exec (.ret a) s = .next t ∧ Issued s t (retTo s.me a) ∧
    ∀ fr k, (later fr k t.me).rest = { s.me.rest with depth := s.me.depth - 1 }) ∧
  ((Instr.jx a).cause = none → codeTarget s.me (s.me.rpair a) → ∃ t, exec (.jx a) s = .next t ∧ Issued s t (s.me.rpair a) ∧ NoResult s t)
/-- R110: LOOP with a trip count takes the lowest free level; with none it goes on behind the end bundle. -/
def Obligations.LoopSetup : Prop := ∀ (s : State) (f4 : BitVec 4) (a : BitVec 6) (imm : BitVec 32) (l : Nat),
  Quiet s → (Instr.loop f4 a imm).cause = none → FreeLevel s.me l → 4 ≤ imm.toInt →
  codeTarget s.me (BitVec.ofInt 64 (s.me.pc.toNat + 2 * imm.toInt)) →
  (s.me.rx a ≠ 0#32 → ∃ t, exec (.loop f4 a imm) s = .next t ∧ Issued s t (after s (.loop f4 a imm)) ∧
    ∀ fr k, (later fr k t.me).rest = (looped s.me l (s.me.rx a).toNat (after s (.loop f4 a imm))
      (BitVec.ofInt 64 (s.me.pc.toNat + 2 * imm.toInt)) (f4.extractLsb' 0 2) false).rest) ∧
  (s.me.rx a = 0#32 → ∀ items len, fetchBundle s s.turn.val (BitVec.ofInt 64 (s.me.pc.toNat + 2 * imm.toInt)) = .ok items len →
    ∃ t, exec (.loop f4 a imm) s = .next t ∧
      Issued s t (BitVec.ofInt 64 (s.me.pc.toNat + 2 * imm.toInt) + BitVec.ofNat 64 (2 * len)) ∧ NoResult s t)
/-- R114: LOOPX counts the entries between two row pointers, advances XB and leaves five empty cycles. -/
def Obligations.LoopxSetup : Prop := ∀ (s : State) (f4 : BitVec 4) (a b : BitVec 6) (imm : BitVec 32) (l o p0 p1 : Nat),
  Quiet s → (Instr.loopx f4 a b imm).cause = none → FreeLevel s.me l → 4 ≤ imm.toInt → NoBusy s.me →
  codeTarget s.me (BitVec.ofInt 64 (s.me.pc.toNat + 2 * imm.toInt)) → o = (s.me.rx a).toNat + 4 * (s.me.rx b).toNat → o % 4 = 0 → o + 8 ≤ s.me.padSize →
  s.me.viewS &&& bankSet false o 8 = 0#32 → p0 = bytesToNat (s.me.padBytes false o 4) → p1 = bytesToNat (s.me.padBytes false (o + 4) 4) → p0 < p1 →
  ∃ t, exec (.loopx f4 a b imm) s = .next t ∧ Issued s t (after s (.loopx f4 a b imm)) ∧ t.me.empty = 5 ∧
    ∀ fr k, { (later fr k t.me).rest with empty := 0 } = ((looped s.me l (p1 - p0) (after s (.loopx f4 a b imm))
      (BitVec.ofInt 64 (s.me.pc.toNat + 2 * imm.toInt)) (f4.extractLsb' 0 2) true).wx b (s.me.rx b + 1#32)).rest
/-- R111: the back-edge of a plain loop and of a pipelined one, no pre-emption being requested, at a NOP that is its end bundle. -/
def Obligations.BackEdges : Prop := ∀ (s : State) (l : Nat), Calm s → s.me.innermost = some l → (s.me.loopAt l).stop = s.me.pc →
  s.requested s.me = false → ((s.me.freeLoop l).innermost = none) →
  ((s.me.loopAt l).stages = 0#2 → s.me.lcAt l ≠ 0#32 → ∃ t, exec .nop s = .next t ∧ Issued s t (s.me.loopAt l).start ∧
    ∀ fr k, (later fr k t.me).rest = (s.me.setLc l (s.me.lcAt l - 1#32)).rest) ∧
  ((s.me.loopAt l).stages = 0#2 → s.me.lcAt l = 0#32 → ∃ t, exec .nop s = .next t ∧ Issued s t (after s .nop) ∧
    ∀ fr k, (later fr k t.me).rest = (s.me.freeLoop l).rest) ∧
  ((s.me.loopAt l).stages ≠ 0#2 → ∃ t, exec .nop s = .next t ∧ t.me.blaze = 1 ∧
    (drained (stagesAfter s.me (s.me.loopAt l).stages.toNat (s.me.lcAt l)) (s.me.loopAt l).stages.toNat →
      Issued s t (after s .nop) ∧ ∀ fr k, (later fr k t.me).rest =
        ((stagesAfter s.me (s.me.loopAt l).stages.toNat (s.me.lcAt l)).freeLoop l).rest) ∧
    (¬ drained (stagesAfter s.me (s.me.loopAt l).stages.toNat (s.me.lcAt l)) (s.me.loopAt l).stages.toNat →
      Issued s t (s.me.loopAt l).start ∧ ∀ fr k, (later fr k t.me).rest =
        ((stagesAfter s.me (s.me.loopAt l).stages.toNat (s.me.lcAt l)).setLc l
          (if s.me.lcAt l = 0#32 then 0#32 else s.me.lcAt l - 1#32)).rest))
/-- R116: LMARK pins the copy of the bundles behind its own that it reads at its issue, once the code cache holds them (R94). -/
def Obligations.LoopPin : Prop := ∀ (s : State) (n : BitVec 10), Quiet s → (Instr.lmark n).cause = none →
  (pinEnd s s.turn.val (after s (.lmark n)) n.toNat (after s (.lmark n)) none).isRight = true →
  ∃ t, exec (.lmark n) s = .next t ∧ Issued s t (after s (.lmark n)) ∧ NoResult s t ∧
    t.me.pin = pinCopy s s.turn.val (after s (.lmark n)) n.toNat
/-- R121, R90. -/
def Obligations.ReadSystem : Prop := ∀ (s : State) (d : BitVec 6) (n : BitVec 12), Quiet s →
  (∀ mts, sysRegInfo n = some (32, mts) → ∃ t, exec (.mfs d n) s = .next t ∧ Issued s t (after s (.mfs d n)) ∧
    ScalarLands s t d 1 ((sysRead s s.turn.val n).extractLsb' 0 32) 0#6) ∧
  (∀ mts, sysRegInfo n = some (64, mts) → (d.getLsbD 0 = true ∨ d = 0#6 → (Instr.mfs d n).cause = some 7) ∧
    (d.getLsbD 0 = false → d ≠ 0#6 → ∃ t, exec (.mfs d n) s = .next t ∧ Issued s t (after s (.mfs d n)) ∧ PairLands s t d (sysRead s s.turn.val n))) ∧
  (sysRegInfo n = none → (Instr.mfs d n).cause = some 8)
/-- R122, R3, R55. -/
def Obligations.WriteSystem : Prop := ∀ (s : State) (d : BitVec 6) (n : BitVec 12), Quiet s → s.me.raised = [] →
  (sysRegInfo n = some (32, true) → ∃ t, exec (.mts d n) s = .next t ∧ Issued s t (after s (.mts d n)) ∧
    ∀ fr k, (later fr k t.me).rest = (mtsCore s.me n.toNat (s.me.rx d)).rest) ∧
  (sysRegInfo n ≠ some (32, true) → (Instr.mts d n).cause = some 8)
/-- R100, R118, R119, R163, R346: NOP, BLAZE and VJOIN, and CARVE, which leaves a partition to be taken up at the next SYNC. -/
def Obligations.NoOperand : Prop := ∀ s : State, Quiet s →
  (∃ t, exec .nop s = .next t ∧ Issued s t (after s .nop) ∧ NoResult s t ∧ t.me.blaze = s.me.blaze + 1) ∧
  (∃ t, exec .blaze s = .next t ∧ Issued s t (after s .blaze) ∧ t.me.blaze = 1 ∧ t.me.held = s.requested s.me ∧
    ∀ fr k, { (later fr k t.me).rest with held := false } = s.me.rest) ∧
  (∃ t, exec .vjoin s = .next t ∧ Issued s t (after s .vjoin) ∧ ∀ fr k, (later fr k t.me).rest = { s.me with viewL := 0#32, viewS := 0#32 }.rest) ∧
  (∀ d : BitVec 6, ((s.me.rx d).extractLsb' 8 5).toNat ≤ 16 → ∃ t, exec (.carve d) s = .next t ∧ Issued s t (after s (.carve d)) ∧
    ∀ fr k, (later fr k t.me).rest = { s.me with carve := some (((s.me.rx d).extractLsb' 0 2).toNat, ((s.me.rx d).extractLsb' 8 5).toNat) }.rest)
/-- R123, R98: TRAP's bundle takes effect, and the task stops at the next bundle. -/
def Obligations.Trap : Prop := ∀ (s : State) (code : BitVec 12), Quiet s →
  ∃ u, Issued s u (after s (.trap code)) ∧ NoResult s u ∧
    exec (.trap code) s = .next (takeFault u s.turn.val ⟨8, 0, code.toNat, 0, 0⟩ 0 s.me.pc (after s (.trap code))).tickFresh

/-- R123–R125, R183, R352: the instructions that leave a wait behind their bundle. -/
def Obligations.WaitIssue : Prop := ∀ s : State, Quiet s →
  (∃ t, exec .endTask s = .next t ∧ Issued s t (after s .endTask) ∧ Waiting s t [.ending]) ∧
  (s.me.carve = none → ∃ t, exec .sync s = .next t ∧ Issued s t (after s .sync) ∧ Waiting s t [.sync 0]) ∧
  (∃ t, exec (.fwait 0#6) s = .next t ∧ Issued s t (after s (.fwait 0#6)) ∧ Waiting s t [.fwait true 0 0 false]) ∧
  (∀ d : BitVec 6, d ≠ 0#6 → (Instr.fwait d).cause = none → (s.me.rx d).toNat + (s.me.rx (d ||| 1#6)).toNat ≤ s.me.padSize →
    ∃ t, exec (.fwait d) s = .next t ∧ Issued s t (after s (.fwait d)) ∧ Waiting s t [.fwait false (s.me.rx d).toNat (s.me.rx (d ||| 1#6)).toNat false]) ∧
  (∀ (tag : BitVec 2) (fl : BitVec 4), (Instr.mwait tag fl).cause = none →
    ∃ t, exec (.mwait tag fl) s = .next t ∧ Issued s t (after s (.mwait tag fl)) ∧ Waiting s t [.mwait (fl.getLsbD 1) (fl.getLsbD 2) tag false]) ∧
  (∀ (d : BitVec 6) (cb : Nat), (Instr.waitq d).cause = none → s.me.rpair d = BitVec.ofNat 64 cb → cb < 2 ^ 56 →
    (waitqBehind s s.turn.val cb = true → transExc s s.turn.val wantRead 0 cb 32 = [] →
      ∃ t, exec (.waitq d) s = .next t ∧ Enqueued s t (after s (.waitq d)) ∧ t.me.waits = [.waitq cb]) ∧
    (waitqBehind s s.turn.val cb = false → (lookRing s s.turn.val [] cb = .no ∨ ∃ k va, lookRing s s.turn.val [] cb = .need k va) →
      ∃ t, exec (.waitq d) s = .next t ∧ Enqueued s t (after s (.waitq d)) ∧ t.me.waits = [.waitq cb]) ∧
    (s.me.refa = 0 → waitqBehind s s.turn.val cb = false → lookRing s s.turn.val [] cb = .yes →
      ∃ t, exec (.waitq d) s = .next t ∧ Enqueued s t (after s (.waitq d)) ∧ t.me.waits = []))
/-- R124, R86: a task whose END finds everything done leaves its core, whose granules keep their bytes and tags. -/
def Obligations.TaskEnds : Prop := ∀ s : State, Between s [.ending] → endReady s s.turn.val = true → s.me.refa = 0 →
  (∀ g, Tab.get? s.groups s.me.gid = some g → g.ended.length + 1 < g.size) →
  ∃ t, coreTurn s = t ∧ t.me.st = .free ∧ t.me.pool = s.me.pool ∧ t.me.gtags = s.me.gtags ∧ (∀ a, t.mem.read a = s.mem.read a) ∧
    (∀ g, Tab.get? s.groups s.me.gid = some g → ∃ g', Tab.get? t.groups s.me.gid = some g' ∧ g'.ended = g.ended ++ [s.me.tidx] ∧
      g'.endDie = s.dieCycle (dieOf s.turn.val))
/-- R183, R248: FWAIT and MWAIT hold their task until their conditions have come about at the end of a die cycle. In the cycle after, the next bundle may
issue, after the acquires of MWAIT with ACQ = 1 (one of each path that the waited-for work used), or a halted slot raises MACRO. -/
def Obligations.WaitsHold : Prop := ∀ s : State,
  (∀ all off len seen, Between s [.fwait all off len seen] →
    (seen = false → s.me.seeWaits.waits = [.fwait all off len (fwaitReady s.me all off len)]) ∧
    (seen = true → s.me.seeWaits = s.me) ∧
    (seen = false → coreTurn s = (s.countCycle s.turn.val false).tickFresh) ∧
    (seen = true → beforeIssue s s.turn.val = issues (popWait s s.turn.val))) ∧
  (∀ all acq tag seen, Between s [.mwait all acq tag seen] →
    (seen = false → s.me.seeWaits.waits = [.mwait all acq tag (mwaitReady s.me all tag)]) ∧
    (seen = true → s.me.seeWaits = s.me) ∧
    (seen = false → coreTurn s = (s.countCycle s.turn.val false).tickFresh) ∧
    (seen = true → haltedSlot s.me all tag = none →
      (acq = false → beforeIssue s s.turn.val = issues (popWait s s.turn.val)) ∧
      (acq = true → beforeIssue s s.turn.val = issues (popWait (mwaitAcquire s s.turn.val all tag) s.turn.val))) ∧
    (∀ t m, seen = true → haltedSlot s.me all tag = some (t, m) →
      let s1 := if acq then mwaitAcquire s s.turn.val all tag else s
      coreTurn s = (takeFault ((popWait s1 s.turn.val).countCycle s.turn.val false) s.turn.val ⟨17, t * 64 + m.reason, m.done, 0, 0⟩ 0 s.me.lastB s.me.pc).tickFresh)) ∧
  -- the acquires of MWAIT.acq: each path of a slot whose macro has run
  (∀ tag m, s.me.slotAt tag = m → m.reason ≠ 0 → mwaitAcquire s s.turn.val false tag =
    (pathsOfOp m.op).foldl (fun s p => s.xfenceCount s.turn.val p .lsu) s)
/-- R92, R93, R128, R54: every V instruction with a vector destination. -/
def Obligations.VectorResults : Prop := ∀ (s : State) (i : Instr) (v : VecOp), Quiet s → i.cause = none → vecOp s.me i = some v → v.Legal s.me →
  ∃ t, exec i s = .next t ∧ Issued s t (after s i) ∧ VectorLands s t v.o.vd v.lat (v.out s.me)
/-- R133, R135, R136, R143, R144, R146, R147: the elements of the integer operations without saturation. -/
def Obligations.VectorIntegers : Prop := ∀ (s : State) (i : Instr) (v : VecOp) (sg : Bool), Quiet s → i.cause = none → vecOp s.me i = some v →
  v.Legal s.me → v.o.sat = 0#1 → (vType v.o).int? = some sg → (intElem sg 32 0 0 0 i).isSome = true →
  ∃ t, exec i s = .next t ∧ ∀ fr k e, 1 ≤ k → e < 4096 / (vType v.o).bits →
    some (elemOf (vType v.o).bits ((later fr k t.me).rv v.o.vd) e) =
      if (s.me.pred v.o.pk).getLsbD (e * (vType v.o).bits / 32) = true then
        intElem sg (vType v.o).bits (elemOf (vType v.o).bits (source s.me (vType v.o) v.o.ka v.o.a) e)
          (elemOf (vType v.o).bits (source s.me (vType v.o) v.o.kb v.o.b) e) (elemOf (vType v.o).bits (s.me.rv v.o.vd) e) i
      else some (elemOf (vType v.o).bits (s.me.rv v.o.vd) e)
/-- R137, R154, R155, R128: the V instructions with a mask or a scalar destination. -/
def Obligations.MaskResults : Prop := ∀ (s : State) (o : VOps), Quiet s →
  ((Instr.vcmp o).cause = none → (o.ka = 0#2 → vLegal s.me (o.a.extractLsb' 0 7)) → (o.kb = 0#2 → vLegal s.me (o.b.extractLsb' 0 7)) →
    ∀ m fl, vCmp ⟨vType o, RMode.ofFn (o.fn.extractLsb' 0 2) s.me.rmode, o.sat == 1#1, s.me.pred o.pk, s.me.fmte⟩ (o.fn.extractLsb' 0 3) (o.fn.getLsbD 3)
      (source s.me (vType o) o.ka o.a) (source s.me (vType o) o.kb o.b) = (m, fl) →
    ∃ t, exec (.vcmp o) s = .next t ∧ Issued s t (after s (.vcmp o)) ∧ Lands s t 2 ((s.me.raise .v0 fl s.me.pc).wk (o.vd.extractLsb' 0 3)
      ((s.me.rk (o.vd.extractLsb' 0 3) &&& ~~~ s.me.pred o.pk) ||| (m &&& s.me.pred o.pk)))) ∧
  ((Instr.vklog o).cause = none → ∃ t, exec (.vklog o) s = .next t ∧ Issued s t (after s (.vklog o)) ∧ ∀ fr k,
    { (later fr k t.me).rest with k := s.me.k } = s.me.rest ∧ (∀ r, r ≠ o.vd.extractLsb' 0 3 → (later fr k t.me).rk r = s.me.rk r) ∧
    ∀ i, i < 128 → ((later fr k t.me).rk (o.vd.extractLsb' 0 3)).getLsbD i =
      if 1 ≤ k ∧ (s.me.pred o.pk).getLsbD i = true then
        o.fn.getLsbD (2 * ((s.me.rk (o.a.extractLsb' 0 3)).getLsbD i).toNat + ((s.me.rk (o.b.extractLsb' 0 3)).getLsbD i).toNat)
      else (s.me.rk (o.vd.extractLsb' 0 3)).getLsbD i) ∧
  ((Instr.vkpop o).cause = none → ∃ t, exec (.vkpop o) s = .next t ∧ Issued s t (after s (.vkpop o)) ∧
    ScalarLands s t (o.vd.extractLsb' 0 6) 2 (vKpop (o.fn.getLsbD 0) (s.me.rk (o.a.extractLsb' 0 3))) 0#6)

/-- R195–R198: ZZERO, ZRD, ZRDS and ZWM. -/
def Obligations.TileReads : Prop := ∀ (s : State) (zd : BitVec 6), Quiet s → tLegal s.me zd →
  ((s.me.tileInfo zd.toNat).owner = none → ∃ t, exec (.zzero zd) s = .next t ∧ Issued s t (after s (.zzero zd)) ∧ ∀ fr k,
    (∀ a, (later fr k t.me).pool.read a =
      if s.me.tileBase zd.toNat ≤ a ∧ a < s.me.tileBase zd.toNat + 16384 then 0#8 else s.me.pool.read a) ∧
    ((later fr k t.me).tileInfo zd.toNat).kdone = 0 ∧ { (later fr k t.me).rest with pool := s.me.pool, tiles := s.me.tiles } = s.me.rest) ∧
  (∀ (xa xb : BitVec 6) (f4 : BitVec 4) (i : Instr), vLegal s.me (f4.extractLsb' 0 1 ++ xb) → i.cause = none →
    (i = .zrd zd xa xb f4 ∧ (s.me.tileInfo zd.toNat).owner = none ∨ i = .zrds zd xa xb f4) →
    ∃ t, exec i s = .next t ∧ Issued s t (after s i) ∧ ∀ fr k,
      (∀ l, l < 128 → elemOf 32 ((later fr k t.me).rv (f4.extractLsb' 0 1 ++ xb)) l =
        if 4 ≤ k + 1 then
          if f4.getLsbD 1 then s.me.tileElem zd.toNat (l % 64) (2 * ((s.me.rx xa).toNat % 32) + l / 64)
          else s.me.tileElem zd.toNat (2 * ((s.me.rx xa).toNat % 32) + l / 64) (l % 64)
        else elemOf 32 (s.me.rv (f4.extractLsb' 0 1 ++ xb)) l) ∧
      (∀ a, a < 512 * (f4.extractLsb' 0 1 ++ xb).toNat ∨ 512 * (f4.extractLsb' 0 1 ++ xb).toNat + 512 ≤ a →
        (later fr k t.me).pool.read a = s.me.pool.read a) ∧ { (later fr k t.me).rest with pool := s.me.pool } = s.me.rest) ∧
  (∀ xa : BitVec 6, ∃ t, exec (.zwm zd xa) s = .next t ∧ Issued s t (after s (.zwm zd xa)) ∧
    ((s.me.tileInfo zd.toNat).owner = none → (s.me.tileInfo zd.toNat).first ≤ s.me.ic → (s.me.tileInfo zd.toNat).slow = false →
      ScalarLands s t xa 1 (BitVec.ofNat 32 ((s.me.tileInfo zd.toNat).kdone * 2 ^ 8 + 64)) 0#6) ∧
    ((s.me.tileInfo zd.toNat).owner.isSome = true → ScalarLands s t xa 1 (BitVec.ofNat 32 (2 ^ 31 + (s.me.tileInfo zd.toNat).kdone * 2 ^ 8 + 64)) 0#6))
/-- R196: ZST brings a tile's image to the scratchpad, and ZLD one from the scratchpad, which lands in cycle 10. -/
def Obligations.TileImages : Prop := ∀ (s : State) (zd xa : BitVec 6) (f4 : BitVec 4), Quiet s → tLegal s.me zd →
  (s.me.tileInfo zd.toNat).owner = none → NoBusy s.me → (s.me.rx xa).toNat % 2048 = 0 → (s.me.rx xa).toNat + 16384 ≤ s.me.padSize →
  ((Instr.zst zd xa f4).cause = none → ∃ t, exec (.zst zd xa f4) s = .next t ∧ Issued s t (after s (.zst zd xa f4)) ∧ ∀ fr k, 9 ≤ k →
    (∀ b, b < 16384 → (later fr k t.me).pool.read (s.me.padAddr (f4.getLsbD 1) ((s.me.rx xa).toNat + b)) =
      s.me.pool.read (s.me.tileBase zd.toNat + imageByte (f4.getLsbD 0) b)) ∧
    (∀ a, (∀ b, b < 16384 → a ≠ s.me.padAddr (f4.getLsbD 1) ((s.me.rx xa).toNat + b)) → (later fr k t.me).pool.read a = s.me.pool.read a) ∧
    { (later fr k t.me).rest with pool := s.me.pool, viewL := s.me.viewL, viewS := s.me.viewS } = s.me.rest) ∧
  ((Instr.zld zd xa f4).cause = none → ViewClear s.me (f4.getLsbD 1) (BitVec.allOnes 32) →
    ∃ t, exec (.zld zd xa f4) s = .next t ∧ Issued s t (after s (.zld zd xa f4)) ∧
      t.me.flights = [⟨s.me.ic + 1, s.me.ic + 10, .m, s.me.pc, 0#6, .zld zd (f4.getLsbD 0) (f4.getLsbD 1) (s.me.rx xa).toNat 1
        (s.me.padBytes (f4.getLsbD 1) (s.me.rx xa).toNat 2048)⟩] ∧
      { t.me.rest with tiles := s.me.tiles } = s.me.rest ∧ ∀ fr k, 9 ≤ k → ((runs fr k t).me.tileInfo zd.toNat).kdone = 0 ∧ OutsideTile s.me (runs fr k t).me zd.toNat ∧
        ∀ b, b < 16384 → (runs fr k t).me.pool.read (s.me.tileBase zd.toNat + b) =
          s.me.pool.read (s.me.padAddr (f4.getLsbD 1) ((s.me.rx xa).toNat + imageByte (f4.getLsbD 0) b)))
/-- R42–R44, R93, R189, R193, R199–R202: ZMMA takes the array for sixteen cycles and reads its panels; from cycle 28 on every element of the tile holds the step's
sum, and KDONE counts it. -/
def Obligations.DenseStep : Prop := ∀ (s : State) (o : MOps) (ta tb : ElemT) (na nb : Nat), Quiet s → (Instr.zmma o).cause = none → tLegal s.me o.zd →
  (s.me.tileInfo o.zd.toNat).owner = none → NoBusy s.me → s.me.viewS = 0#32 →
  zFormats s.me.fmte o.tda o.tdb (descAt s s.turn.val o.tda) (descAt s s.turn.val o.tdb) = .ok (ta, tb) →
  na = panelBytes ta (kStep ta tb) + scaleBytes ta (kStep ta tb) → nb = panelBytes tb (kStep ta tb) + scaleBytes tb (kStep ta tb) →
  (s.me.rx o.xa).toNat % 2048 = 0 → (s.me.rx o.xa).toNat + na ≤ s.me.padSize → (s.me.rx o.xb).toNat % 2048 = 0 → (s.me.rx o.xb).toNat + nb ≤ s.me.padSize →
  ∃ t j, exec (.zmma o) s = .next t ∧ Issued s t (after s (.zmma o)) ∧ t.me.arrayEnd = s.me.ic + 16 ∧
    t.me.flights = [⟨s.me.ic + 1, s.me.ic + 28, .m, s.me.pc, 0#6, .zmma j⟩] ∧ j.tile = o.zd ∧ j.za = o.f4.getLsbD 0 ∧ j.ta = ta ∧ j.tb = tb ∧
    j.fmte = s.me.fmte ∧ j.offA = (s.me.rx o.xa).toNat ∧ j.offB = (s.me.rx o.xb).toNat ∧ j.ic = s.me.ic ∧
    j.bufA = s.me.padBytes false (s.me.rx o.xa).toNat (Nat.min 2048 (panelBytes ta (kStep ta tb))) ∧
    { t.me.rest with tiles := s.me.tiles, arrayEnd := s.me.arrayEnd } = s.me.rest ∧
    ∀ fr k, 27 ≤ k → ((runs fr k t).me.tileInfo o.zd.toNat).kdone = ((s.me.tileInfo o.zd.toNat).kdone + 1) % 2 ^ 16 ∧ OutsideTile s.me (runs fr k t).me o.zd.toNat ∧
      ∀ x y, x < 64 → y < 64 → (runs fr k t).me.tileElem o.zd.toNat x y =
        if ta.int?.isSome = true then denseInt s.me o ta tb x y else denseFloat s.me o ta tb x y
/-- R204–R208, R210: BFLY and BFCH take the tile as it stands and the array for as long as their weights need; a real stage without a store leaves each pair mixed. -/
def Obligations.Butterflies : Prop := ∀ (s : State) (o : MOps) (i : Instr) (op : Op), Quiet s → i.cause = none → tLegal s.me o.zd →
  (i = .bfly o ∧ op = opBfly o ∨ i = .bfch o ∧ op = opBfch o) → (s.me.tileInfo o.zd.toNat).owner = none → NoBusy s.me → s.me.viewS = 0#32 →
  (op s (place s i)).excs = [] →
  ∃ t j, exec i s = .next t ∧ Issued s t (after s i) ∧ t.me.flights.map (·.what) = [.bfly j] ∧ j.tile = o.zd ∧ j.fmte = s.me.fmte ∧
    j.data = s.me.pool.bytes (s.me.tileBase o.zd.toNat) 16384 ∧ j.total = t.me.arrayEnd - s.me.ic + 6 ∧ s.me.ic < t.me.arrayEnd ∧
    j.bs = (if i = .bfly o then [s.me.rbs (o.f4.extractLsb' 0 3)] else (List.range ((o.f4.extractLsb' 0 3).toNat + 1)).map fun r => s.me.rbs (BitVec.ofNat 3 r)) ∧
    (∀ a, t.me.pool.read a = s.me.pool.read a) ∧
    ∀ ty, i = .bfly o → (ty = .f32 ∨ ty = .bf16) → validKind s.me.fmte (descAt s s.turn.val o.tda) = some (.el ty) → o.f4.getLsbD 3 = false →
      ∀ fr k, j.total ≤ k + 1 → OutsideTile s.me (runs fr k t).me o.zd.toNat ∧ ∀ e, e < 4096 →
        (runs fr k t).me.tileElem o.zd.toNat (e / 64) (e % 64) = realStage s.me ty (s.me.rbs (o.f4.extractLsb' 0 3)) (s.me.rx o.xa).toNat o.zd.toNat e
/-- R194, R206, R93: BFSET and FMTW. -/
def Obligations.ArrayControls : Prop := ∀ s : State, Quiet s →
  (∀ (zd xa : BitVec 6) (f4 : BitVec 4), (Instr.bfset zd xa f4).cause = none →
    ∃ t, exec (.bfset zd xa f4) s = .next t ∧ Issued s t (after s (.bfset zd xa f4)) ∧
      Lands s t 1 { s.me with bs := s.me.bs.set (zd.extractLsb' 0 3).toNat (strideWord f4 (s.me.rbs (zd.extractLsb' 0 3)) (s.me.rx xa)) (zd.extractLsb' 0 3).isLt }) ∧
  (∀ xa : BitVec 6, fmteNsub (s.me.rx xa) ≠ 3#2 → ∃ t, exec (.fmtw xa) s = .next t ∧ Issued s t (after s (.fmtw xa)) ∧
    Lands s t 3 { s.me with fmte := s.me.rx xa &&& fmteMask }) ∧
  (∀ xa : BitVec 6, fmteNsub (s.me.rx xa) = 3#2 → exec (.fmtw xa) s = .next (faulted s ⟨1, 4, 0, 0, 0⟩ 0))
/-- R173, R174: SLD in every size. -/
def Obligations.ScratchpadLoads : Prop := ∀ (s : State) (o : LOps) (off : Nat), Quiet s → (Instr.sld o).cause = none → OwnAt s o off → dLegal s.me o →
  NoBusy s.me → ViewClear s.me (o.view == 1#1) (bankSet (o.view == 1#1) off (szBytes o.sz)) →
  ∃ t, exec (.sld o) s = .next t ∧ Issued s t (after s (.sld o)) ∧ Lands s t 6 (loaded s.me o (s.me.padBytes (o.view == 1#1) off (szBytes o.sz)))
/-- R173, R174, R159: SST in every size; the bytes stored to are those of the operand's range in its view. -/
def Obligations.ScratchpadStores : Prop := ∀ (s : State) (o : LOps) (off : Nat), Quiet s → (Instr.sst o).cause = none → OwnAt s o off → dLegal s.me o →
  NoBusy s.me →
  ∃ t, exec (.sst o) s = .next t ∧ Issued s t (after s (.sst o)) ∧ ∀ fr k,
    (∀ i, i < szBytes o.sz → (later fr k t.me).pool.read (s.me.padAddr (o.view == 1#1) (off + i)) =
      if 3 ≤ k + 1 then storeByte s.me o i (s.me.pool.read (s.me.padAddr (o.view == 1#1) (off + i)))
      else s.me.pool.read (s.me.padAddr (o.view == 1#1) (off + i))) ∧
    (∀ a, (∀ i, i < szBytes o.sz → a ≠ s.me.padAddr (o.view == 1#1) (off + i)) → (later fr k t.me).pool.read a = s.me.pool.read a) ∧
    { (later fr k t.me).rest with pool := s.me.pool, viewL := s.me.viewL, viewS := s.me.viewS } = s.me.rest
/-- R175: SLW and SSW, eight chunks on different banks. -/
def Obligations.ChunkMoves : Prop := ∀ (s : State) (o : LOps) (cs : List Nat), Quiet s → vLegal s.me o.d → NoBusy s.me →
  chunkOffs s s.turn.val o = some cs → cs.Pairwise (fun p q => bankOf (o.view == 1#1) p ≠ bankOf (o.view == 1#1) q) →
  ((Instr.slw o).cause = none → (∀ q ∈ cs, ViewClear s.me (o.view == 1#1) (bankSet (o.view == 1#1) q 64)) →
    ∃ t, exec (.slw o) s = .next t ∧ Issued s t (after s (.slw o)) ∧
      Lands s t 6 (s.me.wv o.d (mergeLanes (s.me.rv o.d)
        (BitVec.ofNat 4096 (bytesToNat (cs.flatMap fun q => s.me.padBytes (o.view == 1#1) q 64))) (s.me.pred o.pk)) (s.me.pred o.pk))) ∧
  ((Instr.ssw o).cause = none → ∃ t, exec (.ssw o) s = .next t ∧ Issued s t (after s (.ssw o)) ∧ ∀ fr k, 2 ≤ k →
    (∀ g i, g < 8 → i < 64 → (later fr k t.me).pool.read (s.me.padAddr (o.view == 1#1) (cs.getD g 0 + i)) =
      if (s.me.pred o.pk).getLsbD (16 * g + i / 4) then (s.me.rv o.d).extractLsb' (8 * (64 * g + i)) 8
      else s.me.pool.read (s.me.padAddr (o.view == 1#1) (cs.getD g 0 + i))) ∧
    (∀ a, (∀ g i, g < 8 → i < 64 → a ≠ s.me.padAddr (o.view == 1#1) (cs.getD g 0 + i)) → (later fr k t.me).pool.read a = s.me.pool.read a) ∧
    { (later fr k t.me).rest with pool := s.me.pool, viewL := s.me.viewL, viewS := s.me.viewS } = s.me.rest)
/-- R177: SAMO's new value in the scratchpad from cycle 2 on, its old one in D after latency 6, and the saturation flag of slot L. -/
def Obligations.ScratchpadAtomics : Prop := ∀ (s : State) (o : LOps) (off w old new : Nat) (sa : Bool), Quiet s → (Instr.samo o).cause = none →
  OwnAt s o off → NoBusy s.me → ViewClear s.me (o.view == 1#1) (bankSet (o.view == 1#1) off (szBytes o.sz)) → w = 8 * szBytes o.sz →
  old = bytesToNat (s.me.padBytes (o.view == 1#1) off (szBytes o.sz)) →
  atomicNew o.aux w old (if w = 64 then (s.me.rpair (o.d.extractLsb' 0 6)).toNat else (s.me.rx (o.d.extractLsb' 0 6)).toNat)
    (if w = 64 then (s.me.rpair (o.d.extractLsb' 0 6 + 2#6)).toNat else (s.me.rx (o.d.extractLsb' 0 6 + 1#6)).toNat) = (new, sa) →
  ∃ t, exec (.samo o) s = .next t ∧ Issued s t (after s (.samo o)) ∧ ∀ fr k,
    (2 ≤ k + 1 → ∀ i, i < szBytes o.sz → (later fr k t.me).pool.read (s.me.padAddr (o.view == 1#1) (off + i)) = BitVec.ofNat 8 (new / 2 ^ (8 * i))) ∧
    (∀ a, (∀ i, i < szBytes o.sz → a ≠ s.me.padAddr (o.view == 1#1) (off + i)) → (later fr k t.me).pool.read a = s.me.pool.read a) ∧
    { (later fr k t.me).rest with pool := s.me.pool, viewL := s.me.viewL, viewS := s.me.viewS } =
      (if 6 ≤ k + 1 then
        let c := s.me.raise .l (if sa then fSA else 0#6) s.me.pc
        if w = 64 then (c.wx (o.d.extractLsb' 0 6) (BitVec.ofNat 32 old)).wx (o.d.extractLsb' 0 6 ||| 1#6) (BitVec.ofNat 32 (old / 2 ^ 32))
        else c.wx (o.d.extractLsb' 0 6) (BitVec.ofNat 32 old)
      else s.me).rest
/-- R176: SLDX and SSTX go to a core of the die that runs a task of the group. -/
def Obligations.DieAccesses : Prop := ∀ (s : State) (o : LOps) (k off : Nat), Quiet s → dLegal s.me o →
  dieRange s s.turn.val (eaOf s.me o.bp o.xi o.imm) (szBytes o.sz) (szBytes o.sz) = some (k, off) →
  ((Instr.sldx o).cause = none → ∃ t r, exec (.sldx o) s = .next t ∧ Enqueued s t (after s (.sldx o)) ∧ t.me.remotes = s.me.remotes ++ [r] ∧
    r.job = s.nextId ∧ r.target = k ∧ r.store = false ∧ r.off = off ∧ r.view = (o.view == 1#1) ∧ r.size = szBytes o.sz ∧ PendingFor s t o s.nextId) ∧
  ((Instr.sstx o).cause = none → ∃ t r, exec (.sstx o) s = .next t ∧ Enqueued s t (after s (.sstx o)) ∧ t.me.remotes = s.me.remotes ++ [r] ∧
    r.target = k ∧ r.store = true ∧ r.off = off ∧ r.view = (o.view == 1#1) ∧
    (∀ i, i < szBytes o.sz → byteOn s.me o i = true → o.sz ≠ 5#3 → r.bytes[i]? = some (storeByte s.me o i 0#8)) ∧
    (∀ i, i < szBytes o.sz → r.en[i]? = some (byteOn s.me o i)) ∧
    ∀ l ∈ (s.core k).padLines (o.view == 1#1) off (szBytes o.sz), (t.core k).lineIn l.1 = true)
/-- R178–R180: GLD, GAMO, ENQ and DEQ complete for every data size, operand and place in memory whose pages translate: they queue their accesses, with their
order and scope, and leave D pending. -/
def Obligations.GlobalLoads : Prop := ∀ (s : State) (o : LOps) (va : Nat), Quiet s → TlbFresh s →
  ((Instr.gld o).cause = none → dLegal s.me o → GlobAt s o.bp o.xi o.imm 1 va → Mapped s ⟨.read, false, false, o.sz == 2#3 || o.sz == 3#3⟩ va (szBytes o.sz) →
    ∃ t, exec (.gld o) s = .next t ∧ Enqueued s t (after s (.gld o)) ∧ PendingFor s t o s.nextId ∧ JobAdded s t (loadJobKind s.me o) ∧
      Queued s t s.turn.val .read .lsu s.nextId va (byteOn s.me o) (szBytes o.sz) ∧ OrderedAs s t o false) ∧
  ((Instr.gamo o).cause = none → GlobAt s o.bp o.xi o.imm (szBytes o.sz) va → Mapped s ⟨.atomic, true, false, false⟩ va (szBytes o.sz) →
    ∀ v cmp, v = (if o.sz = 3#3 then (s.me.rpair (o.d.extractLsb' 0 6)).toNat else (s.me.rx (o.d.extractLsb' 0 6)).toNat) →
    cmp = (if o.sz = 3#3 then (s.me.rpair (o.d.extractLsb' 0 6 + 2#6)).toNat else (s.me.rx (o.d.extractLsb' 0 6 + 1#6)).toNat) →
    ∃ t, exec (.gamo o) s = .next t ∧ Enqueued s t (after s (.gamo o)) ∧ PendingFor s t o s.nextId ∧
      JobAdded s t (.loadX (o.d.extractLsb' 0 6) o.sz false (o.sz == 3#3)) ∧
      Queued s t s.turn.val (.amo o.aux (8 * szBytes o.sz) v cmp) .lsu s.nextId va (fun _ => true) (szBytes o.sz) ∧ OrderedAs s t o true) ∧
  (∀ (i : Instr) (deq : Bool), (i = .enq o ∧ deq = false ∨ i = .deq o ∧ deq = true) → i.cause = none → GlobAt s o.bp o.xi o.imm 64 va →
    Mapped s ⟨.atomic, true, false, false⟩ va 32 →
    (∀ h, vBytes s s.me.ctx va 32 = some h → (ringOf h).ok = true →
      Mapped s ⟨.atomic, false, false, false⟩ ((ringOf h).slot (if deq then (ringOf h).ridx else (ringOf h).widx)) 8) →
    ∃ t, exec i s = .next t ∧ Enqueued s t (after s i) ∧ PendingFor s t o s.nextId ∧ JobAdded s t (.loadX (o.d.extractLsb' 0 6) o.sz false true) ∧
      Queued s t s.turn.val (if deq then .deq else .enq) .lsu s.nextId va (fun _ => true) 8 ∧ OrderedAs s t o true)
/-- R173, R178, R290: GST completes for every data size, operand and place in memory whose pages translate: it queues its enabled bytes, a mask's with their
bit enables, with its order and scope, and leaves no register pending. -/
def Obligations.GlobalStores : Prop := ∀ (s : State) (o : LOps) (va : Nat), Quiet s → TlbFresh s → (Instr.gst o).cause = none → dLegal s.me o →
  GlobAt s o.bp o.xi o.imm 1 va → Mapped s ⟨.write, true, false, o.sz == 2#3 || o.sz == 3#3⟩ va (szBytes o.sz) →
  ∃ t, exec (.gst o) s = .next t ∧ Enqueued s t (after s (.gst o)) ∧ t.me.pend = s.me.pend ∧ t.me.jobs = s.me.jobs ∧
    Queued s t s.turn.val .write .lsu 0 va (byteOn s.me o) (szBytes o.sz) ∧ OrderedAs s t o true ∧
    (∀ a ∈ t.accesses.drop s.accesses.length, ∀ j, j < a.en.length → a.en.getD j false = true →
      (o.sz ≠ 5#3 → a.bytes[j]? = some (storeByte s.me o (a.part + j) 0#8)) ∧
      (o.sz = 5#3 → a.bytes[j]? = some ((s.me.rk (o.d.extractLsb' 0 3)).extractLsb' (8 * (a.part + j)) 8) ∧
        a.bytes[a.en.length + j]? = some ((s.me.pred o.pk).extractLsb' (8 * (a.part + j)) 8)))
/-- R170, R182: FETCH, WBACK and the landing form of FETCH. -/
def Obligations.Transfers : Prop := ∀ (s : State) (o : LOps) (va off len : Nat), Quiet s → XferAt s.me o.d off len → len ≠ 0 →
  (GlobAt s o.bp o.xi o.imm 128 va → TlbFresh s → (s.me.jobs.filter fun j => j.kind.isFe).length < 16 →
    ((Instr.fetch o).cause = none → Mapped s ⟨.read, false, false, false⟩ va len →
      ∃ t, exec (.fetch o) s = .next t ∧ Enqueued s t (after s (.fetch o)) ∧ Queued s t s.turn.val .read .fe s.nextId va (fun _ => true) len ∧
        ∀ l ∈ s.me.padLines (o.view == 1#1) off len, t.me.lineIn l.1 = true) ∧
    ((Instr.wback o).cause = none → Mapped s ⟨.write, true, false, false⟩ va len →
      ∃ t, exec (.wback o) s = .next t ∧ Enqueued s t (after s (.wback o)) ∧ Queued s t s.turn.val .write .fe s.nextId va (fun _ => true) len ∧
        ∀ l ∈ s.me.padLines (o.view == 1#1) off len, t.me.lineOut l.1 = true)) ∧
  (∀ n : BitVec 3, (Instr.fetchLand o.d n).cause = none → (s.me.lands[n.toNat]'n.isLt).armed = false →
    ∃ t, exec (.fetchLand o.d n) s = .next t ∧ Enqueued s t (after s (.fetchLand o.d n)) ∧ t.accesses = s.accesses ∧
      t.me.lands[n.toNat]'n.isLt = ⟨true, off, len, 0⟩ ∧ ∀ l ∈ s.me.padLines false off len, t.me.lineIn l.1 = true)
/-- R184, R185: a fence stands in the order of its path's accesses. -/
def Obligations.Fences : Prop := ∀ (s : State) (scope : BitVec 2), Quiet s →
  (∀ ord : BitVec 2, (Instr.fence ord scope).cause = none → ∃ t a, exec (.fence ord scope) s = .next t ∧ Enqueued s t (after s (.fence ord scope)) ∧
    t.accesses = s.accesses ++ [a] ∧ a.op = .fence (ord.getLsbD 0) (ord.getLsbD 1) ∧ a.path = .lsu ∧ a.core = s.turn.val ∧ a.scope = scope ∧ a.done = false) ∧
  (∀ (p q : BitVec 4) (x y : Path), (Instr.xfence p q scope).cause = none → pathOfCode p.toNat = some x → pathOfCode q.toNat = some y →
    ∃ t a, exec (.xfence p q scope) s = .next t ∧ Enqueued s t (after s (.xfence p q scope)) ∧
      t.accesses = s.accesses ++ [a] ∧ a.op = .xfence x y ∧ a.path = x ∧ a.core = s.turn.val ∧ a.scope = scope ∧ a.done = false)
/-- R186: RETAIN takes a range in, or reports that it could not; UNPIN lets one go. -/
def Obligations.Retention : Prop := ∀ (s : State) (d : BitVec 7) (bp : BitVec 5) (imm : BitVec 24) (xi : BitVec 6) (va : Nat), Quiet s →
  GlobAt s bp xi imm 128 va →
  ((Instr.retain d bp imm xi).cause = none → ∃ t j, exec (.retain d bp imm xi) s = .next t ∧ Enqueued s t (after s (.retain d bp imm xi)) ∧
    t.retains = s.retains ++ (retainRange s s.me.ctx va (s.me.rx (d.extractLsb' 0 6)).toNat ((s.me.rx (d.extractLsb' 0 6 ||| 1#6)).toNat % 16)).toList ∧
    t.me.pend = s.me.pend ++ [(s.nextId, d.extractLsb' 0 6)] ∧ t.me.jobs = s.me.jobs ++ [j] ∧ j.id = s.nextId ∧ j.kind = .retain (d.extractLsb' 0 6)) ∧
  ((Instr.unpin d bp imm xi).cause = none → ∃ t, exec (.unpin d bp imm xi) s = .next t ∧ Enqueued s t (after s (.unpin d bp imm xi)) ∧
    ∀ r, r ∈ t.retains ↔ r ∈ s.retains ∧ ¬ (r.ctx = s.me.ctx ∧ r.va = va ∧ r.len = (s.me.rx (d.extractLsb' 0 6)).toNat))
/-- R359–R362: the barrier instructions queue their operations on the object; BARA waits for the stores behind it, BARW leaves D pending. -/
def Obligations.Barriers : Prop := ∀ (s : State) (o : LOps) (va : Nat), Quiet s → GlobAt s o.bp o.xi o.imm 64 va → TlbFresh s →
  ((Instr.barm o).cause = none → Mapped s ⟨.atomic, true, false, false⟩ va 64 →
    ∃ t, exec (.barm o) s = .next t ∧ Enqueued s t (after s (.barm o)) ∧
      Queued s t s.turn.val (.barm (s.me.rx (o.d.extractLsb' 0 6)).toNat (s.me.rx (o.d.extractLsb' 0 6 ||| 1#6)).toNat) .lsu 0 va (fun _ => true) 64) ∧
  ((Instr.bara o).cause = none → Mapped s ⟨.atomic, true, false, false⟩ va 64 →
    ∃ t, exec (.bara o) s = .next t ∧ Enqueued s t (after s (.bara o)) ∧ t.me.waits = [.drain] ∧
      Queued s t s.turn.val (.bara 1 (s.me.rx (o.d.extractLsb' 0 6)).toNat) .lsu 0 va (fun _ => true) 64) ∧
  ((Instr.barw o).cause = none → Mapped s ⟨.read, false, false, false⟩ va 64 →
    ∃ t, exec (.barw o) s = .next t ∧ Enqueued s t (after s (.barw o)) ∧ t.me.pend = s.me.pend ++ [(s.nextId, o.d.extractLsb' 0 6)] ∧
      Queued s t s.turn.val .barw .lsu s.nextId va (fun _ => true) 64)
/-- R212–R214, R222, R231: a macro-instruction's issue leaves its slot BUSY with what it captured, and its accumulators to the slot; an empty
extent and an exchange that is only a map's leave it FREE. -/
def Obligations.MacroIssue : Prop := ∀ (s : State) (i : Instr) (op : Nat) (o : XOps) (m : MSlot) (k : MChk), Quiet s → macroOp i = some (op, o) →
  i.cause = none → o.fl.getLsbD 0 = false → MacroReady s op o m k →
  ∃ t, exec i s = .next t ∧ Enqueued s t (after s i) ∧ (∀ j, j ≠ o.tag → t.me.slotAt j = s.me.slotAt j) ∧
    (t.me.slotAt o.tag).op = op ∧ (t.me.slotAt o.tag).flx = o.fl.toNat / 2 ∧ (t.me.slotAt o.tag).td0 = o.td0 ∧ (t.me.slotAt o.tag).td1 = o.td1 ∧
    (t.me.slotAt o.tag).td2 = o.td2 ∧ (t.me.slotAt o.tag).fmte = s.me.fmte ∧ (t.me.slotAt o.tag).blk = m.blk ∧ (t.me.slotAt o.tag).descs = m.descs ∧
    (t.me.slotAt o.tag).pchk = m.pchk ∧ (t.me.slotAt o.tag).done = 0 ∧ (t.me.slotAt o.tag).outs = [] ∧ (t.me.slotAt o.tag).zcur = 255 ∧
    (t.me.slotAt o.tag).baddr = s.me.pc ∧
    (t.me.slotAt o.tag).idx = #v[0, 0, 0, if op = 0x08 ∨ op = 0x11 ∨ op = 0x12 then (m.desc 0).mepoch else 0] ∧
    (k.zero = true → (t.me.slotAt o.tag).st = .free ∧ (t.me.slotAt o.tag).reason = 2) ∧
    (k.zero = false → k.done = true → (t.me.slotAt o.tag).st = .free ∧ (t.me.slotAt o.tag).reason = 1) ∧
    (k.zero = false → k.done = false → (t.me.slotAt o.tag).st = .busy ∧ (t.me.slotAt o.tag).reason = 0 ∧
      ∀ j, j < m.zn → (t.me.tileInfo (m.zb + j)).owner = some o.tag)
/-- R168, R244, R246: XCP and XMC add a copy to their channel, and MXT a timetable. -/
def Obligations.CopyIssue : Prop := ∀ (s : State) (o : XOps) (src dst len : Nat), Quiet s → s.me.channelBusy o.tag = false →
  src = (s.me.rx (o.bp ++ 0#1)).toNat → len = (s.me.rx ((o.bp ++ 0#1) ||| 1#6)).toNat → dst = (s.me.rx (o.td0.extractLsb' 0 6)).toNat →
  (∀ c, (Instr.xcp o).cause = none → copyCore s.turn.val o.td1.toNat = some c → copyBad s s.turn.val src dst len [c] = none →
    ∃ t k, exec (.xcp o) s = .next t ∧ Enqueued s t (after s (.xcp o)) ∧ t.me.copies = s.me.copies ++ [k] ∧
      NewCopy s k o.tag [c] src dst len (s.me.ic + o.p3.toNat)) ∧
  ((Instr.xmc o).cause = none → copyBad s s.turn.val src dst len (standCores s.turn.val o.td1.toNat) = none →
    ∃ t k, exec (.xmc o) s = .next t ∧ Enqueued s t (after s (.xmc o)) ∧ t.me.copies = s.me.copies ++ [k] ∧
      NewCopy s k o.tag (standCores s.turn.val o.td1.toNat) src dst len (s.me.ic + o.p3.toNat)) ∧
  ((Instr.mxt o).cause = none → s.me.param ≠ 0 → 1 ≤ len → len ≤ 256 → src % 16 = 0 → src + 16 * len ≤ s.me.padSize →
    nondecreasing ((tableEntries (s.me.padBytes false src (16 * len)) len).map (·.1)) = true →
    (∀ e ∈ tableEntries (s.me.padBytes false src (16 * len)) len, (e.2.2.1 = 0 ∨ e.2.1 = 0) ∧
      copyBad s s.turn.val e.2.2.2.1 e.2.2.2.2.1 e.2.2.2.2.2 (entryTargets s.turn.val e.2.1 e.2.2.1) = none) →
    ∃ t, exec (.mxt o) s = .next t ∧ Enqueued s t (after s (.mxt o)) ∧ (⟨o.tag, s.me.ic + o.p3.toNat, tableEntries (s.me.padBytes false src (16 * len)) len,
      false⟩ : Timetable) ∈ t.me.tables)
/-- R249, R255, R262: MSTAT and the descriptor instructions. -/
def Obligations.DescriptorOps : Prop := ∀ s : State, Quiet s →
  (∀ (tag : BitVec 2) (bp : BitVec 5), (Instr.mstat tag bp).cause = none → ∃ t, exec (.mstat tag bp) s = .next t ∧ Issued s t (after s (.mstat tag bp)) ∧
    PairLands s t (bp ++ 0#1) (BitVec.ofNat 64 ((s.me.slotAt tag).pr 7 % 2 ^ 32 + 2 ^ 32 * ((s.me.slotAt tag).pr 0 % 2 ^ 32)))) ∧
  (∀ tag : BitVec 2, (Instr.mstat tag 0#5).cause = some 7) ∧
  (∀ (td : BitVec 8) (w : State), (Instr.tdinv td).cause = none → entryMem s td 0#1024 = .ok w →
    ∃ t, exec (.tdinv td) s = .next t ∧ EntryWritten s t w (after s (.tdinv td)) td 0#1024) ∧
  (∀ (bp : BitVec 5) (td : BitVec 8) (p3 : BitVec 16) (pl : Place), tdPlace s s.turn.val (blockAddr s.me bp p3) = some pl →
    ((Instr.tdw bp td p3).cause = none → s.me.param ≠ 0 → placeExcs s s.turn.val 128 pl = [] → ∀ bs v w, placeBytes s s.turn.val 128 pl = some bs →
      v = BitVec.ofNat 1024 (bytesToNat bs) → (Desc.ofBits v).v = true → (Desc.ofBits v).wf = true → entryMem s td v = .ok w →
      ∃ t, exec (.tdw bp td p3) s = .next t ∧ EntryWritten s t w (after s (.tdw bp td p3)) td v) ∧
    ((Instr.tdr bp td p3).cause = none → NoBusy s.me → ∀ k off, pl = .loc k off →
      ∃ t, exec (.tdr bp td p3) s = .next t ∧ Issued s t (after s (.tdr bp td p3)) ∧ ∀ fr k, 2 ≤ k →
        (∀ i, i < 128 → (later fr k t.me).pool.read (s.me.padAddr false (off + i)) = (readDesc s s.turn.val td).extractLsb' (8 * i) 8) ∧
        (∀ a, (∀ i, i < 128 → a ≠ s.me.padAddr false (off + i)) → (later fr k t.me).pool.read a = s.me.pool.read a)) ∧
    ((Instr.tdr bp td p3).cause = none → ∀ va, pl = .glob va → Mapped s ⟨.write, true, false, false⟩ va 128 → TlbFresh s →
      ∃ t, exec (.tdr bp td p3) s = .next t ∧ Enqueued s t (after s (.tdr bp td p3)) ∧
        Queued s t s.turn.val .write .lsu 0 va (fun _ => true) 128 ∧
        ∀ a ∈ t.accesses.drop s.accesses.length, ∀ j, j < a.en.length → a.bytes[j]? = some ((readDesc s s.turn.val td).extractLsb' (8 * (a.part + j)) 8)))
/-- R357–R361, R363, R366, R372, R376: a read, a write, an acknowledgment, and the arrivals of BARA and of an engine. -/
def Obligations.AccessSteps : Prop := ∀ (s : State) (id : Nat) (a : Access), s.accesses.find? (fun b => b.id == id) = some a →
  (Due s id a → a.op = .read → a.path = .lsu → s.race (.core a.core a.path) (a.key / 128) true a.acq = none →
    ∃ t, exec (.globalAccessPerformed id) s = .next t ∧ (∀ x, t.mem.read x = s.mem.read x) ∧ (∀ b ∈ t.accesses, b.id ≠ id) ∧
      ∀ j, (s.core a.core).jobs.find? (fun j => j.id == a.job) = some j → ∃ j', (t.core a.core).jobs.find? (fun j => j.id == a.job) = some j' ∧
        j'.kind = j.kind ∧ ∀ i, i < a.en.length → a.en.getD i true = true → (a.part + i, s.mem.read (a.key + a.off + i)) ∈ j'.data) ∧
  (Due s id a → a.op = .write → a.bytes.length = a.en.length → s.race (.core a.core a.path) (a.key / 128) false a.rel = none →
    ∃ t, exec (.globalAccessPerformed id) s = .next t ∧
      MemBecomes s t (a.key + a.off) a.en.length (fun i => if a.en.getD i false = true then a.bytes.getD i 0#8 else s.mem.read (a.key + a.off + i)) ∧
      ∀ b ∈ t.accesses, b.id = id → b.done = true) ∧
  (a.done = true → a.op.posted = true →
    exec (.storeAcknowledged id) s = .next { s with accesses := s.accesses.filter fun b => b.id != id, fresh := s.fresh + 1 }) ∧
  (∀ (x b : Nat) (o : BObj), Due s id a → a.op = .bara x b → s.race (.core a.core a.path) (a.key / 128) false true = none →
    o = BObj.ofBytes (s.mem.bytes (a.key + a.off) 64) → o.bad = false → o.st = 1 → o.narr + x ≤ o.nexp → o.barr + b ≤ o.bexp →
    ∀ i, (x = 1 ∧ i = .barrierArrival id ∨ x = 0 ∧ i = .engineArrival id) →
    ∃ t, exec i s = .next t ∧ MemBecomes s t (a.key + a.off) 64 (fun i => (arrived o x b).bytes.getD i 0#8) ∧ ∀ b ∈ t.accesses, b.id = id → b.done = true)
/-- R96, R164, R176, R182, R362: what a load, a fill, a transfer and a wait leave when they end. -/
def Obligations.JobReturns : Prop := ∀ (s : State) (n job : Nat) (j : Job), n < 160 → s.jobOf n job = some j →
  ((s.core n).remotes.find? (fun r => r.job == j.id && !r.store)) = none →
  (∀ d sz sext pair v, j.kind = .loadX d sz sext pair → s.jobDone n job = true → (pair = true → d.getLsbD 0 = false) →
    v = bytesToNat (jobBytes j (szBytes sz)) → ∃ t, exec (.pendingLoadReturn n job) s = .next t ∧ JobEnded s t n job ∧
      (pair = false → WordTaken (s.core n) (t.core n) d (if sext then BitVec.ofInt 32 (sInt (8 * szBytes sz) v) else BitVec.ofNat 32 v)) ∧
      (pair = true → ∀ r, (t.core n).rx r = if r = d ∧ d ≠ 0#6 then BitVec.ofNat 32 v else if r = (d ||| 1#6) then BitVec.ofNat 32 (v / 2 ^ 32)
        else (s.core n).rx r)) ∧
  (∀ d, j.kind = .retain d → ∃ t, exec (.pendingLoadReturn n job) s = .next t ∧ JobEnded s t n job ∧
    WordTaken (s.core n) (t.core n) d (BitVec.ofNat 32 (bytesToNat (jobBytes j 4)))) ∧
  (∀ d lanes, j.kind = .loadV d lanes → s.jobDone n job = true → ∃ t, exec (.vectorFillDone n job) s = .next t ∧ JobEnded s t n job ∧
    (∀ l, l < 128 → elemOf 32 ((t.core n).rv d) l =
      if lanes.getLsbD l then elemOf 32 (BitVec.ofNat 4096 (bytesToNat (jobBytes j 512))) l else elemOf 32 ((s.core n).rv d) l) ∧
    (∀ a, a < 512 * d.toNat ∨ 512 * d.toNat + 512 ≤ a → (t.core n).pool.read a = (s.core n).pool.read a)) ∧
  (∀ d en, j.kind = .loadK d en → s.jobDone n job = true → ∃ t, exec (.vectorFillDone n job) s = .next t ∧ JobEnded s t n job ∧
    ∀ r, (t.core n).rk r = if r = d then ((s.core n).rk d &&& ~~~en) ||| (BitVec.ofNat 128 (bytesToNat (jobBytes j 16)) &&& en) else (s.core n).rk r) ∧
  (j.kind.isFe = true → (∀ a ∈ s.accesses, a.core = n → a.job ≠ job) → (s.core n).fillsHeld job = false → ∃ t, exec (.fetchEngineComplete n job) s = .next t ∧ JobEnded s t n job ∧
    ∀ f ∈ (t.core n).fills, f.id = job → f.kind ≠ .fetch ∧ f.kind ≠ .wback) ∧
  (∀ d gen rct a, j.kind = .barw d gen (some rct) → j.data ≠ [] → (BitVec.ofNat 32 (bytesToNat (jobBytes j 4)) : Word).getLsbD 20 = false →
    s.accesses.find? (fun a => a.core == n && a.job == job && a.op == .barw) = some a → (s.bobj (a.key + a.off)).bad = false →
    ∃ t v, exec (.barwWake n job) s = .next t ∧ JobEnded s t n job ∧ WordTaken (s.core n) (t.core n) d v ∧
      (v = BitVec.ofNat 32 (bytesToNat (jobBytes j 4)) ∨ ∃ g, gen = some g ∧ (s.bobj (a.key + a.off)).ends g = true ∧ v = (s.bobj (a.key + a.off)).status gen))
/-- R125, R176, R213, R322: an SSTX lands, a WAITQ wakes, a code line arrives, a parameter block has been read. -/
def Obligations.CoreEvents : Prop := ∀ (s : State) (n : Nat), n < 160 →
  (∀ id r, (s.core n).remotes.find? (fun r => r.id == id) = some r → r.store = true → remoteFirst (s.core n) r = true → r.target < 160 →
    (s.core r.target).st ≠ .free → (s.core r.target).gid = (s.core n).gid → r.bytes.length = r.en.length → r.off + r.en.length ≤ (s.core r.target).padSize →
    (s.core r.target).portHeld true (bankSet r.view r.off r.size) = false →
    ∃ t, exec (.sstxLands n id) s = .next t ∧ (∀ x, t.mem.read x = s.mem.read x) ∧
      (∀ i, i < r.en.length → (t.core r.target).pool.read ((s.core r.target).padAddr r.view (r.off + i)) =
        if r.en.getD i false = true then r.bytes.getD i 0#8 else (s.core r.target).pool.read ((s.core r.target).padAddr r.view (r.off + i))) ∧
      (∀ x, (∀ i, i < r.en.length → x ≠ (s.core r.target).padAddr r.view (r.off + i)) → (t.core r.target).pool.read x = (s.core r.target).pool.read x) ∧
      (∀ q ∈ (t.core n).remotes, q.id ≠ id) ∧ ∀ f ∈ (t.core r.target).fills, f.id = id → f.kind ≠ .sstx) ∧
  (∀ cb ws, (s.core n).waits = .waitq cb :: ws → (s.core n).st = .running → (s.core n).owed = [] → lookRing s n (s.core n).rlines cb = .yes →
    (s.core n).refa = 0 → waitqBehind s n cb = false → ∃ t, exec (.waitqWake n) s = .next t ∧ (t.core n).waits = ws ∧ (t.core n).pc = (s.core n).pc ∧ (t.core n).x = (s.core n).x ∧
      ∀ x, t.mem.read x = s.mem.read x) ∧
  (∀ va k, (s.core n).st = .running → fetchBundle s n (s.core n).pc = .miss va → codeKey s n va = .ok k → keyTier (k - k % 128) < 3 →
    s.poisoned (k - k % 128) = false →
    ∃ t, exec (.codeCacheFill n) s = .next t ∧ (t.core n).cache.head? = some ((s.core n).ctx, va / 128, s.mem.bytes (k - k % 128) 128) ∧
      (t.core n).pc = (s.core n).pc ∧ (t.core n).pool = (s.core n).pool ∧ ∀ x, t.mem.read x = s.mem.read x) ∧
  (∀ items len p pl ls, (s.core n).st = .running → (s.core n).param = 0 → (s.core n).owed = [] → (s.core n).rlines = [] →
    ((List.range 4).all fun t => !(s.slotAt n t).reissue) = true → fetchBundle s n (s.core n).pc = .ok items len →
    items.findSome? (fun i => paramSource i.2.2) = some p → p.op ≠ 0x0D → paramPlace s n (blockAddr (s.core n) p.bp p.p3) = some pl →
    globLines (paramPlaces s n p.op p.tds pl) = ls → placesSettled s (paramPlaces s n p.op p.tds pl) = true →
    (ls = [] → exec (.parameterBlockRead n) s = .next (s.modCore n fun c => { c with param := 1 }).tickFresh) ∧
    (∀ va k, ls = [va] → paramBehind s n (p.op != 0x0E) ls = false → translate s (s.core n).ctx wantRead va = .ok k → keyTier k < 3 →
      (p.op ≠ 0x0E → s.race (.core n .lsu) (k / 128) true false = none) → s.poisoned k = false →
      (∀ t, globLines (paramPlaces t n p.op p.tds pl) = ls) →
      ∃ t, exec (.parameterBlockRead n) s = .next t ∧ (t.core n).param = 1 ∧
        (t.core n).rlines = [(va - va % 128, s.mem.bytes (k - k % 128) 128)] ∧ (t.core n).pc = (s.core n).pc ∧ (t.core n).x = (s.core n).x ∧
        (t.core n).pool = (s.core n).pool ∧ ∀ x, t.mem.read x = s.mem.read x))
/-- R164, R168, R169, R245–R247: a copy starts, its lines land, a timetable starts its entries, a late entry is noticed. -/
def Obligations.CopySteps : Prop := ∀ (s : State) (n : Nat), n < 160 →
  (∀ id k, (s.core n).copies.find? (fun k => k.id == id) = some k → k.started = false → cycleCome s n k.startIc = true → (∀ t ∈ k.targets, t < 160) →
    ∃ t k', exec (.onDieCopyStart n id) s = .next t ∧ (t.core n).copies.find? (fun k => k.id == id) = some k' ∧ k'.started = true ∧
      k'.targets = k.targets ∧ k'.startAt = (if k.inCore then k.startIc else startDieOf s n k) ∧
      k'.deadline = k'.startAt + (if k.inCore then 16 else match k.hops with | none => 24 | some h => 40 + 2 * h) +
        (if k.hops.isSome then 2 else 1) * (k.len / 128) ∧
      (∀ l ∈ (s.core n).padLines false k.src k.len, (t.core n).lineOut l.1 = true) ∧
      (∀ d ∈ k.targets, ∀ i, i < k.len / 128 → (t.core d).lineIn ((s.core d).padAddr false (k.dst + 128 * i) / 128) = true) ∧
      (∀ m, (t.core m).pool = (s.core m).pool) ∧ ∀ x, t.mem.read x = s.mem.read x) ∧
  (∀ id d k a bs, d < 160 → (dueAt s d).find? (fun e => e.1 == n && e.2.id == id) = some (n, k) → portTaken s d k = false →
    (∀ f ∈ (s.core d).fills, f.kind = .fetch → f.src = .unknown) →
    ((dueAt s d).any fun f => copyBefore f (n, k) && linesMeet (s.core d) f.2 (f.2.doneLines d) k (k.doneLines d)) = false →
    a = (s.core d).padAddr false (k.dst + 128 * k.doneLines d) →
    bs = (match ((s.core d).fills.find? fun f => f.id == id && !f.out && f.line == a / 128).map Fill.src with
      | some (.bytes b) => b
      | _ => (copyLine s n k (k.doneLines d)).1) → bs.length = 128 →
    ∃ t, exec (.onDieCopyLand n id d) s = .next t ∧ (∀ x, t.mem.read x = s.mem.read x) ∧
      (∀ x, (t.core d).pool.read x = if a ≤ x ∧ x < a + 128 then bs.getD (x - a) 0#8 else (s.core d).pool.read x) ∧
      (∀ f ∈ (t.core d).fills, ¬ (f.id = id ∧ f.out = false ∧ f.line = a / 128)) ∧
      ∀ q ∈ (t.core n).copies, q.id = id → q.doneLines d = k.doneLines d + 1) ∧
  (∀ tag tb e es, (s.core n).tables.find? (fun t => t.tag.toNat == tag) = some tb → tb.entries = e :: es → cycleCome s n (tb.baseIc + e.1) = true →
    ((s.core n).copies.filter fun k => k.mxt && k.tag == tb.tag).length < 8 → (∀ k ∈ (s.core n).copies, k.id ≠ s.nextId) →
    ∃ t k, exec (.mxtEntryStart n tag) s = .next t ∧ (t.core n).copies = (s.core n).copies ++ [k] ∧ k.id = s.nextId ∧ k.mxt = true ∧ k.tag = tb.tag ∧
      k.started = true ∧ k.src = e.2.2.2.1 ∧ k.dst = e.2.2.2.2.1 ∧ k.len = e.2.2.2.2.2 ∧ k.targets = entryTargets n e.2.1 e.2.2.1 ∧
      ∀ q ∈ (t.core n).tables, q.tag = tb.tag → q.entries = es) ∧
  (∀ tag k, (s.core n).timingDue = false → k ∈ (s.core n).copies → k.mxt = true → k.started = true → k.tag.toNat = tag → k.deadline ≤ copyNow s n k →
    (∀ d ∈ k.targets, k.lines ≤ k.doneLines d ∨ copyNow s n k < k.dueTime d ∨ portTaken s d k = true) →
    ∃ t, exec (.timing n tag) s = .next t ∧ (t.core n).timingDue = true ∧ (∀ q ∈ (t.core n).tables, q.tag.toNat = tag → q.entries = []) ∧
      ∀ x, t.mem.read x = s.mem.read x)
/-- R212, R217–R223, R226, R261, R265, R415: the steps of the sequencer. -/
def Obligations.SequencerSteps : Prop := ∀ (s : State) (n t : Nat),
  (∀ so lg, StepGoes s n t tileStep so lg → (s.slotAt n t).op ≤ 7 → so.entry = none →
    ((s.slotAt n t).op = 6 → ∀ d ∈ stepDies n lg, s.unitReady d = true) →
    ∃ u, exec (.macroStep n t) s = .next u ∧ StepCommitted s u n t so lg ∧ ∀ x, u.mem.read x = s.mem.read x) ∧
  (∀ o, (s.slotAt n t).st = .busy → (s.slotAt n t).outs.find? (fun o => !o.failed && !s.jobLeft n o) = some o → (s.slotAt n t).op ≠ 0x13 →
    (o.owes = true ∨ (s.slotAt n t).arrivalObj = 0 →
      ∃ u, exec (.macroWritesAck n t) s = .next u ∧ (u.slotAt n t).outs = (s.slotAt n t).outs.filter (fun p => p.step != o.step) ∧
        ((s.slotAt n t).fin = true → (u.slotAt n t).outs = [] → (u.slotAt n t).stop = none → (u.slotAt n t).st = .free ∧ (u.slotAt n t).reason = 1) ∧
        ∀ x, u.mem.read x = s.mem.read x) ∧
    -- the engine arrival of a step whose writes are acknowledged (R363)
    (o.owes = false → (s.slotAt n t).arrivalObj ≠ 0 → arrivalFail s n (s.slotAt n t) = none →
      ∃ u, exec (.macroWritesAck n t) s = .next u ∧ (∃ p ∈ (u.slotAt n t).outs, p.step = o.step ∧ p.owes = true) ∧
        (∃ a ∈ u.accesses, a.core = n ∧ a.job = o.job ∧ a.op = .bara 0 o.bytes) ∧ ∀ x, u.mem.read x = s.mem.read x)) ∧
  (∀ reason a v, (s.slotAt n t).st = .busy → (∀ o ∈ (s.slotAt n t).outs, o.failed = true ∧ s.jobLeft n o = false) →
    (s.slotAt n t).stop = some (reason, a, v) → RingTakes s n →
    ∃ u, exec (.macroHalt n t reason) s = .next u ∧ (u.slotAt n t).st = .halted ∧ (u.slotAt n t).reason = reason ∧
      (u.slotAt n t).done = (s.slotAt n t).done ∧ (u.slotAt n t).idx = (s.slotAt n t).idx ∧
      ((u.slotAt n t).rsm = true ↔ (3 ≤ reason ∧ reason ≤ 6) ∨ ((reason = 8 ∨ reason = 9) ∧ (s.slotAt n t).rsm = true))) ∧
  (∀ b c k x a so lg, StepGoes s n t (fun e => placeChunk e x) so lg → isExchange (s.slotAt n t).op = true → s.pathHeld n .lk = false →
    (s.slotAt n t).planStep = .exch b c k → exchOf s n (s.slotAt n t) b c k = some x → k < (s.slotAt n t).sent → s.owes (.slot n t) = false →
    (s.core n).xin.find? (fun a => a.off == (s.slotAt n t).woff + 16384 * (k % 2) && !a.taken) = some a → a.peer = x.pp → a.tidx = x.ptidx →
    a.pchk = (s.slotAt n t).pchk → a.epoch = (s.slotAt n t).ix 3 → a.b = b → a.c = c → a.k = k → so.entry = none →
    ∃ u, exec (.exchangeStep n t) s = .next u ∧ StepCommitted s u n t so lg ∧
      (u.core n).xin = (s.core n).xin.map (fun q => if q = a then { q with taken := true } else q) ∧ ∀ x, u.mem.read x = s.mem.read x) ∧
  (∀ k, slotRuns s n t = true → (s.slotAt n t).op = 0x13 → k = (s.slotAt n t).ix 0 → ((s.slotAt n t).csends k)[(s.slotAt n t).sent]? = none →
    s.owes (.slot n t) = false →
    -- the ACC slot of an owned chunk is freed once its result sends are acknowledged (R416)
    ((s.slotAt n t).reduces = true → (s.slotAt n t).ownerOf k (s.slotAt n t).rank = (s.slotAt n t).rank → heldChunk s n (s.slotAt n t) false k = k + 1 →
      exec (.mcollStep n t) s = .next (freeAcc s n t k).tickFresh) ∧
    (((s.slotAt n t).reduces = true → (s.slotAt n t).ownerOf k (s.slotAt n t).rank = (s.slotAt n t).rank → heldChunk s n (s.slotAt n t) false k ≠ k + 1) →
      resFull s n (s.slotAt n t) k = true → ∀ so lg, StepGoes s n t (fun e => collCommit e k) so lg →
      ∃ u, exec (.mcollStep n t) s = .next u ∧ (u.slotAt n t).done = ((s.slotAt n t).done + 1) % 2 ^ 32 ∧
        (u.slotAt n t).ix 0 = (if k + 1 < (s.slotAt n t).nch then k + 1 else 0) ∧ (u.slotAt n t).sent = 0 ∧ ∀ x, u.mem.read x = s.mem.read x))
/-- R87, R276, R336–R341, R347, R348, R353: a group is placed, its tasks claim their granules, reservations and quanta come about, and a SYNC is
released: its tasks issue in die cycle T + 4, and a pending partition takes effect. That an ended member's arrival bit is up in the die cycle in which its
END completed (`Group.endDie`) is the model's reading of R353 (DEDUCED, log 101). -/
def Obligations.Dispatching : Prop := ∀ (s : State) (gid : Nat) (g : Group), Tab.get? s.groups gid = some g →
  (∀ cs, placeable s (gid, g) = some cs → firstInLine s (gid, g) = true →
    ∃ t g', exec (.placement gid) s = .next t ∧ Tab.get? t.groups gid = some g' ∧ g'.st = .claiming ∧ g'.cores = cs ∧ g'.since = s.hubTime ∧
      (∀ x, t.mem.read x = s.mem.read x) ∧ ∀ i n, cs[i]? = some n →
        (t.core n).st = .claiming ∧ (t.core n).gid = gid ∧ (t.core n).tidx = i ∧ (t.core n).ctx = g.ctx ∧ (t.core n).pc = g.kern.entry ∧
        (t.core n).rx 2 = BitVec.ofNat 32 (16384 * (192 - partFirst (partWord g.kern.vg g.kern.ab))) ∧ (t.core n).rx 4 = g.karg.extractLsb' 0 32 ∧
        (t.core n).rx 5 = g.karg.extractLsb' 32 32 ∧ (∀ r, r ≠ 2#6 → r ≠ 4#6 → r ≠ 5#6 → (t.core n).rx r = 0#32) ∧ (∀ r, (t.core n).rk r = 0#128) ∧
        (t.core n).fmte = fmteReset ∧ (t.core n).pool = (s.core n).pool) ∧
  (∀ n bs, n < 160 → (s.core n).st = .claiming → (s.core n).arrived = false → (s.core n).gid = gid → g.kern.refa = 0 →
    (∀ q, q < 192 → ∀ w, (s.core n).gtags[q]? = some w → w.valid = true → w.owner ≠ (s.core n).ctx → w.held = false) →
    devRead s (.claim n gid) (s.core n).ctx (ctxField s (s.core n).ctx (·.tdBase)) 32768 = .ok bs →
    ∃ t, exec (.claim n) s = .next t ∧ ((t.core n).arrived = true ∨ (t.core n).st = .running) ∧ (∀ x, t.mem.read x = s.mem.read x) ∧
      (∀ q, q < 192 → (t.core n).gtags[q]? = some ⟨true, (s.core n).ctx, false⟩) ∧
      (∀ x, x < 3145728 → ∀ w, (s.core n).gtags[x / 16384]? = some w →
        (t.core n).pool.read x = if w.valid = true ∧ w.owner ≠ (s.core n).ctx then 0#8 else (s.core n).pool.read x) ∧
      ∀ e, e < 256 → (Tab.get? (t.core n).descs e).getD 0#1024 = BitVec.ofNat 1024 (bytesToNat (slice bs (128 * e) 128))) ∧
  (∀ d ds, g.st = .queued → s.ctxActive g.ctx = true → s.age < s.hubTime - g.entered → (∀ q, q < 4 → s.aging[q]? = some none) → agingDies s g = d :: ds →
    exec (.agingReservation gid) s = .next { s with aging := s.aging.setIfInBounds d (some gid), fresh := s.fresh + 1 }) ∧
  (∀ v vs, g.st = .queued → s.ctxActive g.ctx = true → s.quant ≤ s.hubTime - g.entered →
    (∀ r ∈ g.reqFor, ∀ h, Tab.get? s.groups r = some h → h.st ≠ .preempting) → victimsFor s (gid, g) = v :: vs →
    ∃ t g', exec (.quantExpiry gid) s = .next t ∧ Tab.get? t.groups gid = some g' ∧ g'.reqFor = v :: vs ∧ (∀ x, t.mem.read x = s.mem.read x) ∧
      ∀ r ∈ v :: vs, ∀ h, Tab.get? s.groups r = some h → h.st = .running → ∃ h', Tab.get? t.groups r = some h' ∧ h'.st = .preempting ∧ h'.reqd = true) ∧
  (∀ ms, membersOn s gid = ms → ms ≠ [] → (∀ n ∈ ms, n < 160) → g.st ≠ .claiming → g.st ≠ .resuming →
    (∀ n ∈ ms, (s.core n).arrived = true ∧ (s.core n).releaseAt = 0) →
    ∃ t, exec (.syncRelease gid) s = .next t ∧ (∀ x, t.mem.read x = s.mem.read x) ∧ ∀ n ∈ ms,
      (t.core n).releaseAt = (ms.map fun m => (s.core m).arriveDie).foldl Nat.max g.endDie + 4 ∧ (t.core n).carve = none ∧
      (t.core n).part = (match (s.core n).carve with | some (vg, ab) => partWord vg ab | none => (s.core n).part) ∧ (t.core n).x = (s.core n).x ∧
      -- the granules that do not hold what they held are zero, and no other byte changes (R348)
      ∀ x, x < 3145728 → (t.core n).pool.read x = match (s.core n).carve with
        | some (vg, ab) => if granuleUse (s.core n).part (x / 16384) = granuleUse (partWord vg ab) (x / 16384) then (s.core n).pool.read x else 0#8
        | none => (s.core n).pool.read x)
/-- R273–R275, R277, R278: a group is pre-empted once its members are held and idle, and resumed where its cores are free; for one task, with
what its save area holds. -/
def Obligations.GroupSteps : Prop := ∀ (s : State) (gid : Nat) (g : Group), Tab.get? s.groups gid = some g →
  (∀ s1, g.st = .preempting → s.allHeld gid = true → membersOn s gid ≠ [] → (∀ n ∈ membersOn s gid, n < 160 ∧ memberIdle s n = true) →
    s.ctxActive g.ctx = true → saveMembers gid g (membersOn s gid) s = .ok s1 →
    ∃ t g', exec (.groupPreempt gid) s = .next t ∧ Tab.get? t.groups gid = some g' ∧ g'.st = .preempted ∧ g'.reqd = false ∧
      (∀ n ∈ membersOn s gid, (t.core n).st = .free ∧ (t.core n).pool = (s.core n).pool) ∧
      ∀ n w, membersOn s gid = [n] → saveWrite s g.ctx n (coreSlotAddr s g.ctx n) (coreSlotBytes (s.core n)) = .ok w → ∀ x, t.mem.read x = w.mem.read x) ∧
  (∀ c n eager w, resumable s (gid, g) = true → firstInLine s (gid, g) = true → g.saved = [c] → n = g.cores.getD c.tidx 0 → n < 160 →
    saveRead s (.resume gid) g.ctx (coreSlotAddr s g.ctx n) 2048 = .ok eager → bytesToNat (slice eager 1248 24) = 0 → c.drainAt = none →
    devWrite (s.useRange g.ctx (coreSlotAddr s g.ctx n) 2048) (some (.write 2 n)) g.ctx (coreSlotAddr s g.ctx n + 1248) (List.replicate 24 0#8) agDev = .ok w →
    (∀ m ∈ c.slots.toList, m.st ≠ .halted) →
    g.reqd = false → (∀ m ∈ g.cores, m ≠ n → ¬ ((s.core m).gid = gid ∧ (s.core m).st = .claiming)) →
    ∃ t g', exec (.groupResume gid) s = .next t ∧ Tab.get? t.groups gid = some g' ∧ g'.st = .running ∧ g'.saved = [] ∧ (t.core n).st = .running ∧
      (t.core n).pc = BitVec.ofNat 64 (bytesToNat (slice eager 1112 8)) ∧ (t.core n).pool = (s.core n).pool ∧ (∀ x, t.mem.read x = w.mem.read x) ∧
      (∀ r : BitVec 6, r ≠ 0#6 → (t.core n).rx r = BitVec.ofNat 32 (bytesToNat (slice eager (4 * (r.toNat - 1)) 4))) ∧
      (∀ r : BitVec 3, (t.core n).rk r = BitVec.ofNat 128 (bytesToNat (slice eager (256 + 16 * r.toNat) 16))))
/-- R289–R293, R295, R297–R299: a queue is notified, bound, looked at again, and its packets start and complete. -/
def Obligations.QueueSteps : Prop := ∀ (s : State) (q : Nat) (v : Queue), Tab.get? s.queues q = some v →
  (s.portUp = true → v.st = .idle → ∃ t v', exec (.notify q) s = .next t ∧ Tab.get? t.queues q = some v' ∧
    v' = { v with st := .ready, readySeq := s.nextId } ∧ ∀ x, t.mem.read x = s.mem.read x) ∧
  (s.portUp = true → v.st = .bound → ∃ t v', exec (.notify q) s = .next t ∧ Tab.get? t.queues q = some v' ∧ v' = { v with notified := true }) ∧
  (v.st ≠ .idle → v.st ≠ .bound → exec (.notify q) s = .next s.tickFresh) ∧ (s.portUp = false → exec (.notify q) s = .next s.tickFresh) ∧
  (∀ th h low, th < 32 → cpReady s = true → (s.thread th).queue = none → bestReady s = some q → s.ctxActive v.ctx = true → v.monitor = none →
    v.waiting = none → cpGet s [] v.ctx v.cb 32 = .ok h → (ringOf h).ok = true → (ringOf h).logn ≤ 16 →
    cpGet s [] v.ctx ((ringOf h).slot (ringOf h).ridx) 4 = .ok low → (bytesToNat low).testBit 0 = false →
    ∃ t v', exec (.threadBind th) s = .next t ∧ Tab.get? t.queues q = some v' ∧ v'.st = .idle ∧ v'.packets = v.packets ∧ (t.thread th).queue = none ∧
      ∀ x, t.mem.read x = s.mem.read x) ∧
  (∀ th h b s0 s1 s2 k, th < 32 → cpReady s = true → s.thread th = ⟨some q, (s.thread th).since, [], none⟩ → v.st = .bound →
    s.ctxActive v.ctx = true → v.monitor = none →
    (s.hubTime - (s.thread th).since < 42000 ∨ ∀ e ∈ readyQueues s, e.2.prio < v.prio) →
    v.waiting = none → v.packets = [] → cpGet s [] v.ctx v.cb 32 = .ok h → (ringOf h).ok = true → (ringOf h).logn ≤ 16 →
    cpGet s [] v.ctx ((ringOf h).slot (ringOf h).ridx) 4 = .ok (b.take 4) → cpGet s [] v.ctx ((ringOf h).slot (ringOf h).ridx) 64 = .ok b →
    b.length = 64 → (bytesToNat (b.take 4)).testBit 0 = true → (⟨q, v.ctx, (ringOf h).ridx, [], b, []⟩ : Pkt).ok = true →
    (⟨q, v.ctx, (ringOf h).ridx, [], b, []⟩ : Pkt).kind = 0 →
    translate s v.ctx ⟨.write, true, false, false⟩ ((ringOf h).slot (ringOf h).ridx) = .ok k → keyTier k < 3 →
    s.cpPut (.packet q (ringOf h).ridx 0) v.ctx (v.cb + 8) (natToBytes 8 ((ringOf h).ridx + 1)) true scSys = .ok s0 →
    s.cpPut .nothing v.ctx ((ringOf h).slot (ringOf h).ridx) (natToBytes 4 0) false 0 = .ok s1 →
    s1.cpPut (.packet q (ringOf h).ridx 0) v.ctx (v.cb + 8) (natToBytes 8 ((ringOf h).ridx + 1)) true scSys = .ok s2 →
    ∃ t v' p, exec (.threadBind th) s = .next t ∧ (∀ x, t.mem.read x = s2.mem.read x) ∧ Tab.get? t.queues q = some v' ∧ v'.packets = [p] ∧
      p.idx = (ringOf h).ridx ∧ p.groups = 0 ∧ p.sig = bytesToNat (slice b 8 8)) ∧
  (∀ th e, (s.thread th).queue = some q → 42000 ≤ s.hubTime - (s.thread th).since → (s.thread th).mid = none → v.monitor = none → e ∈ readyQueues s → v.prio ≤ e.2.prio →
    ∃ t v', exec (.bindingQuantumExpiry th) s = .next t ∧ Tab.get? t.queues q = some v' ∧ v'.st = .ready ∧ (th < 32 → (t.thread th).queue = none) ∧
      ∀ x, t.mem.read x = s.mem.read x) ∧
  (∀ k, v.monitor = some (k, true) → v.st = .waiting → ∃ t v', exec (.monitorChange q) s = .next t ∧ Tab.get? t.queues q = some v' ∧ v'.st = .ready ∧
    v'.monitor = none ∧ ∀ x, t.mem.read x = s.mem.read x) ∧
  (∀ idx p, v.packets.find? (fun p => p.idx == idx) = some p → p.groups = 0 → p.kind ≠ 4 → (p.kind = 6 → p.c = 0) → p.asked = false → cpReady s = true →
    packetBusy s q idx = false → (∀ th ∈ s.threads.toList, ¬ (th.queue = some q ∧ th.mid = some idx)) →
    (p.rel = 0 ∨ storesLeft s p = false) →
    (p.sig = 0 → ∃ t, exec (.packetComplete q idx) s = .next t ∧ (∀ x, t.mem.read x = s.mem.read x) ∧
      ∀ v', Tab.get? t.queues q = some v' → ∀ x ∈ v'.packets, x.idx ≠ idx) ∧
    (p.sig ≠ 0 → ∀ k, translate s v.ctx ⟨.atomic, true, false, false⟩ p.sig = .ok k → keyTier k < 3 → s.poisoned k = false →
      (∀ k', translate s v.ctx wantRead p.sig = .ok k' → keyTier k' ≠ 3) →
      ∃ t, exec (.packetComplete q idx) s = .next t ∧
        MemBecomes s t k 8 (fun i => BitVec.ofNat 8 ((s.mem.nat k 8 + (2 ^ 64 - 1)) % 2 ^ 64 / 2 ^ (8 * i))) ∧
        ∀ v', Tab.get? t.queues q = some v' → ∀ x ∈ v'.packets, x.idx ≠ idx))
/-- R269, R270, R286, R291, R292, R434: the end of an admin command, and the commands of contexts and queues. -/
def Obligations.AdminContexts : Prop := ∀ (s : State) (n : Nat),
  (∀ st a, st < 2 ^ 31 → a = (adminRing s).slot (adminRing s).ridx → s.admq % 64 = 0 → (adminRing s).rbase % 64 = 0 → a ≠ s.admq →
    (finishAdmin s st).mem.nat (keyOf 2 (a + 12)) 4 = 2 ^ 31 + st ∧
    (finishAdmin s st).mem.nat (keyOf 2 a) 8 = ((adminRing s).ridx + 2 ^ (adminRing s).logn) % 2 ^ 64 ∧
    (finishAdmin s st).mem.nat (keyOf 2 (s.admq + 8)) 8 = ((adminRing s).ridx + 1) % 2 ^ 64 ∧ (finishAdmin s st).msi = s.msi ++ [0]) ∧
  (∀ addr c s2 s3, adminHolds s 1 [n, addr] = true → s.ctx? n = none → addr % 128 = 0 → blockCtx n (s.mem.bytes (physKey addr) 128) = some c →
    devWrite { s with ctxs := Tab.set s.ctxs n c } (some (.write 3 0)) n c.tdBase (List.replicate 32768 0#8) agDev = .ok s2 → writeStatus s2 n 1 = .ok s3 →
    AdminEnds s (.create n addr) s3 0 ∧ s3.ctx? n = some c ∧ c.st = .active) ∧
  (∀ g h s2, adminHolds s 2 [n] = true → s.ctxActive n = true → (g, h) ∈ s.groups → h.ctx = n → h.st = .running →
    writeStatus ((groupsOf s n).foldl requestPreempt (s.modCtx n fun c => { c with st := .suspending })) n 2 = .ok s2 →
    AdminEnds s (.suspend n) s2 0 ∧ ∃ h', (g, h') ∈ s2.groups ∧ h'.st = .preempting ∧ h'.reqd = true) ∧
  (∀ c u, adminHolds s 3 [n] = true → s.ctx? n = some c → c.st = .suspended → writeStatus (s.modCtx n fun c => { c with st := .active }) n 1 = .ok u →
    AdminEnds s (.resume n) u 0 ∧ u.ctxActive n = true) ∧
  (∀ c, adminHolds s 4 [n] = true → s.ctx? n = some c → c.st = .scrubbing → (∀ a ∈ s.accesses, a.ctx = n → a.done = true) →
    (∀ e ∈ s.recq, e.1 ≠ n) → (∀ e ∈ s.queues, e.2.ctx = n → s.starting e.1 = false) →
    ∃ u, AdminEnds s (.destroy n) u 0 ∧ u.ctx? n = none ∧ (∀ (m q : Nat) (w : GTag), m < 160 → (u.core m).gtags[q]? = some w → ¬ (w.valid = true ∧ w.owner = n)) ∧
      (∀ (m x : Nat) (w : GTag), m < 160 → x < 3145728 → (s.core m).gtags[x / 16384]? = some w →
        (u.core m).pool.read x = if w.valid = true ∧ w.owner = n then 0#8 else (s.core m).pool.read x) ∧ ∀ t ∈ u.tlb, t.ctx ≠ n) ∧
  (∀ core, adminHolds s 5 [n, core] = true → core < 160 → (s.core core).st = .stopped → (s.core core).ctx = n →
    AdminEnds s (.taskgo n core) (s.modCore core fun c => { c with st := .running }) 0) ∧
  (∀ core, adminHolds s 6 [n, core] = true → core < 160 → (s.core core).st = .stopped → (s.core core).ctx = n →
    ∃ u, AdminEnds s (.groupend n core) u 0 ∧ Tab.get? u.groups (s.core core).gid = none) ∧
  (∀ q cb prio b, adminHolds s 16 [n, q, cb, prio] = true → q < 4096 → prio < 8 → Tab.get? s.queues q = none → s.ctxActive n = true → cb % 64 = 0 →
    cpGet s s.adminLines n cb 64 = .ok b → 1 ≤ bytesToNat (slice b 24 4) → bytesToNat (slice b 24 4) ≤ 16 →
    (s.queues.filter fun e => e.2.ctx == n).length < ctxField s n (·.maxQ) →
    ∃ v, AdminEnds s (.mapq n q cb prio) { s with queues := Tab.set s.queues q v } 0 ∧ v.st = .idle ∧ v.ctx = n ∧ v.cb = cb ∧
      v.prio = Nat.min prio (ctxField s n (·.prioMax)) ∧ v.packets = [] ∧ v.monitor = none) ∧
  (∀ v, adminHolds s 17 [n] = true → Tab.get? s.queues n = some v → v.packets = [] → s.starting n = false →
    ∃ u, AdminEnds s (.unmapq n) u 0 ∧ Tab.get? u.queues n = none ∧ (∀ th, (u.thread th).queue ≠ some n) ∧ u.mem = s.mem) ∧
  (∀ v u, adminHolds s 18 [n] = true → Tab.get? s.queues n = some v → v.st = .error → s.starting n = false →
    cpWrite (s.modQueue n fun v => { v with st := .idle }) v.ctx (v.cb + 40) (natToBytes 4 0) false false 0 = .ok u →
    AdminEnds s (.resetq n) u 0 ∧ (Tab.get? u.queues n).map (·.st) = some .idle)
/-- R345, R387, R388, R395, R396, R399, R404, R405, R413, R424, R428, R429, R434, R439–R441: the admin commands of tables, pages, links, recovery and configuration.
The model's choices are: SHEET takes one entry in a cycle of the hub (log 105), MIGRATE copies and moves its page in one step (log 66), what SHOOT waits for (log 65),
operand addresses that are physical keys (log 40), a checkpoint's and a restore's forms on the window (logs 41, 67), a link being retrained counts as UP or DEGRADED
(log 64). -/
def Obligations.AdminTables : Prop := ∀ s : State,
  (∀ n addr clear, adminHolds s 20 [n, addr, clear] = true → (s.ctx? n).isSome = true → addr % 64 = 0 →
    (s.adminCur = none → exec (.sheet n addr clear) s = .next { s with adminCur := some (sheetMark s 0), fresh := s.fresh + 1 }) ∧
    -- one entry of the 41,120, as it is in this cycle of the hub; the next entry is another cycle's
    (∀ m i e, s.adminCur = some m → i = m % 65536 → m / 65536 ≠ s.hubTime + 1 → i < 41120 → e = (Tab.get? ((Tab.get? s.sheets n).getD []) i).getD (0, 0) →
      ∃ u, (if i + 1 = 41120 then AdminEnds s (.sheet n addr clear) u 0
          else exec (.sheet n addr clear) s = .next { u with adminCur := some (sheetMark s (i + 1)), fresh := u.fresh + 1 }) ∧
        u.mem.nat (physKey (addr + 16 * i)) 8 = e.1 % 2 ^ 64 ∧ u.mem.nat (physKey (addr + 16 * i) + 8) 8 = e.2 % 2 ^ 64 ∧
        (∀ x, x < physKey (addr + 16 * i) ∨ physKey (addr + 16 * i) + 16 ≤ x → u.mem.read x = s.mem.read x) ∧
        ∀ j, (Tab.get? ((Tab.get? u.sheets n).getD []) j).getD (0, 0) =
          if clear % 2 = 1 ∧ j = i then (0, 0) else (Tab.get? ((Tab.get? s.sheets n).getD []) j).getD (0, 0)) ∧
    (∀ m, s.adminCur = some m → m / 65536 = s.hubTime + 1 → exec (.sheet n addr clear) s = .fault (.notEnabled "SHEET"))) ∧
  (∀ n va cnt cut lo hi, adminHolds s 24 [n, va, cnt] = true → (s.ctx? n).isSome = true → va % 131072 = 0 → va < 2 ^ 56 → hi ≤ 2 ^ 56 →
    lo = (if cnt = 0 then 0 else va) → hi = (if cnt = 0 then 2 ^ 56 else va + 131072 * cnt) →
    (s.adminCur = none → exec (.shoot n va cnt) s = .next { (dropTlb s n lo hi) with adminCur := some s.nextId, fresh := s.fresh + 1 }) ∧
    (s.adminCur = some cut → undrained s n lo hi cut = false → AdminEnds s (.shoot n va cnt) (rewatch (dropTlb s n lo hi) n lo hi) 0)) ∧
  (∀ n va tier addr ea e lv size dst, adminHolds s 25 [n, va, tier, addr] = true → (s.ctx? n).isSome = true → va < 2 ^ 56 →
    leafFrom s va 4 3 (ctxField s n (·.ptRoot)) = .ok (ea, e, lv) → s.adminCur = some e → size = 2 ^ pageBits lv → pteTier e < 3 → tier < 3 →
    pteAddr e + size ≤ tierLimit (pteTier e) → (pteTier e ≤ 1 → s.isWithheld (pteTier e) (pteAddr e + va % size) = false) →
    addr % size = 0 → addr + size ≤ tierLimit tier → s.frames = [] → undrained s n (va / size * size) (va / size * size + size) s.nextId = false →
    dst = keyOf tier addr → apart (keyOf 0 ea) dst size →
    ∃ u, AdminEnds s (.migrate n va tier addr) u 0 ∧ (∀ i, i < size → u.mem.read (dst + i) = s.mem.read (keyOf (pteTier e) (pteAddr e) + i)) ∧
      u.mem.nat (keyOf 0 ea) 8 = movedLeaf e tier addr % 2 ^ 64 ∧
      (∀ x, (x < dst ∨ dst + size ≤ x) → (x < keyOf 0 ea ∨ keyOf 0 ea + 8 ≤ x) → u.mem.read x = s.mem.read x) ∧
      ∀ p ∈ u.tlb, p.ctx = n → meetsRange (va / size * size) (va / size * size + size) (p.page * 2 ^ levelBits p.lv) ((p.page + 1) * 2 ^ levelBits p.lv) = false) ∧
  (∀ w v pkg rtier rbase rlen, adminHolds s 26 [w, v, pkg, rtier, rbase, rlen] = true → w < 4096 → v < 2 → pkg < 2 ^ 14 → rtier < 2 → rbase % 131072 = 0 →
    rlen % 131072 = 0 → AdminEnds s (.winset w v pkg rtier rbase rlen)
      { s with windows := if v = 1 then Tab.set s.windows w ⟨pkg, rtier, rbase, rlen⟩ else Tab.erase s.windows w } 0) ∧
  (∀ e spkg tier base len, adminHolds s 27 [e, spkg, tier, base, len] = true → e < 4096 → spkg < 2 ^ 14 → tier < 3 →
    AdminEnds s (.exportWin e spkg tier base len)
      { s with exports := if len = 0 then Tab.erase s.exports e else Tab.set s.exports e ⟨spkg, tier, base, len⟩ } 0) ∧
  (∀ addr, adminHolds s 28 [addr] = true → addr % 64 = 0 → ∃ u, AdminEnds s (.snagrd addr) u 0 ∧
    u.mem.nat (physKey addr) 4 = s.snag.length % 2 ^ 32 ∧ ∀ i f, s.snag[i]? = some f →
      u.mem.nat (physKey addr + 64 + 16 * i) 1 = f.1 % 256 ∧ u.mem.nat (physKey addr + 72 + 16 * i) 8 = f.2 % 2 ^ 64) ∧
  (∀ pkg link, adminHolds s 32 [pkg, link] = true → pkg < 2 ^ 14 → (link = 15 ∨ link < 12 ∧ ((s.link link).live = true ∨ (s.link link).retraining = true)) → s.routes = [] →
    AdminEnds s (.route pkg link) { s with routes := if link = 15 then [] else [(pkg, link)] } 0) ∧
  (∀ l, adminHolds s 33 [l] = true → l < 12 → (s.link l).live = false → (s.link l).retraining = false → ∃ u, AdminEnds s (.linkreset l) u 0 ∧
    (u.link l).st = .training ∧ (u.link l).txSeq = 0 ∧ (u.link l).rxSeq = 0 ∧ (u.link l).replay = [] ∧ (u.link l).backlog = [] ∧ (u.link l).inbox = [] ∧
    (u.link l).requests = [] ∧ (u.link l).cache = [] ∧ (u.link l).plink = (s.link l).plink) ∧
  (∀ l, adminHolds s 33 [l] = true → l < 12 → ((s.link l).live = true ∨ (s.link l).retraining = true) → AdminEnds s (.linkreset l) s 2) ∧
  (∀ l, adminHolds s 34 [l] = true → l < 12 → ((s.link l).live = true ∨ (s.link l).retraining = true) → (s.link l).requests = [] → ∃ u, AdminEnds s (.linkfence l) u 0 ∧
    (u.link l).st = .fenced ∧ (u.link l).inbox = [] ∧ (∀ r ∈ u.routes, r.2 ≠ l)) ∧
  (∀ addr, adminHolds s 35 [addr] = true → addr % 64 = 0 → ∃ u, AdminEnds s (.linkrd addr) u 0 ∧ ∀ l, l < 12 →
    u.mem.nat (physKey addr + 32 * l) 1 = linkCode (s.link l).st ∧ u.mem.nat (physKey addr + 32 * l + 8) 8 = (s.link l).replays % 2 ^ 64 ∧
    u.mem.nat (physKey addr + 32 * l + 16) 8 = (s.link l).crcErr % 2 ^ 64 ∧ u.mem.nat (physKey addr + 32 * l + 24) 4 = (s.link l).fences % 2 ^ 32) ∧
  (∀ e r, adminHolds s 40 [e] = true → s.rot[e]? = some r → r.failed = true → ∃ u r', AdminEnds s (.confack e) u 0 ∧ u.rot[e]? = some r' ∧
    r' = { r with acked := true } ∧ s.confirm ≤ u.confirm) ∧
  (∀ list cnt win j, adminHolds s 41 [list, cnt, win] = true → list % 64 = 0 → list < 2 ^ 39 → 1 ≤ cnt → cnt ≤ 256 →
    (∀ r ∈ listRanges (s.mem.bytes (keyOf 0 list) (16 * cnt)) cnt, r.1 % 131072 = 0 ∧ r.2 % 131072 = 0) →
    64 + 16 * cnt + rangesLen (listRanges (s.mem.bytes (keyOf 0 list) (16 * cnt)) cnt) ≤ winLen s win / 2 → (Tab.get? s.windows win).isSome = true →
    (s.adminCur = none → ckptBusy s = false → exec (.ckpt list cnt win) s =
      .next { s with ckptRun := some ⟨win, s.dieCycle 0, 0, 0, 0, [], [], false⟩, adminCur := some 0, fresh := s.fresh + 1 }) ∧
    (s.ckptRun = some j → s.adminCur.isSome = true →
      (j.failed = true → AdminEnds s (.ckpt list cnt win) s 2) ∧
      (j.failed = false → j.phase = 2 → ckptBusy s = false →
        AdminEnds s (.ckpt list cnt win) { s with ckpt := some { j with phase := 3 }, ckptRun := none } 0))) ∧
  (∀ win, adminHolds s 42 [win] = true → (Tab.get? s.windows win).isSome = true →
    (s.adminCur = none → ckptBusy s = false → exec (.restore win) s =
      .next { s with ckptRun := some ⟨win, 0, 0, 0, 0, [], [], false⟩, adminCur := some 0, fresh := s.fresh + 1 }) ∧
    (∀ j, s.ckptRun = some j → s.adminCur.isSome = true → j.failed = true → AdminEnds s (.restore win) s 2)) ∧
  (∀ addr, adminHolds s 48 [addr] = true → operatorOk (s.cfg.take 512) (s.mem.bytes (keyOf 2 addr) 512) = true →
    AdminEnds s (.cfgw addr) { s with cfgFlash := padTo 512 (s.cfgFlash.take 512) ++ s.mem.bytes (keyOf 2 addr) 512 } 0) ∧
  (∀ w, adminHolds s 49 [w] = true → 400 ≤ w → AdminEnds s (.pwrset w) { s with plim := Nat.min w s.pwrLim } 0) ∧
  (∀ d f, adminHolds s 50 [d, f] = true → d < 4 → 8 ≤ f → f ≤ s.clkLim d → ∃ u, AdminEnds s (.clkset d f) u 0 ∧ (u.die d).clkSet = f ∧
    ∀ q, q ≠ d → u.die q = s.die q) ∧
  (∀ code, adminHolds s code [] = true → code ∉ ([1, 2, 3, 4, 5, 6, 16, 17, 18, 20, 24, 25, 26, 27, 28, 32, 33, 34, 35, 40, 41, 42, 48, 49, 50] : List Nat) →
    AdminEnds s (.unknownAdminCommand code) s 5)
/-- R289, R431–R433, R438: the management aperture, host memory, the doorbell aperture and BAR 4 (as the storage that log 136 makes it), and SPDM: every one of
these events completes in every state. -/
def Obligations.HostPort : Prop := ∀ s : State,
  (∀ off bytes val, val < 2 ^ 64 → exec (.mgmtRegisterWrite off bytes val) s = .next (mgmtAfter s off bytes val).tickFresh) ∧
  exec .admn s = .next { s with adminRun := s.adminRun || (s.boot == .ready && s.portUp && s.admq != 0), fresh := s.fresh + 1 } ∧
  (∀ tier addr len data, tier ≠ 4 → tier ≠ 6 → data.length = len → ∃ t, exec (.hostMemoryAccess true tier addr len data) s = .next t ∧
    (∀ n, (t.core n).pool = (s.core n).pool) ∧
    (hostReaches s tier addr len → ∀ x, t.mem.read x =
      if keyOf tier addr ≤ x ∧ x < keyOf tier addr + len ∧ ¬ (tier ≤ 1 ∧ s.isWithheld tier (addr + (x - keyOf tier addr)) = true)
      then data.getD (x - keyOf tier addr) 0#8 else s.mem.read x) ∧
    (¬ hostReaches s tier addr len → t = s.tickFresh)) ∧
  (∀ tier addr len data, tier ≠ 4 → tier ≠ 5 → tier ≠ 6 → ∃ d, exec (.hostMemoryAccess false tier addr len data) s = .next { s with hostData := d, fresh := s.fresh + 1 } ∧
    d.length = len ∧ ∀ i, i < len → d[i]? = some (if hostReaches s tier addr len ∧ ¬ (tier ≤ 1 ∧ s.isWithheld tier (addr + i) = true)
      then s.mem.read (keyOf tier addr + i) else 0#8)) ∧
  (∀ addr len data, ∃ d, exec (.hostMemoryAccess false 5 addr len data) s = .next { s with hostData := d, fresh := s.fresh + 1 } ∧ d.length = len ∧
    (s.portUp = true → addr = 0 → len = 4 → bytesToNat d = bootState s.boot) ∧
    (s.portUp = true → s.boot = .ready → len = 8 → (addr = 0x8 → bytesToNat d = s.admq % 2 ^ 64) ∧ (addr = 0x18 → bytesToNat d = s.evq % 2 ^ 64) ∧
      (addr = 0x20 → bytesToNat d = s.confirm % 2 ^ 64)) ∧
    ((s.portUp = false ∨ (s.boot ≠ .ready ∧ 4 ≤ addr)) → bytesToNat d = 0)) ∧
  (∀ addr len data, (notifiesAt s addr len → exec (.hostMemoryAccess true 4 addr len data) s = .next (s.notifyQueue (addr / 131072)).tickFresh) ∧
    (¬ notifiesAt s addr len → exec (.hostMemoryAccess true 4 addr len data) s = .next s.tickFresh) ∧
    ∃ d, exec (.hostMemoryAccess false 4 addr len data) s = .next { s with hostData := d, fresh := s.fresh + 1 } ∧ d.length = len ∧
      bytesToNat d = if notifiesAt s addr len then (match Tab.get? s.queues (addr / 131072) with
        | none => 0
        | some v => queueCode v.st) else 0) ∧
  -- BAR 4, as tier 6: storage of 64 KiB (log 136)
  (∀ addr len data, data.length = len → (s.boot = .ready → s.portUp = true → addr + len ≤ 65536 →
      (∃ t, exec (.hostMemoryAccess true 6 addr len data) s = .next t ∧ t.mem = s.mem ∧
        ∀ x, t.bar4.read x = if addr ≤ x ∧ x < addr + len then data.getD (x - addr) 0#8 else s.bar4.read x) ∧
      ∃ d, exec (.hostMemoryAccess false 6 addr len data) s = .next { s with hostData := d, fresh := s.fresh + 1 } ∧ d.length = len ∧
        ∀ i, i < len → d[i]? = some (s.bar4.read (addr + i))) ∧
    (¬ (s.boot = .ready ∧ s.portUp = true ∧ addr + len ≤ 65536) → exec (.hostMemoryAccess true 6 addr len data) s = .next s.tickFresh)) ∧
  (s.boot ≠ .rom → s.portUp = true →
    exec .getDigests s = .next { s with doe := natToBytes 64 (Config.digest (certChain s)).toNat, fresh := s.fresh + 1 } ∧
    (∀ off len, exec (.getCertificate off len) s = .next { s with doe := ((certChain s).drop off).take len, fresh := s.fresh + 1 }) ∧
    (∀ req, exec (.challenge req) s = .next { s with doe := natToBytes 64 (Config.digest (certChain s)).toNat ++ aliasSign s req, fresh := s.fresh + 1 }) ∧
    (∀ req, exec (.getMeasurements req) s =
      .next { s with doe := measurements s ++ aliasSign s (req ++ measurements s), fresh := s.fresh + 1 }) ∧
    (∀ req, ∃ d r, exec (.keyExchange req) s = .next { s with doe := d, doeTranscript := req ++ r, fresh := s.fresh + 1 }) ∧
    (∀ req, (s.doeTranscript ≠ [] → ∃ d, exec (.finish req) s = .next { s with doe := d, doeTranscript := [], ideKeyed := true, fresh := s.fresh + 1 }) ∧
      (s.doeTranscript = [] → exec (.finish req) s = .next { s with doe := [], fresh := s.fresh + 1 })))
/-- R441: power and heat. -/
def Obligations.PowerAndHeat : Prop := ∀ s : State, s.boot = .ready → s.tripped = false →
  (∀ power, ∃ t, exec (.powerWindow power) s = .next t ∧ t.modPwr = power.getD 0 0 ∧ (∀ d, d < 4 → (t.die d).power = power.getD (d + 1) 0) ∧
    (power.getD 0 0 ≤ 10 * s.plim → ∀ d, d < 4 → (t.die d).pTarget = (s.die d).pTarget) ∧
    (10 * s.plim < power.getD 0 0 → ∀ d, d < 4 → (∀ q, q < 4 → power.getD (q + 1) 0 ≤ power.getD (d + 1) 0) →
      (∀ q, q < d → power.getD (q + 1) 0 < power.getD (d + 1) 0) → 8 < (s.die d).pTarget →
      (t.die d).pTarget = (s.die d).pTarget - 1 ∧ ∀ q, q < 4 → q ≠ d → (t.die q).pTarget = (s.die q).pTarget)) ∧
  (∀ power d, power.getD 0 0 * 100 < 95 * (10 * s.plim) → s.lowSince + 2100000 ≤ s.hubTime → d < 4 → (s.die d).pTarget < Nat.min (s.die d).clkSet (s.clkLim d) →
    (∀ q, q < d → Nat.min (s.die q).clkSet (s.clkLim q) ≤ (s.die q).pTarget) →
    ∃ t, exec (.powerRaise power) s = .next t ∧ (t.die d).pTarget = (s.die d).pTarget + 1 ∧ ∀ q, q < 4 → q ≠ d → (t.die q).pTarget = (s.die q).pTarget) ∧
  (∀ d temp, d < 4 → temp < 880 → ∃ t, exec (.thermalStep d temp) s = .next t ∧ (t.die d).temp = temp ∧
    (temp < 760 → (t.die d).hot = false ∧ (t.die d).tTarget = (s.die d).tTarget) ∧
    (800 ≤ temp → (s.die d).hot = false → 8 < (s.die d).tTarget → (t.die d).hot = true ∧ (t.die d).tTarget = (s.die d).tTarget - 1)) ∧
  (∀ d temp, d < 4 → 880 ≤ temp → ∃ t, exec (.thermalTrip d temp) s = .next t ∧ t.tripped = true ∧ t.portUp = false ∧ (∀ q, q < 4 → (t.die q).clk = 0) ∧
    ∀ l, l < 12 → (s.link l).live = true → (t.link l).st = .fenced)
/-- R397, R398, R419–R423, R425, R426, R437: module reset, cruises, corrected and uncorrectable errors, frames. -/
def Obligations.Recovery : Prop := ∀ s : State,
  -- a module reset, the boot ROM's part, and the firmware's part, as three steps between which the host may read BSTATE
  ((s.boot = .ready ∨ s.boot = .failed) → ∃ t, exec .moduleReset s = .next t ∧ t.boot = .rom ∧ t.admq = 0 ∧ t.evq = 0 ∧ t.flashA = s.flashA ∧
    t.flashB = s.flashB ∧ t.floor = s.floor ∧ t.cfgFlash = s.cfgFlash ∧ t.snag = s.snag ∧ (∀ n, t.core n = Core.zero) ∧
    ∀ x, t.mem.read x = if keyOf 2 0 ≤ x ∧ x < keyOf 3 0 then s.mem.read x else 0#8) ∧
  (∀ img, s.boot = .rom → (firmwareOk s.floor s.flashA = true ∧ img = s.flashA ∨ firmwareOk s.floor s.flashA = false ∧ firmwareOk s.floor s.flashB = true ∧ img = s.flashB) →
    exec .moduleReset s = .next { s with boot := .firmware, runningImg := img, floor := Nat.max s.floor (imageVersion img), fresh := s.fresh + 1 }) ∧
  (s.boot = .rom → firmwareOk s.floor s.flashA = false → firmwareOk s.floor s.flashB = false → ∃ t, exec .moduleReset s = .next t ∧ t.boot = .failed) ∧
  (s.boot = .firmware → factoryOk s.cfgFlash = true → ∃ t, exec .moduleReset s = .next t ∧ t.boot = .ready ∧ t.withheld = s.snag ++ spareFrames ∧
    t.cfg = recordInForce s.cfgFlash ∧ t.plim = t.pwrLim ∧ (∀ n, t.core n = s.core n) ∧ t.mem = s.mem) ∧
  (s.boot = .firmware → factoryOk s.cfgFlash = false → ∃ t, exec .moduleReset s = .next t ∧ t.boot = .failed) ∧
  (∀ e, s.boot = .ready → s.tripped = false → s.cruise = none → nextCruise s = some e →
    exec .cruiseStart s = .next { s with cruise := some (e, s.dieCycle 0, s.hubTime), fresh := s.fresh + 1 }) ∧
  (∀ e cyc tm, s.cruise = some (e, cyc, tm) → e < 192 → cyc + 42000 ≤ s.dieCycle 0 →
    (∃ t, exec (.cruiseComplete true) s = .next t ∧ t.cruise = none ∧ (t.rot[e]?.map (·.passCycle)) = some cyc ∧ (t.rot[e]?.map (·.passTime)) = some tm ∧
      s.confirm ≤ t.confirm ∧ (e < 160 → (∀ x, (t.core e).pool.read x = 0#8) ∧ (t.core e).descs = [] ∧ (t.core e).cache = [])) ∧
    (∃ t, exec (.cruiseComplete false) s = .next t ∧ t.cruise = none ∧ (t.rot[e]?.map (·.failed)) = some true ∧
      (t.rot[e]?.map (·.withheld)) = some true)) ∧
  (∀ n a r, s.boot = .ready → s.tripped = false → n < 160 → a < 3145728 → s.rot[n]? = some r → (Tab.get? r.errs (a / 16384)) = none →
    ∃ t r', exec (.correctedError 2 (2 ^ 22 * n + a)) s = .next t ∧ t.rot[n]? = some r' ∧ Tab.get? r'.errs (a / 16384) = some [s.hubTime] ∧
      r'.withheld = r.withheld ∧ t.mem = s.mem) ∧
  (∀ tier a f, s.boot = .ready → s.tripped = false → tier ≤ 1 → a < tierLimit tier → f = keyOf tier a / 131072 → (frameOf s f).st = .inUse →
    (frameOf s f).errs = [] → ∃ t, exec (.correctedError tier a) s = .next t ∧ (frameOf t f).errs = [s.hubTime] ∧ (frameOf t f).st = .inUse) ∧
  (∀ tier a f k, s.tripped = false → f = keyOf tier a / 131072 → (frameOf s f).st = .failing → freeSpare s f = some k → snagRoom s = true →
    ∃ t, exec (.frameFailingRepeat tier a) s = .next t ∧ (frameOf t f).st = .moving ∧ (frameOf t f).spare = k ∧ t.mem = s.mem) ∧
  (∀ tier a f, s.tripped = false → f = keyOf tier a / 131072 → (frameOf s f).st = .moving → (∀ b ∈ s.accesses, b.key / 131072 = f → b.done = true ∨ b.op.real = false) →
    ∃ t, exec (.frameRetire tier a) s = .next t ∧ (frameOf t f).st = .retired ∧ t.snag = s.snag ++ [(keyTier (131072 * f), keyPa (131072 * f))]) ∧
  (∀ k, ∃ t, exec (.uncorrectableError (.line k)) s = .next t ∧ (∀ x, t.poisoned x = (s.poisoned x || k / 128 == x / 128)) ∧ t.mem = s.mem) ∧
  (∀ n l, n < 160 → ∃ t, exec (.uncorrectableError (.pool n l)) s = .next t ∧ (t.core n).poison.contains l = true ∧ (t.core n).pool = (s.core n).pool) ∧
  (∀ n r, n < 160 → r ≠ 0#6 → ∃ t, exec (.uncorrectableError (.xreg n r)) s = .next t ∧ (t.core n).xpoison.contains r = true ∧ (t.core n).x = (s.core n).x) ∧
  (∀ n r, n < 160 → ∃ t, exec (.uncorrectableError (.kreg n r)) s = .next t ∧ (t.core n).kpoison.contains r = true ∧ (t.core n).k = (s.core n).k)
/-- R388, R394, R402–R410, R416–R418: the steps of the links. What flits carry, the order in which they are taken and sent again (log 20), credits, acknowledgments
by idle flits and the forwarding of another package's messages (log 135), the forms of replies and of their status (log 21), the two messages of a PIECE, an XCHG or
a multicast LAND (log 22), the state of a link that is being retrained (log 64), a message of several lines as one step (log 116), and exactly-once for LAND, PIECE
and XCHG (log 115) are the model's choices. -/
def Obligations.LinkSteps : Prop := ∀ (s : State) (l : Nat), l < 12 →
  (∀ f fk, (s.link l).live = true → f.length = 64 → (s.link l).replay = [] → bytesToNat (slice f 62 2) = (crc16 (f.take 62)).toNat → bytesToNat (slice f 60 1) = fk →
    (fk = 1 ∨ fk = 2) → bytesToNat (slice f 56 2) = ((s.link l).rxSeq + 1) % 65536 →
    ∃ t, exec (.flit l f) s = .next t ∧ (t.link l).rxSeq = ((s.link l).rxSeq + 1) % 65536 ∧ (t.link l).crcErr = (s.link l).crcErr ∧ t.mem = s.mem ∧
      -- a whole message enters the arrivals, and the export entries of that moment say whether it is let in; another package's goes on
      ∀ m, fk = 1 → m = msgOfBytes (f.take 56) → msgOk m = true → 24 + dataLen m.opc.toNat m.len.toNat ≤ 56 → m.opc ≠ 10#8 →
        (m.dpkg.toNat = s.pkgNum → ∃ b, (t.link l).inbox = (s.link l).inbox ++ [(m, b)] ∧ ((m.opc = 1#8 ∨ m.opc = 2#8) →
          (b = true ↔ ∀ k ∈ linesOf ((msgAccess m).key + (msgAccess m).off) m.len.toNat, ∃ e ∈ s.exports, e.2.spkg = m.spkg.toNat ∧ e.2.tier = keyTier (128 * k) ∧
            e.2.base ≤ keyPa (128 * k) ∧ keyPa (128 * k) + 128 ≤ e.2.base + e.2.len))) ∧
        (m.dpkg.toNat ≠ s.pkgNum → (t.link l).inbox = (s.link l).inbox ∧ ∀ k, s.routeOf m.dpkg.toNat = some k → k < 12 → k ≠ l → (s.link k).live = true →
          (s.link k).room m = true → (t.link k).replay.length = (s.link k).replay.length + msgFlits m)) ∧
  (∀ f, (s.link l).live = true → f.length = 64 → bytesToNat (slice f 62 2) ≠ (crc16 (f.take 62)).toNat →
    ∃ t x, exec (.flit l f) s = .next t ∧ (t.link l).crcErr = (s.link l).crcErr + 1 ∧ (t.link l).rxSeq = (s.link l).rxSeq ∧
      (t.link l).outbox = (s.link l).outbox ++ [x] ∧ t.mem = s.mem) ∧
  (∀ q i, (s.link l).live = true → (s.link l).replay.findIdx? (fun f => f.1 == q) = some i →
    ((∀ f ∈ (s.link l).replay.drop i, f.2.1 < 7) →
      ∃ t, exec (.replayRequest l q) s = .next t ∧ (t.link l).outbox = (s.link l).outbox ++ ((s.link l).replay.drop i).map (·.2.2) ∧
        (t.link l).replay = (s.link l).replay.take i ++ ((s.link l).replay.drop i).map (fun f => (f.1, f.2.1 + 1, f.2.2)) ∧
        (t.link l).st = (s.link l).st ∧ t.mem = s.mem) ∧
    (∀ f ∈ (s.link l).replay.drop i, 7 ≤ f.2.1 → ∃ t, exec (.replayRequest l q) s = .next t ∧ (t.link l).st = .training)) ∧
  ((s.link l).live = true → ∃ t, exec (.retrain l) s = .next t ∧ (t.link l).st = .training ∧ (t.link l).txSeq = (s.link l).txSeq ∧
    (t.link l).rxSeq = (s.link l).rxSeq ∧ (t.link l).replay = (s.link l).replay) ∧
  ((s.link l).st = .training → (s.link l).width = 0 → (∃ t, exec (.trainingDone l 8) s = .next t ∧ (t.link l).st = .up ∧ (t.link l).width = 8) ∧
    ∃ t, exec (.trainingDone l 4) s = .next t ∧ (t.link l).st = .degraded ∧ (t.link l).width = 4) ∧
  (∀ m, (s.link l).live = true → (s.link l).inbox.head?.map (·.1) = some m → m.opc = 10#8 → (s.link l).requests = [] →
    ∃ t, exec (.fenceMessage l) s = .next t ∧ (t.link l).st = .fenced ∧ (t.link l).inbox = [] ∧ ∀ r ∈ t.routes, r.2 ≠ l) ∧
  (∀ m, Served s l m 1 m.len.toNat true false → ∃ t, exec (.read l m) s = .next t ∧ (∀ x, t.mem.read x = s.mem.read x) ∧
    ∃ u : State, u.links = ((s.popInbox l).modLink l fun k => k.seen m.rid.toNat).links ∧ u.routes = s.routes ∧
      t = (u.sendTo (replyMsg s m ([0#8, 0#8] ++ s.mem.bytes ((msgAccess m).key + (msgAccess m).off) m.len.toNat))).tickFresh) ∧
  (∀ m, Served s l m 2 m.len.toNat false false → m.data.length = m.len.toNat →
    ∃ t, exec (.write l m) s = .next t ∧ MemBecomes s t ((msgAccess m).key + (msgAccess m).off) m.len.toNat (fun i => m.data.getD i 0#8)) ∧
  (∀ m old, Served s l m 3 m.len.toNat false true → m.aux = 0#32 → (m.len = 4#32 ∨ m.len = 8#32) →
    old = s.mem.nat ((msgAccess m).key + (msgAccess m).off) m.len.toNat →
    ∃ t, exec (.atomic l m) s = .next t ∧ MemBecomes s t ((msgAccess m).key + (msgAccess m).off) m.len.toNat
      (wordBytes (old + bytesToNat (slice m.data 0 m.len.toNat)))) ∧
  -- a request that the export entries did not let in changes nothing
  (∀ m i, (m.opc = 1#8 ∧ i = .read l m ∨ m.opc = 2#8 ∧ i = .write l m ∨ m.opc = 3#8 ∧ i = .atomic l m) → atHead s l m m.opc.toNat = true → NewRid s l m →
    s.headIn l = false → ∃ t, exec i s = .next t ∧ ∀ x, t.mem.read x = s.mem.read x) ∧
  (∀ m, (s.link l).inbox.head?.map (·.1) = some m → m.opc = 4#8 →
    (m.addr = 0#64 → (∀ k, k < 12 → (s.link k).requests.find? (fun r => r.rid == m.rid.toNat && r.msg.dpkg == m.spkg) = none) →
      exec (.reply l m) s = .next (s.popInbox l).tickFresh) ∧
    (∀ k r, m.addr = 0#64 → k < 12 → (k ≠ l → ∀ j, j = l ∨ j < k → (s.link j).requests.find? (fun r => r.rid == m.rid.toNat && r.msg.dpkg == m.spkg) = none) →
      (s.link k).requests.find? (fun r => r.rid == m.rid.toNat && r.msg.dpkg == m.spkg) = some r → r.owner = .nothing →
      ∃ t, exec (.reply l m) s = .next t ∧ (t.link k).requests = (s.link k).requests.filter (fun x => x.rid != r.rid) ∧ (t.link l).inbox = (s.link l).inbox.tail) ∧
    -- an owner's acknowledgment of a contribution that reached it in a partial sum
    (∀ n, m.addr ≠ 0#64 → n = 40 * msgDie m + msgCore m → ∃ t, exec (.reply l m) s = .next t ∧ (t.link l).inbox = (s.link l).inbox.tail ∧ ∀ k r, k < 12 →
      (r ∈ (t.link k).requests ↔ r ∈ (s.link k).requests ∧ ¬ (r.msg.opc = 6#8 ∧ r.msg.dpkg = m.spkg ∧ ∃ z, z < 4 ∧ r.owner = .slot n z ∧
        (s.slotAt n z).op = 0x13 ∧ (s.slotAt n z).cid = msgNat m 2 4 ∧ (s.slotAt n z).chunkNow = msgNat m 6 4)))) ∧
  (∀ m z, atHead s l m 5 = true → NewRid s l m → msgCore m ≠ 63 → z = m.aux.toNat → (∀ n ∈ landCores m (firstPart s l m), n < 160 ∧ awayOn s (msgCtx m) n = false ∧
      (s.core n).st ≠ .free ∧ (s.core n).ctx = msgCtx m ∧ landHeld s n z (msgOff m) m.data.length = false ∧
      ∃ ls, (s.core n).lands[z]? = some ls ∧ ls.armed = true ∧ msgOff m + m.data.length ≤ ls.len ∧ ls.off + ls.len ≤ (s.core n).padSize) →
    ∃ t, exec (.land l m) s = .next t ∧ (∀ x, t.mem.read x = s.mem.read x) ∧
      (∀ n ls, n ∈ landCores m (firstPart s l m) → (s.core n).lands[z]? = some ls →
        (∀ i, i < m.data.length → (t.core n).pool.read ((s.core n).padAddr false (ls.off + msgOff m + i)) = m.data.getD i 0#8) ∧
        ∀ x, (∀ i, i < m.data.length → x ≠ (s.core n).padAddr false (ls.off + msgOff m + i)) → (t.core n).pool.read x = (s.core n).pool.read x) ∧
      ∀ n, n ∉ landCores m (firstPart s l m) → t.core n = s.core n) ∧
  (∀ m i, (m.opc = 5#8 ∧ msgCore m = 63 ∧ i = .land l m ∨ m.opc = 6#8 ∧ i = .piece l m ∨ m.opc = 7#8 ∧ i = .xchg l m) → atHead s l m m.opc.toNat = true →
    NewRid s l m → firstPart s l m = none → ∃ t, exec i s = .next t ∧ (l, m) ∈ t.pieces ∧ ∀ x, t.mem.read x = s.mem.read x) ∧
  (∀ m f n s2, atHead s l m 6 = true → NewRid s l m → firstPart s l m = some f → 20 < f.data.length → n = 40 * msgDie m + msgCore m → (s.core n).st ≠ .free →
    (s.core n).ctx = msgCtx m → takePiece ((s.popInbox l).modLink l fun k => k.seen m.rid.toNat) n (pieceOf f m) = .taken s2 →
    exec (.switchForward l m) s = .next ((dropFirst s2 l f).answer l m [0#8, 0#8] true).tickFresh ∧
    exec (.piece l m) s = exec (.switchForward l m) s) ∧
  (∀ m f a i0 k z, atHead s l m 7 = true → NewRid s l m → firstPart s l m = some f → a = (⟨msgOff m, m.aux.toNat, msgCore m, msgNat f 0 4, msgNat f 4 1, msgNat f 5 1,
      msgNat f 8 4, BitVec.ofNat 32 (msgNat f 12 4), msgNat f 16 8, false⟩ : Arrival) → i0 < 40 → k = 40 * msgDie m + i0 → k < 160 →
    (∀ i, i < 40 → i ≠ i0 → (s.core (40 * msgDie m + i)).st = .free) → (s.core k).st ≠ .free → (s.core k).ctx = msgCtx m → (s.core k).tidx = a.tidx → z < 4 →
    (∀ y, y < 4 → y ≠ z → (s.slotAt k y).st = .free) → (s.slotAt k z).exchanging = true → (holderOf s k (s.slotAt k z) 0).map (·.1) = some (msgNat f 6 2) →
    (s.slotAt k z).woff + 16384 * (a.k % 2) = a.off → (s.slotAt k z).pchk = a.pchk → (s.slotAt k z).ix 3 = a.epoch →
    (∀ b c q, (s.slotAt k z).planStep = .exch b c q → b = a.b ∧ c = a.c) → (a.k < 2 ∨ a.k ≤ (s.slotAt k z).ix 0 + 1) → (s.core k).xin = [] → (s.slotAt k z).outs = [] →
    (s.core k).bankUse = [] → msgOff m + m.data.length ≤ (s.core k).padSize →
    ∃ u, exec (.xchg l m) s = .next u ∧ (u.core k).xin = [a] ∧ (∀ x, u.mem.read x = s.mem.read x) ∧
      (∀ i, i < m.data.length → (u.core k).pool.read ((s.core k).padAddr false (msgOff m + i)) = m.data.getD i 0#8) ∧
      ∀ x, (∀ i, i < m.data.length → x ≠ (s.core k).padAddr false (msgOff m + i)) → (u.core k).pool.read x = (s.core k).pool.read x) ∧
  (∀ m n t s2, (s.link l).inbox.head?.map (·.1) = some m → m.opc = 8#8 → n = 40 * msgDie m + msgCore m →
    (List.range 4).find? (fun t => ((s.slotAt n t).st == .busy || (s.slotAt n t).st == .halted) && (s.slotAt n t).op == 0x13 && (s.slotAt n t).cid == msgNat m 0 4) = some t →
    (s.slotAt n t).chunkNow = msgNat m 4 4 → (s.core n).ctx = msgCtx m → (s.core n).st ≠ .free →
    sendDirect (s.popInbox l) n t (msgNat m 4 4) (msgNat m 8 4) = some s2 → exec (.need l m) s = .next s2.tickFresh) ∧
  (∀ m k r, (s.link l).inbox.head?.map (·.1) = some m → m.opc = 9#8 → requestOf s l m = some (k, r) → ∃ t, exec (.retry l m) s = .next t ∧
    (t.link l).inbox = (s.link l).inbox.tail ∧ (t.link k).requests = (s.link k).requests.map fun x => if x.rid = r.rid then { x with refusedAt := some s.hubTime } else x) ∧
  (∀ rid r tm, (s.link l).requests.find? (fun r => r.rid == rid) = some r → r.refusedAt = some tm → tm + 2100 ≤ s.hubTime → (s.link l).live = true →
    (s.link l).room r.msg = true → ∃ t, exec (.retryTimer l rid) s = .next t ∧ (∀ q ∈ (t.link l).requests, q.rid = rid → q.refusedAt = none) ∧
      (t.link l).replay.length = (s.link l).replay.length + (chunks56 300 (msgBytes r.msg)).length ∧ ∀ x, t.mem.read x = s.mem.read x) ∧
  (∀ n t peer r pl s2, (s.slotAt n t).st = .busy → (s.slotAt n t).op = 0x13 → (s.slotAt n t).net = true → (s.slotAt n t).reduces = true → peer < (s.slotAt n t).nm →
    pl = (s.slotAt n t).member peer → r ∈ (s.link l).requests → r.owner = .slot n t → r.msg.opc = 6#8 → r.sentAt + 105000 ≤ s.hubTime →
    r.msg.dpkg.toNat = pl % 2 ^ 14 → msgCore r.msg = pl / 2 ^ 16 → msgDie r.msg = natBits pl 14 2 →
    sendDirect { s with links := s.links.map fun k => { k with requests := k.requests.filter fun r => !(r.owner == .slot n t && r.msg.opc.toNat == 6 &&
      decide (r.sentAt + 105000 ≤ s.hubTime) && r.msg.dpkg.toNat == pl % 2 ^ 14 && msgCore r.msg == pl / 2 ^ 16 && msgDie r.msg == natBits pl 14 2) } } n t
      ((s.slotAt n t).ix 0) peer = some s2 →
    exec (.ackTimeout n t peer) s = .next s2.tickFresh)
/-- R62, R97, R98, R270, R282–R284: taking a fault. A resumable one stops the task with its pipes and registers kept; the others end the group.
A bundle that breaks a rule of R62 raises ILLEGAL and takes no effect. -/
def Obligations.FaultEntry : Prop := ∀ (s : State) (n : Nat), n < 160 →
  (∀ e parcel baddr spc c, excResumable e.code = true → RingTakes s n → s.ctx? (s.core n).ctx = some c →
    (takeFault s n e parcel baddr spc).core n = { s.core n with st := .stopped, pc := spc, rcode := [], param := 0, rlines := [] } ∧
    (∀ m, m ≠ n → (takeFault s n e parcel baddr spc).core m = s.core m) ∧
    ∀ x, (takeFault s n e parcel baddr spc).mem.read x =
      (appendRing s (s.core n).ctx c.fqcb n (recordOf s n e 1 parcel baddr spc).bytes).s.mem.read x) ∧
  (∀ e parcel baddr spc, excResumable e.code = false → Tab.get? (takeFault s n e parcel baddr spc).groups (s.core n).gid = none) ∧
  (∀ code, excResumable code = true ↔ code = 3 ∨ code = 8 ∨ code = 11 ∨ code = 13 ∨ code = 17) ∧
  (n = s.turn.val → Calm s →
    (∀ len off cause, fetchBundle s n s.me.pc = .bad [] len off cause → coreTurn s = faulted s ⟨1, cause, 0, 0, 0⟩ off) ∧
    (∀ e, fetchBundle s n s.me.pc = .fault e → s.me.innermost = none → coreTurn s = faulted s e 0))
/-- R4, R62: a step runs the decoded instruction. When the bytes at the program counter are a bundle of one well-formed instruction, and
nothing else is due or enabled, the step is that instruction's `exec`, with the copies delayed by the write ports it takes and the turn passed on. -/
def Obligations.StepRuns : Prop := ∀ (s : State) (i : Instr) (u : State), s.inputs = [] → s.boot = .ready → s.tripped = false →
  (dueEvents s).findSome? (tryEvent s) = none → (freeEvents s).filterMap (tryEvent s) = [] → Calm s → i.cause = none → i.raw.isSome = true →
  fetchBundle s s.turn.val s.me.pc = .ok [(0, slotOf i, i)] (lenOf i) → exec i s = .next u →
  step s = .next (
    let v := if (u.core s.turn.val).ic = s.me.ic then u.modCore s.turn.val fun c => { c with raised := [], stalled := true }
      else delayCopies (u.modCore s.turn.val fun c => { c with stalled := false }) s.turn.val s.me.ic (writeBanks s.me)
    if h : s.turn.val + 1 < 160 then { v with turn := ⟨s.turn.val + 1, h⟩ } else endCycle v)
/-- R58–R69, R110, R144, R175, R202, R206: words written out from their formats decode to what they stand for. -/
def Obligations.DecodeWords : Prop :=
  decode [0xB188#16, 0x28B0#16, 0x0203#16] = .ok (.zmma ⟨8#6, 10#6, 11#6, 0#4, 2#8, 3#8⟩) true 3 ∧
  decode [0xB1C1#16, 0x2C00#16, 0x0000#16] = .ok (.bfset 1#6 11#6 0#4) true 3 ∧
  decode [0x92C0#16, 0x2880#16, 0x0015#16, 0x0000#16] = .ok (.loop 2#4 10#6 21#32) true 4 ∧
  decode [0xC124#16, 0x14A0#16, 0x0000#16, 0x0300#16] = .ok (.slw ⟨4#3, 1#1, 0#2, 10#7, 10#5, 0#24, 12#6, 0#2, 0#2, 0#2⟩) true 4 ∧
  decode [0xA6D0#16, 0x0696#16, 0x070A#16] = .ok (.vtlog ⟨4#4, 0#2, 6#8, 2#2, 1#2, 6#4, 7#8, 5#7, 0#1⟩) true 3 ∧
  decode [0xF000#16] = .bad 1 ∧ decode [0x8FC0#16, 0x0000#16] = .bad 2
/-- R58–R81: decoding what encodes a well-formed instruction gives the instruction back, with every operand and E. -/
def Obligations.DecodeEncode : Prop := ∀ (i : Instr) (e : Bool), i.raw.isSome = true → i.cause = none →
  ∃ ws, encode e i = some ws ∧ decode ws = .ok i e ws.length
/-- R33, R87, R275, R376, R405, R433: what module reset leaves, with every memory in canonical form. -/
def Obligations.ResetState : Prop :=
  State.reset.admq = 0 ∧ State.reset.evq = 0 ∧ (∀ c, State.reset.vectorOf c = 2) ∧ (∀ (n q : Nat) (w : GTag), (State.reset.core n).gtags[q]? = some w → w.valid = false) ∧
  (∀ n x, (State.reset.core n).pool.read x = 0#8) ∧ (∀ l, (State.reset.link l).st = .down) ∧ (∀ n, (State.reset.core n).fmte = fmteReset) ∧ State.reset.memWf
/-- Derived (R9, R157, the model's memories): every step keeps every memory of the package in its canonical form. -/
def Obligations.MemoriesStayCanonical : Prop := ∀ s t : State, s.memWf → step s = .next t → t.memWf
end

