-- ==== Sys2Proof/Laws/State.lean ====
section
/-!
SUPPORT. One lemma per field for the shared updates of State and Core: reading back what an update wrote, and that it wrote nothing else.
-/
namespace Sys2Proof.Machine

/-! ### The counters of the step -/

@[simp] theorem State.tickFresh_cores (s : State) : s.tickFresh.cores = s.cores := rfl
@[simp] theorem State.tickFresh_turn (s : State) : s.tickFresh.turn = s.turn := rfl
@[simp] theorem State.tickFresh_cycles (s : State) : s.tickFresh.cycles = s.cycles := rfl
@[simp] theorem State.tickFresh_mem (s : State) : s.tickFresh.mem = s.mem := rfl
@[simp] theorem State.tickFresh_tags (s : State) : s.tickFresh.tags = s.tags := rfl
@[simp] theorem State.tickFresh_rct (s : State) : s.tickFresh.rct = s.rct := rfl
@[simp] theorem State.tickFresh_memPoison (s : State) : s.tickFresh.memPoison = s.memPoison := rfl
@[simp] theorem State.tickFresh_l2 (s : State) : s.tickFresh.l2 = s.l2 := rfl
@[simp] theorem State.tickFresh_accesses (s : State) : s.tickFresh.accesses = s.accesses := rfl
@[simp] theorem State.tickFresh_devLines (s : State) : s.tickFresh.devLines = s.devLines := rfl
@[simp] theorem State.tickFresh_recq (s : State) : s.tickFresh.recq = s.recq := rfl
@[simp] theorem State.tickFresh_tlb (s : State) : s.tickFresh.tlb = s.tlb := rfl
@[simp] theorem State.tickFresh_ctxs (s : State) : s.tickFresh.ctxs = s.ctxs := rfl
@[simp] theorem State.tickFresh_queues (s : State) : s.tickFresh.queues = s.queues := rfl
@[simp] theorem State.tickFresh_threads (s : State) : s.tickFresh.threads = s.threads := rfl
@[simp] theorem State.tickFresh_groups (s : State) : s.tickFresh.groups = s.groups := rfl
@[simp] theorem State.tickFresh_records (s : State) : s.tickFresh.records = s.records := rfl
@[simp] theorem State.tickFresh_aging (s : State) : s.tickFresh.aging = s.aging := rfl
@[simp] theorem State.tickFresh_retains (s : State) : s.tickFresh.retains = s.retains := rfl
@[simp] theorem State.tickFresh_sheets (s : State) : s.tickFresh.sheets = s.sheets := rfl
@[simp] theorem State.tickFresh_waiters (s : State) : s.tickFresh.waiters = s.waiters := rfl
@[simp] theorem State.tickFresh_windows (s : State) : s.tickFresh.windows = s.windows := rfl
@[simp] theorem State.tickFresh_exports (s : State) : s.tickFresh.exports = s.exports := rfl
@[simp] theorem State.tickFresh_frames (s : State) : s.tickFresh.frames = s.frames := rfl
@[simp] theorem State.tickFresh_snag (s : State) : s.tickFresh.snag = s.snag := rfl
@[simp] theorem State.tickFresh_withheld (s : State) : s.tickFresh.withheld = s.withheld := rfl
@[simp] theorem State.tickFresh_links (s : State) : s.tickFresh.links = s.links := rfl
@[simp] theorem State.tickFresh_routes (s : State) : s.tickFresh.routes = s.routes := rfl
@[simp] theorem State.tickFresh_pieces (s : State) : s.tickFresh.pieces = s.pieces := rfl
@[simp] theorem State.tickFresh_rot (s : State) : s.tickFresh.rot = s.rot := rfl
@[simp] theorem State.tickFresh_cruise (s : State) : s.tickFresh.cruise = s.cruise := rfl
@[simp] theorem State.tickFresh_confirm (s : State) : s.tickFresh.confirm = s.confirm := rfl
@[simp] theorem State.tickFresh_ckpt (s : State) : s.tickFresh.ckpt = s.ckpt := rfl
@[simp] theorem State.tickFresh_ckptRun (s : State) : s.tickFresh.ckptRun = s.ckptRun := rfl
@[simp] theorem State.tickFresh_boot (s : State) : s.tickFresh.boot = s.boot := rfl
@[simp] theorem State.tickFresh_admq (s : State) : s.tickFresh.admq = s.admq := rfl
@[simp] theorem State.tickFresh_evq (s : State) : s.tickFresh.evq = s.evq := rfl
@[simp] theorem State.tickFresh_adminRun (s : State) : s.tickFresh.adminRun = s.adminRun := rfl
@[simp] theorem State.tickFresh_adminCur (s : State) : s.tickFresh.adminCur = s.adminCur := rfl
@[simp] theorem State.tickFresh_adminLines (s : State) : s.tickFresh.adminLines = s.adminLines := rfl
@[simp] theorem State.tickFresh_intmap (s : State) : s.tickFresh.intmap = s.intmap := rfl
@[simp] theorem State.tickFresh_msi (s : State) : s.tickFresh.msi = s.msi := rfl
@[simp] theorem State.tickFresh_bar4 (s : State) : s.tickFresh.bar4 = s.bar4 := rfl
@[simp] theorem State.tickFresh_modPwr (s : State) : s.tickFresh.modPwr = s.modPwr := rfl
@[simp] theorem State.tickFresh_plim (s : State) : s.tickFresh.plim = s.plim := rfl
@[simp] theorem State.tickFresh_dies (s : State) : s.tickFresh.dies = s.dies := rfl
@[simp] theorem State.tickFresh_lowSince (s : State) : s.tickFresh.lowSince = s.lowSince := rfl
@[simp] theorem State.tickFresh_portUp (s : State) : s.tickFresh.portUp = s.portUp := rfl
@[simp] theorem State.tickFresh_tripped (s : State) : s.tickFresh.tripped = s.tripped := rfl
@[simp] theorem State.tickFresh_flashA (s : State) : s.tickFresh.flashA = s.flashA := rfl
@[simp] theorem State.tickFresh_flashB (s : State) : s.tickFresh.flashB = s.flashB := rfl
@[simp] theorem State.tickFresh_floor (s : State) : s.tickFresh.floor = s.floor := rfl
@[simp] theorem State.tickFresh_cfg (s : State) : s.tickFresh.cfg = s.cfg := rfl
@[simp] theorem State.tickFresh_cfgFlash (s : State) : s.tickFresh.cfgFlash = s.cfgFlash := rfl
@[simp] theorem State.tickFresh_runningImg (s : State) : s.tickFresh.runningImg = s.runningImg := rfl
@[simp] theorem State.tickFresh_doe (s : State) : s.tickFresh.doe = s.doe := rfl
@[simp] theorem State.tickFresh_ideKeyed (s : State) : s.tickFresh.ideKeyed = s.ideKeyed := rfl
@[simp] theorem State.tickFresh_doeTranscript (s : State) : s.tickFresh.doeTranscript = s.doeTranscript := rfl
@[simp] theorem State.tickFresh_hostData (s : State) : s.tickFresh.hostData = s.hostData := rfl
@[simp] theorem State.tickFresh_hubTime (s : State) : s.tickFresh.hubTime = s.hubTime := rfl
@[simp] theorem State.tickFresh_inputs (s : State) : s.tickFresh.inputs = s.inputs := rfl
@[simp] theorem State.tickFresh_fresh (s : State) : s.tickFresh.fresh = s.fresh + 1 := rfl
@[simp] theorem State.tickFresh_nextId (s : State) : s.tickFresh.nextId = s.nextId := rfl
@[simp] theorem State.tickFresh_core (s : State) (n : Nat) : s.tickFresh.core n = s.core n := rfl

/-! ### Writing a core -/

@[simp] theorem State.setCore_turn (s : State) (n : Nat) (c : Core) : (s.setCore n c).turn = s.turn := rfl
@[simp] theorem State.setCore_cycles (s : State) (n : Nat) (c : Core) : (s.setCore n c).cycles = s.cycles := rfl
@[simp] theorem State.setCore_mem (s : State) (n : Nat) (c : Core) : (s.setCore n c).mem = s.mem := rfl
@[simp] theorem State.setCore_tags (s : State) (n : Nat) (c : Core) : (s.setCore n c).tags = s.tags := rfl
@[simp] theorem State.setCore_rct (s : State) (n : Nat) (c : Core) : (s.setCore n c).rct = s.rct := rfl
@[simp] theorem State.setCore_memPoison (s : State) (n : Nat) (c : Core) : (s.setCore n c).memPoison = s.memPoison := rfl
@[simp] theorem State.setCore_l2 (s : State) (n : Nat) (c : Core) : (s.setCore n c).l2 = s.l2 := rfl
@[simp] theorem State.setCore_accesses (s : State) (n : Nat) (c : Core) : (s.setCore n c).accesses = s.accesses := rfl
@[simp] theorem State.setCore_devLines (s : State) (n : Nat) (c : Core) : (s.setCore n c).devLines = s.devLines := rfl
@[simp] theorem State.setCore_recq (s : State) (n : Nat) (c : Core) : (s.setCore n c).recq = s.recq := rfl
@[simp] theorem State.setCore_tlb (s : State) (n : Nat) (c : Core) : (s.setCore n c).tlb = s.tlb := rfl
@[simp] theorem State.setCore_ctxs (s : State) (n : Nat) (c : Core) : (s.setCore n c).ctxs = s.ctxs := rfl
@[simp] theorem State.setCore_queues (s : State) (n : Nat) (c : Core) : (s.setCore n c).queues = s.queues := rfl
@[simp] theorem State.setCore_threads (s : State) (n : Nat) (c : Core) : (s.setCore n c).threads = s.threads := rfl
@[simp] theorem State.setCore_groups (s : State) (n : Nat) (c : Core) : (s.setCore n c).groups = s.groups := rfl
@[simp] theorem State.setCore_records (s : State) (n : Nat) (c : Core) : (s.setCore n c).records = s.records := rfl
@[simp] theorem State.setCore_aging (s : State) (n : Nat) (c : Core) : (s.setCore n c).aging = s.aging := rfl
@[simp] theorem State.setCore_retains (s : State) (n : Nat) (c : Core) : (s.setCore n c).retains = s.retains := rfl
@[simp] theorem State.setCore_sheets (s : State) (n : Nat) (c : Core) : (s.setCore n c).sheets = s.sheets := rfl
@[simp] theorem State.setCore_waiters (s : State) (n : Nat) (c : Core) : (s.setCore n c).waiters = s.waiters := rfl
@[simp] theorem State.setCore_windows (s : State) (n : Nat) (c : Core) : (s.setCore n c).windows = s.windows := rfl
@[simp] theorem State.setCore_exports (s : State) (n : Nat) (c : Core) : (s.setCore n c).exports = s.exports := rfl
@[simp] theorem State.setCore_frames (s : State) (n : Nat) (c : Core) : (s.setCore n c).frames = s.frames := rfl
@[simp] theorem State.setCore_snag (s : State) (n : Nat) (c : Core) : (s.setCore n c).snag = s.snag := rfl
@[simp] theorem State.setCore_withheld (s : State) (n : Nat) (c : Core) : (s.setCore n c).withheld = s.withheld := rfl
@[simp] theorem State.setCore_links (s : State) (n : Nat) (c : Core) : (s.setCore n c).links = s.links := rfl
@[simp] theorem State.setCore_routes (s : State) (n : Nat) (c : Core) : (s.setCore n c).routes = s.routes := rfl
@[simp] theorem State.setCore_pieces (s : State) (n : Nat) (c : Core) : (s.setCore n c).pieces = s.pieces := rfl
@[simp] theorem State.setCore_rot (s : State) (n : Nat) (c : Core) : (s.setCore n c).rot = s.rot := rfl
@[simp] theorem State.setCore_cruise (s : State) (n : Nat) (c : Core) : (s.setCore n c).cruise = s.cruise := rfl
@[simp] theorem State.setCore_confirm (s : State) (n : Nat) (c : Core) : (s.setCore n c).confirm = s.confirm := rfl
@[simp] theorem State.setCore_ckpt (s : State) (n : Nat) (c : Core) : (s.setCore n c).ckpt = s.ckpt := rfl
@[simp] theorem State.setCore_ckptRun (s : State) (n : Nat) (c : Core) : (s.setCore n c).ckptRun = s.ckptRun := rfl
@[simp] theorem State.setCore_boot (s : State) (n : Nat) (c : Core) : (s.setCore n c).boot = s.boot := rfl
@[simp] theorem State.setCore_admq (s : State) (n : Nat) (c : Core) : (s.setCore n c).admq = s.admq := rfl
@[simp] theorem State.setCore_evq (s : State) (n : Nat) (c : Core) : (s.setCore n c).evq = s.evq := rfl
@[simp] theorem State.setCore_adminRun (s : State) (n : Nat) (c : Core) : (s.setCore n c).adminRun = s.adminRun := rfl
@[simp] theorem State.setCore_adminCur (s : State) (n : Nat) (c : Core) : (s.setCore n c).adminCur = s.adminCur := rfl
@[simp] theorem State.setCore_adminLines (s : State) (n : Nat) (c : Core) : (s.setCore n c).adminLines = s.adminLines := rfl
@[simp] theorem State.setCore_intmap (s : State) (n : Nat) (c : Core) : (s.setCore n c).intmap = s.intmap := rfl
@[simp] theorem State.setCore_msi (s : State) (n : Nat) (c : Core) : (s.setCore n c).msi = s.msi := rfl
@[simp] theorem State.setCore_bar4 (s : State) (n : Nat) (c : Core) : (s.setCore n c).bar4 = s.bar4 := rfl
@[simp] theorem State.setCore_modPwr (s : State) (n : Nat) (c : Core) : (s.setCore n c).modPwr = s.modPwr := rfl
@[simp] theorem State.setCore_plim (s : State) (n : Nat) (c : Core) : (s.setCore n c).plim = s.plim := rfl
@[simp] theorem State.setCore_dies (s : State) (n : Nat) (c : Core) : (s.setCore n c).dies = s.dies := rfl
@[simp] theorem State.setCore_lowSince (s : State) (n : Nat) (c : Core) : (s.setCore n c).lowSince = s.lowSince := rfl
@[simp] theorem State.setCore_portUp (s : State) (n : Nat) (c : Core) : (s.setCore n c).portUp = s.portUp := rfl
@[simp] theorem State.setCore_tripped (s : State) (n : Nat) (c : Core) : (s.setCore n c).tripped = s.tripped := rfl
@[simp] theorem State.setCore_flashA (s : State) (n : Nat) (c : Core) : (s.setCore n c).flashA = s.flashA := rfl
@[simp] theorem State.setCore_flashB (s : State) (n : Nat) (c : Core) : (s.setCore n c).flashB = s.flashB := rfl
@[simp] theorem State.setCore_floor (s : State) (n : Nat) (c : Core) : (s.setCore n c).floor = s.floor := rfl
@[simp] theorem State.setCore_cfg (s : State) (n : Nat) (c : Core) : (s.setCore n c).cfg = s.cfg := rfl
@[simp] theorem State.setCore_cfgFlash (s : State) (n : Nat) (c : Core) : (s.setCore n c).cfgFlash = s.cfgFlash := rfl
@[simp] theorem State.setCore_runningImg (s : State) (n : Nat) (c : Core) : (s.setCore n c).runningImg = s.runningImg := rfl
@[simp] theorem State.setCore_doe (s : State) (n : Nat) (c : Core) : (s.setCore n c).doe = s.doe := rfl
@[simp] theorem State.setCore_ideKeyed (s : State) (n : Nat) (c : Core) : (s.setCore n c).ideKeyed = s.ideKeyed := rfl
@[simp] theorem State.setCore_doeTranscript (s : State) (n : Nat) (c : Core) : (s.setCore n c).doeTranscript = s.doeTranscript := rfl
@[simp] theorem State.setCore_hostData (s : State) (n : Nat) (c : Core) : (s.setCore n c).hostData = s.hostData := rfl
@[simp] theorem State.setCore_hubTime (s : State) (n : Nat) (c : Core) : (s.setCore n c).hubTime = s.hubTime := rfl
@[simp] theorem State.setCore_inputs (s : State) (n : Nat) (c : Core) : (s.setCore n c).inputs = s.inputs := rfl
@[simp] theorem State.setCore_fresh (s : State) (n : Nat) (c : Core) : (s.setCore n c).fresh = s.fresh := rfl
@[simp] theorem State.setCore_nextId (s : State) (n : Nat) (c : Core) : (s.setCore n c).nextId = s.nextId := rfl
theorem State.core_setCore (s : State) (n m : Nat) (c : Core) :
    (s.setCore n c).core m = if n = m ∧ n < 160 then c else s.core m := by
  simp only [State.core, State.setCore, Vector.getElem?_setIfInBounds]
  by_cases h : n = m
  · subst h
    by_cases hn : n < 160 <;> simp [hn]
  · simp [h]
theorem State.core_setCore_self (s : State) (n : Nat) (c : Core) (h : n < 160) : (s.setCore n c).core n = c := by
  simp [State.core_setCore, h]
theorem State.core_setCore_ne (s : State) (n m : Nat) (c : Core) (h : n ≠ m) : (s.setCore n c).core m = s.core m := by
  simp [State.core_setCore, h]
@[simp] theorem State.core_turn_setCore (s : State) (c : Core) : (s.setCore s.turn.val c).core s.turn.val = c :=
  State.core_setCore_self s _ c s.turn.isLt
theorem State.setCore_setCore (s : State) (n : Nat) (c d : Core) : (s.setCore n c).setCore n d = s.setCore n d := by
  simp only [State.setCore]
  congr 1
  ext i hi
  simp only [Vector.getElem_setIfInBounds]
  split <;> rfl
theorem State.modCore_eq (s : State) (n : Nat) (f : Core → Core) : s.modCore n f = s.setCore n (f (s.core n)) := rfl

/-! ### Counting a cycle -/

@[simp] theorem State.countCycle_cores (s : State) (n : Nat) (b : Bool) : (s.countCycle n b).cores = s.cores := rfl
@[simp] theorem State.countCycle_turn (s : State) (n : Nat) (b : Bool) : (s.countCycle n b).turn = s.turn := rfl
@[simp] theorem State.countCycle_cycles (s : State) (n : Nat) (b : Bool) : (s.countCycle n b).cycles = s.cycles := rfl
@[simp] theorem State.countCycle_mem (s : State) (n : Nat) (b : Bool) : (s.countCycle n b).mem = s.mem := rfl
@[simp] theorem State.countCycle_tags (s : State) (n : Nat) (b : Bool) : (s.countCycle n b).tags = s.tags := rfl
@[simp] theorem State.countCycle_rct (s : State) (n : Nat) (b : Bool) : (s.countCycle n b).rct = s.rct := rfl
@[simp] theorem State.countCycle_memPoison (s : State) (n : Nat) (b : Bool) : (s.countCycle n b).memPoison = s.memPoison := rfl
@[simp] theorem State.countCycle_l2 (s : State) (n : Nat) (b : Bool) : (s.countCycle n b).l2 = s.l2 := rfl
@[simp] theorem State.countCycle_accesses (s : State) (n : Nat) (b : Bool) : (s.countCycle n b).accesses = s.accesses := rfl
@[simp] theorem State.countCycle_devLines (s : State) (n : Nat) (b : Bool) : (s.countCycle n b).devLines = s.devLines := rfl
@[simp] theorem State.countCycle_recq (s : State) (n : Nat) (b : Bool) : (s.countCycle n b).recq = s.recq := rfl
@[simp] theorem State.countCycle_tlb (s : State) (n : Nat) (b : Bool) : (s.countCycle n b).tlb = s.tlb := rfl
@[simp] theorem State.countCycle_ctxs (s : State) (n : Nat) (b : Bool) : (s.countCycle n b).ctxs = s.ctxs := rfl
@[simp] theorem State.countCycle_queues (s : State) (n : Nat) (b : Bool) : (s.countCycle n b).queues = s.queues := rfl
@[simp] theorem State.countCycle_threads (s : State) (n : Nat) (b : Bool) : (s.countCycle n b).threads = s.threads := rfl
@[simp] theorem State.countCycle_groups (s : State) (n : Nat) (b : Bool) : (s.countCycle n b).groups = s.groups := rfl
@[simp] theorem State.countCycle_records (s : State) (n : Nat) (b : Bool) : (s.countCycle n b).records = s.records := rfl
@[simp] theorem State.countCycle_aging (s : State) (n : Nat) (b : Bool) : (s.countCycle n b).aging = s.aging := rfl
@[simp] theorem State.countCycle_retains (s : State) (n : Nat) (b : Bool) : (s.countCycle n b).retains = s.retains := rfl
@[simp] theorem State.countCycle_waiters (s : State) (n : Nat) (b : Bool) : (s.countCycle n b).waiters = s.waiters := rfl
@[simp] theorem State.countCycle_windows (s : State) (n : Nat) (b : Bool) : (s.countCycle n b).windows = s.windows := rfl
@[simp] theorem State.countCycle_exports (s : State) (n : Nat) (b : Bool) : (s.countCycle n b).exports = s.exports := rfl
@[simp] theorem State.countCycle_frames (s : State) (n : Nat) (b : Bool) : (s.countCycle n b).frames = s.frames := rfl
@[simp] theorem State.countCycle_snag (s : State) (n : Nat) (b : Bool) : (s.countCycle n b).snag = s.snag := rfl
@[simp] theorem State.countCycle_withheld (s : State) (n : Nat) (b : Bool) : (s.countCycle n b).withheld = s.withheld := rfl
@[simp] theorem State.countCycle_links (s : State) (n : Nat) (b : Bool) : (s.countCycle n b).links = s.links := rfl
@[simp] theorem State.countCycle_routes (s : State) (n : Nat) (b : Bool) : (s.countCycle n b).routes = s.routes := rfl
@[simp] theorem State.countCycle_pieces (s : State) (n : Nat) (b : Bool) : (s.countCycle n b).pieces = s.pieces := rfl
@[simp] theorem State.countCycle_rot (s : State) (n : Nat) (b : Bool) : (s.countCycle n b).rot = s.rot := rfl
@[simp] theorem State.countCycle_cruise (s : State) (n : Nat) (b : Bool) : (s.countCycle n b).cruise = s.cruise := rfl
@[simp] theorem State.countCycle_confirm (s : State) (n : Nat) (b : Bool) : (s.countCycle n b).confirm = s.confirm := rfl
@[simp] theorem State.countCycle_ckpt (s : State) (n : Nat) (b : Bool) : (s.countCycle n b).ckpt = s.ckpt := rfl
@[simp] theorem State.countCycle_ckptRun (s : State) (n : Nat) (b : Bool) : (s.countCycle n b).ckptRun = s.ckptRun := rfl
@[simp] theorem State.countCycle_boot (s : State) (n : Nat) (b : Bool) : (s.countCycle n b).boot = s.boot := rfl
@[simp] theorem State.countCycle_admq (s : State) (n : Nat) (b : Bool) : (s.countCycle n b).admq = s.admq := rfl
@[simp] theorem State.countCycle_evq (s : State) (n : Nat) (b : Bool) : (s.countCycle n b).evq = s.evq := rfl
@[simp] theorem State.countCycle_adminRun (s : State) (n : Nat) (b : Bool) : (s.countCycle n b).adminRun = s.adminRun := rfl
@[simp] theorem State.countCycle_adminCur (s : State) (n : Nat) (b : Bool) : (s.countCycle n b).adminCur = s.adminCur := rfl
@[simp] theorem State.countCycle_adminLines (s : State) (n : Nat) (b : Bool) : (s.countCycle n b).adminLines = s.adminLines := rfl
@[simp] theorem State.countCycle_intmap (s : State) (n : Nat) (b : Bool) : (s.countCycle n b).intmap = s.intmap := rfl
@[simp] theorem State.countCycle_msi (s : State) (n : Nat) (b : Bool) : (s.countCycle n b).msi = s.msi := rfl
@[simp] theorem State.countCycle_bar4 (s : State) (n : Nat) (b : Bool) : (s.countCycle n b).bar4 = s.bar4 := rfl
@[simp] theorem State.countCycle_modPwr (s : State) (n : Nat) (b : Bool) : (s.countCycle n b).modPwr = s.modPwr := rfl
@[simp] theorem State.countCycle_plim (s : State) (n : Nat) (b : Bool) : (s.countCycle n b).plim = s.plim := rfl
@[simp] theorem State.countCycle_dies (s : State) (n : Nat) (b : Bool) : (s.countCycle n b).dies = s.dies := rfl
@[simp] theorem State.countCycle_lowSince (s : State) (n : Nat) (b : Bool) : (s.countCycle n b).lowSince = s.lowSince := rfl
@[simp] theorem State.countCycle_portUp (s : State) (n : Nat) (b : Bool) : (s.countCycle n b).portUp = s.portUp := rfl
@[simp] theorem State.countCycle_tripped (s : State) (n : Nat) (b : Bool) : (s.countCycle n b).tripped = s.tripped := rfl
@[simp] theorem State.countCycle_flashA (s : State) (n : Nat) (b : Bool) : (s.countCycle n b).flashA = s.flashA := rfl
@[simp] theorem State.countCycle_flashB (s : State) (n : Nat) (b : Bool) : (s.countCycle n b).flashB = s.flashB := rfl
@[simp] theorem State.countCycle_floor (s : State) (n : Nat) (b : Bool) : (s.countCycle n b).floor = s.floor := rfl
@[simp] theorem State.countCycle_cfg (s : State) (n : Nat) (b : Bool) : (s.countCycle n b).cfg = s.cfg := rfl
@[simp] theorem State.countCycle_cfgFlash (s : State) (n : Nat) (b : Bool) : (s.countCycle n b).cfgFlash = s.cfgFlash := rfl
@[simp] theorem State.countCycle_runningImg (s : State) (n : Nat) (b : Bool) : (s.countCycle n b).runningImg = s.runningImg := rfl
@[simp] theorem State.countCycle_doe (s : State) (n : Nat) (b : Bool) : (s.countCycle n b).doe = s.doe := rfl
@[simp] theorem State.countCycle_ideKeyed (s : State) (n : Nat) (b : Bool) : (s.countCycle n b).ideKeyed = s.ideKeyed := rfl
@[simp] theorem State.countCycle_doeTranscript (s : State) (n : Nat) (b : Bool) : (s.countCycle n b).doeTranscript = s.doeTranscript := rfl
@[simp] theorem State.countCycle_hostData (s : State) (n : Nat) (b : Bool) : (s.countCycle n b).hostData = s.hostData := rfl
@[simp] theorem State.countCycle_hubTime (s : State) (n : Nat) (b : Bool) : (s.countCycle n b).hubTime = s.hubTime := rfl
@[simp] theorem State.countCycle_inputs (s : State) (n : Nat) (b : Bool) : (s.countCycle n b).inputs = s.inputs := rfl
@[simp] theorem State.countCycle_fresh (s : State) (n : Nat) (b : Bool) : (s.countCycle n b).fresh = s.fresh := rfl
@[simp] theorem State.countCycle_nextId (s : State) (n : Nat) (b : Bool) : (s.countCycle n b).nextId = s.nextId := rfl
@[simp] theorem State.countCycle_core (s : State) (n m : Nat) (b : Bool) : (s.countCycle n b).core m = s.core m := rfl

/-! ### Writing a register -/

@[simp] theorem Core.wx_st (c : Core) (r : BitVec 6) (v : Word) : (c.wx r v).st = c.st := by unfold Core.wx; split <;> rfl
@[simp] theorem Core.wx_ctx (c : Core) (r : BitVec 6) (v : Word) : (c.wx r v).ctx = c.ctx := by unfold Core.wx; split <;> rfl
@[simp] theorem Core.wx_gid (c : Core) (r : BitVec 6) (v : Word) : (c.wx r v).gid = c.gid := by unfold Core.wx; split <;> rfl
@[simp] theorem Core.wx_tidx (c : Core) (r : BitVec 6) (v : Word) : (c.wx r v).tidx = c.tidx := by unfold Core.wx; split <;> rfl
@[simp] theorem Core.wx_k (c : Core) (r : BitVec 6) (v : Word) : (c.wx r v).k = c.k := by unfold Core.wx; split <;> rfl
@[simp] theorem Core.wx_bs (c : Core) (r : BitVec 6) (v : Word) : (c.wx r v).bs = c.bs := by unfold Core.wx; split <;> rfl
@[simp] theorem Core.wx_pc (c : Core) (r : BitVec 6) (v : Word) : (c.wx r v).pc = c.pc := by unfold Core.wx; split <;> rfl
@[simp] theorem Core.wx_part (c : Core) (r : BitVec 6) (v : Word) : (c.wx r v).part = c.part := by unfold Core.wx; split <;> rfl
@[simp] theorem Core.wx_fpc (c : Core) (r : BitVec 6) (v : Word) : (c.wx r v).fpc = c.fpc := by unfold Core.wx; split <;> rfl
@[simp] theorem Core.wx_fmte (c : Core) (r : BitVec 6) (v : Word) : (c.wx r v).fmte = c.fmte := by unfold Core.wx; split <;> rfl
@[simp] theorem Core.wx_blzb (c : Core) (r : BitVec 6) (v : Word) : (c.wx r v).blzb = c.blzb := by unfold Core.wx; split <;> rfl
@[simp] theorem Core.wx_erc (c : Core) (r : BitVec 6) (v : Word) : (c.wx r v).erc = c.erc := by unfold Core.wx; split <;> rfl
@[simp] theorem Core.wx_phase (c : Core) (r : BitVec 6) (v : Word) : (c.wx r v).phase = c.phase := by unfold Core.wx; split <;> rfl
@[simp] theorem Core.wx_sysTile (c : Core) (r : BitVec 6) (v : Word) : (c.wx r v).sysTile = c.sysTile := by unfold Core.wx; split <;> rfl
@[simp] theorem Core.wx_group (c : Core) (r : BitVec 6) (v : Word) : (c.wx r v).group = c.group := by unfold Core.wx; split <;> rfl
@[simp] theorem Core.wx_cwin (c : Core) (r : BitVec 6) (v : Word) : (c.wx r v).cwin = c.cwin := by unfold Core.wx; split <;> rfl
@[simp] theorem Core.wx_ltb (c : Core) (r : BitVec 6) (v : Word) : (c.wx r v).ltb = c.ltb := by unfold Core.wx; split <;> rfl
@[simp] theorem Core.wx_ltn (c : Core) (r : BitVec 6) (v : Word) : (c.wx r v).ltn = c.ltn := by unfold Core.wx; split <;> rfl
@[simp] theorem Core.wx_xs (c : Core) (r : BitVec 6) (v : Word) : (c.wx r v).xs = c.xs := by unfold Core.wx; split <;> rfl
@[simp] theorem Core.wx_xa (c : Core) (r : BitVec 6) (v : Word) : (c.wx r v).xa = c.xa := by unfold Core.wx; split <;> rfl
@[simp] theorem Core.wx_raised (c : Core) (r : BitVec 6) (v : Word) : (c.wx r v).raised = c.raised := by unfold Core.wx; split <;> rfl
@[simp] theorem Core.wx_lc (c : Core) (r : BitVec 6) (v : Word) : (c.wx r v).lc = c.lc := by unfold Core.wx; split <;> rfl
@[simp] theorem Core.wx_loops (c : Core) (r : BitVec 6) (v : Word) : (c.wx r v).loops = c.loops := by unfold Core.wx; split <;> rfl
@[simp] theorem Core.wx_depth (c : Core) (r : BitVec 6) (v : Word) : (c.wx r v).depth = c.depth := by unfold Core.wx; split <;> rfl
@[simp] theorem Core.wx_blaze (c : Core) (r : BitVec 6) (v : Word) : (c.wx r v).blaze = c.blaze := by unfold Core.wx; split <;> rfl
@[simp] theorem Core.wx_ic (c : Core) (r : BitVec 6) (v : Word) : (c.wx r v).ic = c.ic := by unfold Core.wx; split <;> rfl
@[simp] theorem Core.wx_flights (c : Core) (r : BitVec 6) (v : Word) : (c.wx r v).flights = c.flights := by unfold Core.wx; split <;> rfl
@[simp] theorem Core.wx_wports (c : Core) (r : BitVec 6) (v : Word) : (c.wx r v).wports = c.wports := by unfold Core.wx; split <;> rfl
@[simp] theorem Core.wx_bankUse (c : Core) (r : BitVec 6) (v : Word) : (c.wx r v).bankUse = c.bankUse := by unfold Core.wx; split <;> rfl
@[simp] theorem Core.wx_arrayEnd (c : Core) (r : BitVec 6) (v : Word) : (c.wx r v).arrayEnd = c.arrayEnd := by unfold Core.wx; split <;> rfl
@[simp] theorem Core.wx_empty (c : Core) (r : BitVec 6) (v : Word) : (c.wx r v).empty = c.empty := by unfold Core.wx; split <;> rfl
@[simp] theorem Core.wx_waits (c : Core) (r : BitVec 6) (v : Word) : (c.wx r v).waits = c.waits := by unfold Core.wx; split <;> rfl
@[simp] theorem Core.wx_trapDue (c : Core) (r : BitVec 6) (v : Word) : (c.wx r v).trapDue = c.trapDue := by unfold Core.wx; split <;> rfl
@[simp] theorem Core.wx_lastB (c : Core) (r : BitVec 6) (v : Word) : (c.wx r v).lastB = c.lastB := by unfold Core.wx; split <;> rfl
@[simp] theorem Core.wx_drainAt (c : Core) (r : BitVec 6) (v : Word) : (c.wx r v).drainAt = c.drainAt := by unfold Core.wx; split <;> rfl
@[simp] theorem Core.wx_noReq (c : Core) (r : BitVec 6) (v : Word) : (c.wx r v).noReq = c.noReq := by unfold Core.wx; split <;> rfl
@[simp] theorem Core.wx_held (c : Core) (r : BitVec 6) (v : Word) : (c.wx r v).held = c.held := by unfold Core.wx; split <;> rfl
@[simp] theorem Core.wx_arrived (c : Core) (r : BitVec 6) (v : Word) : (c.wx r v).arrived = c.arrived := by unfold Core.wx; split <;> rfl
@[simp] theorem Core.wx_arriveDie (c : Core) (r : BitVec 6) (v : Word) : (c.wx r v).arriveDie = c.arriveDie := by unfold Core.wx; split <;> rfl
@[simp] theorem Core.wx_releaseAt (c : Core) (r : BitVec 6) (v : Word) : (c.wx r v).releaseAt = c.releaseAt := by unfold Core.wx; split <;> rfl
@[simp] theorem Core.wx_pool (c : Core) (r : BitVec 6) (v : Word) : (c.wx r v).pool = c.pool := by unfold Core.wx; split <;> rfl
@[simp] theorem Core.wx_gtags (c : Core) (r : BitVec 6) (v : Word) : (c.wx r v).gtags = c.gtags := by unfold Core.wx; split <;> rfl
@[simp] theorem Core.wx_viewL (c : Core) (r : BitVec 6) (v : Word) : (c.wx r v).viewL = c.viewL := by unfold Core.wx; split <;> rfl
@[simp] theorem Core.wx_viewS (c : Core) (r : BitVec 6) (v : Word) : (c.wx r v).viewS = c.viewS := by unfold Core.wx; split <;> rfl
@[simp] theorem Core.wx_fills (c : Core) (r : BitVec 6) (v : Word) : (c.wx r v).fills = c.fills := by unfold Core.wx; split <;> rfl
@[simp] theorem Core.wx_regFills (c : Core) (r : BitVec 6) (v : Word) : (c.wx r v).regFills = c.regFills := by unfold Core.wx; split <;> rfl
@[simp] theorem Core.wx_pend (c : Core) (r : BitVec 6) (v : Word) : (c.wx r v).pend = c.pend := by unfold Core.wx; split <;> rfl
@[simp] theorem Core.wx_carve (c : Core) (r : BitVec 6) (v : Word) : (c.wx r v).carve = c.carve := by unfold Core.wx; split <;> rfl
@[simp] theorem Core.wx_tiles (c : Core) (r : BitVec 6) (v : Word) : (c.wx r v).tiles = c.tiles := by unfold Core.wx; split <;> rfl
@[simp] theorem Core.wx_jobs (c : Core) (r : BitVec 6) (v : Word) : (c.wx r v).jobs = c.jobs := by unfold Core.wx; split <;> rfl
@[simp] theorem Core.wx_remotes (c : Core) (r : BitVec 6) (v : Word) : (c.wx r v).remotes = c.remotes := by unfold Core.wx; split <;> rfl
@[simp] theorem Core.wx_slots (c : Core) (r : BitVec 6) (v : Word) : (c.wx r v).slots = c.slots := by unfold Core.wx; split <;> rfl
@[simp] theorem Core.wx_copies (c : Core) (r : BitVec 6) (v : Word) : (c.wx r v).copies = c.copies := by unfold Core.wx; split <;> rfl
@[simp] theorem Core.wx_tables (c : Core) (r : BitVec 6) (v : Word) : (c.wx r v).tables = c.tables := by unfold Core.wx; split <;> rfl
@[simp] theorem Core.wx_lands (c : Core) (r : BitVec 6) (v : Word) : (c.wx r v).lands = c.lands := by unfold Core.wx; split <;> rfl
@[simp] theorem Core.wx_param (c : Core) (r : BitVec 6) (v : Word) : (c.wx r v).param = c.param := by unfold Core.wx; split <;> rfl
@[simp] theorem Core.wx_rlines (c : Core) (r : BitVec 6) (v : Word) : (c.wx r v).rlines = c.rlines := by unfold Core.wx; split <;> rfl
@[simp] theorem Core.wx_xin (c : Core) (r : BitVec 6) (v : Word) : (c.wx r v).xin = c.xin := by unfold Core.wx; split <;> rfl
@[simp] theorem Core.wx_descs (c : Core) (r : BitVec 6) (v : Word) : (c.wx r v).descs = c.descs := by unfold Core.wx; split <;> rfl
@[simp] theorem Core.wx_descNew (c : Core) (r : BitVec 6) (v : Word) : (c.wx r v).descNew = c.descNew := by unfold Core.wx; split <;> rfl
@[simp] theorem Core.wx_consts (c : Core) (r : BitVec 6) (v : Word) : (c.wx r v).consts = c.consts := by unfold Core.wx; split <;> rfl
@[simp] theorem Core.wx_phases (c : Core) (r : BitVec 6) (v : Word) : (c.wx r v).phases = c.phases := by unfold Core.wx; split <;> rfl
@[simp] theorem Core.wx_cache (c : Core) (r : BitVec 6) (v : Word) : (c.wx r v).cache = c.cache := by unfold Core.wx; split <;> rfl
@[simp] theorem Core.wx_pin (c : Core) (r : BitVec 6) (v : Word) : (c.wx r v).pin = c.pin := by unfold Core.wx; split <;> rfl
@[simp] theorem Core.wx_rcode (c : Core) (r : BitVec 6) (v : Word) : (c.wx r v).rcode = c.rcode := by unfold Core.wx; split <;> rfl
@[simp] theorem Core.wx_stalled (c : Core) (r : BitVec 6) (v : Word) : (c.wx r v).stalled = c.stalled := by unfold Core.wx; split <;> rfl
@[simp] theorem Core.wx_acq (c : Core) (r : BitVec 6) (v : Word) : (c.wx r v).acq = c.acq := by unfold Core.wx; split <;> rfl
@[simp] theorem Core.wx_tagLog (c : Core) (r : BitVec 6) (v : Word) : (c.wx r v).tagLog = c.tagLog := by unfold Core.wx; split <;> rfl
@[simp] theorem Core.wx_owed (c : Core) (r : BitVec 6) (v : Word) : (c.wx r v).owed = c.owed := by unfold Core.wx; split <;> rfl
@[simp] theorem Core.wx_timingDue (c : Core) (r : BitVec 6) (v : Word) : (c.wx r v).timingDue = c.timingDue := by unfold Core.wx; split <;> rfl
@[simp] theorem Core.wx_poison (c : Core) (r : BitVec 6) (v : Word) : (c.wx r v).poison = c.poison := by unfold Core.wx; split <;> rfl
@[simp] theorem Core.wx_xpoison (c : Core) (r : BitVec 6) (v : Word) : (c.wx r v).xpoison = c.xpoison := by unfold Core.wx; split <;> rfl
@[simp] theorem Core.wx_kpoison (c : Core) (r : BitVec 6) (v : Word) : (c.wx r v).kpoison = c.kpoison := by unfold Core.wx; split <;> rfl
@[simp] theorem Core.wx_refa (c : Core) (r : BitVec 6) (v : Word) : (c.wx r v).refa = c.refa := by unfold Core.wx; split <;> rfl
@[simp] theorem Core.wx_parity (c : Core) (r : BitVec 6) (v : Word) : (c.wx r v).parity = c.parity := by unfold Core.wx; split <;> rfl
@[simp] theorem Core.wk_st (c : Core) (r : BitVec 3) (v : Mask) : (c.wk r v).st = c.st := rfl
@[simp] theorem Core.wk_ctx (c : Core) (r : BitVec 3) (v : Mask) : (c.wk r v).ctx = c.ctx := rfl
@[simp] theorem Core.wk_gid (c : Core) (r : BitVec 3) (v : Mask) : (c.wk r v).gid = c.gid := rfl
@[simp] theorem Core.wk_tidx (c : Core) (r : BitVec 3) (v : Mask) : (c.wk r v).tidx = c.tidx := rfl
@[simp] theorem Core.wk_x (c : Core) (r : BitVec 3) (v : Mask) : (c.wk r v).x = c.x := rfl
@[simp] theorem Core.wk_bs (c : Core) (r : BitVec 3) (v : Mask) : (c.wk r v).bs = c.bs := rfl
@[simp] theorem Core.wk_pc (c : Core) (r : BitVec 3) (v : Mask) : (c.wk r v).pc = c.pc := rfl
@[simp] theorem Core.wk_part (c : Core) (r : BitVec 3) (v : Mask) : (c.wk r v).part = c.part := rfl
@[simp] theorem Core.wk_fpc (c : Core) (r : BitVec 3) (v : Mask) : (c.wk r v).fpc = c.fpc := rfl
@[simp] theorem Core.wk_fmte (c : Core) (r : BitVec 3) (v : Mask) : (c.wk r v).fmte = c.fmte := rfl
@[simp] theorem Core.wk_blzb (c : Core) (r : BitVec 3) (v : Mask) : (c.wk r v).blzb = c.blzb := rfl
@[simp] theorem Core.wk_erc (c : Core) (r : BitVec 3) (v : Mask) : (c.wk r v).erc = c.erc := rfl
@[simp] theorem Core.wk_phase (c : Core) (r : BitVec 3) (v : Mask) : (c.wk r v).phase = c.phase := rfl
@[simp] theorem Core.wk_sysTile (c : Core) (r : BitVec 3) (v : Mask) : (c.wk r v).sysTile = c.sysTile := rfl
@[simp] theorem Core.wk_group (c : Core) (r : BitVec 3) (v : Mask) : (c.wk r v).group = c.group := rfl
@[simp] theorem Core.wk_cwin (c : Core) (r : BitVec 3) (v : Mask) : (c.wk r v).cwin = c.cwin := rfl
@[simp] theorem Core.wk_ltb (c : Core) (r : BitVec 3) (v : Mask) : (c.wk r v).ltb = c.ltb := rfl
@[simp] theorem Core.wk_ltn (c : Core) (r : BitVec 3) (v : Mask) : (c.wk r v).ltn = c.ltn := rfl
@[simp] theorem Core.wk_xs (c : Core) (r : BitVec 3) (v : Mask) : (c.wk r v).xs = c.xs := rfl
@[simp] theorem Core.wk_xa (c : Core) (r : BitVec 3) (v : Mask) : (c.wk r v).xa = c.xa := rfl
@[simp] theorem Core.wk_raised (c : Core) (r : BitVec 3) (v : Mask) : (c.wk r v).raised = c.raised := rfl
@[simp] theorem Core.wk_lc (c : Core) (r : BitVec 3) (v : Mask) : (c.wk r v).lc = c.lc := rfl
@[simp] theorem Core.wk_loops (c : Core) (r : BitVec 3) (v : Mask) : (c.wk r v).loops = c.loops := rfl
@[simp] theorem Core.wk_depth (c : Core) (r : BitVec 3) (v : Mask) : (c.wk r v).depth = c.depth := rfl
@[simp] theorem Core.wk_blaze (c : Core) (r : BitVec 3) (v : Mask) : (c.wk r v).blaze = c.blaze := rfl
@[simp] theorem Core.wk_ic (c : Core) (r : BitVec 3) (v : Mask) : (c.wk r v).ic = c.ic := rfl
@[simp] theorem Core.wk_flights (c : Core) (r : BitVec 3) (v : Mask) : (c.wk r v).flights = c.flights := rfl
@[simp] theorem Core.wk_wports (c : Core) (r : BitVec 3) (v : Mask) : (c.wk r v).wports = c.wports := rfl
@[simp] theorem Core.wk_bankUse (c : Core) (r : BitVec 3) (v : Mask) : (c.wk r v).bankUse = c.bankUse := rfl
@[simp] theorem Core.wk_arrayEnd (c : Core) (r : BitVec 3) (v : Mask) : (c.wk r v).arrayEnd = c.arrayEnd := rfl
@[simp] theorem Core.wk_empty (c : Core) (r : BitVec 3) (v : Mask) : (c.wk r v).empty = c.empty := rfl
@[simp] theorem Core.wk_waits (c : Core) (r : BitVec 3) (v : Mask) : (c.wk r v).waits = c.waits := rfl
@[simp] theorem Core.wk_trapDue (c : Core) (r : BitVec 3) (v : Mask) : (c.wk r v).trapDue = c.trapDue := rfl
@[simp] theorem Core.wk_lastB (c : Core) (r : BitVec 3) (v : Mask) : (c.wk r v).lastB = c.lastB := rfl
@[simp] theorem Core.wk_drainAt (c : Core) (r : BitVec 3) (v : Mask) : (c.wk r v).drainAt = c.drainAt := rfl
@[simp] theorem Core.wk_noReq (c : Core) (r : BitVec 3) (v : Mask) : (c.wk r v).noReq = c.noReq := rfl
@[simp] theorem Core.wk_held (c : Core) (r : BitVec 3) (v : Mask) : (c.wk r v).held = c.held := rfl
@[simp] theorem Core.wk_arrived (c : Core) (r : BitVec 3) (v : Mask) : (c.wk r v).arrived = c.arrived := rfl
@[simp] theorem Core.wk_arriveDie (c : Core) (r : BitVec 3) (v : Mask) : (c.wk r v).arriveDie = c.arriveDie := rfl
@[simp] theorem Core.wk_releaseAt (c : Core) (r : BitVec 3) (v : Mask) : (c.wk r v).releaseAt = c.releaseAt := rfl
@[simp] theorem Core.wk_pool (c : Core) (r : BitVec 3) (v : Mask) : (c.wk r v).pool = c.pool := rfl
@[simp] theorem Core.wk_gtags (c : Core) (r : BitVec 3) (v : Mask) : (c.wk r v).gtags = c.gtags := rfl
@[simp] theorem Core.wk_viewL (c : Core) (r : BitVec 3) (v : Mask) : (c.wk r v).viewL = c.viewL := rfl
@[simp] theorem Core.wk_viewS (c : Core) (r : BitVec 3) (v : Mask) : (c.wk r v).viewS = c.viewS := rfl
@[simp] theorem Core.wk_fills (c : Core) (r : BitVec 3) (v : Mask) : (c.wk r v).fills = c.fills := rfl
@[simp] theorem Core.wk_regFills (c : Core) (r : BitVec 3) (v : Mask) : (c.wk r v).regFills = c.regFills := rfl
@[simp] theorem Core.wk_pend (c : Core) (r : BitVec 3) (v : Mask) : (c.wk r v).pend = c.pend := rfl
@[simp] theorem Core.wk_carve (c : Core) (r : BitVec 3) (v : Mask) : (c.wk r v).carve = c.carve := rfl
@[simp] theorem Core.wk_tiles (c : Core) (r : BitVec 3) (v : Mask) : (c.wk r v).tiles = c.tiles := rfl
@[simp] theorem Core.wk_jobs (c : Core) (r : BitVec 3) (v : Mask) : (c.wk r v).jobs = c.jobs := rfl
@[simp] theorem Core.wk_remotes (c : Core) (r : BitVec 3) (v : Mask) : (c.wk r v).remotes = c.remotes := rfl
@[simp] theorem Core.wk_slots (c : Core) (r : BitVec 3) (v : Mask) : (c.wk r v).slots = c.slots := rfl
@[simp] theorem Core.wk_copies (c : Core) (r : BitVec 3) (v : Mask) : (c.wk r v).copies = c.copies := rfl
@[simp] theorem Core.wk_tables (c : Core) (r : BitVec 3) (v : Mask) : (c.wk r v).tables = c.tables := rfl
@[simp] theorem Core.wk_lands (c : Core) (r : BitVec 3) (v : Mask) : (c.wk r v).lands = c.lands := rfl
@[simp] theorem Core.wk_param (c : Core) (r : BitVec 3) (v : Mask) : (c.wk r v).param = c.param := rfl
@[simp] theorem Core.wk_rlines (c : Core) (r : BitVec 3) (v : Mask) : (c.wk r v).rlines = c.rlines := rfl
@[simp] theorem Core.wk_xin (c : Core) (r : BitVec 3) (v : Mask) : (c.wk r v).xin = c.xin := rfl
@[simp] theorem Core.wk_descs (c : Core) (r : BitVec 3) (v : Mask) : (c.wk r v).descs = c.descs := rfl
@[simp] theorem Core.wk_descNew (c : Core) (r : BitVec 3) (v : Mask) : (c.wk r v).descNew = c.descNew := rfl
@[simp] theorem Core.wk_consts (c : Core) (r : BitVec 3) (v : Mask) : (c.wk r v).consts = c.consts := rfl
@[simp] theorem Core.wk_phases (c : Core) (r : BitVec 3) (v : Mask) : (c.wk r v).phases = c.phases := rfl
@[simp] theorem Core.wk_cache (c : Core) (r : BitVec 3) (v : Mask) : (c.wk r v).cache = c.cache := rfl
@[simp] theorem Core.wk_pin (c : Core) (r : BitVec 3) (v : Mask) : (c.wk r v).pin = c.pin := rfl
@[simp] theorem Core.wk_rcode (c : Core) (r : BitVec 3) (v : Mask) : (c.wk r v).rcode = c.rcode := rfl
@[simp] theorem Core.wk_stalled (c : Core) (r : BitVec 3) (v : Mask) : (c.wk r v).stalled = c.stalled := rfl
@[simp] theorem Core.wk_acq (c : Core) (r : BitVec 3) (v : Mask) : (c.wk r v).acq = c.acq := rfl
@[simp] theorem Core.wk_tagLog (c : Core) (r : BitVec 3) (v : Mask) : (c.wk r v).tagLog = c.tagLog := rfl
@[simp] theorem Core.wk_owed (c : Core) (r : BitVec 3) (v : Mask) : (c.wk r v).owed = c.owed := rfl
@[simp] theorem Core.wk_timingDue (c : Core) (r : BitVec 3) (v : Mask) : (c.wk r v).timingDue = c.timingDue := rfl
@[simp] theorem Core.wk_poison (c : Core) (r : BitVec 3) (v : Mask) : (c.wk r v).poison = c.poison := rfl
@[simp] theorem Core.wk_xpoison (c : Core) (r : BitVec 3) (v : Mask) : (c.wk r v).xpoison = c.xpoison := rfl
@[simp] theorem Core.wk_kpoison (c : Core) (r : BitVec 3) (v : Mask) : (c.wk r v).kpoison = c.kpoison := rfl
@[simp] theorem Core.wk_refa (c : Core) (r : BitVec 3) (v : Mask) : (c.wk r v).refa = c.refa := rfl
@[simp] theorem Core.wk_parity (c : Core) (r : BitVec 3) (v : Mask) : (c.wk r v).parity = c.parity := rfl
@[simp] theorem Core.wv_st (c : Core) (r : BitVec 7) (v : VReg) (lanes : Mask) : (c.wv r v lanes).st = c.st := rfl
@[simp] theorem Core.wv_ctx (c : Core) (r : BitVec 7) (v : VReg) (lanes : Mask) : (c.wv r v lanes).ctx = c.ctx := rfl
@[simp] theorem Core.wv_gid (c : Core) (r : BitVec 7) (v : VReg) (lanes : Mask) : (c.wv r v lanes).gid = c.gid := rfl
@[simp] theorem Core.wv_tidx (c : Core) (r : BitVec 7) (v : VReg) (lanes : Mask) : (c.wv r v lanes).tidx = c.tidx := rfl
@[simp] theorem Core.wv_x (c : Core) (r : BitVec 7) (v : VReg) (lanes : Mask) : (c.wv r v lanes).x = c.x := rfl
@[simp] theorem Core.wv_k (c : Core) (r : BitVec 7) (v : VReg) (lanes : Mask) : (c.wv r v lanes).k = c.k := rfl
@[simp] theorem Core.wv_bs (c : Core) (r : BitVec 7) (v : VReg) (lanes : Mask) : (c.wv r v lanes).bs = c.bs := rfl
@[simp] theorem Core.wv_pc (c : Core) (r : BitVec 7) (v : VReg) (lanes : Mask) : (c.wv r v lanes).pc = c.pc := rfl
@[simp] theorem Core.wv_part (c : Core) (r : BitVec 7) (v : VReg) (lanes : Mask) : (c.wv r v lanes).part = c.part := rfl
@[simp] theorem Core.wv_fpc (c : Core) (r : BitVec 7) (v : VReg) (lanes : Mask) : (c.wv r v lanes).fpc = c.fpc := rfl
@[simp] theorem Core.wv_fmte (c : Core) (r : BitVec 7) (v : VReg) (lanes : Mask) : (c.wv r v lanes).fmte = c.fmte := rfl
@[simp] theorem Core.wv_blzb (c : Core) (r : BitVec 7) (v : VReg) (lanes : Mask) : (c.wv r v lanes).blzb = c.blzb := rfl
@[simp] theorem Core.wv_erc (c : Core) (r : BitVec 7) (v : VReg) (lanes : Mask) : (c.wv r v lanes).erc = c.erc := rfl
@[simp] theorem Core.wv_phase (c : Core) (r : BitVec 7) (v : VReg) (lanes : Mask) : (c.wv r v lanes).phase = c.phase := rfl
@[simp] theorem Core.wv_sysTile (c : Core) (r : BitVec 7) (v : VReg) (lanes : Mask) : (c.wv r v lanes).sysTile = c.sysTile := rfl
@[simp] theorem Core.wv_group (c : Core) (r : BitVec 7) (v : VReg) (lanes : Mask) : (c.wv r v lanes).group = c.group := rfl
@[simp] theorem Core.wv_cwin (c : Core) (r : BitVec 7) (v : VReg) (lanes : Mask) : (c.wv r v lanes).cwin = c.cwin := rfl
@[simp] theorem Core.wv_ltb (c : Core) (r : BitVec 7) (v : VReg) (lanes : Mask) : (c.wv r v lanes).ltb = c.ltb := rfl
@[simp] theorem Core.wv_ltn (c : Core) (r : BitVec 7) (v : VReg) (lanes : Mask) : (c.wv r v lanes).ltn = c.ltn := rfl
@[simp] theorem Core.wv_xs (c : Core) (r : BitVec 7) (v : VReg) (lanes : Mask) : (c.wv r v lanes).xs = c.xs := rfl
@[simp] theorem Core.wv_xa (c : Core) (r : BitVec 7) (v : VReg) (lanes : Mask) : (c.wv r v lanes).xa = c.xa := rfl
@[simp] theorem Core.wv_raised (c : Core) (r : BitVec 7) (v : VReg) (lanes : Mask) : (c.wv r v lanes).raised = c.raised := rfl
@[simp] theorem Core.wv_lc (c : Core) (r : BitVec 7) (v : VReg) (lanes : Mask) : (c.wv r v lanes).lc = c.lc := rfl
@[simp] theorem Core.wv_loops (c : Core) (r : BitVec 7) (v : VReg) (lanes : Mask) : (c.wv r v lanes).loops = c.loops := rfl
@[simp] theorem Core.wv_depth (c : Core) (r : BitVec 7) (v : VReg) (lanes : Mask) : (c.wv r v lanes).depth = c.depth := rfl
@[simp] theorem Core.wv_blaze (c : Core) (r : BitVec 7) (v : VReg) (lanes : Mask) : (c.wv r v lanes).blaze = c.blaze := rfl
@[simp] theorem Core.wv_ic (c : Core) (r : BitVec 7) (v : VReg) (lanes : Mask) : (c.wv r v lanes).ic = c.ic := rfl
@[simp] theorem Core.wv_flights (c : Core) (r : BitVec 7) (v : VReg) (lanes : Mask) : (c.wv r v lanes).flights = c.flights := rfl
@[simp] theorem Core.wv_wports (c : Core) (r : BitVec 7) (v : VReg) (lanes : Mask) : (c.wv r v lanes).wports = c.wports := rfl
@[simp] theorem Core.wv_bankUse (c : Core) (r : BitVec 7) (v : VReg) (lanes : Mask) : (c.wv r v lanes).bankUse = c.bankUse := rfl
@[simp] theorem Core.wv_arrayEnd (c : Core) (r : BitVec 7) (v : VReg) (lanes : Mask) : (c.wv r v lanes).arrayEnd = c.arrayEnd := rfl
@[simp] theorem Core.wv_empty (c : Core) (r : BitVec 7) (v : VReg) (lanes : Mask) : (c.wv r v lanes).empty = c.empty := rfl
@[simp] theorem Core.wv_waits (c : Core) (r : BitVec 7) (v : VReg) (lanes : Mask) : (c.wv r v lanes).waits = c.waits := rfl
@[simp] theorem Core.wv_trapDue (c : Core) (r : BitVec 7) (v : VReg) (lanes : Mask) : (c.wv r v lanes).trapDue = c.trapDue := rfl
@[simp] theorem Core.wv_lastB (c : Core) (r : BitVec 7) (v : VReg) (lanes : Mask) : (c.wv r v lanes).lastB = c.lastB := rfl
@[simp] theorem Core.wv_drainAt (c : Core) (r : BitVec 7) (v : VReg) (lanes : Mask) : (c.wv r v lanes).drainAt = c.drainAt := rfl
@[simp] theorem Core.wv_noReq (c : Core) (r : BitVec 7) (v : VReg) (lanes : Mask) : (c.wv r v lanes).noReq = c.noReq := rfl
@[simp] theorem Core.wv_held (c : Core) (r : BitVec 7) (v : VReg) (lanes : Mask) : (c.wv r v lanes).held = c.held := rfl
@[simp] theorem Core.wv_arrived (c : Core) (r : BitVec 7) (v : VReg) (lanes : Mask) : (c.wv r v lanes).arrived = c.arrived := rfl
@[simp] theorem Core.wv_arriveDie (c : Core) (r : BitVec 7) (v : VReg) (lanes : Mask) : (c.wv r v lanes).arriveDie = c.arriveDie := rfl
@[simp] theorem Core.wv_releaseAt (c : Core) (r : BitVec 7) (v : VReg) (lanes : Mask) : (c.wv r v lanes).releaseAt = c.releaseAt := rfl
@[simp] theorem Core.wv_gtags (c : Core) (r : BitVec 7) (v : VReg) (lanes : Mask) : (c.wv r v lanes).gtags = c.gtags := rfl
@[simp] theorem Core.wv_viewL (c : Core) (r : BitVec 7) (v : VReg) (lanes : Mask) : (c.wv r v lanes).viewL = c.viewL := rfl
@[simp] theorem Core.wv_viewS (c : Core) (r : BitVec 7) (v : VReg) (lanes : Mask) : (c.wv r v lanes).viewS = c.viewS := rfl
@[simp] theorem Core.wv_fills (c : Core) (r : BitVec 7) (v : VReg) (lanes : Mask) : (c.wv r v lanes).fills = c.fills := rfl
@[simp] theorem Core.wv_regFills (c : Core) (r : BitVec 7) (v : VReg) (lanes : Mask) : (c.wv r v lanes).regFills = c.regFills := rfl
@[simp] theorem Core.wv_pend (c : Core) (r : BitVec 7) (v : VReg) (lanes : Mask) : (c.wv r v lanes).pend = c.pend := rfl
@[simp] theorem Core.wv_carve (c : Core) (r : BitVec 7) (v : VReg) (lanes : Mask) : (c.wv r v lanes).carve = c.carve := rfl
@[simp] theorem Core.wv_tiles (c : Core) (r : BitVec 7) (v : VReg) (lanes : Mask) : (c.wv r v lanes).tiles = c.tiles := rfl
@[simp] theorem Core.wv_jobs (c : Core) (r : BitVec 7) (v : VReg) (lanes : Mask) : (c.wv r v lanes).jobs = c.jobs := rfl
@[simp] theorem Core.wv_remotes (c : Core) (r : BitVec 7) (v : VReg) (lanes : Mask) : (c.wv r v lanes).remotes = c.remotes := rfl
@[simp] theorem Core.wv_slots (c : Core) (r : BitVec 7) (v : VReg) (lanes : Mask) : (c.wv r v lanes).slots = c.slots := rfl
@[simp] theorem Core.wv_copies (c : Core) (r : BitVec 7) (v : VReg) (lanes : Mask) : (c.wv r v lanes).copies = c.copies := rfl
@[simp] theorem Core.wv_tables (c : Core) (r : BitVec 7) (v : VReg) (lanes : Mask) : (c.wv r v lanes).tables = c.tables := rfl
@[simp] theorem Core.wv_lands (c : Core) (r : BitVec 7) (v : VReg) (lanes : Mask) : (c.wv r v lanes).lands = c.lands := rfl
@[simp] theorem Core.wv_param (c : Core) (r : BitVec 7) (v : VReg) (lanes : Mask) : (c.wv r v lanes).param = c.param := rfl
@[simp] theorem Core.wv_rlines (c : Core) (r : BitVec 7) (v : VReg) (lanes : Mask) : (c.wv r v lanes).rlines = c.rlines := rfl
@[simp] theorem Core.wv_xin (c : Core) (r : BitVec 7) (v : VReg) (lanes : Mask) : (c.wv r v lanes).xin = c.xin := rfl
@[simp] theorem Core.wv_descs (c : Core) (r : BitVec 7) (v : VReg) (lanes : Mask) : (c.wv r v lanes).descs = c.descs := rfl
@[simp] theorem Core.wv_descNew (c : Core) (r : BitVec 7) (v : VReg) (lanes : Mask) : (c.wv r v lanes).descNew = c.descNew := rfl
@[simp] theorem Core.wv_consts (c : Core) (r : BitVec 7) (v : VReg) (lanes : Mask) : (c.wv r v lanes).consts = c.consts := rfl
@[simp] theorem Core.wv_phases (c : Core) (r : BitVec 7) (v : VReg) (lanes : Mask) : (c.wv r v lanes).phases = c.phases := rfl
@[simp] theorem Core.wv_cache (c : Core) (r : BitVec 7) (v : VReg) (lanes : Mask) : (c.wv r v lanes).cache = c.cache := rfl
@[simp] theorem Core.wv_pin (c : Core) (r : BitVec 7) (v : VReg) (lanes : Mask) : (c.wv r v lanes).pin = c.pin := rfl
@[simp] theorem Core.wv_rcode (c : Core) (r : BitVec 7) (v : VReg) (lanes : Mask) : (c.wv r v lanes).rcode = c.rcode := rfl
@[simp] theorem Core.wv_stalled (c : Core) (r : BitVec 7) (v : VReg) (lanes : Mask) : (c.wv r v lanes).stalled = c.stalled := rfl
@[simp] theorem Core.wv_acq (c : Core) (r : BitVec 7) (v : VReg) (lanes : Mask) : (c.wv r v lanes).acq = c.acq := rfl
@[simp] theorem Core.wv_tagLog (c : Core) (r : BitVec 7) (v : VReg) (lanes : Mask) : (c.wv r v lanes).tagLog = c.tagLog := rfl
@[simp] theorem Core.wv_owed (c : Core) (r : BitVec 7) (v : VReg) (lanes : Mask) : (c.wv r v lanes).owed = c.owed := rfl
@[simp] theorem Core.wv_timingDue (c : Core) (r : BitVec 7) (v : VReg) (lanes : Mask) : (c.wv r v lanes).timingDue = c.timingDue := rfl
@[simp] theorem Core.wv_xpoison (c : Core) (r : BitVec 7) (v : VReg) (lanes : Mask) : (c.wv r v lanes).xpoison = c.xpoison := rfl
@[simp] theorem Core.wv_kpoison (c : Core) (r : BitVec 7) (v : VReg) (lanes : Mask) : (c.wv r v lanes).kpoison = c.kpoison := rfl
@[simp] theorem Core.wv_refa (c : Core) (r : BitVec 7) (v : VReg) (lanes : Mask) : (c.wv r v lanes).refa = c.refa := rfl
@[simp] theorem Core.wv_parity (c : Core) (r : BitVec 7) (v : VReg) (lanes : Mask) : (c.wv r v lanes).parity = c.parity := rfl
@[simp] theorem Core.rx_zero (c : Core) : c.rx 0#6 = 0#32 := rfl
@[simp] theorem Core.wx_zero (c : Core) (v : Word) : c.wx 0#6 v = c := rfl
/-- A register reads as what was written to it (R88). -/
theorem Core.rx_wx_self (c : Core) (r : BitVec 6) (v : Word) (h : r ≠ 0#6) : (c.wx r v).rx r = v := by
  simp [Core.rx, Core.wx, h]
/-- A write to one register leaves the others alone. -/
theorem Core.rx_wx_ne (c : Core) (r q : BitVec 6) (v : Word) (h : q ≠ r) : (c.wx r v).rx q = c.rx q := by
  have h' : r.toNat ≠ q.toNat := fun e => h (BitVec.eq_of_toNat_eq e.symm)
  by_cases hr : r = 0#6
  · simp [Core.wx, hr]
  · by_cases hq : q = 0#6
    · simp [Core.rx, hq]
    · simp [Core.rx, Core.wx, hr, hq, h']
theorem Core.rk_wk_self (c : Core) (r : BitVec 3) (v : Mask) : (c.wk r v).rk r = v := by
  simp [Core.rk, Core.wk]
theorem Core.rk_wk_ne (c : Core) (r q : BitVec 3) (v : Mask) (h : q ≠ r) : (c.wk r v).rk q = c.rk q := by
  have h' : r.toNat ≠ q.toNat := fun e => h (BitVec.eq_of_toNat_eq e.symm)
  simp [Core.rk, Core.wk, h']

end Sys2Proof.Machine
end

