-- ==== Sys2Proof/Laws/Landing.lean ====
section
/-!
SUPPORT. What lands in later cycles: what a landing can change, and the core some cycles after an issue whose results land together.
-/
namespace Sys2Proof.Machine

theorem Core.raise_frame (c : Core) (sl : Slot) (fl : Flags) (b : DWord) :
    c.raise sl fl b = { c with xs := (c.raise sl fl b).xs, xa := (c.raise sl fl b).xa, raised := (c.raise sl fl b).raised } := by
  unfold Core.raise
  dsimp only
  split <;> rfl
@[simp] theorem Core.raise_none (c : Core) (sl : Slot) (b : DWord) : c.raise sl 0#6 b = c := by simp [Core.raise]

/-- What a landing leaves alone: everything but results and what they are recorded in. -/
def Core.unlanded (c d : Core) : Prop :=
  { d with x := c.x, k := c.k, bs := c.bs, fpc := c.fpc, fmte := c.fmte, erc := c.erc, phase := c.phase, xs := c.xs, xa := c.xa, raised := c.raised,
           pool := c.pool, fills := c.fills, tiles := c.tiles, descs := c.descs, poison := c.poison, xpoison := c.xpoison, kpoison := c.kpoison } = c

theorem Core.landOne_unlanded (fr : Nat) (c : Core) (f : Flight) : c.unlanded (c.landOne fr f).1 := by
  unfold Core.landOne
  dsimp only
  rw [Core.raise_frame]
  split
  all_goals simp only [Core.unlanded, Core.wx, Core.wv, Core.wk, Core.mergeK, Core.setPool, Core.writeTile, Core.markTile, Core.writePool, Core.writeBits, Core.writeSys, Core.writeXs]
  all_goals (try rfl)
  all_goals (repeat' split)
  all_goals (try rfl)

@[simp] theorem Core.landOne_more (fr : Nat) (c : Core) (f : Flight) : (c.landOne fr f).2 = [] := by
  unfold Core.landOne
  dsimp only
  split <;> rfl
theorem Core.landOne_flights (fr : Nat) (c : Core) (f : Flight) : (c.landOne fr f).1.flights = c.flights := by
  have h := congrArg Core.flights (Core.landOne_unlanded fr c f)
  exact h
theorem Core.landAll_cons (fr : Nat) (c : Core) (f : Flight) (fs : List Flight) : Core.landAll fr c (f :: fs) = Core.landAll fr (c.landOne fr f).1 fs := by
  simp [Core.landAll]
theorem Core.landAll_unlanded (fr : Nat) (fs : List Flight) : ∀ c : Core, c.unlanded (Core.landAll fr c fs) := by
  induction fs with
  | nil => intro c; rfl
  | cons f fs ih =>
    intro c
    rw [Core.landAll_cons]
    have h1 := Core.landOne_unlanded fr c f
    have h2 := ih (c.landOne fr f).1
    unfold Core.unlanded at *
    generalize Core.landAll fr (c.landOne fr f).1 fs = e at *
    generalize (c.landOne fr f).1 = d at *
    rw [← h1]
    rw [← h2]

/-- A landing that is no write to a system register does not look at the bookkeeping of the issue. -/
theorem Core.landOne_rest (fr : Nat) (c : Core) (f : Flight) (h : f.what.rank ≠ 0) : (c.landOne fr f).1.rest = (c.rest.landOne fr f).1.rest := by
  have hr : (c.raise f.slot f.flags f.baddr).rest = (c.rest.raise f.slot f.flags f.baddr).rest := by
    unfold Core.raise
    dsimp only [Core.rest]
    split <;> rfl
  have hx := congrArg Core.xs hr
  have ha := congrArg Core.xa hr
  simp only [Core.rest] at hx ha
  unfold Core.landOne
  dsimp only
  rw [Core.raise_frame c, Core.raise_frame c.rest]
  cases hw : f.what
  case sys => simp [hw, Landing.rank] at h
  all_goals simp only [Core.wx, Core.wv, Core.wk, Core.mergeK, Core.rv, Core.rk, Core.setPool, Core.writeTile, Core.markTile, Core.writePool, Core.writeBits, Core.rest, Core.tileBase, Core.tileInfo]
  all_goals (try simp only [hx, ha])
  all_goals (repeat' split)
  all_goals (try simp_all)
  all_goals rfl
theorem Core.rest_rest (c : Core) : c.rest.rest = c.rest := rfl
theorem Core.landAll_rest (fr : Nat) (fs : List Flight) (hf : ∀ f ∈ fs, f.what.rank ≠ 0) :
    ∀ c d : Core, c.rest = d.rest → (Core.landAll fr c fs).rest = (Core.landAll fr d fs).rest := by
  induction fs with
  | nil => intro c d h; exact h
  | cons f fs ih =>
    intro c d h
    rw [Core.landAll_cons, Core.landAll_cons]
    refine ih (fun g hg => hf g (List.mem_cons_of_mem _ hg)) _ _ ?_
    rw [Core.landOne_rest fr c f (hf f List.mem_cons_self), Core.landOne_rest fr d f (hf f List.mem_cons_self), h]

theorem dueFlights_all (n : Nat) (fs : List Flight) (h : ∀ f ∈ fs, f.cyc ≤ n ∧ f.what.rank = 1) : dueFlights n fs = (fs, []) := by
  have h1 : fs.filter (fun f => decide (f.cyc ≤ n) && f.what.rank != 2) = fs := by
    rw [List.filter_eq_self]; intro f hf; simp [(h f hf).1, (h f hf).2]
  have h2 : fs.filter (fun f => decide (n < f.cyc) || f.what.rank == 2) = [] := by
    rw [List.filter_eq_nil_iff]; intro f hf; simp [Nat.not_lt.2 (h f hf).1, (h f hf).2]
  simp [dueFlights, h1, h2]
theorem dueFlights_none (n : Nat) (fs : List Flight) (h : ∀ f ∈ fs, n < f.cyc) : dueFlights n fs = ([], fs) := by
  have h1 : fs.filter (fun f => decide (f.cyc ≤ n) && f.what.rank != 2) = [] := by
    rw [List.filter_eq_nil_iff]; intro f hf; simp [Nat.not_le.2 (h f hf)]
  have h2 : fs.filter (fun f => decide (n < f.cyc) || f.what.rank == 2) = fs := by
    rw [List.filter_eq_self]; intro f hf; simp [h f hf]
  simp [dueFlights, h1, h2]

/-- A cycle in which nothing is due. -/
theorem Core.advance_none (fr : Nat) (c : Core) (h : ∀ f ∈ c.flights, c.ic + 1 < f.cyc) :
    (c.advance fr).rest = c.rest ∧ (c.advance fr).flights = c.flights ∧ (c.advance fr).ic = c.ic + 1 := by
  simp [Core.advance, dueFlights_none _ _ h, Core.landAll, Core.rest]
/-- A cycle in which all that is in flight lands. -/
theorem Core.advance_all (fr : Nat) (c : Core) (h : ∀ f ∈ c.flights, f.cyc ≤ c.ic + 1 ∧ f.what.rank = 1) :
    (c.advance fr).rest = (Core.landAll fr c c.flights).rest ∧ (c.advance fr).flights = [] ∧ (c.advance fr).ic = c.ic + 1 := by
  have h0 : c.flights.filter (fun f => f.what.rank == 0) = [] := by
    rw [List.filter_eq_nil_iff]; intro f hf; simp [(h f hf).2]
  have h1 : c.flights.filter (fun f => f.what.rank != 0) = c.flights := by
    rw [List.filter_eq_self]; intro f hf; simp [(h f hf).2]
  simp only [Core.advance, dueFlights_all _ _ h, h0, h1, Core.landAll]
  refine ⟨Core.landAll_rest fr _ (fun f hf => by simp [(h f hf).2]) _ _ rfl, ?_, ?_⟩
  · exact congrArg Core.flights (Core.landAll_unlanded fr c.flights _)
  · exact congrArg Core.ic (Core.landAll_unlanded fr c.flights _)

/-- With nothing in flight a core stays as it is. -/
theorem later_idle (fr k : Nat) (c : Core) (h : c.flights = []) : (later fr k c).rest = c.rest := by
  induction k generalizing c with
  | zero => rfl
  | succ k ih =>
    have ha := Core.advance_none fr c (by simp [h])
    rw [later, ih _ (by rw [ha.2.1, h]), ha.1]
/-- Results in flight that land together: before their cycle nothing has changed, from it on they have landed. -/
theorem later_lands (fr k l : Nat) (c : Core) (h : ∀ f ∈ c.flights, f.cyc = l ∧ f.what.rank = 1) (hl : c.ic < l) :
    (later fr k c).rest = if l ≤ c.ic + k then (Core.landAll fr c c.flights).rest else c.rest := by
  induction k generalizing c with
  | zero => rw [if_neg (by omega)]; rfl
  | succ k ih =>
    rw [later]
    by_cases hd : l = c.ic + 1
    · have ha := Core.advance_all fr c (fun f hf => ⟨by rw [(h f hf).1]; omega, (h f hf).2⟩)
      rw [later_idle _ _ _ ha.2.1, ha.1, if_pos (by omega)]
    · have ha := Core.advance_none fr c (fun f hf => by rw [(h f hf).1]; omega)
      rw [ih (c.advance fr) (by rw [ha.2.1]; exact h) (by rw [ha.2.2]; omega), ha.2.1, ha.2.2]
      have hr := Core.landAll_rest fr c.flights (fun f hf => by simp [(h f hf).2]) (c.advance fr) c ha.1
      rw [ha.1, hr]
      congr 1
      simp only [eq_iff_iff]
      omega

theorem Core.landOne_fresh (fr fr' : Nat) (c : Core) (f : Flight) (h : c.fills = []) : c.landOne fr f = c.landOne fr' f := by
  unfold Core.landOne
  dsimp only
  rw [Core.raise_frame]
  split <;> simp [Core.writePool, Core.writeBits, h]
theorem Core.landOne_fills (fr : Nat) (c : Core) (f : Flight) (h : c.fills = []) : (c.landOne fr f).1.fills = [] := by
  unfold Core.landOne
  dsimp only
  rw [Core.raise_frame]
  split
  all_goals simp only [Core.wx, Core.wv, Core.wk, Core.mergeK, Core.setPool, Core.writeTile, Core.markTile, Core.writePool, Core.writeBits, Core.writeSys, Core.writeXs]
  all_goals (repeat' split)
  all_goals simp_all
/-- With no transfer under way no free choice is made by a landing. -/
theorem Core.landAll_fresh (fr fr' : Nat) (fs : List Flight) : ∀ c : Core, c.fills = [] → Core.landAll fr c fs = Core.landAll fr' c fs := by
  induction fs with
  | nil => intro c _; rfl
  | cons f fs ih =>
    intro c h
    rw [Core.landAll_cons, Core.landAll_cons, Core.landOne_fresh fr fr' c f h]
    exact ih _ (Core.landOne_fills _ _ _ h)

theorem insertFlight_last (f : Flight) (fs : List Flight) (h : ∀ g ∈ fs, g.cyc ≤ f.cyc) : insertFlight f fs = fs ++ [f] := by
  induction fs with
  | nil => rfl
  | cons g gs ih =>
    rw [insertFlight, if_neg (by have := h g List.mem_cons_self; omega), ih fun g' hg => h g' (List.mem_cons_of_mem _ hg)]
    rfl
/-- Results that land together keep their order. -/
theorem insertFlight_all (l : Nat) (fs : List Flight) (h : ∀ f ∈ fs, f.cyc = l) :
    ∀ acc : List Flight, (∀ f ∈ acc, f.cyc = l) → fs.foldl (fun l f => insertFlight f l) acc = acc ++ fs := by
  induction fs with
  | nil => intro acc _; simp
  | cons f fs ih =>
    intro acc ha
    have hf := h f List.mem_cons_self
    rw [List.foldl_cons, insertFlight_last f acc (fun g hg => Nat.le_of_eq (by rw [ha g hg, hf])), ih (fun g hg => h g (List.mem_cons_of_mem _ hg))]
    · simp
    · intro g hg
      rcases List.mem_append.1 hg with hg | hg
      · exact ha g hg
      · rw [List.mem_singleton.1 hg, hf]

end Sys2Proof.Machine
end

