-- ==== Sys2Proof/Laws/Issue.lean ====
section
/-!
SUPPORT. The issue of one instruction on an undisturbed core: what `runSolo` answers, said once.
-/
namespace Sys2Proof.Machine

/-- Where the instruction of an undisturbed issue stands. -/
def soloAt (s : State) (i : Instr) : At := ⟨s.turn.val, (s.core s.turn.val).pc, lenOf i, slotOf i, 0⟩
/-- The plan of a bundle that holds one instruction. -/
def soloPlan (s : State) (i : Instr) (u : Issue) : Plan := planOf s s.turn.val (s.core s.turn.val).pc (lenOf i) [(0, u)]

theorem readArrays_quiet (s : State) (h : (s.core s.turn.val).flights = []) : readArrays s s.turn.val = s := by
  simp [readArrays, h]

theorem beforeIssue_calm (s : State) (h : Calm s) : beforeIssue s s.turn.val = (false, s) := by
  simp [beforeIssue, readArrays_quiet s h.flights, h.owed, h.held, h.empty, runWaits, h.waits, h.trap]

/-- On an undisturbed core an instruction that does not stall meets its faults or takes effect. -/
theorem runSolo_calm (i : Instr) (op : Op) (s : State) (h : Calm s) (hs : (op s (soloAt s i)).stall = false) :
    runSolo i op s = .next (concludeBundle s s.turn.val (s.core s.turn.val).pc (i.cause.map fun c => (0, c))
      (soloPlan s i (op s (soloAt s i)))).tickFresh := by
  have hst : stallsNow (s.core s.turn.val) [op s (soloAt s i)] = false := by
    simp [stallsNow, pendingStall, h.pend, hs]
  have hi : issueBundle s s.turn.val (s.core s.turn.val).pc (lenOf i) [⟨0, slotOf i, op⟩] (i.cause.map fun c => (0, c)) =
      concludeBundle s s.turn.val (s.core s.turn.val).pc (i.cause.map fun c => (0, c)) (soloPlan s i (op s (soloAt s i))) := by
    unfold issueBundle
    rw [h.owed]
    change (if stallsNow (s.core s.turn.val) [op s (soloAt s i)] then _ else _) = _
    rw [hst]
    rfl
  unfold runSolo
  rw [if_neg (by rw [h.running]; exact fun e => e rfl), beforeIssue_calm s h]
  rw [← hi]
  rfl

/-! ### Checks that pass -/

theorem settledAt_of_no_fills (s : State) (n l k : Nat) (h : (s.core n).fills = []) : settledAt s n l k = true := by
  simp [settledAt, h]

theorem earlyExc_calm (s : State) (h : Calm s) (u : Uses) : earlyExc s s.turn.val u = none := by
  have hp : ∀ t, (s.core s.turn.val).regPending t = false := by intro t; simp [Core.regPending, h.regs]
  have hi : ∀ l, (s.core s.turn.val).lineIn l = false := by intro l; simp [Core.lineIn, h.fills]
  have ho : ∀ l, (s.core s.turn.val).lineOut l = false := by intro l; simp [Core.lineOut, h.fills]
  simp [earlyExc, settledAt_of_no_fills _ _ _ _ h.fills, hp, hi, ho, List.find?_eq_none.2]

theorem poisonExc_calm (s : State) (h : Calm s) (u : Issue) : poisonExc (s.core s.turn.val) u = none := by
  simp only [poisonExc, h.clean, h.cleanX, List.contains_nil, List.find?_eq_none.2, Bool.false_eq_true, not_false_eq_true, implies_true]
  rw [List.findSome?_eq_none_iff]
  intro t _
  cases t <;> simp [h.cleanK]

theorem cancelPorts_nil (rs : List (BitVec 6)) : cancelPorts rs [] = [] := by simp [cancelPorts]

/-- What an instruction asks for when its undisturbed bundle passes every check of R99. -/
structure Passes (s : State) (i : Instr) (u : Issue) : Prop where
  stall : u.stall = false
  ill   : u.ill = none
  excs  : u.excs = []
  ports : firstClash [] ((soloPlan s i u).ports.map fun q => (q.1, cancelPorts u.cancels q.2)) = none
  banks : firstBank [] [(0, u.banks)] = none
  view  : viewExc (if u.vjoin then 0#32 else (s.core s.turn.val).viewL) (if u.vjoin then 0#32 else (s.core s.turn.val).viewS) u.uses = none
  blaze : u.isBlaze = false
  drain : (soloPlan s i u).edge.drained = false
  sync  : u.isSync = false

theorem faultsOf_passes (s : State) (i : Instr) (u : Issue) (h : Calm s) (p : Passes s i u) :
    faultsOf s s.turn.val none (soloPlan s i u) = [] := by
  have hit : (soloPlan s i u).items = [(0, u)] := rfl
  have hv := p.view
  unfold faultsOf
  simp only [hit]
  simp [h.timing, h.blaze, p.ill, p.excs, p.blaze, p.drain, p.sync, h.wports, cancelPorts_nil, p.ports, h.banks, p.banks, earlyExc_calm s h,
    poisonExc_calm s h]
  cases hj : u.vjoin <;> simp [hj] at hv ⊢ <;> simp [hv]

/-- An instruction that passes its checks on an undisturbed core takes effect. -/
theorem runSolo_passes (i : Instr) (op : Op) (s : State) (h : Calm s) (hc : i.cause = none) (p : Passes s i (op s (soloAt s i))) :
    runSolo i op s = .next (settleTrap (applyBundle (s.countCycle s.turn.val true) s.turn.val (s.core s.turn.val).pc
      (soloPlan s i (op s (soloAt s i)))) s.turn.val).tickFresh := by
  rw [runSolo_calm i op s h p.stall, hc]
  simp [concludeBundle, faultsOf_passes s i _ h p, pickFault]

/-! ### An instruction that goes on to the next bundle -/

theorem backEdges_quiet (c : Core) (a : DWord) (req : Bool) (k : Nat) (h : c.innermost = none) :
    backEdges c a req k = ⟨c, none, [], false, false, none⟩ := by
  cases k <;> simp [backEdges, h]

/-- The plan of an instruction on an undisturbed core with no loop active. -/
theorem soloPlan_seq (s : State) (i : Instr) (u : Issue) (h : Quiet s) (hs : u.ctl = .seq) :
    soloPlan s i u = ⟨[(0, u)], ⟨s.core s.turn.val, none, [], false, false, none⟩,
      (s.core s.turn.val).pc + BitVec.ofNat 64 (2 * lenOf i), u.flights, [(0, u.wports), (0, [])]⟩ := by
  simp [soloPlan, planOf, ctlOf, hs, backEdges_quiet _ _ _ _ h.loops, h.phases]

/-- The core of an undisturbed bundle of one instruction that goes on to `next`, before its engines start. -/
def Core.issuing (c : Core) (u : Issue) (next : DWord) : Core :=
  { c with
    flights := cancelFlights u.cancels (u.flights.foldl (fun l f => insertFlight f l) [])
    wports := cancelPorts u.cancels u.wports
    bankUse := u.banks
    viewL := u.uses.viewW.foldl (fun m w => if w.1 = false then m ||| w.2 else m) (if u.vjoin then 0#32 else c.viewL)
    viewS := u.uses.viewW.foldl (fun m w => if w.1 = true then m ||| w.2 else m) (if u.vjoin then 0#32 else c.viewS)
    arrayEnd := Nat.max c.arrayEnd u.array
    empty := u.empty
    waits := u.waits
    trapDue := u.trap
    pc := next
    lastB := c.pc
    pin := c.pin.bind fun k => if k.1 ≤ c.pc ∧ c.pc ≤ k.2.1 then some k else none
    held := false
    drainAt := none
    param := 0
    rcode := [] }

theorem issuedCore_seq (s : State) (i : Instr) (u : Issue) (h : Quiet s) (hs : u.ctl = .seq) (hb : u.isBlaze = false) (req : Bool) :
    issuedCore (s.core s.turn.val) (s.core s.turn.val).pc (soloPlan s i u) req =
      (s.core s.turn.val).issuing u ((s.core s.turn.val).pc + BitVec.ofNat 64 (2 * lenOf i)) := by
  simp [issuedCore, soloPlan_seq s i u h hs, Core.issuing, h.flights, h.wports, h.banks, hb]

theorem Core.advance_trapDue (fr : Nat) (c : Core) : (c.advance fr).trapDue = c.trapDue := by
  unfold Core.advance
  dsimp only
  have h1 := fun d fs => congrArg Core.trapDue (Core.landAll_unlanded fr fs d)
  simp only at h1
  rw [h1]
  exact h1 _ _

/-- An instruction that passes its checks on an undisturbed core and goes on to the next bundle: its results are in flight, its engines have
started, and the next cycle has begun. -/
theorem runSolo_seq (i : Instr) (op : Op) (s : State) (h : Quiet s) (hc : i.cause = none) (p : Passes s i (op s (soloAt s i)))
    (hs : (op s (soloAt s i)).ctl = .seq) (he : (op s (soloAt s i)).eff = id) (ht : (op s (soloAt s i)).trap = none) :
    runSolo i op s = .next ((s.countCycle s.turn.val true).setCore s.turn.val
      (((s.core s.turn.val).issuing (op s (soloAt s i)) ((s.core s.turn.val).pc + BitVec.ofNat 64 (2 * lenOf i))).advance s.fresh)).tickFresh := by
  rw [runSolo_passes i op s h.toCalm hc p]
  have hlt : s.turn.val < 160 := s.turn.isLt
  have hit : (soloPlan s i (op s (soloAt s i))).items = [(0, op s (soloAt s i))] := rfl
  unfold applyBundle
  rw [hit]
  simp only [List.map_cons, List.map_nil, List.foldl_cons, List.foldl_nil, he, id_eq, State.countCycle_core, issuedCore_seq s i _ h hs p.blaze,
    State.modCore_eq, State.countCycle_fresh]
  have htr : ((s.core s.turn.val).issuing (op s (soloAt s i)) ((s.core s.turn.val).pc + BitVec.ofNat 64 (2 * lenOf i))).trapDue = none := ht
  generalize (s.core s.turn.val).issuing (op s (soloAt s i)) ((s.core s.turn.val).pc + BitVec.ofNat 64 (2 * lenOf i)) = d at htr ⊢
  rw [State.core_setCore_self _ _ _ hlt, State.setCore_setCore]
  have hcore := State.core_setCore_self (s.countCycle s.turn.val true) s.turn.val (d.advance s.fresh) hlt
  simp only [settleTrap, hcore, Core.advance_trapDue, htr]

/-! ### An instruction whose results land together -/

theorem Core.advance_pc (fr : Nat) (c : Core) : (c.advance fr).pc = c.pc := by
  unfold Core.advance
  dsimp only
  have h1 := fun d fs => congrArg Core.pc (Core.landAll_unlanded fr fs d)
  simp only at h1
  rw [h1]
  exact h1 _ _
theorem Core.advance_ic (fr : Nat) (c : Core) : (c.advance fr).ic = c.ic + 1 := by
  unfold Core.advance
  dsimp only
  have h1 := fun d fs => congrArg Core.ic (Core.landAll_unlanded fr fs d)
  simp only at h1
  rw [h1]
  exact h1 _ _

theorem me_of_setCore (s : State) (b : Bool) (d : Core) : (((s.countCycle s.turn.val b).setCore s.turn.val d).tickFresh).me = d := by
  simp only [State.me, State.tickFresh_turn, State.setCore_turn, State.countCycle_turn, State.tickFresh_core]
  exact State.core_setCore_self _ _ _ s.turn.isLt

/-- A bundle that changes its own core only. -/
theorem issued_of_setCore (s : State) (d : Core) (p : DWord) (hpc : d.pc = p) (hic : d.ic = s.me.ic + 1) :
    Issued s (((s.countCycle s.turn.val true).setCore s.turn.val d).tickFresh) p := by
  have hme := me_of_setCore s true d
  refine ⟨by rw [hme, hpc], by rw [hme, hic], by simp, by simp, ?_, ?_⟩
  · intro m hm
    simp [State.core_setCore_ne _ _ _ _ (Ne.symm hm)]
  · simp [State.tickFresh, State.setCore, State.countCycle]

/-- What an instruction asks for when all it does is to bring results that land `lat` cycles after its issue. -/
structure Plain (s : State) (lat : Nat) (u : Issue) : Prop where
  ctl     : u.ctl = .seq
  eff     : u.eff = id
  trap    : u.trap = none
  waits   : u.waits = []
  cancels : u.cancels = []
  array   : u.array = 0
  empty   : u.empty = 0
  vjoin   : u.vjoin = false
  flights : ∀ f ∈ u.flights, f.cyc = s.me.ic + lat ∧ f.what.rank = 1

/-- The view flags an instruction's scratchpad writes set (R162). -/
def Core.flagged (c : Core) (w : List (Bool × BitVec 32)) : Core :=
  { c with viewL := w.foldl (fun m w => if w.1 = false then m ||| w.2 else m) c.viewL
           viewS := w.foldl (fun m w => if w.1 = true then m ||| w.2 else m) c.viewS }
@[simp] theorem Core.flagged_nil (c : Core) : c.flagged [] = c := rfl

/-- An instruction that passes its checks on an undisturbed core and brings results after `lat` cycles. -/
theorem runSolo_plain (i : Instr) (op : Op) (s : State) (lat : Nat) (h : Quiet s) (hc : i.cause = none) (p : Passes s i (op s (soloAt s i)))
    (q : Plain s lat (op s (soloAt s i))) (hl : 1 ≤ lat) :
    ∃ t, runSolo i op s = .next t ∧ Issued s t (s.me.pc + BitVec.ofNat 64 (2 * lenOf i)) ∧
      ∀ fr k, (later fr k t.me).rest =
        if lat ≤ k + 1 then (Core.landAll fr (s.me.flagged (op s (soloAt s i)).uses.viewW) (op s (soloAt s i)).flights).rest
        else (s.me.flagged (op s (soloAt s i)).uses.viewW).rest := by
  refine ⟨_, runSolo_seq i op s h hc p q.ctl q.eff q.trap, ?_, ?_⟩
  · exact issued_of_setCore s _ _ (Core.advance_pc _ _) (Core.advance_ic _ _)
  · intro fr k
    rw [me_of_setCore]
    generalize hu : op s (soloAt s i) = u at p q ⊢
    have hfl : u.flights.foldl (fun l f => insertFlight f l) [] = u.flights := by
      have := insertFlight_all (s.me.ic + lat) u.flights (fun f hf => (q.flights f hf).1) [] (by simp)
      simpa using this
    generalize hd : (s.core s.turn.val).issuing u ((s.core s.turn.val).pc + BitVec.ofNat 64 (2 * lenOf i)) = d
    have hdf : d.flights = u.flights := by rw [← hd]; simp [Core.issuing, q.cancels, cancelFlights, hfl]
    have hdi : d.ic = s.me.ic := by rw [← hd]; rfl
    have hdr : d.rest = (s.me.flagged u.uses.viewW).rest := by
      rw [← hd]
      have harr := h.array
      simp [Core.issuing, Core.rest, Core.flagged, q.vjoin, q.array, q.empty, q.waits, q.trap, h.empty, h.waits, h.trap, h.held]
    have hfills : d.fills = [] := by rw [← hd]; exact h.fills
    have hrk : ∀ f ∈ u.flights, f.what.rank ≠ 0 := fun f hf => by simp [(q.flights f hf).2]
    have hland : ∀ fr', (Core.landAll fr' d d.flights).rest = (Core.landAll fr (s.me.flagged u.uses.viewW) u.flights).rest := by
      intro fr'
      rw [Core.landAll_fresh fr' fr _ _ hfills, hdf]
      exact Core.landAll_rest fr _ hrk _ _ hdr
    by_cases hone : lat = 1
    · have ha := Core.advance_all s.fresh d (fun f hf => by rw [hdf] at hf; exact ⟨Nat.le_of_eq (by rw [(q.flights f hf).1, hdi, hone]), (q.flights f hf).2⟩)
      rw [later_idle _ _ _ ha.2.1, ha.1, if_pos (by omega), hland]
    · have ha := Core.advance_none s.fresh d (fun f hf => by rw [hdf] at hf; rw [(q.flights f hf).1, hdi]; omega)
      rw [later_lands fr k (s.me.ic + lat) _ (by rw [ha.2.1, hdf]; exact q.flights) (by rw [ha.2.2, hdi]; omega), ha.2.1, ha.2.2, hdi, ha.1]
      have hr := Core.landAll_rest fr d.flights (by rw [hdf]; exact hrk) (d.advance s.fresh) d ha.1
      rw [hr, hland, hdr]
      congr 1
      simp only [eq_iff_iff]
      omega

end Sys2Proof.Machine
end

