-- ==== Sys2Proof/Laws/Mem.lean ====
section
/-!
SUPPORT. Sparse memories and tables: what a read gives after a write, and that every operation keeps the canonical form.
-/
namespace Sys2Proof.Machine

/-! ### Reading -/

theorem Mem.read_filter (p : Nat → Bool) (m : Mem) (x : Nat) :
    Mem.read (m.filter fun c => p c.1) x = if p x then Mem.read m x else Mem.dflt := by
  induction m with
  | nil => simp [Mem.read]
  | cons c m ih =>
    obtain ⟨k, v⟩ := c
    by_cases hk : k = x
    · subst hk
      cases hp : p k <;> simp [hp, Mem.read] at ih ⊢
      exact ih
    · cases hp : p k <;> simp [hp, Mem.read, hk, ih]

theorem Mem.read_of_absent (m : Mem) (x : Nat) (h : ∀ c ∈ m, c.1 ≠ x) : Mem.read m x = Mem.dflt := by
  induction m with
  | nil => rfl
  | cons c m ih =>
    obtain ⟨k, v⟩ := c
    have hk : k ≠ x := h (k, v) (by simp)
    simp only [Mem.read, hk, if_false]
    exact ih fun c hc => h c (by simp [hc])

theorem Mem.read_append_right (l r : Mem) (x : Nat) (h : ∀ c ∈ l, c.1 ≠ x) : Mem.read (l ++ r) x = Mem.read r x := by
  induction l with
  | nil => rfl
  | cons c l ih =>
    obtain ⟨k, v⟩ := c
    have hk : k ≠ x := h (k, v) (by simp)
    simp only [List.cons_append, Mem.read, hk, if_false]
    exact ih fun c hc => h c (by simp [hc])

theorem Mem.read_append_left (l r : Mem) (x : Nat) (h : ∀ c ∈ r, c.1 ≠ x) : Mem.read (l ++ r) x = Mem.read l x := by
  induction l with
  | nil => simpa [Mem.read] using Mem.read_of_absent r x h
  | cons c l ih =>
    obtain ⟨k, v⟩ := c
    by_cases hk : k = x <;> simp [Mem.read, hk, ih]

theorem Mem.mem_cells {a : Nat} {bs : List Byte} {c : Nat × Byte} (h : c ∈ Mem.cells a bs) :
    a ≤ c.1 ∧ c.1 < a + bs.length ∧ c.2 ≠ Mem.dflt := by
  induction bs generalizing a with
  | nil => simp [Mem.cells] at h
  | cons b bs ih =>
    simp only [Mem.cells] at h
    split at h
    · obtain ⟨h1, h2, h3⟩ := ih h
      simp only [List.length_cons]
      exact ⟨by omega, by omega, h3⟩
    · rename_i hb
      rcases List.mem_cons.mp h with rfl | h
      · simpa using hb
      · obtain ⟨h1, h2, h3⟩ := ih h
        simp only [List.length_cons]
        exact ⟨by omega, by omega, h3⟩

theorem Mem.read_cells (a : Nat) (bs : List Byte) (x : Nat) :
    Mem.read (Mem.cells a bs) x = if a ≤ x ∧ x < a + bs.length then bs.getD (x - a) Mem.dflt else Mem.dflt := by
  induction bs generalizing a with
  | nil => simp [Mem.cells, Mem.read]
  | cons b bs ih =>
    by_cases hx : x = a
    · subst hx
      by_cases hb : b = Mem.dflt
      · simp [Mem.cells, hb, ih] <;> (intro h; omega)
      · simp [Mem.cells, hb, Mem.read]
    · have hne : a ≠ x := fun e => hx e.symm
      have hrec : Mem.read (Mem.cells a (b :: bs)) x = Mem.read (Mem.cells (a + 1) bs) x := by
        by_cases hb : b = Mem.dflt <;> simp [Mem.cells, hb, Mem.read, hne]
      rw [hrec, ih]
      by_cases h1 : a + 1 ≤ x ∧ x < a + 1 + bs.length
      · have h2 : a ≤ x ∧ x < a + (b :: bs).length := ⟨by omega, by simp only [List.length_cons]; omega⟩
        rw [if_pos h1, if_pos h2]
        have : x - a = (x - (a + 1)) + 1 := by omega
        rw [this, List.getD_cons_succ]
      · have h2 : ¬ (a ≤ x ∧ x < a + (b :: bs).length) := by simp only [List.length_cons]; omega
        rw [if_neg h1, if_neg h2]

/-- A byte written reads back; every other byte reads as before. -/
theorem Mem.read_write (m : Mem) (a : Nat) (bs : List Byte) (x : Nat) :
    (m.write a bs).read x = if a ≤ x ∧ x < a + bs.length then bs.getD (x - a) Mem.dflt else m.read x := by
  simp only [Mem.write]
  by_cases h1 : x < a
  · rw [Mem.read_append_left _ _ _ (by
      intro c hc
      rcases List.mem_append.mp hc with hc | hc
      · have := Mem.mem_cells hc; omega
      · have := (List.mem_filter.mp hc).2; simp at this; omega), Mem.read_filter (fun n => decide (n < a))]
    have : ¬ (a ≤ x ∧ x < a + bs.length) := by omega
    simp [h1, this]
  · rw [Mem.read_append_right _ _ _ (by
      intro c hc
      have := (List.mem_filter.mp hc).2
      simp at this; omega)]
    by_cases h2 : x < a + bs.length
    · rw [Mem.read_append_left _ _ _ (by
        intro c hc
        have := (List.mem_filter.mp hc).2
        simp at this; omega), Mem.read_cells]
      have : a ≤ x ∧ x < a + bs.length := by omega
      simp [this]
    · rw [Mem.read_append_right _ _ _ (by
        intro c hc
        have := Mem.mem_cells hc; omega), Mem.read_filter (fun n => decide (a + bs.length ≤ n))]
      have h3 : ¬ (a ≤ x ∧ x < a + bs.length) := by omega
      have h4 : a + bs.length ≤ x := by omega
      simp [h3, h4]

theorem Mem.read_write_of_outside (m : Mem) (a : Nat) (bs : List Byte) (x : Nat) (h : x < a ∨ a + bs.length ≤ x) :
    (m.write a bs).read x = m.read x := by
  rw [Mem.read_write, if_neg (by omega)]

/-- Scattered writes leave every byte they do not name. -/
theorem Mem.read_writeMany_of_absent (m : Mem) (ws : List (Nat × Byte)) (x : Nat) (h : ∀ w ∈ ws, w.1 ≠ x) :
    (m.writeMany ws).read x = m.read x := by
  induction ws generalizing m with
  | nil => rfl
  | cons w ws ih =>
    have hw : w.1 ≠ x := h w (by simp)
    simp only [Mem.writeMany, List.foldl_cons] at ih ⊢
    rw [ih _ fun v hv => h v (by simp [hv]), Mem.read_write_of_outside _ _ _ _ (by simp only [List.length_cons, List.length_nil]; omega)]

/-- A cleared range reads as the default, and the rest as before. -/
theorem Mem.read_clear (m : Mem) (a n x : Nat) : (m.clear a n).read x = if x < a ∨ a + n ≤ x then m.read x else Mem.dflt := by
  have := Mem.read_filter (fun k => decide (k < a ∨ a + n ≤ k)) m x
  simpa [Mem.clear] using this

/-! ### The canonical form -/

theorem Mem.wf_iff (m : Mem) : m.wf = true ↔ m.Pairwise (fun a b => a.1 < b.1) ∧ ∀ c ∈ m, c.2 ≠ Mem.dflt := by
  induction m with
  | nil => simp [Mem.wf]
  | cons c m ih =>
    obtain ⟨k, v⟩ := c
    simp only [Mem.wf, Bool.and_eq_true, bne_iff_ne, ne_eq, List.all_eq_true, decide_eq_true_eq, ih, List.pairwise_cons,
      List.mem_cons, forall_eq_or_imp]
    constructor
    · rintro ⟨⟨h1, h2⟩, h3, h4⟩; exact ⟨⟨h2, h3⟩, h1, h4⟩
    · rintro ⟨⟨h2, h3⟩, h1, h4⟩; exact ⟨⟨h1, h2⟩, h3, h4⟩

theorem Mem.cells_pairwise (a : Nat) (bs : List Byte) : (Mem.cells a bs).Pairwise fun x y => x.1 < y.1 := by
  induction bs generalizing a with
  | nil => simp [Mem.cells]
  | cons b bs ih =>
    simp only [Mem.cells]
    split
    · exact ih _
    · refine List.pairwise_cons.mpr ⟨fun c hc => ?_, ih _⟩
      have := Mem.mem_cells hc
      simp only; omega

theorem Mem.wf_nil : Mem.wf [] = true := rfl
theorem Mem.wf_filter (m : Mem) (p : Nat × Byte → Bool) (h : m.wf = true) : Mem.wf (m.filter p) = true := by
  rw [Mem.wf_iff] at h ⊢
  exact ⟨h.1.filter _, fun c hc => h.2 c (List.mem_filter.mp hc).1⟩
theorem Mem.wf_write (m : Mem) (a : Nat) (bs : List Byte) (h : m.wf = true) : (m.write a bs).wf = true := by
  rw [Mem.wf_iff] at h ⊢
  constructor
  · refine List.pairwise_append.mpr ⟨h.1.filter _, List.pairwise_append.mpr ⟨Mem.cells_pairwise a bs, h.1.filter _, ?_⟩, ?_⟩
    · intro c hc d hd
      have h1 := Mem.mem_cells hc
      have h2 := (List.mem_filter.mp hd).2
      simp at h2; omega
    · intro c hc d hd
      have h1 := (List.mem_filter.mp hc).2
      simp at h1
      rcases List.mem_append.mp hd with hd | hd
      · have := Mem.mem_cells hd; omega
      · have h2 := (List.mem_filter.mp hd).2
        simp at h2; omega
  · intro c hc
    rcases List.mem_append.mp hc with hc | hc
    · exact h.2 c (List.mem_filter.mp hc).1
    · rcases List.mem_append.mp hc with hc | hc
      · exact (Mem.mem_cells hc).2.2
      · exact h.2 c (List.mem_filter.mp hc).1
theorem Mem.wf_writeMany (m : Mem) (ws : List (Nat × Byte)) (h : m.wf = true) : (m.writeMany ws).wf = true := by
  induction ws generalizing m with
  | nil => exact h
  | cons w ws ih => exact ih _ (Mem.wf_write m _ _ h)
theorem Mem.wf_clear (m : Mem) (a n : Nat) (h : m.wf = true) : (m.clear a n).wf = true := Mem.wf_filter m _ h

/-- Equal reads of canonical memories are equal data. -/
theorem Mem.ext_of_wf (m k : Mem) (hm : m.wf = true) (hk : k.wf = true) (h : ∀ a, m.read a = k.read a) : m = k := by
  induction m generalizing k with
  | nil =>
    cases k with
    | nil => rfl
    | cons c k =>
      obtain ⟨b, v⟩ := c
      have hv := ((Mem.wf_iff _).mp hk).2 (b, v) (by simp)
      have := h b
      simp [Mem.read] at this
      exact absurd this.symm hv
  | cons c m ih =>
    obtain ⟨a, v⟩ := c
    have wm := (Mem.wf_iff _).mp hm
    have wk := (Mem.wf_iff _).mp hk
    have hva := wm.2 (a, v) (by simp)
    have ra : Mem.read ((a, v) :: m) a = v := by simp [Mem.read]
    cases k with
    | nil =>
      have := h a
      rw [ra] at this
      exact absurd this hva
    | cons d k =>
      obtain ⟨b, w⟩ := d
      have hwb := wk.2 (b, w) (by simp)
      have rb : Mem.read ((b, w) :: k) b = w := by simp [Mem.read]
      have below : ∀ (l : Mem) (x y : Nat) (u : Byte), ((x, u) :: l).Pairwise (fun p q => p.1 < q.1) → y < x → Mem.read ((x, u) :: l) y = Mem.dflt := by
        intro l x y u hp hy
        refine Mem.read_of_absent _ _ fun c hc => ?_
        rcases List.mem_cons.mp hc with rfl | hc
        · simp only; omega
        · have := (List.pairwise_cons.mp hp).1 c hc
          simp only at this; omega
      have hab : a = b := by
        rcases Nat.lt_trichotomy a b with hlt | heq | hgt
        · have := h a
          rw [ra, below k b a w wk.1 hlt] at this
          exact absurd this hva
        · exact heq
        · have := h b
          rw [rb, below m a b v wm.1 hgt] at this
          exact absurd this.symm hwb
      subst hab
      have hvw : v = w := by have := h a; rwa [ra, rb] at this
      subst hvw
      have hm' : Mem.wf m = true := by simp only [Mem.wf, Bool.and_eq_true] at hm; exact hm.2
      have hk' : Mem.wf k = true := by simp only [Mem.wf, Bool.and_eq_true] at hk; exact hk.2
      congr 1
      refine ih k hm' hk' fun x => ?_
      by_cases hx : a = x
      · subst hx
        rw [Mem.read_of_absent m a fun c hc => ?_, Mem.read_of_absent k a fun c hc => ?_]
        · have := (List.pairwise_cons.mp wk.1).1 c hc; simp only at this; omega
        · have := (List.pairwise_cons.mp wm.1).1 c hc; simp only at this; omega
      · have := h x
        simpa [Mem.read, hx] using this

/-! ### Tables by number -/

theorem Tab.get?_set_self {α : Type} (t : Tab α) (n : Nat) (a : α) : Tab.get? (Tab.set t n a) n = some a := by
  induction t with
  | nil => simp [Tab.set, Tab.get?]
  | cons e t ih =>
    obtain ⟨k, v⟩ := e
    simp only [Tab.set]
    split
    · simp [Tab.get?]
    · split
      · simp [Tab.get?]
      · rename_i h
        have : k ≠ n := fun e => h e.symm
        simp [Tab.get?, this, ih]
theorem Tab.get?_set_ne {α : Type} (t : Tab α) (n m : Nat) (a : α) (h : m ≠ n) : Tab.get? (Tab.set t n a) m = Tab.get? t m := by
  have h' : n ≠ m := fun e => h e.symm
  induction t with
  | nil => simp [Tab.set, Tab.get?, h']
  | cons e t ih =>
    obtain ⟨k, v⟩ := e
    simp only [Tab.set]
    split
    · simp [Tab.get?, h']
    · split
      · rename_i _ he
        subst he
        simp [Tab.get?, h']
      · by_cases hk : k = m <;> simp [Tab.get?, hk, ih]
theorem Tab.get?_modify {α : Type} (t : Tab α) (n m : Nat) (f : α → α) :
    Tab.get? (Tab.modify t n f) m = if m = n then (Tab.get? t m).map f else Tab.get? t m := by
  induction t with
  | nil => simp [Tab.modify, Tab.get?]
  | cons e t ih =>
    obtain ⟨k, v⟩ := e
    simp only [Tab.modify, List.map_cons, Tab.get?] at ih ⊢
    by_cases hk : k = n
    · subst hk
      by_cases hm : k = m
      · subst hm; simp
      · have hm' : ¬ m = k := fun e => hm e.symm
        simp [hm, hm'] at ih ⊢
        exact ih
    · simp only [hk, if_false]
      by_cases hm : k = m
      · subst hm; simp [hk]
      · simp only [hm, if_false]
        exact ih
theorem Tab.get?_erase_self {α : Type} (t : Tab α) (n : Nat) : Tab.get? (Tab.erase t n) n = none := by
  induction t with
  | nil => rfl
  | cons e t ih =>
    obtain ⟨k, v⟩ := e
    by_cases hk : k = n <;> simp [Tab.erase, Tab.get?, hk] at ih ⊢ <;> exact ih

end Sys2Proof.Machine
end

