-- ==== Sys2Proof/Laws/Ring.lean ====
section
/-!
SUPPORT. What a device write and a ring append depend on (R282): whether they succeed is a matter of the length of the bytes alone.
-/
namespace Sys2Proof.Machine

theorem devWrite_isOk (s : State) (dev : Option DevTag) (ctx va w : Nat) (bs bs' : List Byte) (rel : Bool) (h : bs.length = bs'.length) :
    (devWrite s dev ctx va bs w rel).isOk = (devWrite s dev ctx va bs' w rel).isOk := by
  unfold devWrite
  rw [h]
  split <;> rfl
theorem appendRing_ok (s : State) (ctx cb core : Nat) (b b' : List Byte) (h : b.length = b'.length) :
    (appendRing s ctx cb core b).ok = (appendRing s ctx cb core b').ok := by
  have hk : ∀ (u : State) (d : Option DevTag) (va w : Nat) (r : Bool) (pre : List Byte),
      (devWrite u d ctx va (pre ++ b) w r).isOk = (devWrite u d ctx va (pre ++ b') w r).isOk :=
    fun u d va w r pre => devWrite_isOk u d ctx va w _ _ r (by rw [List.length_append, List.length_append, h])
  unfold appendRing
  split
  · rfl
  · dsimp only
    split
    · rfl
    · split
      · rfl
      · split
        · rfl
        · split
          · rfl
          · split <;> split
            · rfl
            · rename_i h1 _ _ h2
              exact absurd ((h1 ▸ h2 ▸ hk _ _ _ _ _ _ : (Except.isOk (ε := Nat) (α := State) (.error _)) = Except.isOk (.ok _))) (by simp [Except.isOk, Except.toBool])
            · rename_i h1 _ _ h2
              exact absurd ((h1 ▸ h2 ▸ hk _ _ _ _ _ _ : (Except.isOk (ε := Nat) (α := State) (.ok _)) = Except.isOk (.error _))) (by simp [Except.isOk, Except.toBool])
            · rfl

end Sys2Proof.Machine
end

