-- ==== Sys2Proof/Tests/Slice0.lean ====
section
/-!
SUPPORT. Tests: an ill-formed term for every rule of WellFormed, words written out bit by bit from the encodings of R58–R81, and for every
obligation with hypotheses a state and operands that meet them.
-/
namespace Sys2Proof.Tests
set_option Elab.async false
open Sys2Proof.Machine Sys2Proof.Spec

/-! ### WellFormed refuses -/

def vop (t : BitVec 4) (ka kb : BitVec 2) (a b : BitVec 8) (fn : BitVec 4) (vd : BitVec 7) (sat : BitVec 1) : VOps :=
  ⟨t, 0#2, a, ka, kb, fn, b, vd, sat⟩
def lop (sz : BitVec 3) (d : BitVec 7) (bp : BitVec 5) (ord scope aux : BitVec 2) : LOps := ⟨sz, 0#1, 0#2, d, bp, 0#24, 0#6, ord, scope, aux⟩
def xop (fl : BitVec 4) (bp : BitVec 5) (td0 td1 td2 : BitVec 8) : XOps := ⟨0#2, fl, bp, td0, td1, td2, 0#16⟩

/-- R101, R103, R107, R108, R116, R104, R110, R121, R122, R125, R183. -/
theorem test_illformed_scalar :
    (Instr.shlImm 1#6 2#6 32#10).cause = some 4 ∧ (Instr.shrImm 1#6 2#6 32#10).cause = some 4 ∧ (Instr.sraImm 1#6 2#6 1023#10).cause = some 4 ∧
    (Instr.addp 1#6 2#6 4#6).cause = some 7 ∧ (Instr.subp 0#6 2#6 4#6).cause = some 7 ∧ (Instr.callx 0#6).cause = some 7 ∧
    (Instr.ret 3#6).cause = some 7 ∧ (Instr.jx 0#6).cause = some 7 ∧ (Instr.lmark 65#10).cause = some 4 ∧ (Instr.lmark 0#10).cause = some 4 ∧
    (Instr.la 3#6 0#32).cause = some 7 ∧ (Instr.loop 4#4 1#6 8#32).cause = some 3 ∧ (Instr.loopx 8#4 1#6 2#6 8#32).cause = some 3 ∧
    (Instr.mfs 2#6 0xFFF#12).cause = some 8 ∧ (Instr.mfs 3#6 0x006#12).cause = some 7 ∧ (Instr.mts 2#6 0x000#12).cause = some 8 ∧
    (Instr.waitq 0#6).cause = some 7 ∧ (Instr.fwait 3#6).cause = some 7 := by decide +kernel
/-- R71, R130, R137–R154: type codes, unused fields, source kinds and destinations of the V class. -/
theorem test_illformed_vector :
    (Instr.vadd (vop 15#4 0#2 0#2 1#8 2#8 0#4 3#7 0#1)).cause = some 4 ∧ (Instr.vadd (vop 3#4 0#2 0#2 1#8 2#8 1#4 3#7 0#1)).cause = some 3 ∧
    (Instr.vmul (vop 9#4 0#2 0#2 1#8 2#8 0#4 3#7 0#1)).cause = some 4 ∧ (Instr.vadd (vop 0#4 0#2 0#2 128#8 2#8 0#4 3#7 0#1)).cause = some 3 ∧
    (Instr.vadd (vop 9#4 1#2 0#2 3#8 2#8 0#4 3#7 0#1)).cause = some 7 ∧ (Instr.vabs (vop 3#4 0#2 0#2 1#8 2#8 0#4 3#7 0#1)).cause = some 3 ∧
    (Instr.vmin (vop 0#4 0#2 0#2 1#8 2#8 0#4 3#7 1#1)).cause = some 3 ∧ (Instr.vcmp (vop 3#4 0#2 0#2 1#8 2#8 6#4 3#7 0#1)).cause = some 4 ∧
    (Instr.vcmp (vop 3#4 0#2 0#2 1#8 2#8 0#4 8#7 0#1)).cause = some 3 ∧ (Instr.vcvt (vop 0#4 0#2 0#2 1#8 0#8 0#4 3#7 0#1)).cause = some 4 ∧
    (Instr.vpackbx (vop 3#4 0#2 0#2 1#8 0#8 0#4 3#7 0#1)).cause = some 4 ∧ (Instr.vunpbx (vop 10#4 0#2 0#2 1#8 0#8 4#4 3#7 0#1)).cause = some 4 ∧
    (Instr.vsra (vop 4#4 0#2 0#2 1#8 2#8 0#4 3#7 0#1)).cause = some 4 ∧ (Instr.vtlog (vop 0#4 0#2 0#2 1#8 2#8 0#4 3#7 0#1)).cause = some 4 ∧
    (Instr.vperm (vop 3#4 0#2 0#2 1#8 2#8 1#4 3#7 0#1)).cause = some 3 ∧ (Instr.vrot (vop 3#4 0#2 0#2 1#8 2#8 0#4 3#7 0#1)).cause = some 4 ∧
    (Instr.vred (vop 3#4 0#2 0#2 1#8 0#8 12#4 3#7 0#1)).cause = some 4 ∧ (Instr.vscan (vop 9#4 0#2 0#2 1#8 0#8 0#4 3#7 0#1)).cause = some 4 ∧
    (Instr.vcmul (vop 0#4 0#2 0#2 1#8 2#8 0#4 3#7 0#1)).cause = some 4 ∧ (Instr.vklog (vop 0#4 2#2 2#2 8#8 2#8 0#4 3#7 0#1)).cause = some 3 ∧
    (Instr.vkpop (vop 0#4 1#2 0#2 1#8 0#8 0#4 3#7 0#1)).cause = some 4 ∧ (Instr.vrcp (vop 3#4 0#2 0#2 1#8 0#8 0#4 3#7 0#1)).cause = some 4 ∧
    (Instr.vcvt (vop 0#4 1#2 0#2 0xC1#8 0#8 0#4 3#7 0#1)).cause = some 3 ∧ (Instr.slw ⟨2#3, 0#1, 1#2, 1#7, 1#5, 0#24, 0#6, 0#2, 0#2, 0#2⟩).cause = some 3 := by
  decide +kernel
/-- R173, R177–R186, R196–R206, R359: the M and L classes. -/
theorem test_illformed_tile_memory :
    (Instr.zld 0#6 1#6 4#4).cause = some 3 ∧ (Instr.zrd 0#6 1#6 2#6 8#4).cause = some 3 ∧ (Instr.zmma ⟨0#6, 1#6, 2#6, 2#4, 0#8, 0#8⟩).cause = some 3 ∧
    (Instr.bfset 8#6 1#6 0#4).cause = some 3 ∧ (Instr.bfset 1#6 1#6 3#4).cause = some 4 ∧ (Instr.bfly ⟨0#6, 1#6, 2#6, 0#4, 0#8, 0#8⟩).cause = some 3 ∧
    (Instr.sld (lop 6#3 1#7 1#5 0#2 0#2 0#2)).cause = some 4 ∧ (Instr.sld (lop 2#3 64#7 1#5 0#2 0#2 0#2)).cause = some 7 ∧
    (Instr.sst (lop 3#3 1#7 1#5 0#2 0#2 0#2)).cause = some 7 ∧ (Instr.sst (lop 5#3 8#7 1#5 0#2 0#2 0#2)).cause = some 7 ∧
    (Instr.sldx (lop 2#3 1#7 1#5 1#2 0#2 0#2)).cause = some 3 ∧ (Instr.slw (lop 2#3 1#7 1#5 0#2 0#2 0#2)).cause = some 4 ∧
    (Instr.samo (lop 2#3 3#7 1#5 0#2 0#2 3#2)).cause = some 7 ∧ (Instr.samo (lop 4#3 3#7 1#5 0#2 0#2 0#2)).cause = some 4 ∧
    (Instr.gld (lop 2#3 1#7 1#5 2#2 0#2 0#2)).cause = some 4 ∧ (Instr.gst (lop 2#3 1#7 1#5 1#2 0#2 0#2)).cause = some 4 ∧
    (Instr.gamo (lop 3#3 2#7 1#5 0#2 0#2 3#2)).cause = some 7 ∧ (Instr.enq (lop 3#3 2#7 1#5 0#2 0#2 0#2)).cause = some 4 ∧
    (Instr.fetch (lop 3#3 2#7 1#5 2#2 0#2 0#2)).cause = some 4 ∧ (Instr.wback (lop 3#3 2#7 1#5 1#2 0#2 0#2)).cause = some 4 ∧
    (Instr.fetchLand 1#7 0#3).cause = some 7 ∧ (Instr.fence 0#2 2#2).cause = some 4 ∧ (Instr.xfence 1#4 1#4 2#2).cause = some 4 ∧
    (Instr.xfence 7#4 1#4 2#2).cause = some 4 ∧ (Instr.retain 0#7 1#5 0#24 0#6).cause = some 7 ∧ (Instr.unpin 64#7 1#5 0#24 0#6).cause = some 7 ∧
    (Instr.barm (lop 0#3 2#7 1#5 1#2 2#2 0#2)).cause = some 4 ∧ (Instr.bara (lop 0#3 2#7 1#5 0#2 2#2 0#2)).cause = some 4 ∧
    (Instr.barw (lop 0#3 0#7 1#5 1#2 2#2 0#2)).cause = some 7 := by decide +kernel
/-- R211, R240, R244–R249, R411: the X class. -/
theorem test_illformed_macro :
    (Instr.mconv (xop 2#4 1#5 0#8 0#8 0#8)).cause = some 3 ∧ (Instr.mpool (xop 0#4 1#5 0#8 0#8 1#8)).cause = some 3 ∧
    (Instr.mcopy (xop 0#4 1#5 0#8 0#8 1#8)).cause = some 3 ∧ (Instr.mgath (xop 10#4 1#5 0#8 0#8 0#8)).cause = some 4 ∧
    (Instr.mgath (xop 2#4 1#5 1#8 0#8 0#8)).cause = some 3 ∧ (Instr.xcp (xop 1#4 1#5 0#8 0#8 0#8)).cause = some 3 ∧
    (Instr.xmc (xop 0#4 1#5 0#8 0#8 0#8)).cause = some 4 ∧ (Instr.mxt (xop 0#4 1#5 1#8 0#8 0#8)).cause = some 3 ∧
    (Instr.mwait 1#2 2#4).cause = some 3 ∧ (Instr.mstat 0#2 0#5).cause = some 7 ∧ (Instr.mgate (xop 0#4 1#5 0#8 1#8 0#8)).cause = some 3 ∧
    (Instr.mixch (xop 2#4 1#5 0#8 0#8 0#8)).cause = some 3 ∧ (Instr.mcoll (xop 12#4 1#5 0#8 0#8 0#8)).cause = some 4 ∧
    (Instr.mcoll (xop 10#4 1#5 0#8 1#8 0#8)).cause = some 3 := by decide +kernel

/-! ### Words written out from the formats -/

/-- R84's bundle in chapter 3: `addi x10, x10, 1`, a `vadd.f32 v5, v4, v6` and an `sld.n32 v7, [x8+x12+64]`, as the spec spells their bits. -/
theorem test_decode_spec_bundle :
    decode [0x024A#16, 0x2801#16] = .ok (.addImm 10#6 10#6 1#10) false 2 ∧
    decode [0x2000#16, 0x0400#16, 0x060A#16] = .ok (.vadd ⟨0#4, 0#2, 4#8, 0#2, 0#2, 0#4, 6#8, 5#7, 0#1⟩) false 3 ∧
    decode [0xC1E0#16, 0x0E40#16, 0x0004#16, 0x0300#16] = .ok (.gld ⟨4#3, 0#1, 0#2, 7#7, 4#5, 64#24, 12#6, 0#2, 0#2, 0#2⟩) true 4 := by decide +kernel
/-- S: E 1, class 000, OP 0x01, XD 3 | XA 5, XB 6. SL: class 001, OP 0x00 (LI), XD 7 | 0 | 0x5678 | 0x1234. Y: class 110, OP 0x03
and its like are checked through the table's own words below. -/
theorem test_decode_scalar : decode [0x8043#16, 0x1406#16] = .ok (.add 3#6 5#6 6#6) true 2 ∧
    decode [0x9007#16, 0x0000#16, 0x5678#16, 0x1234#16] = .ok (.li 7#6 0x12345678#32) true 4 ∧
    decode [0x8000#16, 0x0000#16] = .ok .nop true 2 := by decide +kernel
/-- M, L, X and Y words; MMUL: E 1, class 101, OP 1, TAG 2 | BP 3, TD0 1 | TD1 2, TD2 4 | P3 5. -/
theorem test_decode_engines :
    decode [0xD060#16, 0x1801#16, 0x0204#16, 0x0005#16] = .ok (.mmul ⟨2#2, 0#4, 3#5, 1#8, 2#8, 4#8, 5#16⟩) true 4 ∧
    decode [0xD350#16, 0x1000#16, 0x0000#16, 0x0000#16] = .ok (.mstat 1#2 2#5) true 4 ∧
    decode [0xC4C0#16, 0x0410#16, 0x0000#16, 0x0028#16] = .ok (.barm (lop 0#3 2#7 1#5 2#2 2#2 0#2)) true 4 ∧
    decode [0xC38E#16, 0x0000#16, 0x0000#16, 0x0000#16] = .bad 3 ∧
    decode [0xB280#16, 0x1400#16, 0x0000#16] = .ok (.fmtw 5#6) true 3 := by decide +kernel
/-- The table's numbering of an instruction's bits: the first parcel lowest. -/
theorem test_decode_table_words : decodeTableWord 32 0x14060043 = some (.add 3#6 5#6 6#6) ∧
    decodeTableWord 48 0x020328B03188 = some (.zmma ⟨8#6, 10#6, 11#6, 0#4, 2#8, 3#8⟩) := by decide +kernel

/-! ### States -/

/-- The core whose turn it is issues its next bundle, as one decidable check. -/
def calmB (s : State) : Bool :=
  decide (s.me.st = .running) && decide (s.me.owed = []) && decide (s.me.held = false) && decide (s.me.empty = 0) && decide (s.me.waits = []) &&
  decide (s.me.trapDue = none) && decide (s.me.flights = []) && decide (s.me.wports = []) && decide (s.me.bankUse = []) &&
  decide (s.me.arrayEnd ≤ s.me.ic) && decide (s.me.pend = []) && decide (s.me.fills = []) && decide (s.me.regFills = []) &&
  decide (s.me.timingDue = false) && decide (s.me.blaze ≤ s.me.bound) && decide (s.me.phases.find? (fun p => p.1 == s.me.pc) = none) &&
  decide (s.me.poison = []) && decide (s.me.xpoison = []) && decide (s.me.kpoison = [])
theorem calm_of (s : State) (h : calmB s = true) : Calm s := by
  simp only [calmB, Bool.and_eq_true, decide_eq_true_eq] at h
  obtain ⟨⟨⟨⟨⟨⟨⟨⟨⟨⟨⟨⟨⟨⟨⟨⟨⟨⟨h1, h2⟩, h3⟩, h4⟩, h5⟩, h6⟩, h7⟩, h8⟩, h9⟩, h10⟩, h11⟩, h12⟩, h13⟩, h14⟩, h15⟩, h16⟩, h17⟩, h18⟩, h19⟩ := h
  exact ⟨h1, h2, h3, h4, h5, h6, h7, h8, h9, h10, h11, h12, h13, h14, h15, h16, h17, h18, h19⟩
theorem quiet_of (s : State) (h : (calmB s && decide (s.me.innermost = none)) = true) : Quiet s := by
  simp only [Bool.and_eq_true, decide_eq_true_eq] at h
  exact ⟨calm_of s h.1, h.2⟩
def betweenB (s : State) (ws : List Wait) : Bool :=
  decide (s.me.st = .running) && decide (s.me.owed = []) && decide (s.me.held = false) && decide (s.me.empty = 0) && decide (s.me.flights = []) &&
  decide (s.me.waits = ws)
theorem between_of (s : State) (ws : List Wait) (h : betweenB s ws = true) : Between s ws := by
  simp only [betweenB, Bool.and_eq_true, decide_eq_true_eq] at h
  obtain ⟨⟨⟨⟨⟨h1, h2⟩, h3⟩, h4⟩, h5⟩, h6⟩ := h
  exact ⟨h1, h2, h3, h4, h5, h6⟩

/-- A package whose core 0 runs a task of context 0 at address 0, in its page of HBM at 0x20000. -/
def base : State := placeWord State.reset 16 0
def at0 (f : Core → Core) : State := base.modCore 0 f
/-- The same with bytes of that page. -/
def withBytes (s : State) (va : Nat) (bs : List Byte) : State := { s with mem := s.mem.write (0x20000 + va) bs }
def regs (l : List (Nat × Nat)) (c : Core) : Core := l.foldl (fun c p => c.wx (BitVec.ofNat 6 p.1) (BitVec.ofNat 32 p.2)) c

/-- The check of a code target, as a decidable one. -/
def target (c : Core) (t : DWord) : Bool :=
  decide (t.extractLsb' 56 8 = 0#8) && decide (t.extractLsb' 32 24 = c.cwin.extractLsb' 32 24) && decide (t.getLsbD 0 = false)
theorem target_iff (c : Core) (t : DWord) : codeTarget c t ↔ target c t = true := by
  simp only [codeTarget, target, Bool.and_eq_true, decide_eq_true_eq, and_assoc]

/-! ### Witnesses: scalar results, control and system registers -/

def sAlu : State := at0 (regs [(2, 5), (3, 7), (5, 0xFFFFFFFF)])
theorem witness_ScalarAlu : Quiet sAlu ∧ (Instr.add 1#6 2#6 3#6).cause = none ∧ aluResult sAlu.me (.add 1#6 2#6 3#6) = some (1#6, 12#32) ∧
    aluResult sAlu.me (.add 0#6 5#6 3#6) = some (0#6, 6#32) ∧ aluResult sAlu.me (.slt 1#6 5#6 2#6) = some (1#6, 1#32) :=
  ⟨quiet_of _ (by decide +kernel), by decide +kernel⟩
theorem witness_ProductsAndDivisions : Quiet sAlu ∧ mulResult sAlu.me (.mulh 1#6 5#6 2#6) = some (1#6, 0xFFFFFFFF#32) ∧
    divResult sAlu.me (.div 1#6 2#6 0#6) = some (1#6, 0xFFFFFFFF#32, fDZ) ∧ divResult sAlu.me (.rem 1#6 0#6 0#6) = some (1#6, 0#32, 0#6) :=
  ⟨quiet_of _ (by decide +kernel), by decide +kernel⟩
theorem witness_PairResults : Quiet sAlu ∧ (Instr.addp 6#6 2#6 4#6).cause = none ∧
    pairResult sAlu.me (.addp 6#6 2#6 4#6) = some (6#6, 0x0000000600000005#64) := ⟨quiet_of _ (by decide +kernel), by decide +kernel⟩
theorem witness_Branches : Quiet sAlu ∧ branchTo sAlu.me (.bra 4#32) = some (true, 8#64) ∧ codeTarget sAlu.me 8#64 ∧
    branchTo sAlu.me (.beq 2#6 3#6 4#32) = some (false, 8#64) := ⟨quiet_of _ (by decide +kernel), by simp only [target_iff]; decide +kernel⟩
theorem witness_BadTargets : Quiet sAlu ∧ (Instr.bra 0xFFFFFFFF#32).cause = none ∧ ¬ codeTarget sAlu.me 0xFFFFFFFFFFFFFFFE#64 ∧
    branchTo sAlu.me (.bra 0xFFFFFFFF#32) = some (true, 0xFFFFFFFFFFFFFFFE#64) ∧ callTo sAlu (.call 0xFFFFFFFF#32) = some 0xFFFFFFFFFFFFFFFE#64 ∧
    ¬ codeTarget sAlu.me (retTo sAlu.me 2#6) ∧ ¬ codeTarget sAlu.me (sAlu.me.rpair 2#6) := ⟨quiet_of _ (by decide +kernel), by simp only [target_iff]; decide +kernel⟩
/-- A link table of one slot at address 64, which holds 0x100. -/
def sCall : State := withBytes (at0 fun c => { regs [(1, 0x10), (4, 0x20)] c with ltn := 1#32, ltb := 64#64 }) 64 (natToBytes 8 0x100)
theorem witness_Calls : Quiet sCall ∧ callTo sCall (.call 8#32) = some 16#64 ∧ callTo sCall (.calli 0#32) = some 0x100#64 ∧
    callTo sCall (.callx 4#6) = some 0x20#64 ∧ codeTarget sCall.me 16#64 ∧ codeTarget sCall.me 0x100#64 ∧ codeTarget sCall.me 0x20#64 ∧
    (Instr.callx 4#6).cause = none := ⟨quiet_of _ (by decide +kernel), by simp only [target_iff]; decide +kernel⟩
theorem witness_Returns : Quiet sCall ∧ (Instr.ret 0#6).cause = none ∧ codeTarget sCall.me (retTo sCall.me 0#6) ∧ (Instr.jx 4#6).cause = none ∧
    codeTarget sCall.me (sCall.me.rpair 4#6) := ⟨quiet_of _ (by decide +kernel), by simp only [target_iff]; decide +kernel⟩
/-- A NOP with E = 1 at address 8, and a trip count of 3. -/
def sLoop : State := withBytes (at0 (regs [(10, 3)])) 8 [0#8, 0x80#8, 0#8, 0#8]
theorem witness_LoopSetup : Quiet sLoop ∧ (Instr.loop 3#4 10#6 4#32).cause = none ∧ FreeLevel sLoop.me 0 ∧ 4 ≤ (4#32 : BitVec 32).toInt ∧
    codeTarget sLoop.me (BitVec.ofInt 64 (sLoop.me.pc.toNat + 2 * (4#32 : BitVec 32).toInt)) ∧ sLoop.me.rx 10#6 ≠ 0#32 ∧ sLoop.me.rx 11#6 = 0#32 ∧
    fetchBundle sLoop sLoop.turn.val (BitVec.ofInt 64 (sLoop.me.pc.toNat + 2 * (4#32 : BitVec 32).toInt)) = .ok [(0, .s, .nop)] 2 :=
  ⟨quiet_of _ (by decide +kernel), by decide +kernel, ⟨by decide, by decide +kernel, fun m h => absurd h (Nat.not_lt_zero m)⟩, by decide +kernel,
    by simp only [target_iff]; decide +kernel, by decide +kernel, by decide +kernel, by decide +kernel⟩
def sLoopx : State := at0 fun c => { c with pool := c.pool.write (c.padAddr false 4) [3#8] }
theorem witness_LoopxSetup : Quiet sLoopx ∧ (Instr.loopx 0#4 1#6 2#6 4#32).cause = none ∧ FreeLevel sLoopx.me 0 ∧ NoBusy sLoopx.me ∧
    codeTarget sLoopx.me (BitVec.ofInt 64 (sLoopx.me.pc.toNat + 2 * (4#32 : BitVec 32).toInt)) ∧
    0 = (sLoopx.me.rx 1#6).toNat + 4 * (sLoopx.me.rx 2#6).toNat ∧ 0 + 8 ≤ sLoopx.me.padSize ∧ sLoopx.me.viewS &&& bankSet false 0 8 = 0#32 ∧
    0 = bytesToNat (sLoopx.me.padBytes false 0 4) ∧ 3 = bytesToNat (sLoopx.me.padBytes false 4 4) :=
  ⟨quiet_of _ (by decide +kernel), by decide +kernel, ⟨by decide, by decide +kernel, fun m h => absurd h (Nat.not_lt_zero m)⟩, by unfold NoBusy; decide +kernel,
    by simp only [target_iff]; decide +kernel, by decide +kernel, by decide +kernel, by decide +kernel, by decide +kernel, by decide +kernel⟩
/-- A loop of `st` stages at level 0 whose end bundle is at hand, with `lc` iterations to start. -/
def sEdge (st : BitVec 2) (lc : Word) (k1 : Mask) : State := at0 fun c =>
  { c with loops := c.loops.set 0 ⟨true, 0#64, 0#64, st, false, 0⟩, lc := c.lc.set 0 lc, k := c.k.set 1 k1 }
def edgeOf (p : BitVec 2 × Nat × Nat) : State := sEdge p.1 (BitVec.ofNat 32 p.2.1) (BitVec.ofNat 128 p.2.2)
theorem witness_BackEdges : ∀ p ∈ ([(0#2, 2, 0), (0#2, 0, 0), (3#2, 2, 0), (1#2, 0, 1)] : List (BitVec 2 × Nat × Nat)),
    Calm (edgeOf p) ∧ (edgeOf p).me.innermost = some 0 ∧ ((edgeOf p).me.loopAt 0).stop = (edgeOf p).me.pc ∧
    (edgeOf p).requested (edgeOf p).me = false ∧ ((edgeOf p).me.freeLoop 0).innermost = none ∧
    ((edgeOf p).me.loopAt 0).stages = p.1 ∧ (edgeOf p).me.lcAt 0 = BitVec.ofNat 32 p.2.1 := by
  intro p hp
  refine ⟨calm_of _ ?_, ?_⟩ <;> revert p <;> decide +kernel
theorem witness_BackEdges_drained : drained (stagesAfter (sEdge 1#2 0#32 1#128).me 1 0#32) 1 ∧ ¬ drained (stagesAfter (sEdge 3#2 2#32 0#128).me 3 2#32) 3 := by
  unfold drained; decide +kernel
/-- Two NOPs with E = 1 behind an LMARK. -/
def sMark : State := withBytes base 4 [0#8, 0x80#8, 0#8, 0#8, 0#8, 0x80#8, 0#8, 0#8]
theorem witness_LoopPin : Quiet sMark ∧ (Instr.lmark 2#10).cause = none ∧ (Instr.lmark 64#10).cause = none ∧
    (pinEnd sMark sMark.turn.val (after sMark (.lmark 2#10)) 2 (after sMark (.lmark 2#10)) none).isRight = true ∧
    (pinCopy sMark sMark.turn.val (after sMark (.lmark 2#10)) 2).isSome = true :=
  ⟨quiet_of _ (by decide +kernel), by decide +kernel⟩
theorem witness_ReadSystem : Quiet base ∧ sysRegInfo 0#12 = some (32, false) ∧ sysRegInfo 6#12 = some (64, false) ∧ (3#6 : BitVec 6).getLsbD 0 = true ∧
    (2#6 : BitVec 6).getLsbD 0 = false ∧ sysRegInfo 0x016#12 = none := ⟨quiet_of _ (by decide +kernel), by decide +kernel⟩
theorem witness_WriteSystem : Quiet base ∧ base.me.raised = [] ∧ sysRegInfo 1#12 = some (32, true) ∧ sysRegInfo 0x015#12 = some (32, true) ∧
    sysRegInfo 0x006#12 ≠ some (32, true) := ⟨quiet_of _ (by decide +kernel), by decide +kernel⟩
theorem witness_NoOperand : Quiet (at0 (regs [(2, 0x1003)])) ∧ (((at0 (regs [(2, 0x1003)])).me.rx 2#6).extractLsb' 8 5).toNat = 16 :=
  ⟨quiet_of _ (by decide +kernel), by decide +kernel⟩
theorem witness_Trap : Quiet base := quiet_of _ (by decide +kernel)
/-- A ring at 0x100 of two slots at 0x200, whose slot 0 holds sequence word `q`. -/
def sRing (q : Nat) : State := withBytes (withBytes (at0 fun c => regs [(2, 0x100), (4, 0), (5, c.padSize)] c) 0x110 (natToBytes 12 (0x200 + 2 ^ 64))) 0x200 (natToBytes 8 q)
theorem witness_WaitIssue : Quiet (sRing 0) ∧ Quiet (sRing 1) ∧ (sRing 0).me.carve = none ∧ (Instr.fwait 4#6).cause = none ∧
    ((sRing 0).me.rx 4#6).toNat + ((sRing 0).me.rx 5#6).toNat ≤ (sRing 0).me.padSize ∧ (Instr.mwait 3#2 4#4).cause = none ∧ (Instr.mwait 0#2 6#4).cause = none ∧
    (Instr.waitq 2#6).cause = none ∧ (sRing 0).me.rpair 2#6 = BitVec.ofNat 64 0x100 ∧ (sRing 0).me.refa = 0 ∧
    (sRing 1).me.refa = 0 ∧ lookRing (sRing 0) (sRing 0).turn.val [] 0x100 = .no ∧
    lookRing (sRing 1) (sRing 1).turn.val [] 0x100 = .yes :=
  ⟨quiet_of _ (by decide +kernel), quiet_of _ (by decide +kernel), by decide +kernel⟩
def sEnd : State := { at0 (fun c => { c with waits := [.ending] }) with groups := [(0, { fetchGroup with size := 2, cores := [0, 1] })] }
theorem witness_TaskEnds : Between sEnd [.ending] ∧ endReady sEnd sEnd.turn.val = true ∧ sEnd.me.refa = 0 ∧
    ∀ g, Tab.get? sEnd.groups sEnd.me.gid = some g → g.ended.length + 1 < g.size := by
  refine ⟨between_of _ _ (by decide +kernel), by decide +kernel, by decide +kernel, fun g hg => ?_⟩
  have h : g = { fetchGroup with size := 2, cores := [0, 1] } := by
    have : some g = some { fetchGroup with size := 2, cores := [0, 1] } := hg.symm.trans (by decide +kernel)
    exact Option.some.inj this
  subst h; decide
/-- A task that waits, with an unsettled line or a halted or busy slot. -/
def sWait (w : Wait) (armed : Bool) (st : SlotState) : State := at0 fun c =>
  { c with waits := [w], lands := c.lands.set 0 ⟨armed, 0, 128, 0⟩, slots := c.slots.set 1 { MSlot.zero with st := st, reason := 3 } }
/-- FWAIT with its lines unsettled and settled; MWAIT over a busy slot, over a free one whose macro has run, with and without its acquire, and over a halted one. -/
theorem witness_WaitsHold : (∀ p ∈ ([(false, true), (true, false)] : List (Bool × Bool)), Between (sWait (.fwait true 0 0 p.1) p.2 .free) [.fwait true 0 0 p.1] ∧
      fwaitReady (sWait (.fwait true 0 0 p.1) p.2 .free).me true 0 0 = p.1) ∧
    (∀ p ∈ ([(true, false, 0#2, false, .busy), (false, false, 1#2, true, .free), (false, true, 1#2, true, .free), (false, true, 1#2, true, .halted)] :
        List (Bool × Bool × BitVec 2 × Bool × SlotState)),
      Between (sWait (.mwait p.1 p.2.1 p.2.2.1 p.2.2.2.1) false p.2.2.2.2) [.mwait p.1 p.2.1 p.2.2.1 p.2.2.2.1] ∧
      mwaitReady (sWait (.mwait p.1 p.2.1 p.2.2.1 p.2.2.2.1) false p.2.2.2.2).me p.1 p.2.2.1 = p.2.2.2.1) ∧
    (haltedSlot (sWait (.mwait false true 1#2 true) false .free).me false 1#2 = none ∧ ((sWait (.mwait false true 1#2 true) false .free).me.slotAt 1#2).reason ≠ 0) ∧
    (haltedSlot (sWait (.mwait false true 1#2 true) false .halted).me false 1#2).map (·.1) = some 1 := by
  refine ⟨fun p hp => ⟨between_of _ _ ?_, ?_⟩, fun p hp => ⟨between_of _ _ ?_, ?_⟩, by decide +kernel, by decide +kernel⟩ <;> revert p <;> decide +kernel

/-! ### Witnesses: vectors, tiles and the scratchpad -/

theorem ok_of {ε α : Type} {e : Except ε α} {a : α} (h : e.toOption = some a) : e = .ok a := by
  cases e with
  | ok b => exact congrArg Except.ok (Option.some.inj h)
  | error x => cases h
/-- A valid descriptor of one dimension of `n` elements. -/
def descOf (fmt base n : Nat) : BitVec 1024 :=
  BitVec.ofNat 1024 (fmt + 2 ^ 8 + 2 ^ 16 + base * 2 ^ 64 + n * 2 ^ 128 + 2 ^ 160 + 2 ^ 192 + 2 ^ 224)
def vo (t : BitVec 4) (vd : BitVec 7) : VOps := vop t 0#2 0#2 127#8 2#8 0#4 vd 0#1
theorem witness_VectorResults : Quiet base ∧ ∀ p ∈ ([(.vadd (vo 3#4 127#7), ⟨vo 3#4 127#7, 2, true, false, fun e x y _ => vArith .add e x y 0#4096⟩),
    (.vabs (vop 0#4 0#2 0#2 1#8 0#8 0#4 3#7 0#1), ⟨vop 0#4 0#2 0#2 1#8 0#8 0#4 3#7 0#1, 2, false, false, fun e x _ _ => vAbs e x⟩)] : List (Instr × VecOp)),
    p.1.cause = none ∧ vecOp base.me p.1 = some p.2 ∧ p.2.Legal base.me := by
  refine ⟨quiet_of _ (by decide +kernel), fun p hp => ?_⟩
  simp only [List.mem_cons, List.not_mem_nil, or_false] at hp
  rcases hp with rfl | rfl
  · exact ⟨by decide +kernel, rfl, by unfold VecOp.Legal vLegal; decide +kernel⟩
  · exact ⟨by decide +kernel, rfl, by unfold VecOp.Legal vLegal; decide +kernel⟩
theorem witness_VectorIntegers : Quiet base ∧ (Instr.vadd (vo 3#4 127#7)).cause = none ∧
    vecOp base.me (.vadd (vo 3#4 127#7)) = some ⟨vo 3#4 127#7, 2, true, false, fun e x y _ => vArith .add e x y 0#4096⟩ ∧
    (⟨vo 3#4 127#7, 2, true, false, fun e x y _ => vArith .add e x y 0#4096⟩ : VecOp).Legal base.me ∧ (vo 3#4 127#7).sat = 0#1 ∧
    (vType (vo 3#4 127#7)).int? = some true ∧ (intElem true 32 0 0 0 (.vadd (vo 3#4 127#7))).isSome = true :=
  ⟨quiet_of _ (by decide +kernel), by decide +kernel, rfl, by unfold VecOp.Legal vLegal; decide +kernel, by decide +kernel⟩
theorem witness_MaskResults : Quiet base ∧ (Instr.vcmp (vo 3#4 1#7)).cause = none ∧ vLegal base.me 127#7 ∧ vLegal base.me 2#7 ∧
    (Instr.vklog (vop 0#4 0#2 0#2 1#8 2#8 8#4 3#7 0#1)).cause = none ∧ (Instr.vkpop (vop 0#4 0#2 0#2 7#8 0#8 0#4 3#7 0#1)).cause = none :=
  ⟨quiet_of _ (by decide +kernel), by decide +kernel, by unfold vLegal; decide +kernel, by unfold vLegal; decide +kernel, by decide +kernel⟩
theorem tile_legal : tLegal base.me 31#6 ∧ vLegal base.me (1#1 ++ 63#6) := by unfold tLegal vLegal; decide +kernel
/-- Tile 31 belongs to slot 1. -/
def sOwned : State := at0 fun c => { c with tiles := [(31, ⟨some 1#2, 5, 0, false⟩)] }
theorem witness_TileReads : Quiet base ∧ tLegal base.me 31#6 ∧ (base.me.tileInfo 31).owner = none ∧ vLegal base.me ((1#4 : BitVec 4).extractLsb' 0 1 ++ 63#6) ∧
    (Instr.zrd 31#6 1#6 63#6 1#4).cause = none ∧ (Instr.zrds 31#6 1#6 63#6 3#4).cause = none ∧ (base.me.tileInfo 31).first ≤ base.me.ic ∧
    (base.me.tileInfo 31).slow = false ∧ Quiet sOwned ∧ tLegal sOwned.me 31#6 ∧ (sOwned.me.tileInfo 31).owner.isSome = true :=
  ⟨quiet_of _ (by decide +kernel), by unfold tLegal; decide +kernel, by decide +kernel, by unfold vLegal; decide +kernel, by decide +kernel, by decide +kernel,
    by decide +kernel, by decide +kernel, quiet_of _ (by decide +kernel), by unfold tLegal; decide +kernel, by decide +kernel⟩
def sImage : State := at0 fun c => regs [(1, c.padSize - 16384)] c
theorem witness_TileImages : Quiet sImage ∧ tLegal sImage.me 0#6 ∧ (sImage.me.tileInfo 0).owner = none ∧ NoBusy sImage.me ∧
    (sImage.me.rx 1#6).toNat % 2048 = 0 ∧ (sImage.me.rx 1#6).toNat + 16384 ≤ sImage.me.padSize ∧ (Instr.zst 0#6 1#6 3#4).cause = none ∧
    (Instr.zld 0#6 1#6 3#4).cause = none ∧ ViewClear sImage.me true (BitVec.allOnes 32) :=
  ⟨quiet_of _ (by decide +kernel), by unfold tLegal; decide +kernel, by decide +kernel, by unfold NoBusy; decide +kernel, by decide +kernel, by decide +kernel,
    by decide +kernel, by decide +kernel, by unfold ViewClear; decide +kernel⟩
/-- Descriptors 2 and 3 hold bf16 tensors, 4 an f32 one and 6 an i8 one. -/
def sDense : State := at0 fun c => { regs [(10, 0x4000), (11, 0x6000)] c with descs := [(2, descOf 1 0 64), (3, descOf 1 0 64), (4, descOf 0 0 64), (6, descOf 7 0 64)] }
theorem witness_DenseStep : Quiet sDense ∧ (∀ p ∈ ([(2#8, 3#8), (6#8, 6#8)] : List (BitVec 8 × BitVec 8)), (Instr.zmma ⟨8#6, 10#6, 11#6, 0#4, p.1, p.2⟩).cause = none) ∧
    tLegal sDense.me 8#6 ∧ (sDense.me.tileInfo 8).owner = none ∧ NoBusy sDense.me ∧ sDense.me.viewS = 0#32 ∧
    -- a pair of floating and a pair of integer panels
    (∀ p ∈ ([(2#8, .bf16), (6#8, .i8)] : List (BitVec 8 × ElemT)), (zFormats sDense.me.fmte p.1 p.1 (descAt sDense sDense.turn.val p.1) (descAt sDense sDense.turn.val p.1)).toOption = some (p.2, p.2) ∧
      (sDense.me.rx 10#6).toNat + (panelBytes p.2 (kStep p.2 p.2) + scaleBytes p.2 (kStep p.2 p.2)) ≤ sDense.me.padSize ∧
      (sDense.me.rx 11#6).toNat + (panelBytes p.2 (kStep p.2 p.2) + scaleBytes p.2 (kStep p.2 p.2)) ≤ sDense.me.padSize) ∧
    (ElemT.bf16.int?.isSome = false ∧ ElemT.i8.int?.isSome = true) ∧ (sDense.me.rx 10#6).toNat % 2048 = 0 ∧ (sDense.me.rx 11#6).toNat % 2048 = 0 :=
  ⟨quiet_of _ (by decide +kernel), fun p hp => by simp only [List.mem_cons, List.not_mem_nil, or_false] at hp; rcases hp with rfl | rfl <;> decide +kernel, by unfold tLegal; decide +kernel, by decide +kernel, by unfold NoBusy; decide +kernel, by decide +kernel,
    by decide +kernel, by decide +kernel, by decide +kernel, by decide +kernel⟩
theorem witness_Butterflies : Quiet sDense ∧ (Instr.bfly ⟨8#6, 10#6, 0#6, 0#4, 4#8, 0#8⟩).cause = none ∧ tLegal sDense.me 8#6 ∧
    (sDense.me.tileInfo 8).owner = none ∧ NoBusy sDense.me ∧ sDense.me.viewS = 0#32 ∧
    (opBfly ⟨8#6, 10#6, 0#6, 0#4, 4#8, 0#8⟩ sDense (place sDense (.bfly ⟨8#6, 10#6, 0#6, 0#4, 4#8, 0#8⟩))).excs = [] ∧
    (Instr.bfch ⟨8#6, 10#6, 11#6, 15#4, 4#8, 4#8⟩).cause = none ∧
    (opBfch ⟨8#6, 10#6, 11#6, 15#4, 4#8, 4#8⟩ sDense (place sDense (.bfch ⟨8#6, 10#6, 11#6, 15#4, 4#8, 4#8⟩))).excs = [] ∧
    (∀ p ∈ ([(4#8, .f32), (2#8, .bf16)] : List (BitVec 8 × ElemT)), validKind sDense.me.fmte (descAt sDense sDense.turn.val p.1) = some (.el p.2) ∧
      (opBfly ⟨8#6, 10#6, 0#6, 0#4, p.1, 0#8⟩ sDense (place sDense (.bfly ⟨8#6, 10#6, 0#6, 0#4, p.1, 0#8⟩))).excs = []) :=
  ⟨quiet_of _ (by decide +kernel), by decide +kernel, by unfold tLegal; decide +kernel, by decide +kernel, by unfold NoBusy; decide +kernel,
    by decide +kernel, by decide +kernel, by decide +kernel, by decide +kernel, by decide +kernel⟩
def sControl : State := at0 (regs [(1, 0), (2, 0x6000)])
theorem witness_ArrayControls : Quiet sControl ∧ (Instr.bfset 7#6 1#6 2#4).cause = none ∧ fmteNsub (sControl.me.rx 1#6) ≠ 3#2 ∧
    (∃ w : Word, fmteNsub w = 3#2 ∧ Quiet (at0 fun c => regs [(2, w.toNat)] c) ∧ fmteNsub ((at0 fun c => regs [(2, w.toNat)] c).me.rx 2#6) = 3#2) :=
  ⟨quiet_of _ (by decide +kernel), by decide +kernel, by decide +kernel, 0xFFFFFFFF#32, by decide +kernel, quiet_of _ (by decide +kernel), by decide +kernel⟩
/-- x2:x3 names offset `o` of the core's own scratchpad, x4:x5 global address 0x1000; x6:x7 an offset and a length. -/
def sLocal (o : Nat) : State := at0 (regs [(2, o), (3, 0x80003F00), (4, 0x1000), (5, 0), (6, 0), (7, 128), (12, 64), (13, 3)])
theorem witness_ScratchpadLoads : ∀ p ∈ ([(0#3, 2555903), (4#3, 2555392), (3#3, 0), (5#3, 16)] : List (BitVec 3 × Nat)),
    Quiet (sLocal p.2) ∧ (Instr.sld (lop p.1 2#7 1#5 0#2 0#2 0#2)).cause = none ∧ OwnAt (sLocal p.2) (lop p.1 2#7 1#5 0#2 0#2 0#2) p.2 ∧
    dLegal (sLocal p.2).me (lop p.1 2#7 1#5 0#2 0#2 0#2) ∧ NoBusy (sLocal p.2).me ∧ ViewClear (sLocal p.2).me false (bankSet false p.2 (szBytes p.1)) := by
  intro p hp
  simp only [dLegal, vLegal, OwnAt, NoBusy, ViewClear]
  refine ⟨quiet_of _ ?_, ?_⟩ <;> revert p <;> decide +kernel
theorem witness_ScratchpadStores : ∀ p ∈ ([(0#3, 2555903), (4#3, 2555392), (3#3, 8), (5#3, 16)] : List (BitVec 3 × Nat)),
    Quiet (sLocal p.2) ∧ (Instr.sst (lop p.1 2#7 1#5 0#2 0#2 0#2)).cause = none ∧ OwnAt (sLocal p.2) (lop p.1 2#7 1#5 0#2 0#2 0#2) p.2 ∧
    dLegal (sLocal p.2).me (lop p.1 2#7 1#5 0#2 0#2 0#2) ∧ NoBusy (sLocal p.2).me := by
  intro p hp
  simp only [dLegal, vLegal, OwnAt, NoBusy]
  refine ⟨quiet_of _ ?_, ?_⟩ <;> revert p <;> decide +kernel
def oChunk : LOps := ⟨4#3, 0#1, 0#2, 10#7, 1#5, 0#24, 12#6, 0#2, 0#2, 0#2⟩
theorem witness_ChunkMoves : Quiet (sLocal 0) ∧ vLegal (sLocal 0).me oChunk.d ∧ NoBusy (sLocal 0).me ∧
    chunkOffs (sLocal 0) (sLocal 0).turn.val oChunk = some [0, 64, 128, 192, 256, 320, 384, 448] ∧
    ([0, 64, 128, 192, 256, 320, 384, 448] : List Nat).Pairwise (fun p q => bankOf false p ≠ bankOf false q) ∧ (Instr.slw oChunk).cause = none ∧
    (∀ q ∈ ([0, 64, 128, 192, 256, 320, 384, 448] : List Nat), ViewClear (sLocal 0).me false (bankSet false q 64)) ∧ (Instr.ssw oChunk).cause = none :=
  ⟨quiet_of _ (by decide +kernel), by unfold vLegal; decide +kernel, by unfold NoBusy; decide +kernel, by decide +kernel, by decide +kernel, by decide +kernel,
    by unfold ViewClear; decide +kernel, by decide +kernel⟩
theorem witness_ScratchpadAtomics : ∀ p ∈ ([(2#3, 0#2, 32), (3#3, 2#2, 64), (2#3, 3#2, 32), (3#3, 1#2, 64)] : List (BitVec 3 × BitVec 2 × Nat)),
    Quiet (sLocal 64) ∧ (Instr.samo (lop p.1 4#7 1#5 0#2 0#2 p.2.1)).cause = none ∧ OwnAt (sLocal 64) (lop p.1 4#7 1#5 0#2 0#2 p.2.1) 64 ∧
    NoBusy (sLocal 64).me ∧ ViewClear (sLocal 64).me false (bankSet false 64 (szBytes p.1)) ∧ p.2.2 = 8 * szBytes p.1 := by
  intro p hp
  simp only [OwnAt, NoBusy, ViewClear]
  refine ⟨quiet_of _ ?_, ?_⟩ <;> revert p <;> decide +kernel
/-- Core 1 runs a task of the same group; x2:x3 names its scratchpad. -/
def sDie : State := (at0 (regs [(2, 0x40), (3, 0x80000100)])).modCore 1 fun _ => fetchCore []
theorem witness_DieAccesses : ∀ sz ∈ ([0#3, 3#3, 5#3] : List (BitVec 3)), Quiet sDie ∧ dLegal sDie.me (lop sz 2#7 1#5 0#2 0#2 0#2) ∧
    dieRange sDie sDie.turn.val (eaOf sDie.me 1#5 0#6 0#24) (szBytes sz) (szBytes sz) = some (1, 64) ∧
    (Instr.sldx (lop sz 2#7 1#5 0#2 0#2 0#2)).cause = none ∧ (Instr.sstx (lop sz 2#7 1#5 0#2 0#2 0#2)).cause = none := by
  intro p hp
  simp only [dLegal, vLegal]
  refine ⟨quiet_of _ ?_, ?_⟩ <;> revert p <;> decide +kernel

/-! ### Witnesses: global memory -/

def oGlob (sz : BitVec 3) (ord scope : BitVec 2) : LOps := lop sz 6#7 2#5 ord scope 0#2
theorem walk_fresh (s : State) (h : s.tlb = []) (ctx va : Nat) : ∀ fuel lv t, (walkCachedFrom s ctx va fuel lv t).1 = walkFrom s va fuel lv t
  | 0, _, _ => rfl
  | fuel + 1, lv, t => by
    unfold walkCachedFrom walkFrom
    simp only [cachedAt, h, List.filter_nil, List.map_nil, List.find?_nil]
    split
    · rfl
    · split
      · rfl
      · split
        · rfl
        · split
          · rfl
          · exact walk_fresh s h ctx va fuel _ _
theorem fresh_of (s : State) (h : s.tlb = []) : TlbFresh s := fun ctx va => by
  unfold walkCached walkUsed walk
  split
  · rfl
  · exact walk_fresh s h ctx va _ _ _
theorem witness_GlobalLoads : Quiet (sLocal 0) ∧ TlbFresh (sLocal 0) ∧ dLegal (sLocal 0).me (oGlob 4#3 0#2 0#2) ∧ (Instr.gld (oGlob 4#3 0#2 0#2)).cause = none ∧
    GlobAt (sLocal 0) 2#5 0#6 0#24 1 0x1000 ∧ Mapped (sLocal 0) ⟨.read, false, false, false⟩ 0x1000 512 ∧ Mapped (sLocal 0) ⟨.read, false, false, true⟩ 0x1000 8 ∧
    (Instr.gamo (oGlob 3#3 0#2 0#2)).cause = none ∧ GlobAt (sLocal 0) 2#5 0#6 0#24 8 0x1000 ∧ Mapped (sLocal 0) ⟨.atomic, true, false, false⟩ 0x1000 8 :=
  ⟨quiet_of _ (by decide +kernel), fresh_of _ (by decide +kernel), by unfold dLegal vLegal; decide +kernel, by decide +kernel, by unfold GlobAt; decide +kernel,
    by unfold Mapped; decide +kernel, by unfold Mapped; decide +kernel, by decide +kernel, by unfold GlobAt; decide +kernel, by unfold Mapped; decide +kernel⟩
/-- A ring of two slots at 0x1000 whose slots stand at 0x1040 on. -/
def sGRing : State := withBytes (sLocal 0) 0x1010 (natToBytes 12 (0x1040 + 2 ^ 64))
def ringHead : List Byte := List.replicate 16 0#8 ++ natToBytes 16 (0x1040 + 2 ^ 64)
theorem witness_GlobalLoads_rings : Quiet sGRing ∧ TlbFresh sGRing ∧ GlobAt sGRing 2#5 0#6 0#24 64 0x1000 ∧ (Instr.enq (oGlob 3#3 0#2 2#2)).cause = none ∧
    (Instr.deq (oGlob 3#3 0#2 2#2)).cause = none ∧ Mapped sGRing ⟨.atomic, true, false, false⟩ 0x1000 32 ∧ vBytes sGRing sGRing.me.ctx 0x1000 32 = some ringHead ∧
    (ringOf ringHead).ok = true ∧ Mapped sGRing ⟨.atomic, false, false, false⟩ ((ringOf ringHead).slot (ringOf ringHead).ridx) 8 ∧
    Mapped sGRing ⟨.atomic, false, false, false⟩ ((ringOf ringHead).slot (ringOf ringHead).widx) 8 :=
  ⟨quiet_of _ (by decide +kernel), fresh_of _ (by decide +kernel), by unfold GlobAt; decide +kernel, by decide +kernel, by decide +kernel,
    by unfold Mapped; decide +kernel, by decide +kernel, by decide +kernel, by unfold Mapped; decide +kernel, by unfold Mapped; decide +kernel⟩
theorem witness_GlobalStores : Quiet (sLocal 0) ∧ TlbFresh (sLocal 0) ∧ dLegal (sLocal 0).me (oGlob 4#3 0#2 0#2) ∧ (Instr.gst (oGlob 4#3 0#2 0#2)).cause = none ∧
    (Instr.gst (oGlob 5#3 2#2 2#2)).cause = none ∧ GlobAt (sLocal 0) 2#5 0#6 0#24 1 0x1000 ∧ Mapped (sLocal 0) ⟨.write, true, false, false⟩ 0x1000 512 :=
  ⟨quiet_of _ (by decide +kernel), fresh_of _ (by decide +kernel), by unfold dLegal vLegal; decide +kernel, by decide +kernel, by decide +kernel,
    by unfold GlobAt; decide +kernel, by unfold Mapped; decide +kernel⟩
theorem witness_Transfers : Quiet (sLocal 0) ∧ XferAt (sLocal 0).me 6#7 0 128 ∧ GlobAt (sLocal 0) 2#5 0#6 0#24 128 0x1000 ∧ TlbFresh (sLocal 0) ∧
    ((sLocal 0).me.jobs.filter fun j => j.kind.isFe).length < 16 ∧ (Instr.fetch (oGlob 3#3 1#2 0#2)).cause = none ∧ (Instr.wback (oGlob 3#3 2#2 0#2)).cause = none ∧
    Mapped (sLocal 0) ⟨.read, false, false, false⟩ 0x1000 128 ∧ Mapped (sLocal 0) ⟨.write, true, false, false⟩ 0x1000 128 ∧
    (Instr.fetchLand 6#7 7#3).cause = none ∧ ((sLocal 0).me.lands[7]).armed = false :=
  ⟨quiet_of _ (by decide +kernel), by unfold XferAt; decide +kernel, by unfold GlobAt; decide +kernel, fresh_of _ (by decide +kernel), by decide +kernel,
    by decide +kernel, by decide +kernel, by unfold Mapped; decide +kernel, by unfold Mapped; decide +kernel, by decide +kernel⟩
theorem witness_Fences : Quiet base ∧ (Instr.fence 3#2 2#2).cause = none ∧ (Instr.xfence 6#4 0#4 3#2).cause = none ∧ pathOfCode 6 = some .lk ∧ pathOfCode 0 = some .lsu :=
  ⟨quiet_of _ (by decide +kernel), by decide +kernel⟩
theorem witness_Retention : Quiet (sLocal 0) ∧ GlobAt (sLocal 0) 2#5 0#6 0#24 128 0x1000 ∧ (Instr.retain 12#7 2#5 0#24 0#6).cause = none ∧
    (Instr.unpin 0#7 2#5 0#24 0#6).cause = none := ⟨quiet_of _ (by decide +kernel), by unfold GlobAt; decide +kernel, by decide +kernel⟩
theorem witness_Barriers : Quiet (sLocal 0) ∧ GlobAt (sLocal 0) 2#5 0#6 0#24 64 0x1000 ∧ TlbFresh (sLocal 0) ∧ (Instr.barm (oGlob 0#3 2#2 1#2)).cause = none ∧
    (Instr.bara (oGlob 0#3 2#2 3#2)).cause = none ∧ (Instr.barw (oGlob 0#3 1#2 2#2)).cause = none ∧ Mapped (sLocal 0) ⟨.atomic, true, false, false⟩ 0x1000 64 ∧
    Mapped (sLocal 0) ⟨.read, false, false, false⟩ 0x1000 64 :=
  ⟨quiet_of _ (by decide +kernel), by unfold GlobAt; decide +kernel, fresh_of _ (by decide +kernel), by decide +kernel, by decide +kernel, by decide +kernel,
    by unfold Mapped; decide +kernel, by unfold Mapped; decide +kernel⟩

/-! ### Witnesses: macro-instructions, copies and descriptors -/

/-- A block at offset 0 whose work region is the whole of its first 32 KiB and whose bytes 16 on are `tail`; x2:x3 names it; descriptors 5 and 6
hold f32 tensors of the own scratchpad, 7 an f32 tensor of one element. -/
def macroCore (tail : List Byte) (c : Core) : Core :=
  { regs [(2, 0), (3, 0x80003F00), (4, 0x800), (5, 256), (6, 0x1000)] c with
    pool := (c.pool.write (c.padAddr false 8) (natToBytes 4 32768)).write (c.padAddr false 16) tail,
    descs := [(5, descOf 0 0x80003F0000010000 64), (6, descOf 0 0x80003F0000014000 64), (7, descOf 0 0x80003F0000010000 1)] }
def sMacro (tail : List Byte) : State := at0 (macroCore tail)
theorem exists_of_any {α : Type} {o : Option α} {p : α → Bool} (h : o.any p = true) : ∃ a, o = some a ∧ p a = true := by
  cases o with
  | none => cases h
  | some a => exact ⟨a, rfl, h⟩
def macroGood (s : State) (op : Nat) (o : XOps) (p : MSlot × MChk → Bool) : Bool :=
  match paramPlace s s.turn.val (blockAddr s.me o.bp o.p3) with
  | none => false
  | some pl => decide (blockExcs s s.turn.val op [o.td0, o.td1, o.td2] pl = []) &&
    (macroFor s s.turn.val o.tag.toNat op (o.fl.toNat / 2) o.td0 o.td1 o.td2 (blockAddr s.me o.bp o.p3) pl).any fun x =>
      decide (x.2.excs = []) && decide (x.1.zn = 0) && decide (op ≠ 7) && p x
theorem macro_ready (s : State) (op : Nat) (o : XOps) (p : MSlot × MChk → Bool) (h1 : decide (s.me.param ≠ 0) = true)
    (h2 : s.me.slots.toList.all (fun m => m.st != .busy) = true) (h : macroGood s op o p = true) :
    ∃ m k, MacroReady s op o m k ∧ p (m, k) = true := by
  unfold macroGood at h
  split at h
  · cases h
  · rename_i pl hpl
    rw [Bool.and_eq_true, decide_eq_true_eq] at h
    obtain ⟨⟨m, k⟩, hm, hp⟩ := exists_of_any h.2
    simp only [Bool.and_eq_true, decide_eq_true_eq] at hp
    obtain ⟨⟨⟨e1, e2⟩, e3⟩, e4⟩ := hp
    exact ⟨m, k, ⟨of_decide_eq_true h1, ⟨pl, hpl, h.1, hm⟩, e1, fun e => absurd e e3, h2, fun j hj => by omega⟩, e4⟩
def oMacro (td0 td1 : BitVec 8) : XOps := ⟨0#2, 0#4, 1#5, td0, td1, 0#8, 0#16⟩
/-- MCOPY of 64 elements, MIXCH of a vector that is only LOCAL, and MPOOL with a window larger than its input. -/
theorem witness_MacroIssue : Quiet (sMacro []) ∧ macroOp (.mcopy (oMacro 5#8 6#8)) = some (5, oMacro 5#8 6#8) ∧ (Instr.mcopy (oMacro 5#8 6#8)).cause = none ∧
    (∃ m k, MacroReady (sMacro []) 5 (oMacro 5#8 6#8) m k ∧ (!k.zero && !k.done) = true) ∧
    (Instr.mixch (oMacro 5#8 0#8)).cause = none ∧ (∃ m k, MacroReady (sMacro []) 0x12 (oMacro 5#8 0#8) m k ∧ (!k.zero && k.done) = true) ∧
    Quiet (sMacro [0#8, 2#8, 1#8, 1#8, 1#8, 0#8, 0#8, 1#8, 1#8]) ∧ (Instr.mpool (oMacro 7#8 7#8)).cause = none ∧
    (∃ m k, MacroReady (sMacro [0#8, 2#8, 1#8, 1#8, 1#8, 0#8, 0#8, 1#8, 1#8]) 3 (oMacro 7#8 7#8) m k ∧ k.zero = true) := by
  refine ⟨quiet_of _ (by decide +kernel), by decide +kernel, by decide +kernel,
    macro_ready _ 5 _ (fun x => !x.2.zero && !x.2.done) (by decide +kernel) (by decide +kernel) (by decide +kernel), by decide +kernel,
    macro_ready _ 0x12 _ (fun x => !x.2.zero && x.2.done) (by decide +kernel) (by decide +kernel) (by decide +kernel), quiet_of _ (by decide +kernel), by decide +kernel,
    macro_ready _ 3 _ (fun x => x.2.zero) (by decide +kernel) (by decide +kernel) (by decide +kernel)⟩
/-- x4:x5 gives a source and a length, x6 a destination; cores 0 and 1 run the group. -/
def sCopy : State := (at0 (regs [(4, 0), (5, 256), (6, 0x1000), (8, 0x2000), (9, 2)])).modCore 1 fun _ => fetchCore []
def oCopy : XOps := ⟨1#2, 0#4, 2#5, 6#8, 1#8, 0#8, 5#16⟩
theorem witness_CopyIssue : Quiet sCopy ∧ sCopy.me.channelBusy 1#2 = false ∧ (Instr.xcp oCopy).cause = none ∧ copyCore 0 1 = some 1 ∧ copyCore 0 39 = some 39 ∧
    copyCore 0 63 = some 0 ∧ copyBad sCopy 0 0 0x1000 256 [1] = none ∧ (Instr.xmc { oCopy with td1 := 3#8 }).cause = none ∧
    copyBad sCopy 0 0 0x1000 256 (standCores 0 3) = none ∧ (Instr.mxt { oCopy with bp := 4#5, td0 := 0#8, td1 := 0#8 }).cause = none :=
  ⟨quiet_of _ (by decide +kernel), by decide +kernel⟩
/-- A timetable of one entry at 0x2000: start 0, core 1, source 0, destination 0x1000, 128 bytes. -/
def sTable : State := sCopy.modCore 0 fun c => { regs [(9, 1)] c with
  pool := c.pool.write (c.padAddr false 0x2000) (natToBytes 2 0 ++ natToBytes 1 1 ++ natToBytes 1 0 ++ natToBytes 4 0 ++ natToBytes 4 0x1000 ++ natToBytes 4 128) }
theorem witness_CopyIssue_table : Quiet sTable ∧ sTable.me.channelBusy 1#2 = false ∧ sTable.me.param ≠ 0 ∧ 0x2000 + 16 * 1 ≤ sTable.me.padSize ∧
    tableEntries (sTable.me.padBytes false 0x2000 16) 1 = [(0, 1, 0, 0, 0x1000, 128)] ∧
    nondecreasing ((tableEntries (sTable.me.padBytes false 0x2000 16) 1).map (·.1)) = true ∧
    copyBad sTable 0 0 0x1000 128 (entryTargets 0 1 0) = none := ⟨quiet_of _ (by decide +kernel), by decide +kernel⟩
/-- The descriptor table stands at 0x4000; offset 0 of the scratchpad holds a descriptor image. -/
def sDesc : State := { (at0 fun c => { regs [(2, 0), (3, 0x80003F00), (4, 0x1000)] c with pool := c.pool.write (c.padAddr false 0) (natToBytes 128 (descOf 0 0x1000 64).toNat) }) with
  ctxs := [(0, { fetchCtx with tdBase := 0x4000 })] }
theorem ok_ex {ε α : Type} {e : Except ε α} (h : e.toOption.isSome = true) : ∃ a, e = .ok a := by
  cases e with
  | ok a => exact ⟨a, rfl⟩
  | error x => cases h
theorem witness_DescriptorOps : Quiet sDesc ∧ (Instr.mstat 3#2 31#5).cause = none ∧ (Instr.tdinv 255#8).cause = none ∧ (∃ w, entryMem sDesc 255#8 0#1024 = .ok w) ∧
    tdPlace sDesc 0 (blockAddr sDesc.me 1#5 0#16) = some (.loc 0 0) ∧ (Instr.tdw 1#5 255#8 0#16).cause = none ∧ sDesc.me.param ≠ 0 ∧
    placeExcs sDesc 0 128 (.loc 0 0) = [] ∧ placeBytes sDesc 0 128 (.loc 0 0) = some (natToBytes 128 (descOf 0 0x1000 64).toNat) ∧
    (Desc.ofBits (descOf 0 0x1000 64)).wf = true ∧ (∃ w, entryMem sDesc 255#8 (descOf 0 0x1000 64) = .ok w) ∧ NoBusy sDesc.me ∧
    tdPlace sDesc 0 (blockAddr sDesc.me 2#5 0#16) = some (.glob 0x1000) ∧ (Instr.tdr 2#5 0#8 0#16).cause = none ∧
    Mapped sDesc ⟨.write, true, false, false⟩ 0x1000 128 ∧ TlbFresh sDesc :=
  ⟨quiet_of _ (by decide +kernel), by decide +kernel, by decide +kernel, ok_ex (by decide +kernel), by decide +kernel, by decide +kernel, by decide +kernel,
    by decide +kernel, by decide +kernel, by decide +kernel, ok_ex (by decide +kernel), by unfold NoBusy; decide +kernel, by decide +kernel, by decide +kernel,
    by unfold Mapped; decide +kernel, fresh_of _ (by decide +kernel)⟩

/-! ### Witnesses: accesses, returns and copies under way -/

def acc (op : AccOp) (bytes : List Byte) (en : List Bool) (done : Bool) : Access :=
  ⟨7, 0, .lsu, op, 0, 0x21000, 0x1000, 0, bytes, en, false, false, 0#2, 20, 0, 0#64, done, false, 0, 0, false, none, none, false⟩
def sAcc (a : Access) (j : Job) : State := { withBytes (at0 fun c => { c with jobs := [j] }) 0x1000 (natToBytes 8 (1 + 2 ^ 32)) with accesses := [a] }
def loadJob : Job := ⟨20, .loadX 5#6 2#3 false false, 0#64, []⟩
theorem due_of (a : Access) (h : (decide (a.id = 7) && decide (a.core = 0) && decide (a.job = 20) && eligible (sAcc a loadJob) a && decide (keyTier a.key < 3) && !(sAcc a loadJob).poisoned a.key) = true) :
    Due (sAcc a loadJob) 7 a := by
  simp only [Bool.and_eq_true, decide_eq_true_eq, Bool.not_eq_true'] at h
  obtain ⟨⟨⟨⟨⟨h1, h2⟩, h3⟩, h4⟩, h5⟩, h6⟩ := h
  refine ⟨?_, h4, h5, h6, ?_⟩
  · change [a].find? (fun b => b.id == 7) = some a
    simp [h1]
  · intro j hj v o l
    rw [h2, h3] at hj
    have hc : (sAcc a loadJob).cores = (at0 fun c => { c with jobs := [loadJob] }).cores := rfl
    simp only [State.core, hc] at hj
    have hj' : j = loadJob := Option.some.inj (hj.symm.trans (by decide +kernel))
    subst hj'
    exact ⟨(by intro e; cases e), (by intro e; cases e)⟩
theorem witness_AccessSteps : Due (sAcc (acc .read [] (List.replicate 4 true) false) loadJob) 7 (acc .read [] (List.replicate 4 true) false) ∧
    (sAcc (acc .read [] (List.replicate 4 true) false) loadJob).race (.core 0 .lsu) (0x21000 / 128) true false = none ∧
    Due (sAcc (acc .write [9#8] [true] false) loadJob) 7 (acc .write [9#8] [true] false) ∧
    (sAcc (acc .write [9#8] [true] false) loadJob).race (.core 0 .lsu) (0x21000 / 128) false false = none ∧
    ((acc .write [9#8] [true] true).done = true ∧ (acc .write [9#8] [true] true).op.posted = true) ∧
    Due (sAcc (acc (.bara 1 0) [] (List.replicate 64 true) false) loadJob) 7 (acc (.bara 1 0) [] (List.replicate 64 true) false) ∧
    (sAcc (acc (.bara 1 0) [] (List.replicate 64 true) false) loadJob).race (.core 0 .lsu) (0x21000 / 128) false true = none ∧
    Due (sAcc { acc (.bara 0 0) [] (List.replicate 64 true) false with path := .fe } loadJob) 7 { acc (.bara 0 0) [] (List.replicate 64 true) false with path := .fe } ∧
    (sAcc { acc (.bara 0 0) [] (List.replicate 64 true) false with path := .fe } loadJob).race (.core 0 .fe) (0x21000 / 128) false true = none ∧
    (let o := BObj.ofBytes ((sAcc (acc (.bara 1 0) [] (List.replicate 64 true) false) loadJob).mem.bytes 0x21000 64)
     o.bad = false ∧ o.st = 1 ∧ o.narr + 1 ≤ o.nexp ∧ o.barr + 0 ≤ o.bexp) :=
  ⟨due_of _ (by decide +kernel), by decide +kernel, due_of _ (by decide +kernel), by decide +kernel, by decide +kernel, due_of _ (by decide +kernel),
    by decide +kernel, due_of _ (by decide +kernel), by decide +kernel, by decide +kernel⟩
def sJob (k : JobKind) (data : List (Nat × Byte)) : State := at0 fun c => { c with jobs := [⟨20, k, 0#64, data⟩] }
/-- A load of each kind, a retain and a transfer whose accesses are done, on core 0. -/
theorem witness_JobReturns : ∀ k ∈ ([.loadX 5#6 0#3 true false, .loadX 6#6 3#3 false true, .loadX 0#6 2#3 false false, .retain 5#6, .loadV 127#7 0#128,
      .loadK 7#3 1#128, .fetch false 0 128, .wback false 0 128] : List JobKind),
    (sJob k []).jobOf 0 20 = some ⟨20, k, 0#64, []⟩ ∧ (((sJob k []).core 0).remotes.find? (fun r => r.job == 20 && !r.store)) = none ∧
    (sJob k []).jobDone 0 20 = true ∧ (∀ a ∈ (sJob k []).accesses, a.core = 0 → a.job ≠ 20) := by decide +kernel
/-- A BARW whose barrier object's generation has gone by. -/
def statusBytes : List (Nat × Byte) := [(0, 2#8), (1, 0#8), (2, 1#8), (3, 0#8)]
def sBarw : State := { sJob (.barw 5#6 (some 0) (some [])) statusBytes with
  accesses := [{ acc .barw [] (List.replicate 64 true) false with sent := true }], mem := base.mem.write 0x21000 [2#8, 0#8, 1#8] }
theorem witness_JobReturns_barw : sBarw.jobOf 0 20 = some ⟨20, .barw 5#6 (some 0) (some []), 0#64, statusBytes⟩ ∧ statusBytes ≠ [] ∧
    ((sBarw.core 0).remotes.find? (fun r => r.job == 20 && !r.store)) = none ∧
    (BitVec.ofNat 32 (bytesToNat (jobBytes ⟨20, .barw 5#6 (some 0) (some []), 0#64, statusBytes⟩ 4)) : Word).getLsbD 20 = false ∧
    (sBarw.accesses.find? (fun a => a.core == 0 && a.job == 20 && a.op == .barw)).isSome = true ∧ (sBarw.bobj 0x21000).bad = false ∧
    (sBarw.bobj 0x21000).ends 0 = true := by decide +kernel
def rem1 : Remote := ⟨9, 20, 1, true, false, 64, [1#8, 2#8], [true, false], 2, false⟩
def sRemote : State := sDie.modCore 0 fun c => { c with remotes := [rem1] }
theorem witness_CoreEvents : (sRemote.core 0).remotes.find? (fun r => r.id == 9) = some rem1 ∧ rem1.store = true ∧ remoteFirst (sRemote.core 0) rem1 = true ∧
    (sRemote.core 1).st ≠ .free ∧ (sRemote.core 1).gid = (sRemote.core 0).gid ∧ rem1.bytes.length = rem1.en.length ∧ rem1.off + rem1.en.length ≤ (sRemote.core 1).padSize ∧
    (sRemote.core 1).portHeld true (bankSet rem1.view rem1.off rem1.size) = false ∧
    (let s := (sRing 1).modCore 0 fun c => { c with waits := [.waitq 0x100] }
     lookRing s 0 (s.core 0).rlines 0x100 = .yes ∧ waitqBehind s 0 0x100 = false) ∧
    (∃ s : State, s = base.modCore 0 (fun c => { c with cache := [] }) ∧ (s.core 0).st = .running ∧ fetchBundle s 0 (s.core 0).pc = .miss 0 ∧
      codeKey s 0 0 = .ok 0x20000 ∧ keyTier 0x20000 < 3 ∧ s.poisoned 0x20000 = false) :=
  ⟨by decide +kernel, by decide +kernel, by decide +kernel, by decide +kernel, by decide +kernel, by decide +kernel, by decide +kernel, by decide +kernel,
    by decide +kernel, _, rfl, by decide +kernel, by decide +kernel, ok_of (by decide +kernel), by decide +kernel⟩
/-- The MCOPY of `oMacro 5 6` at the program counter, its block not read yet. -/
def sParam : State := (placeWord State.reset 64 0x0000060008055140).modCore 0 fun c => { macroCore [] c with param := 0 }
/-- The same with its block at address 0x1000 of memory. -/
def sParamG : State := sParam.modCore 0 (regs [(2, 0x1000), (3, 0)])
theorem witness_CoreEvents_block : globLines (paramPlaces sParamG 0 5 [5#8, 6#8, 0#8] (.glob 0x1000)) = [0x1000] ∧
    paramPlace sParamG 0 (blockAddr (sParamG.core 0) 1#5 0#16) = some (.glob 0x1000) ∧ placesSettled sParamG (paramPlaces sParamG 0 5 [5#8, 6#8, 0#8] (.glob 0x1000)) = true ∧
    paramBehind sParamG 0 true [0x1000] = false ∧ translate sParamG (sParamG.core 0).ctx wantRead 0x1000 = .ok 0x21000 ∧ keyTier 0x21000 < 3 ∧
    sParamG.race (.core 0 .lsu) (0x21000 / 128) true false = none ∧ sParamG.poisoned 0x21000 = false ∧
    ∀ t : State, globLines (paramPlaces t 0 5 [5#8, 6#8, 0#8] (.glob 0x1000)) = [0x1000] :=
  ⟨by decide +kernel, by decide +kernel, by decide +kernel, by decide +kernel, ok_of (by decide +kernel), by decide +kernel, by decide +kernel, by decide +kernel,
    fun t => by unfold paramPlaces blockRange; cases placeBytes t 0 64 (.glob 0x1000) <;> rfl⟩
theorem witness_CoreEvents_param : (sParam.core 0).st = .running ∧ (sParam.core 0).param = 0 ∧ (sParam.core 0).owed = [] ∧ (sParam.core 0).rlines = [] ∧
    ((List.range 4).all fun t => !(sParam.slotAt 0 t).reissue) = true ∧
    fetchBundle sParam 0 (sParam.core 0).pc = .ok [(0, .x, .mcopy (oMacro 5#8 6#8))] 4 ∧ paramSource (.mcopy (oMacro 5#8 6#8)) = some ⟨5, 1#5, 0#16, [5#8, 6#8, 0#8]⟩ ∧
    paramPlace sParam 0 (blockAddr (sParam.core 0) 1#5 0#16) = some (.loc 0 0) ∧ globLines (paramPlaces sParam 0 5 [5#8, 6#8, 0#8] (.loc 0 0)) = [] ∧
    placesSettled sParam (paramPlaces sParam 0 5 [5#8, 6#8, 0#8] (.loc 0 0)) = true := by decide +kernel
/-- A copy of two lines from core 0 to core 1. -/
def cp (started mxt : Bool) (deadline : Nat) : Copy :=
  { id := 9, tag := 1#2, mxt := mxt, targets := [1], src := 0, dst := 0x1000, len := 256, startIc := 0, inCore := false, hops := none, started := started,
    startAt := 0, landed := [], delay := [], deadline := deadline }
def sCp (started mxt : Bool) (now deadline : Nat) : State :=
  { sCopy.modCore 0 fun c => { c with ic := 1, copies := [cp started mxt deadline], tables := [⟨2#2, 0, [(0, 1, 0, 0, 0x1000, 128)], false⟩] } with cycles := Vector.replicate 4 now }
theorem witness_CopySteps : ((sCp false false 0 26).core 0).copies.find? (fun k => k.id == 9) = some (cp false false 26) ∧ cycleCome (sCp false false 0 26) 0 (cp false false 26).startIc = true ∧
    (∀ t ∈ (cp false false 26).targets, t < 160) ∧ (dueAt (sCp true false 25 26) 1).find? (fun e => e.1 == 0 && e.2.id == 9) = some (0, cp true false 26) ∧
    portTaken (sCp true false 25 26) 1 (cp true false 26) = false ∧ ((sCp true false 25 26).core 1).fills = [] ∧
    ((dueAt (sCp true false 25 26) 1).any fun f => copyBefore f (0, cp true false 26) && linesMeet ((sCp true false 25 26).core 1) f.2 (f.2.doneLines 1) (cp true false 26) 0) = false ∧
    ((copyLine (sCp true false 25 26) 0 (cp true false 26) 0).1).length = 128 ∧
    ((sCp true false 25 26).core 0).tables.find? (fun t => t.tag.toNat == 2) = some ⟨2#2, 0, [(0, 1, 0, 0, 0x1000, 128)], false⟩ ∧
    cycleCome (sCp true false 25 26) 0 (0 + 0) = true ∧
    (((sCp true false 25 26).core 0).copies.filter fun k => k.mxt && k.tag == 2#2).length < 8 ∧
    (∀ k ∈ ((sCp true false 25 26).core 0).copies, k.id ≠ (sCp true false 25 26).nextId) ∧
    ((sCp true true 30 20).core 0).timingDue = false ∧ cp true true 20 ∈ ((sCp true true 30 20).core 0).copies ∧ (cp true true 20).deadline ≤ copyNow (sCp true true 30 20) 0 (cp true true 20) := by
  decide +kernel

/-! ### Witnesses: the sequencer -/

/-- The MCOPY of `sMacro` after its issue, nothing of its ordering left. -/
def sRun : State := match exec (.mcopy (oMacro 5#8 6#8)) (sMacro []) with
  | .next t => { t with accesses := [] }
  | _ => sMacro []
theorem ok_any {ε α : Type} {e : Except ε α} {p : α → Bool} (h : e.toOption.any p = true) : ∃ a, e = .ok a ∧ p a = true := by
  cases e with
  | ok a => exact ⟨a, rfl, h⟩
  | error x => cases h
def slotWith (m : MSlot) : State := at0 fun c => { c with slots := c.slots.set 1 m }
def outOf (failed : Bool) : Out := ⟨0, 5, 256, 0, [], [], [], [], [], failed, true, [], [], [], 0#1024, [], []⟩
/-- A context that holds no record ring any more takes every record. -/
def noCtx (s : State) : State := { s with ctxs := [] }
theorem goes_of (s : State) (n t : Nat) (f : REnv → SM StepOut) (p : StepOut × MLog → Bool)
    (h : (slotRuns s n t && (translateFails s n t f).isNone && !settleWaits s n t f && (s.slotAt n t).outs.isEmpty) = true)
    (h' : ((f (renv s n t)).run .zero).toOption.any p = true) : ∃ so lg, StepGoes s n t f so lg ∧ p (so, lg) = true := by
  obtain ⟨⟨so, lg⟩, hr, hp⟩ := ok_any h'
  simp only [Bool.and_eq_true, Bool.not_eq_true', Option.isNone_iff_eq_none, List.isEmpty_iff] at h
  obtain ⟨⟨⟨h1, h2⟩, h3⟩, h4⟩ := h
  exact ⟨so, lg, ⟨h1, h2, h3, hr, fun o ho => absurd ho (by rw [h4]; exact List.not_mem_nil)⟩, hp⟩
theorem witness_SequencerSteps : (∃ so lg, StepGoes sRun 0 0 tileStep so lg ∧ so.entry.isNone = true) ∧ (sRun.slotAt 0 0).op ≤ 7 ∧
    (∀ owes ∈ [false, true], let s := slotWith { MSlot.zero with st := .busy, op := 5, outs := [{ outOf false with owes := owes }], fin := true }
     (s.slotAt 0 1).st = .busy ∧ (s.slotAt 0 1).outs.find? (fun o => !o.failed && !s.jobLeft 0 o) = some { outOf false with owes := owes } ∧ (s.slotAt 0 1).op ≠ 0x13 ∧
     (s.slotAt 0 1).arrivalObj = 0) ∧
    (let s := slotWith { MSlot.zero with st := .busy, op := 5, blk := natToBytes 64 (0x1000 * 2 ^ 192), outs := [{ outOf false with owes := false }] }
     (s.slotAt 0 1).st = .busy ∧ (s.slotAt 0 1).outs.find? (fun o => !o.failed && !s.jobLeft 0 o) = some { outOf false with owes := false } ∧
     (s.slotAt 0 1).arrivalObj ≠ 0 ∧ arrivalFail s 0 (s.slotAt 0 1) = none) ∧
    (let s := slotWith { MSlot.zero with st := .busy, outs := [outOf true], stop := some (3, 0, 0) }
     (s.slotAt 0 1).st = .busy ∧ (∀ o ∈ (s.slotAt 0 1).outs, o.failed = true ∧ s.jobLeft 0 o = false) ∧ (s.slotAt 0 1).stop = some (3, 0, 0)) :=
  ⟨goes_of _ _ _ _ (fun x => x.1.entry.isNone) (by decide +kernel) (by decide +kernel), by decide +kernel, by decide +kernel, by decide +kernel, by decide +kernel⟩
/-- The fault ring of the context at 0x8000, with two slots at 0x8040. -/
def sFault : State := { withBytes base 0x8010 (natToBytes 12 (0x8040 + 2 ^ 64)) with ctxs := [(0, { fetchCtx with fqcb := 0x8000 })] }
theorem ring_takes : RingTakes sFault 0 := by
  intro c h
  have h' : (sFault.core 0).ctx = 0 ∧ sFault.ctx? 0 = some { fetchCtx with fqcb := 0x8000 } := by decide +kernel
  rw [h'.1, h'.2] at h
  have hc : c = { fetchCtx with fqcb := 0x8000 } := (Option.some.inj h).symm
  subst hc
  decide +kernel
/-- A c32 vector of 2^14 elements, bits 0 to 12 LOCAL and bit 13 CORE, of which core 0 holds the lower half; MIXCH exchanges bits 13 and 0 in
two chunks. -/
def mixDesc : BitVec 1024 :=
  BitVec.ofNat 1024 (9 + 5 * 2 ^ 8 + 2 ^ 16 + 0x80003F0000010000 * 2 ^ 64 + 2 ^ 142 + 2 ^ 160 + 2 ^ 192 + 2 ^ 224 +
    bytesToNat ((List.range 13).map (BitVec.ofNat 8) ++ [64#8]) * 2 ^ 640 + 14 * 2 ^ 896)
def mixSlot : MSlot := { MSlot.zero with st := .busy, op := 0x12, blk := natToBytes 64 (32768 * 2 ^ 64 + 13 * 2 ^ 128), descs := [mixDesc, 0#1024, 0#1024, 0#1024], sent := 1 }
/-- Whether `n` bytes from an address lie in the scratchpad of a core that runs a task of the group. -/
def placedAt (e : REnv) (x : Int) (n : Nat) : Bool :=
  match checkAddr e.s e.n (BitVec.ofNat 64 (x % (2 ^ 64 : Nat)).toNat) with
  | some (.loc k off) => decide (off + n ≤ (e.s.core k).padSize ∧ (e.s.core k).st ≠ .free ∧ (e.s.core k).gid = (e.s.core e.n).gid)
  | _ => false
theorem writeAt_placed (e : REnv) (x : Int) (n : Nat) (bs : List Byte) (st : MLog) (h : placedAt e x n = true) (hb : bs.length ≤ n) :
    ∃ ds, (writeAt e x bs false).run st = .ok (ds, st) := by
  unfold placedAt at h
  split at h
  · rename_i k off hk
    have hd := of_decide_eq_true h
    have hp : placeOf e x bs.length = pure (.loc k off) := by
      unfold placeOf
      simp only [hk]
      rw [if_pos ⟨by omega, hd.2⟩]
    unfold writeAt
    rw [hp]
    exact ⟨_, rfl⟩
  · cases h
theorem flatMapM_loop_runs {α β : Type} (f : α → SM (List β)) (st : MLog) : ∀ (l : List α) (acc : List (List β)),
    (∀ a ∈ l, ∃ b, (f a).run st = .ok (b, st)) → ∃ b, (List.flatMapM.loop f l acc).run st = .ok (b, st)
  | [], _, _ => ⟨_, rfl⟩
  | a :: l, acc, h => by
    obtain ⟨b, hb⟩ := h a (List.mem_cons_self ..)
    obtain ⟨c, hc⟩ := flatMapM_loop_runs f st l (b :: acc) (fun x hx => h x (List.mem_cons_of_mem _ hx))
    refine ⟨c, ?_⟩
    rw [← hc]
    change (do let bs' ← f a; List.flatMapM.loop f l (bs' :: acc) : SM (List β)).run st = _
    rw [StateT.run_bind, hb]
    rfl
theorem placeChunk_runs (e : REnv) (x : Exch) (st : MLog) (h : ∀ i ∈ x.idxs, placedAt e ((x.base + i * (e.m.desc 0).esize : Nat) : Int) (e.m.desc 0).esize = true)
    (hk : (x.k + 1 == x.steps) = false) : ∃ so, (placeChunk e x).run st = .ok (so, st) ∧ so.entry = none := by
  obtain ⟨ds, hds⟩ := flatMapM_loop_runs (fun l : Nat × Nat => pieceWrite e x.base l.1 (slice ((e.s.core e.n).padBytes false (e.m.woff + 16384 * (x.k % 2)) 16384)
    ((e.m.desc 0).esize * l.2) (e.m.desc 0).esize)) st x.idxs.zipIdx [] (fun l hl => writeAt_placed e _ _ _ st
      (h l.1 (List.fst_mem_of_mem_zipIdx hl)) (by unfold slice; exact List.length_take_le _ _))
  unfold placeChunk chunkOut List.flatMapM
  simp only [StateT.run_bind, hds, hk]
  exact ⟨_, rfl, rfl⟩
/-- The same in another phase of the step, which does not tell where the bytes lie. -/
theorem placeChunk_phase (e : REnv) (ph : StepPhase) (x : Exch) (st : MLog)
    (h : ∀ i ∈ x.idxs, placedAt e ((x.base + i * (e.m.desc 0).esize : Nat) : Int) (e.m.desc 0).esize = true) (hk : (x.k + 1 == x.steps) = false) :
    ∃ so, (placeChunk { e with ph := ph } x).run st = .ok (so, st) ∧ so.entry = none := placeChunk_runs { e with ph := ph } x st h hk
def mixArrival : Arrival := ⟨0, 0, 1, 0, 13, 0, 0, 0#32, 0, false⟩
def sMix : State := { (slotWith mixSlot).modCore 0 fun c => { c with xin := [mixArrival] } with groups := [(0, { fetchGroup with size := 2, cores := [0, 1] })] }
theorem witness_SequencerSteps_exchange : isExchange (sMix.slotAt 0 1).op = true ∧ sMix.pathHeld 0 .lk = false ∧
    0 < (sMix.slotAt 0 1).sent ∧ sMix.owes (.slot 0 1) = false ∧
    (∃ x so lg, exchOf sMix 0 (sMix.slotAt 0 1) 13 0 0 = some x ∧ mixArrival.peer = x.pp ∧ mixArrival.tidx = x.ptidx ∧
      StepGoes sMix 0 1 (fun e => placeChunk e x) so lg ∧ so.entry = none) ∧
    (sMix.core 0).xin.find? (fun a => a.off == (sMix.slotAt 0 1).woff + 16384 * (0 % 2) && !a.taken) = some mixArrival ∧ mixArrival.pchk = (sMix.slotAt 0 1).pchk ∧
    mixArrival.epoch = (sMix.slotAt 0 1).ix 3 ∧ mixArrival.b = 13 ∧ mixArrival.c = 0 ∧ mixArrival.k = 0 := by
  refine ⟨by decide +kernel, by decide +kernel, by decide +kernel, by decide +kernel, ?_, by decide +kernel⟩
  obtain ⟨x, hx, hp⟩ := exists_of_any (o := exchOf sMix 0 (sMix.slotAt 0 1) 13 0 0) (p := fun x => decide (x.pp = 0) && decide (x.ptidx = 1) &&
    !(x.k + 1 == x.steps) && x.idxs.all fun i => placedAt (renv sMix 0 1) ((x.base + i * ((renv sMix 0 1).m.desc 0).esize : Nat) : Int) ((renv sMix 0 1).m.desc 0).esize)
    (by decide +kernel)
  simp only [Bool.and_eq_true, decide_eq_true_eq, Bool.not_eq_true', List.all_eq_true] at hp
  obtain ⟨⟨⟨h1, h2⟩, h3⟩, h4⟩ := hp
  obtain ⟨so, hs, he⟩ := placeChunk_runs (renv sMix 0 1) x .zero h4 h3
  obtain ⟨_, ht, _⟩ := placeChunk_phase (renv sMix 0 1) .translate x .zero h4 h3
  obtain ⟨_, hw, _⟩ := placeChunk_phase (renv sMix 0 1) .settle x .zero h4 h3
  refine ⟨x, so, _, hx, h1.symm, h2.symm, ⟨by decide +kernel, ?_, ?_, hs, fun o ho => absurd ho ?_⟩, he⟩
  · unfold translateFails
    rw [ht]
    exact (show arrivalFail sMix 0 (sMix.slotAt 0 1) = none by decide +kernel)
  · unfold settleWaits
    rw [hw]
  · rw [show (sMix.slotAt 0 1).outs = [] by decide +kernel]
    exact List.not_mem_nil
theorem witness_SequencerSteps_plan : (sMix.slotAt 0 1).planStep = .exch 13 0 0 := by
  have h : (sMix.slotAt 0 1).op = 0x12 ∧ (sMix.slotAt 0 1).f 16 1 = 13 ∧ (sMix.slotAt 0 1).f 17 1 = 0 ∧ (sMix.slotAt 0 1).ix 0 = 0 := by decide +kernel
  unfold MSlot.planStep
  rw [if_pos h.1, h.2.1, h.2.2.1, h.2.2.2]
/-- A SEND of two members at the member that only receives. -/
def sColl : State := slotWith { MSlot.zero with st := .busy, op := 0x13, flx := 5, blk := natToBytes 64 (2 * 2 ^ 160 + 2 ^ 272), work := [0, 0, 0, 0], descs := [descOf 0 0x80003F0000010000 64, 0#1024, 0#1024, 0#1024] }
theorem witness_SequencerSteps_collective : slotRuns sColl 0 1 = true ∧ (sColl.slotAt 0 1).op = 0x13 ∧
    ((sColl.slotAt 0 1).csends ((sColl.slotAt 0 1).ix 0))[(sColl.slotAt 0 1).sent]?.isNone = true ∧ sColl.owes (.slot 0 1) = false ∧
    (sColl.slotAt 0 1).reduces = false ∧ resFull sColl 0 (sColl.slotAt 0 1) ((sColl.slotAt 0 1).ix 0) = true ∧
    (∃ so lg, StepGoes sColl 0 1 (fun e => collCommit e ((sColl.slotAt 0 1).ix 0)) so lg ∧ true = true) :=
  ⟨by decide +kernel, by decide +kernel, by decide +kernel, by decide +kernel, by decide +kernel, by decide +kernel,
    goes_of _ _ _ _ (fun _ => true) (by decide +kernel) (by decide +kernel)⟩
/-- An owner of an ALL-REDUCE of one member whose ACC slot still holds chunk 0, its result sent. -/
def sAccHeld : State := (slotWith { MSlot.zero with st := .busy, op := 0x13, flx := 0, sent := 2, blk := natToBytes 64 (2 ^ 160 + 2 ^ 272), work := [0, 0, 0], descs := [descOf 0 0x80003F0000010000 64, 0#1024, 0#1024, 0#1024] }).modCore 0 fun c => { c with pool := c.pool.write (c.padAddr false ((MSlot.zero).woff + heldOff false 0)) [1#8] }
theorem witness_SequencerSteps_owner : slotRuns sAccHeld 0 1 = true ∧ ((sAccHeld.slotAt 0 1).csends ((sAccHeld.slotAt 0 1).ix 0))[(sAccHeld.slotAt 0 1).sent]?.isNone = true ∧
    (sAccHeld.slotAt 0 1).reduces = true ∧ (sAccHeld.slotAt 0 1).ownerOf 0 (sAccHeld.slotAt 0 1).rank = (sAccHeld.slotAt 0 1).rank ∧
    heldChunk sAccHeld 0 (sAccHeld.slotAt 0 1) false 0 = 0 + 1 := by decide +kernel

/-! ### Witnesses: groups and queues -/

def allCfg : List Byte := List.replicate 512 0xFF#8
/-- A queued group of one task, on a package whose cores 0 and 1 belong to the context; core 0 is free where `free`. -/
def sQueued (free : Bool) (now : Nat) : State :=
  { (if free then base.modCore 0 fun c => { c with st := .free } else base) with
    cfg := allCfg, hubTime := now, ctxs := [(0, { fetchCtx with cset := 1 })],
    groups := [(0, { fetchGroup with cores := [0] }), (1, { fetchGroup with st := .queued, prio := 3, cores := [], entered := 0 })] }
theorem witness_Dispatching : (Tab.get? (sQueued true 0).groups 1).map (·.st) = some .queued ∧
    placeable (sQueued true 0) (1, { fetchGroup with st := .queued, prio := 3, cores := [], entered := 0 }) = some [0] ∧
    firstInLine (sQueued true 0) (1, { fetchGroup with st := .queued, prio := 3, cores := [], entered := 0 }) = true ∧
    ((sQueued false 135000).ctxActive 0 = true ∧ (sQueued false 135000).age < (sQueued false 135000).hubTime ∧ (∀ q, q < 4 → (sQueued false 135000).aging[q]? = some none) ∧
      agingDies (sQueued false 135000) { fetchGroup with st := .queued, prio := 3, cores := [], entered := 0 } = [0]) ∧
    ((sQueued false 500000).quant ≤ (sQueued false 500000).hubTime ∧
      victimsFor (sQueued false 500000) (1, { fetchGroup with st := .queued, prio := 3, cores := [], entered := 0 }) = [0]) := by decide +kernel
def sClaim : State := base.modCore 0 fun c => { c with st := .claiming }
theorem witness_Dispatching_claim : (sClaim.core 0).st = .claiming ∧ (sClaim.core 0).arrived = false ∧ (sClaim.core 0).gid = 0 ∧ fetchGroup.kern.refa = 0 ∧
    (∀ q, q < 192 → ∀ w, (sClaim.core 0).gtags[q]? = some w → w.valid = true → w.owner ≠ (sClaim.core 0).ctx → w.held = false) ∧
    ∃ bs, devRead sClaim (.claim 0 0) (sClaim.core 0).ctx (ctxField sClaim (sClaim.core 0).ctx (·.tdBase)) 32768 = .ok bs := by
  refine ⟨by decide +kernel, by decide +kernel, by decide +kernel, by decide +kernel, fun q hq w hw hv => ?_, ok_ex (by decide +kernel)⟩
  have hg : (sClaim.core 0).gtags = Vector.replicate 192 GTag.zero := by decide +kernel
  rw [hg] at hw
  have : w = GTag.zero := by
    rw [Vector.getElem?_replicate, if_pos hq] at hw
    exact (Option.some.inj hw).symm
  subst this
  exact absurd hv (by decide)
/-- Two members that have reached a SYNC. -/
def sSync : State := { (at0 fun c => { c with arrived := true }).modCore 1 fun _ => { fetchCore [] with arrived := true, carve := some (1, 4) } with
  groups := [(0, { fetchGroup with size := 2, cores := [0, 1] })] }
theorem witness_Dispatching_sync : membersOn sSync 0 = [0, 1] ∧ ({ fetchGroup with size := 2, cores := [0, 1] } : Group).st ≠ .claiming ∧
    ({ fetchGroup with size := 2, cores := [0, 1] } : Group).st ≠ .resuming ∧
    (∀ n ∈ membersOn sSync 0, n < 160 ∧ (sSync.core n).arrived = true ∧ (sSync.core n).releaseAt = 0) := by decide +kernel
def preGroup : Group := { fetchGroup with st := .preempting, reqd := true }
/-- The save area stands at 0xC000. -/
def sPre : State := { at0 (fun c => { c with held := true }) with groups := [(0, preGroup)], ctxs := [(0, { fetchCtx with saveA := 0xC000 })] }
theorem witness_GroupSteps : Tab.get? sPre.groups 0 = some preGroup ∧ sPre.allHeld 0 = true ∧ membersOn sPre 0 = [0] ∧ memberIdle sPre 0 = true ∧
    sPre.ctxActive preGroup.ctx = true ∧ (∃ s1, saveMembers 0 preGroup (membersOn sPre 0) sPre = .ok s1) ∧
    (∃ w, saveWrite sPre preGroup.ctx 0 (coreSlotAddr sPre preGroup.ctx 0) (coreSlotBytes (sPre.core 0)) = .ok w) :=
  ⟨by decide +kernel, by decide +kernel, by decide +kernel, by decide +kernel, by decide +kernel, ok_ex (by decide +kernel), ok_ex (by decide +kernel)⟩
def backGroup : Group := { fetchGroup with st := .preempted, saved := [{ fetchCore [] with x := Vector.replicate 64 7#32 }] }
def sBack : State := { base.modCore 0 fun c => { c with st := .free } with
  cfg := allCfg, groups := [(0, backGroup)], ctxs := [(0, { fetchCtx with saveA := 0xC000 })] }
theorem witness_GroupSteps_resume : Tab.get? sBack.groups 0 = some backGroup ∧ resumable sBack (0, backGroup) = true ∧ firstInLine sBack (0, backGroup) = true ∧
    (∃ eager, saveRead sBack (.resume 0) 0 (coreSlotAddr sBack 0 0) 2048 = .ok eager ∧ decide (bytesToNat (slice eager 1248 24) = 0) = true) ∧
    (∃ w, devWrite (sBack.useRange 0 (coreSlotAddr sBack 0 0) 2048) (some (.write 2 0)) 0 (coreSlotAddr sBack 0 0 + 1248) (List.replicate 24 0#8) agDev = .ok w) ∧ backGroup.reqd = false ∧ backGroup.cores = [0] ∧
    (∀ c ∈ backGroup.saved, c.drainAt = none ∧ (∀ m ∈ c.slots.toList, m.st ≠ .halted)) :=
  ⟨by decide +kernel, by decide +kernel, by decide +kernel, ok_any (by decide +kernel), ok_ex (by decide +kernel), by decide +kernel, by decide +kernel, by decide +kernel⟩

/-- A queue of context 0 with its control block at 0x1000 and its ring at 0x2000, and the first packet of that ring. -/
def qu (st : QState) : Queue := ⟨st, 0, 0x1000, 3, 0, false, false, [], [], none⟩
def quHead : List Byte := natToBytes 32 (1 + 0x2000 * 2 ^ 128 + 4 * 2 ^ 192)
def sQ (v : Queue) (pkt : Nat) : State := { withBytes (withBytes base 0x1000 quHead) 0x2000 (natToBytes 64 pkt) with queues := [(0, v)] }
theorem witness_QueueSteps : (sQ (qu .idle) 0).portUp = true ∧ ({ sQ (qu .idle) 0 with portUp := false } : State).portUp = false ∧ (∀ st ∈ ([.idle, .bound, .ready] : List QState), Tab.get? (sQ (qu st) 0).queues 0 = some (qu st)) ∧
    (cpReady (sQ (qu .ready) 0) = true ∧ ((sQ (qu .ready) 0).thread 31).queue = none ∧ bestReady (sQ (qu .ready) 0) = some 0 ∧
      (sQ (qu .ready) 0).ctxActive 0 = true ∧ (qu .ready).waiting = none ∧ cpGet (sQ (qu .ready) 0) [] 0 0x1000 32 = .ok quHead ∧ (ringOf quHead).ok = true ∧
      (ringOf quHead).logn ≤ 16 ∧ cpGet (sQ (qu .ready) 0) [] 0 ((ringOf quHead).slot (ringOf quHead).ridx) 4 = .ok (natToBytes 4 0)) :=
  ⟨by decide +kernel, by decide +kernel, by decide +kernel, by decide +kernel, by decide +kernel, by decide +kernel, by decide +kernel, by decide +kernel,
    ok_of (by decide +kernel), by decide +kernel, by decide +kernel, ok_of (by decide +kernel)⟩
/-- A NOP packet whose signal word stands at 0x3000. -/
def nopPkt : Nat := 1 + 0x3000 * 2 ^ 64
def sQPkt : State := (sQ (qu .bound) nopPkt).setThread 31 ⟨some 0, 0, [], none⟩
theorem witness_QueueSteps_start : sQPkt.thread 31 = ⟨some 0, (sQPkt.thread 31).since, [], none⟩ ∧ cpReady sQPkt = true ∧ sQPkt.ctxActive 0 = true ∧
    sQPkt.hubTime - (sQPkt.thread 31).since < 42000 ∧ cpGet sQPkt [] 0 0x2000 64 = .ok (natToBytes 64 nopPkt) ∧ cpGet sQPkt [] 0 0x2000 4 = .ok ((natToBytes 64 nopPkt).take 4) ∧
    (⟨0, 0, 0, [], natToBytes 64 nopPkt, []⟩ : Pkt).ok = true ∧ (⟨0, 0, 0, [], natToBytes 64 nopPkt, []⟩ : Pkt).kind = 0 ∧
    translate sQPkt 0 ⟨.write, true, false, false⟩ 0x2000 = .ok 0x22000 ∧ keyTier 0x22000 < 3 ∧ (∃ s0, sQPkt.cpPut (.packet 0 0 0) 0 (0x1000 + 8) (natToBytes 8 1) true scSys = .ok s0) ∧
    ∃ s1, sQPkt.cpPut .nothing 0 0x2000 (natToBytes 4 0) false 0 = .ok s1 ∧ (s1.cpPut (.packet 0 0 0) 0 (0x1000 + 8) (natToBytes 8 1) true scSys).toOption.isSome = true :=
  ⟨by decide +kernel, by decide +kernel, by decide +kernel, by decide +kernel, ok_of (by decide +kernel), ok_of (by decide +kernel), by decide +kernel, by decide +kernel,
    ok_of (by decide +kernel), by decide +kernel, ok_ex (by decide +kernel), ok_any (by decide +kernel)⟩
def sQuantum : State := { sQPkt with queues := [(0, qu .bound), (1, qu .ready)], hubTime := 42000 }
def pkDone (sig : Nat) : Packet := ⟨5, sig, 0, 0, 0, 0, 1, 0, 0, 0, 0, false, [], 0x2000⟩
def sQDone (sig : Nat) : State := sQ { qu .bound with packets := [pkDone sig] } 0
theorem witness_QueueSteps_complete : (42000 ≤ sQuantum.hubTime - (sQuantum.thread 31).since ∧ (sQuantum.thread 31).mid = none ∧ (1, qu .ready) ∈ readyQueues sQuantum) ∧
    Tab.get? (sQ { qu .waiting with monitor := some (7, true) } 0).queues 0 = some { qu .waiting with monitor := some (7, true) } ∧
    (∀ sig ∈ ([0, 0x3000] : List Nat), Tab.get? (sQDone sig).queues 0 = some { qu .bound with packets := [pkDone sig] } ∧ cpReady (sQDone sig) = true ∧
      packetBusy (sQDone sig) 0 5 = false ∧ (∀ th ∈ (sQDone sig).threads.toList, ¬ (th.queue = some 0 ∧ th.mid = some 5)) ∧ (pkDone sig).sig = sig) ∧
    (translate (sQDone 0x3000) 0 ⟨.atomic, true, false, false⟩ 0x3000 = .ok 0x23000 ∧ keyTier 0x23000 < 3 ∧ (sQDone 0x3000).poisoned 0x23000 = false ∧
      translate (sQDone 0x3000) 0 wantRead 0x3000 = .ok 0x23000) :=
  ⟨by decide +kernel, by decide +kernel, by decide +kernel, ok_of (by decide +kernel), by decide +kernel, by decide +kernel, ok_of (by decide +kernel)⟩

/-! ### Witnesses: the host's side -/

/-- An admin ring at host address 64 with one command at 128. -/
def adm (s : State) (code : Nat) (ops : List Nat) : State :=
  { s with boot := .ready, admq := 64, adminRun := true, mem := (s.mem.write (keyOf 2 64) (natToBytes 32 (1 + 128 * 2 ^ 128 + 2 ^ 192))).write (keyOf 2 128) (natToBytes 8 1 ++ natToBytes 8 code ++ ops.flatMap (natToBytes 8)) }
theorem holds_adm (l : List (State × Nat × List Nat)) (h : (l.all fun p => adminHolds (adm p.1 p.2.1 p.2.2) p.2.1 p.2.2) = true) :
    ∀ p ∈ l, adminHolds (adm p.1 p.2.1 p.2.2) p.2.1 p.2.2 = true := List.all_eq_true.1 h
/-- The block of context 1, at HBM address 0x40000: the page table of context 0, and core 0. -/
def ctxBlock : List Byte :=
  natToBytes 128 (1 + 7 * 2 ^ 16 + 8 * 2 ^ 24 + 64 * 2 ^ 32 + 0x1000 * 2 ^ 64 + 2 ^ 160 + 0x8000 * 2 ^ 192 + 0x10000 * 2 ^ 384 + 3153920 * 2 ^ 448 + 0x4040 * 2 ^ 512 +
    0x4000 * 2 ^ 576 + 2 ^ 640)
def sBlock : State := adm { base with mem := base.mem.write 0x40000 ctxBlock } 1 [1, 0x40000]
def ctxOne : Ctx := (blockCtx 1 ctxBlock).getD fetchCtx
/-- The state in which the descriptor table of that context is zeroed. -/
def sZero : State := { sBlock with ctxs := Tab.set sBlock.ctxs 1 ctxOne }
theorem write_zeros (m : Mem) (a : Nat) (bs : List Byte) (hm : m.wf = true) (hz : ∀ b ∈ bs, b = Mem.dflt) (ho : ∀ c ∈ m, c.1 < a ∨ a + bs.length ≤ c.1) :
    m.write a bs = m := by
  refine Mem.ext_of_wf _ _ (Mem.wf_write _ _ _ hm) hm fun x => ?_
  rw [Mem.read_write]
  split
  · rename_i hx
    rw [Mem.read_of_absent m x fun c hc => by have := ho c hc; omega, List.getD]
    cases hb : bs[x - a]? with
    | none => rfl
    | some b => exact hz b (List.mem_of_getElem? hb)
  · rfl
/-- A state that differs from `s` in tags, the lines of the slices and the translation caches alone, whose entries are among those of `s`. -/
def Near (s t : State) : Prop := ∃ tb l2 tg, t = { s with tlb := tb, l2 := l2, tags := tg } ∧ ∀ e ∈ tb, e ∈ s.tlb
/-- Whether no cached entry shows another walk to an address than the tables do. -/
def cleanFrom (s : State) (ctx va : Nat) : Nat → Nat → Nat → Bool
  | 0, _, _ => true
  | fuel + 1, lv, t =>
    let a := t + 8 * walkIndex va lv
    let e := s.mem.nat (keyOf 0 a) 8
    (cachedAt s ctx va lv (if s.memPoison.any (fun l => l == keyOf 0 a / 128) then 0 else e)).isEmpty && (pteLeaf e || cleanFrom s ctx va fuel (lv - 1) (pteAddr e))
def clean (s : State) (ctx va : Nat) : Bool := cleanFrom s ctx va 4 3 (ctxField s ctx (·.ptRoot)) && (walkUsed s ctx va).2.all (s.tlb.contains ·)
theorem cachedAt_near {s t : State} (h : Near s t) (ctx va lv e : Nat) (hc : cachedAt s ctx va lv e = []) : cachedAt t ctx va lv e = [] := by
  obtain ⟨tb, l2, tg, rfl, hs⟩ := h
  simp only [cachedAt, List.map_eq_nil_iff, List.filter_eq_nil_iff] at hc ⊢
  exact fun x hx => hc x (hs x hx)
theorem walk_near {s t : State} (h : Near s t) (ctx va : Nat) : ∀ fuel lv r, cleanFrom s ctx va fuel lv r = true →
    walkCachedFrom t ctx va fuel lv r = walkCachedFrom s ctx va fuel lv r
  | 0, _, _, _ => rfl
  | fuel + 1, lv, r, hc => by
    simp only [cleanFrom, Bool.and_eq_true, Bool.or_eq_true, List.isEmpty_iff] at hc
    have hm : t.mem = s.mem ∧ t.memPoison = s.memPoison := by obtain ⟨_, _, _, rfl, _⟩ := h; exact ⟨rfl, rfl⟩
    unfold walkCachedFrom
    simp only [hm.1, hm.2, hc.1, cachedAt_near h _ _ _ _ hc.1, List.find?_nil]
    split
    · rfl
    · split
      · rfl
      · split
        · rfl
        · rcases hc.2 with hl | hl
          · simp only [hl, if_true]
          · simp only [walk_near h ctx va fuel _ _ hl]
theorem walkUsed_near {s t : State} (h : Near s t) (ctx va : Nat) (hc : clean s ctx va = true) : walkUsed t ctx va = walkUsed s ctx va := by
  have hx : t.ctxs = s.ctxs := by obtain ⟨_, _, _, rfl, _⟩ := h; rfl
  simp only [clean, Bool.and_eq_true] at hc
  unfold walkUsed
  rw [hx]
  cases hg : Tab.get? s.ctxs ctx with
  | none => rfl
  | some c =>
    have hr : ctxField s ctx (·.ptRoot) = c.ptRoot := by
      unfold ctxField State.ctx?
      rw [hg]
      rfl
    exact walk_near h ctx va _ _ _ (hr ▸ hc.1)
theorem translate_near {s t : State} (h : Near s t) (ctx : Nat) (w : Want) (va : Nat) (hc : clean s ctx va = true) : translate t ctx w va = translate s ctx w va := by
  unfold Machine.translate walkCached
  rw [walkUsed_near h ctx va hc]
  obtain ⟨_, _, _, rfl, _⟩ := h
  rfl
/-- A walk goes by the page of its address alone. -/
theorem walk_page (s : State) (ctx : Nat) {va p : Nat} (h : p / 131072 = va / 131072) : ∀ fuel lv r,
    walkCachedFrom s ctx p fuel lv r = walkCachedFrom s ctx va fuel lv r ∧ cleanFrom s ctx p fuel lv r = cleanFrom s ctx va fuel lv r
  | 0, _, _ => ⟨rfl, rfl⟩
  | fuel + 1, lv, r => by
    have h1 : walkIndex p lv = walkIndex va lv := by unfold walkIndex; split <;> omega
    have h2 : p / 2 ^ levelBits lv = va / 2 ^ levelBits lv := by unfold levelBits; split <;> omega
    have h3 : p / 2 ^ pageBits (Nat.min lv 1) = va / 2 ^ pageBits (Nat.min lv 1) := by unfold pageBits; split <;> omega
    have ih := fun r => walk_page s ctx h fuel (lv - 1) r
    constructor
    · unfold walkCachedFrom
      simp only [cachedAt, h1, h2, h3, fun r => (ih r).1]
    · unfold cleanFrom
      simp only [cachedAt, h1, h2, fun r => (ih r).2]
theorem walkUsed_page (s : State) (ctx : Nat) {va p : Nat} (h : p / 131072 = va / 131072) : walkUsed s ctx p = walkUsed s ctx va := by
  unfold walkUsed
  split
  · rfl
  · exact (walk_page s ctx h _ _ _).1
theorem clean_page (s : State) (ctx : Nat) {va p : Nat} (h : p / 131072 = va / 131072) : clean s ctx p = clean s ctx va := by
  unfold clean
  rw [(walk_page s ctx h _ _ _).2, walkUsed_page s ctx h]
theorem translate_page {s : State} {ctx va e lv : Nat} {used : List TlbEntry} (hw : walkUsed s ctx va = (.leaf e lv, used)) (w : Want) {p : Nat}
    (h : p / 131072 = va / 131072) (hb : p < 2 ^ 56) : translate s ctx w p = leafCheck s w p e lv := by
  unfold Machine.translate walkCached
  rw [walkUsed_page s ctx h, hw, if_neg (by omega)]
theorem firstFail_near {s t : State} (h : Near s t) (ctx : Nat) (w : Want) : ∀ l, l.all (clean s ctx ·) = true → firstFail t ctx w l = firstFail s ctx w l
  | [], _ => rfl
  | p :: ps, hc => by
    rw [List.all_cons, Bool.and_eq_true] at hc
    unfold firstFail
    simp only [translate_near h ctx w p hc.1, firstFail_near h ctx w ps hc.2]
theorem near_evict {s t : State} (h : Near s t) (l : Nat) : Near s (t.evict l) := by
  obtain ⟨tb, l2, tg, rfl, hs⟩ := h
  exact ⟨tb, _, _, rfl, hs⟩
theorem near_room {s : State} (l cap : Nat) : ∀ k {t : State}, Near s t → Near s (t.makeRoom l cap k)
  | 0, _, h => h
  | k + 1, t, h => by
    unfold State.makeRoom
    simp only
    split
    · exact h
    · split
      · exact h
      · split
        · exact near_room l cap k (near_evict h _)
        · exact h
theorem near_l2 {s t : State} (h : Near s t) (x : List L2Line) : Near s { t with l2 := x } := by
  obtain ⟨tb, l2, tg, rfl, hs⟩ := h
  exact ⟨tb, x, tg, rfl, hs⟩
theorem near_touch {s t : State} (h : Near s t) (l pol : Nat) (r : Option Retain) : Near s (t.touch l pol r) := by
  unfold State.touch
  simp only
  split
  · exact h
  · split
    · split
      · exact near_l2 h _
      · exact h
    · split
      · exact near_l2 (near_room l _ _ h) _
      · split
        · exact h
        · split <;> exact near_l2 (near_room l _ _ h) _
theorem near_use {s t : State} (h : Near s t) (ctx va l : Nat) (hc : clean s ctx va = true) : Near s (t.useAt ctx va l) := by
  unfold State.useAt State.touchAt
  refine near_touch ?_ _ _ _
  unfold State.noteTlb
  rw [walkUsed_near h ctx va hc]
  simp only [clean, Bool.and_eq_true, List.all_eq_true] at hc
  obtain ⟨tb, l2, tg, rfl, hs⟩ := h
  cases hw : walkUsed s ctx va with
  | mk w used =>
    rw [hw] at hc
    cases w with
    | leaf e lv =>
      refine ⟨_, l2, tg, rfl, fun e he => ?_⟩
      rcases List.mem_append.1 he with he | he
      · exact List.contains_iff_mem.1 (hc.2 e (List.mem_filter.1 he).1)
      · exact hs e he
    | bad => exact ⟨tb, l2, tg, rfl, hs⟩
theorem near_tag {s t : State} (h : Near s t) (l w : Nat) (a b : Bool) (k : Nat) : Near s (t.tagWrite l w a b k) := by
  unfold State.tagWrite
  split
  · exact h
  · obtain ⟨tb, l2, tg, rfl, hs⟩ := h
    exact ⟨tb, l2, _, rfl, hs⟩
theorem near_tags {s : State} (ctx va w : Nat) (hc : clean s ctx va = true) : ∀ (ls : List Nat) {t : State}, Near s t →
    Near s (ls.foldl (fun s l => (s.useAt ctx va l).tagWrite l w false false 0) t)
  | [], _, h => h
  | l :: ls, _, h => near_tags ctx va w hc ls (near_tag (near_use h ctx va l hc) l w false false 0)
theorem afterWrite_none (s : State) (m : Mem) (k n : Nat) (hq : s.queues = []) (hw : s.waiters = []) (ha : s.accesses = []) : s.afterWrite m k n = s := by
  unfold State.afterWrite
  simp only [hq, hw, ha, List.isEmpty_nil, if_true, List.filter_nil, List.foldl_nil]
/-- Whether a part of a device write lies in the page of `va`, by leaf `e`, between the keys `lo` and `hi`. -/
def partIn (s : State) (va e lv lo hi : Nat) (p : Nat × Nat × Nat) : Bool :=
  decide (p.1 / 131072 = va / 131072) && decide (p.1 < 2 ^ 56) && match leafCheck s (wantDev true) p.1 e lv with
    | .ok k => decide (keyTier k ≠ 3) && decide (lo ≤ k) && decide (k + p.2.2 ≤ hi)
    | .error _ => false
theorem firstFail_page {s : State} {ctx va e lv lo hi : Nat} {used : List TlbEntry} (hw : walkUsed s ctx va = (.leaf e lv, used)) : ∀ ps : List (Nat × Nat × Nat),
    ps.all (partIn s va e lv lo hi) = true → firstFail s ctx (wantDev true) (ps.map (·.1)) = none
  | [], _ => rfl
  | p :: ps, h => by
    rw [List.all_cons, Bool.and_eq_true] at h
    have hp := h.1
    simp only [partIn, Bool.and_eq_true, decide_eq_true_eq] at hp
    rw [List.map_cons]
    unfold firstFail
    rw [translate_page hw _ hp.1.1 hp.1.2]
    cases hk : leafCheck s (wantDev true) p.1 e lv with
    | ok k => exact firstFail_page hw ps h.2
    | error x => rw [hk] at hp; exact absurd hp.2 Bool.false_ne_true
/-- A device write of zeros to a range of a page that holds zeros, and no poison, leaves a state near to the one it was made in. -/
theorem devWrite_zeros {s t : State} (h : Near s t) (dev : Option DevTag) {ctx va n w e lv lo hi : Nat} {used : List TlbEntry} (hm : s.mem.wf = true)
    (hp : s.memPoison = []) (hq : s.queues = []) (hi' : s.waiters = []) (ha : s.accesses = []) (hc : clean s ctx va = true)
    (hw : walkUsed s ctx va = (.leaf e lv, used)) (hz : (s.mem.all fun c => decide (c.1 < lo) || decide (hi ≤ c.1)) = true)
    (ht : (partsOf va n).all (partIn s va e lv lo hi) = true) :
    ∃ u, devWrite t dev ctx va (List.replicate n 0#8) w = .ok u ∧ Near s u := by
  have key : ∀ (ps : List (Nat × Nat × Nat)), ps.all (partIn s va e lv lo hi) = true → ∀ t, Near s t →
      Near s (ps.foldl (fun s p => match translate s ctx (wantDev true) p.1 with
      | .ok k => if keyTier k = 3 then s.postRemote ctx p.1 k (slice (List.replicate n 0#8) p.2.1 p.2.2) false dev
        else s.writeKey k (slice (List.replicate n 0#8) p.2.1 p.2.2) w fun s l => s.useAt ctx p.1 l
      | .error _ => s) t) := by
    intro ps
    induction ps with
    | nil => exact fun _ _ h => h
    | cons p ps ih =>
      intro h1 t h
      rw [List.all_cons, Bool.and_eq_true] at h1
      obtain ⟨h1, h2⟩ := h1
      simp only [partIn, Bool.and_eq_true, decide_eq_true_eq] at h1
      obtain ⟨⟨hg, hb⟩, h1⟩ := h1
      have hc' : clean s ctx p.1 = true := (clean_page s ctx hg).trans hc
      rw [List.foldl_cons, translate_near h _ _ _ hc', translate_page hw _ hg hb]
      cases hk : leafCheck s (wantDev true) p.1 e lv with
      | error e => exact ih h2 t h
      | ok k =>
        rw [hk] at h1
        simp only [Bool.and_eq_true, decide_eq_true_eq] at h1
        obtain ⟨⟨h0, h1⟩, h3⟩ := h1
        simp only [if_neg h0]
        refine ih h2 _ ?_
        have hl : (slice (List.replicate n (0#8 : Byte)) p.2.1 p.2.2).length ≤ p.2.2 := List.length_take_le _ _
        have hw : s.mem.write k (slice (List.replicate n 0#8) p.2.1 p.2.2) = s.mem := by
          refine write_zeros _ _ _ hm (fun b hb => ?_) (fun c hc => ?_)
          · exact List.eq_of_mem_replicate (List.mem_of_mem_drop (List.mem_of_mem_take hb))
          · have := List.all_eq_true.1 hz c hc
            simp only [Bool.or_eq_true, decide_eq_true_eq] at this
            omega
        have hb : ({ t with mem := t.mem.write k (slice (List.replicate n 0#8) p.2.1 p.2.2), memPoison := t.memPoison.filter fun l => !(decide (k ≤ 128 * l) &&
            decide (128 * l + 128 ≤ k + (slice (List.replicate n (0#8 : Byte)) p.2.1 p.2.2).length)) } : State) = t := by
          obtain ⟨tb, l2, tg, rfl, hs⟩ := h
          simp only [hw, hp, List.filter_nil]
        unfold State.writeKey
        simp only [hb]
        have hn := near_tags ctx p.1 w hc' (linesOf k (slice (List.replicate n (0#8 : Byte)) p.2.1 p.2.2).length) h
        have he : ∀ u, Near s u → u.queues = [] ∧ u.waiters = [] ∧ u.accesses = [] := fun u hu => by
          obtain ⟨tb, l2, tg, rfl, hs⟩ := hu
          exact ⟨hq, hi', ha⟩
        rw [afterWrite_none _ _ _ _ (he _ hn).1 (he _ hn).2.1 (he _ hn).2.2]
        exact hn
  have hl : (lineStarts va n).all (clean s ctx ·) = true := by
    unfold lineStarts
    rw [List.all_map, List.all_eq_true]
    intro p hp
    have := List.all_eq_true.1 ht p hp
    simp only [partIn, Bool.and_eq_true, decide_eq_true_eq] at this
    exact (clean_page s ctx this.1.1).trans hc
  unfold devWrite
  rw [List.length_replicate, firstFail_near h _ _ _ hl, show firstFail s ctx (wantDev true) (lineStarts va n) = none from firstFail_page hw _ ht]
  exact ⟨_, rfl, key _ ht t h⟩
theorem natToBytes_length : ∀ n v, (natToBytes n v).length = n
  | 0, _ => rfl
  | n + 1, v => by rw [natToBytes, List.length_cons, natToBytes_length n]
theorem status_ok {s t : State} (h : Near s t) (n st : Nat) (c : Ctx) (hc : s.ctx? n = some c) (hl : (lineStarts c.statb 64).all (clean s n ·) = true)
    (hf : firstFail s n (wantDev true) (lineStarts c.statb 64) = none) : ∃ s3, writeStatus t n st = .ok s3 := by
  have hc' : t.ctx? n = some c := by
    obtain ⟨tb, l2, tg, rfl, hs⟩ := h
    exact hc
  unfold writeStatus devWrite
  rw [hc']
  simp only [List.length_append, natToBytes_length, firstFail_near h _ _ _ hl, hf]
  exact ⟨_, rfl⟩
theorem near_empty (s : State) (l : List TlbEntry) (h : s.tlb = []) : Near { s with tlb := l } s := by
  refine ⟨[], s.l2, s.tags, ?_, fun e he => absurd he List.not_mem_nil⟩
  rw [← h]
/-- The entries that a walk to that table uses. -/
def sNear : State := { sZero with tlb := (walkUsed sZero 1 ctxOne.tdBase).2 }
theorem near_zero : Near sNear sZero := near_empty sZero (walkUsed sZero 1 ctxOne.tdBase).2 (by decide +kernel)
theorem zero_plain : sNear.mem.wf = true ∧ sNear.memPoison = [] ∧ sNear.queues = [] ∧ sNear.waiters = [] ∧ sNear.accesses = [] ∧ clean sNear 1 ctxOne.tdBase = true ∧
    (sNear.mem.all fun c => decide (c.1 < 0x28000) || decide (0x30000 ≤ c.1)) = true := by decide +kernel
theorem zero_walk : walkUsed sNear 1 ctxOne.tdBase = (.leaf 131103 0, (walkUsed sNear 1 ctxOne.tdBase).2) := by decide +kernel
theorem zero_parts : (partsOf ctxOne.tdBase 32768).all (partIn sNear ctxOne.tdBase 131103 0 0x28000 0x30000) = true := by decide +kernel
theorem zero_table : ∃ u, devWrite sZero (some (.write 3 0)) 1 ctxOne.tdBase (List.replicate 32768 0#8) agDev = .ok u ∧ Near sNear u :=
  devWrite_zeros near_zero (some (.write 3 0)) zero_plain.1 zero_plain.2.1 zero_plain.2.2.1 zero_plain.2.2.2.1 zero_plain.2.2.2.2.1 zero_plain.2.2.2.2.2.1 zero_walk
    zero_plain.2.2.2.2.2.2 zero_parts
theorem zero_status (u : State) (h : Near sNear u) : ∃ s3, writeStatus u 1 1 = .ok s3 :=
  status_ok h 1 1 ctxOne (by decide +kernel) (by decide +kernel) (by decide +kernel)
theorem witness_AdminContexts_create : adminHolds sBlock 1 [1, 0x40000] = true ∧ sBlock.ctx? 1 = none ∧ blockCtx 1 (sBlock.mem.bytes (physKey 0x40000) 128) = some ctxOne ∧
    ∃ s2 s3, devWrite sZero (some (.write 3 0)) 1 ctxOne.tdBase (List.replicate 32768 0#8) agDev = .ok s2 ∧ writeStatus s2 1 1 = .ok s3 := by
  refine ⟨by decide +kernel, by decide +kernel, by decide +kernel, ?_⟩
  obtain ⟨s2, h, hn⟩ := zero_table
  obtain ⟨s3, h3⟩ := zero_status s2 hn
  exact ⟨s2, s3, h, h3⟩
def ctxIn (st : CtxState) : State := { base with ctxs := [(0, { fetchCtx with st := st })] }
def sResetq : State := adm (sQ (qu .error) 0) 18 [0]
def sStopped : State := at0 fun c => { c with st := .stopped }
theorem witness_AdminContexts : (∀ p ∈ ([(base, 2, [0]), (ctxIn .suspended, 3, [0]), (ctxIn .scrubbing, 4, [0]), (sStopped, 5, [0, 0]), (sStopped, 6, [0, 0]),
      ({ sQ (qu .idle) 0 with queues := [] }, 16, [0, 4095, 0x1000, 7]), (sQ (qu .ready) 0, 17, [0]), (sQ (qu .error) 0, 18, [0])] : List (State × Nat × List Nat)),
      adminHolds (adm p.1 p.2.1 p.2.2) p.2.1 p.2.2 = true) ∧
    ((adm base 2 [0]).ctxActive 0 = true ∧ (0, fetchGroup) ∈ (adm base 2 [0]).groups ∧
      ∃ s2, writeStatus ((groupsOf (adm base 2 [0]) 0).foldl requestPreempt ((adm base 2 [0]).modCtx 0 fun c => { c with st := .suspending })) 0 2 = .ok s2) ∧
    (∃ u, writeStatus ((adm (ctxIn .suspended) 3 [0]).modCtx 0 fun c => { c with st := .active }) 0 1 = .ok u) ∧
    ((adm (ctxIn .scrubbing) 4 [0]).ctx? 0 = some { fetchCtx with st := .scrubbing } ∧ (adm (ctxIn .scrubbing) 4 [0]).accesses = [] ∧
      (adm (ctxIn .scrubbing) 4 [0]).recq = [] ∧ (adm (ctxIn .scrubbing) 4 [0]).queues = []) ∧
    ((adm (sQ (qu .ready) 0) 17 [0]).starting 0 = false ∧ sResetq.starting 0 = false) ∧
    ((adm sStopped 5 [0, 0]).core 0).st = .stopped ∧ ((adm sStopped 5 [0, 0]).core 0).ctx = 0 :=
  ⟨holds_adm _ (by decide +kernel), ⟨by decide +kernel, by decide +kernel, ok_ex (by decide +kernel)⟩, ok_ex (by decide +kernel), by decide +kernel, by decide +kernel, by decide +kernel⟩
def sMapq : State := adm { sQ (qu .idle) 0 with queues := [] } 16 [0, 4095, 0x1000, 7]
theorem witness_AdminContexts_queues : (Tab.get? sMapq.queues 4095 = none ∧ sMapq.ctxActive 0 = true ∧
      (∃ b, cpGet sMapq sMapq.adminLines 0 0x1000 64 = .ok b ∧ (decide (1 ≤ bytesToNat (slice b 24 4)) && decide (bytesToNat (slice b 24 4) ≤ 16)) = true) ∧
      (sMapq.queues.filter fun e => e.2.ctx == 0).length < ctxField sMapq 0 (·.maxQ)) ∧
    (∃ u, cpWrite (sResetq.modQueue 0 fun v => { v with st := .idle }) 0 (0x1000 + 40) (natToBytes 4 0) false false 0 = .ok u) ∧
    ((adminRing sResetq).slot (adminRing sResetq).ridx = 128 ∧ sResetq.admq % 64 = 0 ∧ (adminRing sResetq).rbase % 64 = 0) :=
  ⟨⟨by decide +kernel, by decide +kernel, ok_any (by decide +kernel), by decide +kernel⟩, ok_ex (by decide +kernel), by decide +kernel⟩
/-- Link 0 up, with what `f` makes of it. -/
def upLink (f : Link → Link) : State := { base with links := base.links.set 0 (f { Link.zero with st := .up, width := 8 }) }
def sWin (j : Option CkptJob) (cur : Option Nat) : State :=
  { base with windows := [(0, ⟨1, 0, 0, 2 ^ 20⟩)], ckptRun := j, adminCur := cur, mem := base.mem.write 0x50000 (natToBytes 16 (0x20000 + 131072 * 2 ^ 64)) }
def leaf0 : Nat × Nat × Nat := ((leafFrom base 0 4 3 0x1000).toOption).getD (0, 0, 0)
def sMigrate : State := adm { base with adminCur := some leaf0.2.1 } 25 [0, 131071, 0, 0x60000]
/-- SHEET at an entry of its 41,120, last worked at in an earlier cycle of the hub, and link 0 in its retraining. -/
def sSheet (i : Nat) : State := { base with hubTime := 9, adminCur := some i }
def sRetrain : State := upLink fun k => { k with st := .training, width := 8, attempts := 1 }
def failedRot : State := { base with rot := base.rot.set 191 { RotEntry.zero with failed := true } }
theorem witness_AdminTables : (∀ p ∈ ([(base, 20, [0, 0x40000, 1]), (sSheet 41119, 20, [0, 0x40000, 1]), (base, 24, [0, 0x20000, 1]), ({ base with adminCur := some 3 }, 24, [0, 0, 0]),
      ({ base with adminCur := some leaf0.2.1 }, 25, [0, 131071, 0, 0x60000]), (base, 26, [4095, 1, 1, 0, 0, 131072]), (base, 27, [0, 1, 2, 0, 4096]), (base, 28, [0x40000]),
      (base, 32, [1, 15]), (upLink id, 32, [1, 0]), (base, 33, [11]), (upLink id, 33, [0]), (sRetrain, 33, [0]), (upLink id, 34, [0]), (sRetrain, 34, [0]), (base, 35, [0x40000]), (failedRot, 40, [191]),
      (sWin none none, 41, [0x50000, 1, 0]), (sWin (some ⟨0, 9, 0, 2, 0, [], [], false⟩) (some 0), 41, [0x50000, 1, 0]), (sWin none none, 42, [0]), (sWin (some ⟨0, 9, 0, 2, 0, [], [], true⟩) (some 0), 42, [0]), (base, 49, [400]),
      ({ base with cfg := allCfg }, 50, [3, 8]), (base, 7, []), (base, 255, [])] : List (State × Nat × List Nat)), adminHolds (adm p.1 p.2.1 p.2.2) p.2.1 p.2.2 = true) ∧
    ((adm base 20 [0, 0x40000, 1]).ctx? 0).isSome = true ∧ undrained (adm { base with adminCur := some 3 } 24 [0, 0, 0]) 0 0 (2 ^ 56) 3 = false ∧
    (∀ i ∈ [0, 41119], (adm (sSheet i) 20 [0, 0x40000, 1]).adminCur = some i ∧ i % 65536 = i ∧ i / 65536 ≠ (adm (sSheet i) 20 [0, 0x40000, 1]).hubTime + 1) ∧
    ((adm { base with adminCur := some (sheetMark base 5) } 20 [0, 0x40000, 1]).adminCur = some (sheetMark base 5) ∧ sheetMark base 5 / 65536 = base.hubTime + 1) ∧
    ((adm sRetrain 33 [0]).link 0).retraining = true ∧ ((adm sRetrain 34 [0]).link 0).requests = [] ∧ ((adm base 33 [11]).link 11).retraining = false ∧
    ((adm (upLink id) 34 [0]).link 0).live = true ∧ ((adm base 33 [11]).link 11).live = false ∧ 8 ≤ (adm { base with cfg := allCfg } 50 [3, 8]).clkLim 3 :=
  ⟨holds_adm _ (by decide +kernel), by decide +kernel⟩
theorem witness_AdminTables_migrate : adminHolds sMigrate 25 [0, 131071, 0, 0x60000] = true ∧ (leafFrom sMigrate 131071 4 3 (ctxField sMigrate 0 (·.ptRoot))).toOption = some leaf0 ∧
    sMigrate.adminCur = some leaf0.2.1 ∧ pteTier leaf0.2.1 < 3 ∧ 2 ^ pageBits leaf0.2.2 = 131072 ∧ 0x60000 + 131072 ≤ tierLimit 0 ∧ sMigrate.frames = [] ∧
    undrained sMigrate 0 0 131072 sMigrate.nextId = false ∧ keyOf 0 leaf0.1 + 8 ≤ keyOf 0 0x60000 := by decide +kernel
def sCkpt : State := adm (sWin (some ⟨0, 9, 0, 2, 0, [], [], false⟩) (some 0)) 41 [0x50000, 1, 0]
theorem witness_AdminTables_ckpt : (∀ r ∈ listRanges (sCkpt.mem.bytes (keyOf 0 0x50000) (16 * 1)) 1, r.1 % 131072 = 0 ∧ r.2 % 131072 = 0) ∧
    64 + 16 * 1 + rangesLen (listRanges (sCkpt.mem.bytes (keyOf 0 0x50000) (16 * 1)) 1) ≤ winLen sCkpt 0 / 2 ∧ (Tab.get? sCkpt.windows 0).isSome = true ∧
    sCkpt.adminCur.isSome = true ∧ ckptBusy sCkpt = false := by decide +kernel
/-- An operator part, and a factory part that holds the digest of its key: what is left of CFGW's check is the signature. -/
def opPart : List Byte := natToBytes 512 (0x4F505A31 + 0x08080808 * 2 ^ 64 + 400 * 2 ^ 96 + 4 * 2 ^ 128 + 10000 * 2 ^ 160 + 1000 * 2 ^ 192)
def opDigest : List Byte := natToBytes 64 (Config.digest (slice opPart 28 132)).toNat
def facPart : List Byte := natToBytes 40 (0x15151515 * 2 ^ 256 + 2400 * 2 ^ 288) ++ (opDigest ++ List.replicate 408 0#8)
theorem facPart_digest : slice facPart 40 64 = opDigest := by
  unfold slice facPart opDigest
  rw [List.drop_append_of_le_length (Nat.le_of_eq (natToBytes_length 40 _).symm), List.drop_of_length_le (Nat.le_of_eq (natToBytes_length 40 _)), List.nil_append,
    List.take_append_of_le_length (Nat.le_of_eq (natToBytes_length 64 _).symm), List.take_of_length_le (Nat.le_of_eq (natToBytes_length 64 _))]
theorem witness_AdminTables_cfgw (h : Config.signatureValid (slice opPart 0 380) (slice opPart 28 132 ++ slice opPart 380 132) = true) :
    operatorOk facPart opPart = true := by
  unfold operatorOk
  simp only [Bool.and_eq_true]
  exact ⟨⟨by decide +kernel, by rw [facPart_digest]; exact beq_self_eq_true _⟩, h⟩
theorem witness_HostPort : State.reset.boot ≠ .ready ∧ base.boot = .ready ∧ base.portUp = true ∧ State.reset.portUp = true ∧ hostReaches base 1 0 8 ∧ ¬ hostReaches base 3 0 8 ∧
    base.isWithheld 1 0 = false ∧ notifiesAt base (131072 * 4095) 8 ∧ ¬ notifiesAt base 8 8 ∧ ¬ notifiesAt base 131072 16 ∧ base.boot ≠ .rom ∧
    (mgmtAfter base 0x8 8 64).admq = 64 ∧ (mgmtAfter base 0x2FFE 2 2047).intmap = [(4095, 2047)] ∧ (mgmtAfter base 0x3000 2 5).intmap = [] ∧
    (base.boot = .ready ∧ 65528 + 8 ≤ 65536) ∧ ¬ (base.boot = .ready ∧ base.portUp = true ∧ 65529 + 8 ≤ 65536) ∧ (mgmtAfter { base with admq := 64 } 0x10 4 0).adminRun = true ∧ ({ base with doeTranscript := [1#8] } : State).doeTranscript ≠ [] := by decide +kernel
/-- A package at 200 W under a limit of 150 W whose die 2 draws most, and one whose dies run below their limits. -/
def sHot : State := { base with plim := 150 }
def sCool : State := { base with cfg := allCfg, hubTime := 2100000, dies := base.dies.set 3 { DiePower.zero with pTarget := 20 } }
theorem witness_PowerAndHeat : base.boot = .ready ∧ base.tripped = false ∧
    (10 * sHot.plim < [2000, 100, 100, 900, 900].getD 0 0 ∧ (∀ q, q < 4 → [2000, 100, 100, 900, 900].getD (q + 1) 0 ≤ [2000, 100, 100, 900, 900].getD (2 + 1) 0) ∧
      (∀ q, q < 2 → [2000, 100, 100, 900, 900].getD (q + 1) 0 < [2000, 100, 100, 900, 900].getD (2 + 1) 0) ∧ 8 < (sHot.die 2).pTarget) ∧
    (0 * 100 < 95 * (10 * sCool.plim) ∧ sCool.lowSince + 2100000 ≤ sCool.hubTime ∧ (sCool.die 3).pTarget < Nat.min (sCool.die 3).clkSet (sCool.clkLim 3) ∧
      ∀ q, q < 3 → Nat.min (sCool.die q).clkSet (sCool.clkLim q) ≤ (sCool.die q).pTarget) ∧
    ((base.die 0).hot = false ∧ 8 < (base.die 0).tTarget) ∧ ((upLink id).link 0).live = true := by decide +kernel
/-- An image and a configuration that a boot takes, whatever the root of trust answers: the signature's check is all that the witness assumes. -/
def goodCfg : List Byte := natToBytes 512 (0x43465A31 + 0x15151515 * 2 ^ 256)
theorem witness_Recovery_boot (h : Config.signatureValid [] (Config.rootOfTrust 0 []) = true) (h' : Config.signatureValid (slice goodCfg 0 380) (slice goodCfg 380 132) = true) :
    firmwareOk State.reset.floor State.reset.flashA = true ∧ factoryOk goodCfg = true := by
  constructor
  · unfold firmwareOk
    rw [Bool.and_eq_true]
    exact ⟨by decide +kernel, h⟩
  · unfold factoryOk
    rw [Bool.and_eq_true]
    exact ⟨by decide +kernel, h'⟩
theorem witness_Recovery_fails : firmwareOk 1 State.reset.flashA = false := by
  unfold firmwareOk
  rw [show decide (1 ≤ imageVersion State.reset.flashA) = false by decide +kernel]
  rfl
def idle (now : Nat) : State := { State.reset with boot := .ready, hubTime := now, cruise := none }
def cruising : State := { idle 0 with cruise := some (191, 0, 5), cycles := Vector.replicate 4 42000 }
def inFrame (st : FrameState) : State := { base with frames := [(1, { Frame.zero with st := st })] }
theorem witness_Recovery : (base.boot = .ready ∧ State.reset.boot = .rom ∧ ({ State.reset with boot := .firmware } : State).boot = .firmware ∧
      ({ State.reset with boot := .failed } : State).boot = .failed) ∧ (nextCruise (idle (2 ^ 60))).isSome = true ∧ (cruising.cruise = some (191, 0, 5) ∧ 0 + 42000 ≤ cruising.dieCycle 0) ∧
    (base.rot[159]? = some RotEntry.zero ∧ Tab.get? RotEntry.zero.errs (3145727 / 16384) = none) ∧
    (keyOf 1 (2 ^ 40 - 1) / 131072 = keyOf 1 (2 ^ 40 - 1) / 131072 ∧ (frameOf base (keyOf 1 (2 ^ 40 - 1) / 131072)).st = .inUse ∧
      (frameOf base (keyOf 1 (2 ^ 40 - 1) / 131072)).errs = []) ∧
    ((frameOf (inFrame .failing) (keyOf 0 0x20000 / 131072)).st = .failing ∧ (freeSpare (inFrame .failing) 1).isSome = true ∧ snagRoom (inFrame .failing) = true) ∧
    ((frameOf (inFrame .moving) (keyOf 0 0x20000 / 131072)).st = .moving ∧ (inFrame .moving).accesses = []) := by decide +kernel

/-! ### Witnesses: the links -/

def msg (opc len aux : Nat) (addr : Nat) (data : List Byte) : Msg :=
  ⟨BitVec.ofNat 8 opc, 0#8, 6#16, 1#16, 0#16, BitVec.ofNat 64 addr, BitVec.ofNat 32 len, BitVec.ofNat 32 aux, data⟩
/-- Link 0 with a message at the head of its arrivals; package 1 may reach the first MiB of HBM. -/
def linked (m : Msg) : State := { upLink fun k => { k with inbox := [(m, true)] } with exports := [(0, ⟨1, 0, 0, 2 ^ 20⟩)] }
/-- Everything of `Served` that is asked of one line. -/
def lineServed (s : State) (l : Nat) (m : Msg) (isRead sync : Bool) (k : Nat) : Bool :=
  decide (keyTier (128 * k) < 3) && !s.memPoison.contains k && (s.race (.link l) k isRead sync).isNone
def servedB (s : State) (l : Nat) (m : Msg) (opc len : Nat) (isRead sync : Bool) : Bool :=
  atHead s l m opc && decide (l < 12) && s.headIn l && (linesOf ((msgAccess m).key + (msgAccess m).off) len).all (lineServed s l m isRead sync) &&
  (decide (opc ≤ 2) || decide ((msgAccess m).off + len ≤ 128)) && !(msgAccess m).acq && !(msgAccess m).rel &&
  decide ((s.link l).cache.find? (fun e => e.1 == m.rid.toNat) = none) && decide ((s.link l).newest = none) && s.queues.isEmpty && s.accesses.isEmpty
theorem served_of (s : State) (l : Nat) (m : Msg) (opc len : Nat) (isRead sync : Bool) (h : servedB s l m opc len isRead sync = true) :
    Served s l m opc len isRead sync := by
  simp only [servedB, Bool.and_eq_true, Bool.or_eq_true, decide_eq_true_eq, Bool.not_eq_true', List.isEmpty_iff, List.all_eq_true] at h
  obtain ⟨⟨⟨⟨⟨⟨⟨⟨⟨⟨h1, h2⟩, ha⟩, h3⟩, h4⟩, h5⟩, h6⟩, h7⟩, h8⟩, h9⟩, h10⟩ := h
  have line := fun k hk => (show _ ∧ _ by
    have := h3 k hk
    simp only [lineServed, Bool.and_eq_true, decide_eq_true_eq, Bool.not_eq_true', Option.isNone_iff_eq_none, and_assoc] at this
    exact this)
  exact ⟨h1, h2, ha, fun k hk => (line k hk).1, fun k hk => (line k hk).2.1, fun k hk => (line k hk).2.2, h4, ⟨h5, h6⟩, ⟨h7, h8⟩,
    ⟨h9, h10⟩⟩
def mRead : Msg := msg 1 300 0 0x20010 []
def mWrite : Msg := msg 2 3 0 0x2007E [1#8, 2#8, 3#8]
def mAtomic : Msg := msg 3 8 0 0x20008 (natToBytes 8 (2 ^ 64 - 1))
theorem witness_LinkSteps_served : Served (linked mRead) 0 mRead 1 mRead.len.toNat true false ∧
    (Served (linked mWrite) 0 mWrite 2 mWrite.len.toNat false false ∧ mWrite.data.length = mWrite.len.toNat) ∧
    (Served (linked mAtomic) 0 mAtomic 3 mAtomic.len.toNat false true ∧ mAtomic.aux = 0#32 ∧ mAtomic.len = 8#32) :=
  ⟨served_of _ _ _ _ _ _ _ (by decide +kernel), ⟨served_of _ _ _ _ _ _ _ (by decide +kernel), by decide +kernel⟩, served_of _ _ _ _ _ _ _ (by decide +kernel),
    by decide +kernel⟩
/-- A request at the head of the arrivals that the export entries did not let in. -/
theorem witness_LinkSteps_refused : (∀ m ∈ [mRead, mWrite, mAtomic], let s := upLink fun k => { k with inbox := [(m, false)] }
    atHead s 0 m m.opc.toNat = true ∧ ((s.link 0).cache.find? (fun e => e.1 == m.rid.toNat) = none ∧ (s.link 0).newest = none) ∧ s.headIn 0 = false) := by decide +kernel
/-- A message that one flit carries, for this package and for package 2, which link 3 leads to. -/
def mShort : Msg := msg 1 32 0 0x20010 []
def mOn : Msg := { mShort with dpkg := 2#16 }
def msgFlit (m : Msg) : List Byte := flitBytes (msgBytes m) 1 0 1 0
def sOn : State := { base with routes := [(2, 3)], links := (base.links.set 0 { Link.zero with st := .up, width := 8 }).set 3 { Link.zero with st := .up, width := 8 } }
theorem witness_LinkSteps_flit : (∀ m ∈ [mShort, mOn], (msgFlit m).length = 64 ∧ bytesToNat (slice (msgFlit m) 62 2) = (crc16 ((msgFlit m).take 62)).toNat ∧
      bytesToNat (slice (msgFlit m) 60 1) = 1 ∧ bytesToNat (slice (msgFlit m) 56 2) = ((sOn.link 0).rxSeq + 1) % 65536 ∧ msgOfBytes ((msgFlit m).take 56) = m ∧ msgOk m = true ∧
      24 + dataLen m.opc.toNat m.len.toNat ≤ 56 ∧ m.opc ≠ 10#8) ∧ mShort.dpkg.toNat = sOn.pkgNum ∧ mOn.dpkg.toNat ≠ sOn.pkgNum ∧ sOn.routeOf mOn.dpkg.toNat = some 3 ∧
    (sOn.link 0).live = true ∧ (sOn.link 3).live = true ∧ (sOn.link 3).room mOn = true ∧ (sOn.link 0).replay = [] := by decide +kernel
def goodFlit : List Byte := flitBytes [1#8] 1 0 2 0
def badFlit : List Byte := List.replicate 63 0#8 ++ [1#8]
def req1 : Request := ⟨6, msg 2 3 0 0x20000 [1#8, 2#8, 3#8], .nothing, 0, some 0⟩
def sReq (now : Nat) : State := { linked (msg 4 2 0 0 [0#8, 0#8]) with links := base.links.set 0 { Link.zero with st := .degraded, width := 4, inbox := [(msg 4 2 0 0 [0#8, 0#8], true)], requests := [{ req1 with msg := { req1.msg with dpkg := 1#16 } }] }, hubTime := now }
def sBack9 (opc : Nat) : State := { base with links := (base.links.set 0 { Link.zero with st := .up, width := 8, inbox := [(msg opc 1 0 0 [0#8], true)] }).set 7 { Link.zero with st := .up, width := 8, requests := [{ req1 with msg := { req1.msg with dpkg := 1#16 } }] } }
theorem witness_LinkSteps : (((upLink id).link 0).live = true ∧ goodFlit.length = 64 ∧ ((upLink id).link 0).replay = [] ∧
      bytesToNat (slice goodFlit 62 2) = (crc16 (goodFlit.take 62)).toNat ∧ bytesToNat (slice goodFlit 60 1) = 2 ∧
      bytesToNat (slice goodFlit 56 2) = (((upLink id).link 0).rxSeq + 1) % 65536) ∧
    (badFlit.length = 64 ∧ bytesToNat (slice badFlit 62 2) ≠ (crc16 (badFlit.take 62)).toNat) ∧
    (((upLink fun k => { k with replay := [(5, 6, goodFlit), (6, 7, goodFlit)] }).link 0).replay.findIdx? (fun f => f.1 == 6) = some 1 ∧
      ((upLink fun k => { k with replay := [(5, 6, goodFlit)] }).link 0).replay.findIdx? (fun f => f.1 == 5) = some 0) ∧
    (((upLink fun k => { k with st := .training, width := 0 }).link 0).st = .training ∧ ((upLink fun k => { k with st := .training, width := 0 }).link 0).width = 0) ∧
    (((linked (msg 10 0 0 0 [])).link 0).inbox.head?.map (·.1) = some (msg 10 0 0 0 []) ∧ (msg 10 0 0 0 []).opc = 10#8 ∧ ((linked (msg 10 0 0 0 [])).link 0).requests = []) ∧
    ((sReq 0).link 0).inbox.head?.map (·.1) = some (msg 4 2 0 0 [0#8, 0#8]) ∧ (msg 4 2 0 0 [0#8, 0#8]).addr = 0#64 ∧
    ((sReq 0).link 0).requests.find? (fun r => r.rid == (msg 4 2 0 0 [0#8, 0#8]).rid.toNat && r.msg.dpkg == (msg 4 2 0 0 [0#8, 0#8]).spkg) =
      some { req1 with msg := { req1.msg with dpkg := 1#16 } } ∧
    (∀ k, k < 12 → ((linked (msg 4 2 0 0 [0#8, 0#8])).link k).requests = []) ∧
    -- an acknowledgment by the owner of a collective, and a reply and a RETRY whose requests left on another link than the one they come back on
    (((linked (msg 4 10 0 1 [])).link 0).inbox.head?.map (·.1) = some (msg 4 10 0 1 []) ∧ (msg 4 10 0 1 []).addr ≠ 0#64) ∧
    ((sBack9 4).link 0).inbox.head?.map (·.1) = some (msg 4 1 0 0 [0#8]) ∧ ((sBack9 4).link 7).requests.find? (fun r => r.rid == (msg 4 1 0 0 [0#8]).rid.toNat && r.msg.dpkg == (msg 4 1 0 0 [0#8]).spkg) =
      some { req1 with msg := { req1.msg with dpkg := 1#16 } } ∧ (∀ j, j < 7 → ((sBack9 4).link j).requests = []) ∧
    ((sBack9 9).link 0).inbox.head?.map (·.1) = some (msg 9 1 0 0 [0#8]) ∧ requestOf (sBack9 9) 0 (msg 9 1 0 0 [0#8]) = some (7, { req1 with msg := { req1.msg with dpkg := 1#16 } }) ∧
    (0 + 2100 ≤ (sReq 2100).hubTime ∧ ((sReq 2100).link 0).live = true ∧ ((sReq 2100).link 0).room { req1.msg with dpkg := 1#16 } = true) := by decide +kernel
/-- A landing slot of core 0 and a message that fills it. -/
def mLand : Msg := msg 5 64 7 (64 * 2 ^ 8) (List.replicate 64 9#8)
def sLand : State := (linked mLand).modCore 0 fun c => { c with lands := c.lands.set 7 ⟨true, 128, 128, 0⟩ }
/-- The two parts of a LAND for cores 0 and 1. -/
def mMany : Msg := { mLand with rid := 7#16 }
def fMany : Msg := msg 5 20 0 63 (natToBytes 20 3)
def sMany : State := { (linked mMany).modCore 0 (fun c => { c with lands := c.lands.set 7 ⟨true, 128, 128, 0⟩ }) with pieces := [(0, fMany)] }.modCore 1 fun _ =>
  { fetchCore [] with lands := (fetchCore []).lands.set 7 ⟨true, 256, 128, 0⟩ }
def landB (s : State) (m : Msg) (n : Nat) : Bool :=
  decide (n < 160) && !awayOn s (msgCtx m) n && decide ((s.core n).st ≠ .free) && decide ((s.core n).ctx = msgCtx m) && !landHeld s n m.aux.toNat (msgOff m) m.data.length &&
  ((s.core n).lands[m.aux.toNat]?).any fun ls => ls.armed && decide (msgOff m + m.data.length ≤ ls.len) && decide (ls.off + ls.len ≤ (s.core n).padSize)
theorem witness_LinkSteps_land : (atHead sLand 0 mLand 5 = true ∧ NewRid sLand 0 mLand ∧ msgCore mLand ≠ 63 ∧ mLand.aux.toNat = 7 ∧
      landCores mLand (firstPart sLand 0 mLand) = [0] ∧ landB sLand mLand 0 = true) ∧
    (atHead sMany 0 mMany 5 = true ∧ NewRid sMany 0 mMany ∧ landCores mMany (firstPart sMany 0 mMany) = [0, 1] ∧ landB sMany mMany 0 = true ∧ landB sMany mMany 1 = true) ∧
    (let m := msg 5 20 0 63 (natToBytes 20 3)
     atHead (linked m) 0 m 5 = true ∧ NewRid (linked m) 0 m ∧ msgCore m = 63 ∧ firstPart (linked m) 0 m = none) := by unfold NewRid; decide +kernel
/-- A collective of one element with the owner on core 1, whose slot is a step ahead. -/
def collSlot : MSlot := { MSlot.zero with st := .busy, op := 0x13, flx := 0, blk := natToBytes 64 (7 * 2 ^ 128 + 2 * 2 ^ 160 + 2 ^ 288), work := [0, 1, 0x10000, 0], descs := [descOf 0 0x80003F0000010000 64, descOf 0 0x80003F0000010000 1, 0#1024, 0#1024] }
def sPiece (m : Msg) : State := ((linked m).modCore 0 fun c => { c with slots := c.slots.set 1 collSlot }).modCore 1 fun _ => { fetchCore [] with slots := (fetchCore []).slots.set 0 { collSlot with idx := Vector.replicate 4 1 } }
def takenB : PieceEnd → Bool
  | .taken _ => true
  | .retry => false
  | .mismatch _ => false
theorem taken_ex {e : PieceEnd} (h : takenB e = true) : ∃ s, e = .taken s := by
  cases e with
  | taken s => exact ⟨s, rfl⟩
  | retry => cases h
  | mismatch s => cases h
/-- The parts of a switch's partial sum, for chunk 0 at core 1. -/
def mSum : Msg := { msg 6 16 0 1 (List.replicate 16 1#8) with rid := 7#16 }
def fSum : Msg := msg 6 2196 0 1 (natToBytes 4 7 ++ natToBytes 4 collSlot.xchk.toNat ++ natToBytes 2188 0)
def sSum : State := { sPiece mSum with pieces := [(0, fSum)] }
theorem witness_LinkSteps_pieces : (atHead (sPiece mSum) 0 mSum 6 = true ∧ NewRid (sPiece mSum) 0 mSum ∧ firstPart (sPiece mSum) 0 mSum = none) ∧
    (atHead (linked (msg 7 64 0 0 [])) 0 (msg 7 64 0 0 []) 7 = true ∧ NewRid (linked (msg 7 64 0 0 [])) 0 (msg 7 64 0 0 []) ∧ firstPart (linked (msg 7 64 0 0 [])) 0 (msg 7 64 0 0 []) = none) ∧
    (atHead sSum 0 mSum 6 = true ∧ NewRid sSum 0 mSum ∧ firstPart sSum 0 mSum = some fSum ∧ 20 < fSum.data.length ∧ 40 * msgDie mSum + msgCore mSum = 1 ∧ (sSum.core 1).st ≠ .free ∧
      (sSum.core 1).ctx = msgCtx mSum ∧ ∃ s2, takePiece ((sSum.popInbox 0).modLink 0 fun k => k.seen mSum.rid.toNat) 1 (pieceOf fSum mSum) = .taken s2) :=
  ⟨by unfold NewRid; decide +kernel, by unfold NewRid; decide +kernel, by decide +kernel, by unfold NewRid; decide +kernel, by decide +kernel, by decide +kernel,
    by decide +kernel, by decide +kernel, by decide +kernel, taken_ex (by decide +kernel)⟩
def mNeed : Msg := msg 8 12 1 0 (natToBytes 4 7 ++ natToBytes 4 0 ++ natToBytes 4 0)
def lateReq : Request := ⟨9, { msg 6 16 1 1 [] with dpkg := 0#16 }, .slot 0 1, 0, none⟩
def sLate : State := { (sPiece mNeed).modCore 0 (fun c => { c with slots := c.slots.set 1 { collSlot with blk := natToBytes 64 (7 * 2 ^ 128 + 2 * 2 ^ 160 + 2 ^ 288) } }) with
  hubTime := 105000, links := base.links.set 11 { Link.zero with st := .up, width := 8, requests := [lateReq] } }
def lateLinks : State := { sLate with links := sLate.links.map fun k => { k with requests := k.requests.filter fun r => !(r.owner == .slot 0 1 && r.msg.opc.toNat == 6 &&
  decide (r.sentAt + 105000 ≤ sLate.hubTime) && r.msg.dpkg.toNat == (sLate.slotAt 0 1).member 0 % 2 ^ 14 && msgCore r.msg == (sLate.slotAt 0 1).member 0 / 2 ^ 16 &&
  msgDie r.msg == natBits ((sLate.slotAt 0 1).member 0) 14 2) } }
theorem witness_LinkSteps_need : (((sPiece mNeed).link 0).inbox.head?.map (·.1) = some mNeed ∧ 40 * msgDie mNeed + msgCore mNeed = 0 ∧
      (List.range 4).find? (fun t => ((((sPiece mNeed).slotAt 0 t).st == .busy || ((sPiece mNeed).slotAt 0 t).st == .halted) && ((sPiece mNeed).slotAt 0 t).op == 0x13 && ((sPiece mNeed).slotAt 0 t).cid == msgNat mNeed 0 4)) = some 1 ∧
      ((sPiece mNeed).slotAt 0 1).chunkNow = msgNat mNeed 4 4 ∧ ((sPiece mNeed).core 0).ctx = msgCtx mNeed ∧ (sendDirect ((sPiece mNeed).popInbox 0) 0 1 (msgNat mNeed 4 4) (msgNat mNeed 8 4)).isSome = true) ∧
    ((sLate.slotAt 0 1).st = .busy ∧ (sLate.slotAt 0 1).op = 0x13 ∧ (sLate.slotAt 0 1).net = true ∧ (sLate.slotAt 0 1).reduces = true ∧ lateReq ∈ (sLate.link 11).requests ∧
      lateReq.sentAt + 105000 ≤ sLate.hubTime ∧ lateReq.msg.dpkg.toNat = (sLate.slotAt 0 1).member 0 % 2 ^ 14 ∧
      0 < (sLate.slotAt 0 1).nm ∧ msgCore lateReq.msg = (sLate.slotAt 0 1).member 0 / 2 ^ 16 ∧ msgDie lateReq.msg = natBits ((sLate.slotAt 0 1).member 0) 14 2 ∧
      (sendDirect lateLinks 0 1 ((sLate.slotAt 0 1).ix 0) 0).isSome = true) := by decide +kernel
/-- The parts of a chunk for the exchange of `sMix`, for the task with TIDX 0, in map epoch 0. -/
def mChunk : Msg := { msg 7 128 1 0 (List.replicate 128 3#8) with rid := 7#16 }
def fChunk : Msg := msg 7 24 0 0 (natToBytes 4 0 ++ natToBytes 1 13 ++ natToBytes 1 0 ++ natToBytes 2 0 ++ natToBytes 16 0)
def aChunk : Arrival := ⟨0, 1, 0, 0, 13, 0, 0, 0#32, 0, false⟩
def sChunk : State := { sMix.modCore 0 (fun c => { c with xin := [] }) with links := base.links.set 0 { Link.zero with st := .up, width := 8, inbox := [(mChunk, true)] }, pieces := [(0, fChunk)] }
theorem witness_LinkSteps_exchange : atHead sChunk 0 mChunk 7 = true ∧ NewRid sChunk 0 mChunk ∧ firstPart sChunk 0 mChunk = some fChunk ∧
    aChunk = (⟨msgOff mChunk, mChunk.aux.toNat, msgCore mChunk, msgNat fChunk 0 4, msgNat fChunk 4 1, msgNat fChunk 5 1, msgNat fChunk 8 4, BitVec.ofNat 32 (msgNat fChunk 12 4),
      msgNat fChunk 16 8, false⟩ : Arrival) ∧ msgDie mChunk = 0 ∧ (∀ i, i < 40 → i ≠ 0 → (sChunk.core i).st = .free) ∧ (sChunk.core 0).st ≠ .free ∧
    (sChunk.core 0).ctx = msgCtx mChunk ∧ (sChunk.core 0).tidx = aChunk.tidx ∧ (∀ y, y < 4 → y ≠ 1 → (sChunk.slotAt 0 y).st = .free) ∧ (sChunk.slotAt 0 1).exchanging = true ∧
    (holderOf sChunk 0 (sChunk.slotAt 0 1) 0).map (·.1) = some (msgNat fChunk 6 2) ∧ (sChunk.slotAt 0 1).woff + 16384 * (aChunk.k % 2) = aChunk.off ∧
    (sChunk.slotAt 0 1).pchk = aChunk.pchk ∧ (sChunk.slotAt 0 1).ix 3 = aChunk.epoch ∧ (aChunk.k < 2) ∧
    (sChunk.core 0).xin = [] ∧ (sChunk.slotAt 0 1).outs = [] ∧ (sChunk.core 0).bankUse = [] ∧ msgOff mChunk + mChunk.data.length ≤ (sChunk.core 0).padSize := by
  unfold NewRid
  decide +kernel
theorem witness_LinkSteps_plan : ∀ b c q, (sChunk.slotAt 0 1).planStep = .exch b c q → b = aChunk.b ∧ c = aChunk.c := by
  have h : (sChunk.slotAt 0 1).op = 0x12 ∧ (sChunk.slotAt 0 1).f 16 1 = 13 ∧ (sChunk.slotAt 0 1).f 17 1 = 0 ∧ (sChunk.slotAt 0 1).ix 0 = 0 := by decide +kernel
  intro b c q e
  unfold MSlot.planStep at e
  rw [if_pos h.1, h.2.1, h.2.2.1, h.2.2.2] at e
  have h2 := PlanStep.exch.inj e
  exact ⟨h2.1.symm, h2.2.1.symm⟩

/-! ### Witnesses: faults, steps, decoding, memories -/

/-- A core at a bundle that decodes to nothing, and one at an address without a page. -/
def sBad : State := placeWord State.reset 16 0xF000
def sOut : State := at0 fun c => { c with pc := 0x100000#64 }
theorem witness_FaultEntry : RingTakes sFault 0 ∧ (sFault.ctx? (sFault.core 0).ctx).isSome = true ∧ (Calm sBad ∧ fetchBundle sBad 0 sBad.me.pc = .bad [] 0 0 1) ∧
    (Calm sOut ∧ sOut.me.innermost = none ∧ ∃ e, fetchBundle sOut 0 sOut.me.pc = .fault e) :=
  ⟨ring_takes, by decide +kernel, ⟨calm_of _ (by decide +kernel), by decide +kernel⟩, calm_of _ (by decide +kernel), by decide +kernel,
    ⟨⟨3, 0, 0, 1048576, 66319⟩, by decide +kernel⟩⟩
def nexts (o : Host.Outcome State Fault Refusal) : Bool := match o with
  | .next _ => true
  | .fault _ => false
  | .refused _ => false
theorem next_ex {o : Host.Outcome State Fault Refusal} (h : nexts o = true) : ∃ s, o = .next s := by
  cases o with
  | next s => exact ⟨s, rfl⟩
  | fault f => cases h
  | refused r => cases h
def sAdd : State := placeWord State.reset 32 0x14060043
theorem witness_StepRuns : sAdd.inputs = [] ∧ sAdd.boot = .ready ∧ sAdd.tripped = false ∧ (dueEvents sAdd).findSome? (tryEvent sAdd) = none ∧
    (freeEvents sAdd).filterMap (tryEvent sAdd) = [] ∧ Calm sAdd ∧ (Instr.add 3#6 5#6 6#6).cause = none ∧ (Instr.add 3#6 5#6 6#6).raw.isSome = true ∧
    fetchBundle sAdd sAdd.turn.val sAdd.me.pc = .ok [(0, slotOf (.add 3#6 5#6 6#6), .add 3#6 5#6 6#6)] (lenOf (.add 3#6 5#6 6#6)) ∧
    ∃ u, exec (.add 3#6 5#6 6#6) sAdd = .next u :=
  ⟨by decide +kernel, by decide +kernel, by decide +kernel, Option.isNone_iff_eq_none.1 (by decide +kernel), List.isEmpty_iff.1 (by decide +kernel),
    calm_of _ (by decide +kernel), by decide +kernel, by decide +kernel, by decide +kernel, next_ex (by decide +kernel)⟩
theorem witness_DecodeEncode : ∀ i ∈ ([.add 63#6 63#6 63#6, .bra 0xFFFFFFFF#32, .zmma ⟨63#6, 63#6, 63#6, 15#4, 255#8, 255#8⟩, .mstat 3#2 31#5] : List Instr),
    i.raw.isSome = true ∧ (i.cause = none ∨ i = .zmma ⟨63#6, 63#6, 63#6, 15#4, 255#8, 255#8⟩) := by decide +kernel
theorem witness_MemoriesStayCanonical : sAdd.memWf ∧ ∃ t, step sAdd = .next t := by
  refine ⟨⟨by decide +kernel, by decide +kernel, fun n => ?_⟩, next_ex (by decide +kernel)⟩
  by_cases h : n < 160
  · exact (show ∀ n, n < 160 → (sAdd.core n).poolWf = true by decide +kernel) n h
  · unfold State.core
    rw [Vector.getElem?_eq_none (by omega)]
    rfl

end Sys2Proof.Tests
end

section
/-!
MTS on an undisturbed core: what a write to a system register makes of the core, and that nothing else changes (R55, R90, R122).
-/
namespace Sys2Proof.Machine
open Sys2Proof.Spec

/-! ### Writing a system register -/

/-- What a vector holds after some of the elements from `b` on have been replaced. -/
theorem getElem_foldl_setIfInBounds {α : Type} {k : Nat} (p : Nat → Bool) (w : Nat → α) (b : Nat) (xs : Vector α k) (j : Nat) (hj : j < k) (m : Nat) :
    ((List.range m).foldl (fun (ys : Vector α k) f => if p f then ys.setIfInBounds (b + f) (w f) else ys) xs)[j] =
      if b ≤ j ∧ j < b + m ∧ p (j - b) then w (j - b) else xs[j] := by
  induction m with
  | zero => rw [if_neg (by omega)]; rfl
  | succ m ih =>
    rw [List.range_succ, List.foldl_append, List.foldl_cons, List.foldl_nil]
    by_cases hm : b + m = j
    · subst hm
      cases hp : p m <;> simp [ih, hp]
    · have hlt : j < b + (m + 1) ↔ j < b + m := by omega
      rw [apply_ite (fun ys : Vector α k => ys[j]), Vector.getElem_setIfInBounds, if_neg hm, ite_self, ih]
      simp only [hlt]

theorem Core.raisedNow_of_none_raised (c : Core) (i : Fin 6) (f : Nat) (h : c.raised = []) : c.raisedNow i f = none := by
  simp [Core.raisedNow, h]

theorem Core.writeXs_frame (c : Core) (i : Fin 6) (v : Word) :
    c.writeXs i v = { c with xs := (c.writeXs i v).xs, xa := (c.writeXs i v).xa } := rfl
theorem Core.writeXs_xs (c : Core) (i : Fin 6) (v : Word) (h : c.raised = []) : (c.writeXs i v).xs = c.xs.set i (v.extractLsb' 0 6) := by
  have hkept : (List.range 6).foldl (fun (m : Flags) _ => m) 0#6 = 0#6 := rfl
  simp only [Core.writeXs, Core.raisedNow_of_none_raised c _ _ h, Option.isSome_none, Bool.and_false, Bool.false_eq_true, if_false, hkept, BitVec.or_zero]
/-- R55 without an exception in the cycle of the MTS: the flags written from 1 to 0 lose their addresses. -/
theorem Core.writeXs_xa (c : Core) (i : Fin 6) (v : Word) (h : c.raised = []) (j : Nat) (hj : j < 36) :
    (c.writeXs i v).xa[j] = if j / 6 = i.val ∧ c.xs[i].getLsbD (j % 6) = true ∧ v.getLsbD (j % 6) = false then 0#64 else c.xa[j] := by
  simp only [Core.writeXs, Core.raisedNow_of_none_raised c _ _ h, Option.getD_none]
  rw [getElem_foldl_setIfInBounds (fun f => c.xs[i].getLsbD f && !(v.extractLsb' 0 6).getLsbD f) (fun _ => 0#64)]
  have hrange : (6 * i.val ≤ j ∧ j < 6 * i.val + 6) ↔ j / 6 = i.val := by omega
  refine ite_congr (propext ?_) (fun _ => rfl) fun _ => rfl
  rw [← and_assoc, hrange]
  refine and_congr_right fun hd => ?_
  have hm : j - 6 * i.val = j % 6 := by omega
  have hlt : j % 6 < 6 := Nat.mod_lt _ (by decide)
  simp [hm, hlt]

theorem ite_eq_iff_cases {α : Type} {p : Prop} [Decidable p] {a b c : α} : (if p then a else b) = c ↔ p ∧ a = c ∨ ¬p ∧ b = c := by
  by_cases hp : p
  · simp only [hp, if_true, true_and, not_true_eq_false, false_and, or_false]
  · simp only [hp, if_false, false_and, not_false_eq_true, true_and, false_or]
/-- The registers that MTS may write (R90). -/
theorem sysRegInfo_writable {n : BitVec 12} (h : sysRegInfo n = some (32, true)) :
    n.toNat = 0x001 ∨ n.toNat = 0x004 ∨ n.toNat = 0x005 ∨ (0x010 ≤ n.toNat ∧ n.toNat ≤ 0x015) := by
  simp only [sysRegInfo, ite_eq_iff_cases, Option.some.injEq, Prod.mk.injEq, reduceCtorEq, and_false, and_true, or_false, false_or] at h
  omega

theorem Core.writeSys_sticky (c : Core) (n : BitVec 12) (i : Fin 6) (v : Word) (h : n.toNat = 0x010 + i.val) : c.writeSys n v = c.writeXs i v := by
  unfold Core.writeSys
  match i, h with
  | 0, h | 1, h | 2, h | 3, h | 4, h | 5, h => rw [h]; rfl

/-- R122: what MTS writes when no exception is raised in its cycle. -/
theorem Core.writeSys_eq_mtsCore (c : Core) (n : BitVec 12) (v : Word) (hr : c.raised = []) (h : sysRegInfo n = some (32, true)) :
    c.writeSys n v = mtsCore c n.toNat v := by
  obtain hn | hn | hn | ⟨hlo, hhi⟩ := sysRegInfo_writable h
  · simp [Core.writeSys, mtsCore, hn]
  · simp [Core.writeSys, mtsCore, hn]
  · simp [Core.writeSys, mtsCore, hn]
  · obtain ⟨i, hi⟩ : ∃ i : Fin 6, n.toNat - 0x010 = i.val := ⟨⟨n.toNat - 0x010, by omega⟩, rfl⟩
    have hxs : (c.writeXs i v).xs = Vector.ofFn fun j => if j.val = i.val then v.extractLsb' 0 6 else c.xs[j] := by
      ext j hj : 1
      rw [Core.writeXs_xs c i v hr, Vector.getElem_set, Vector.getElem_ofFn]
      exact ite_congr (propext eq_comm) (fun _ => rfl) fun _ => rfl
    have hxa : (c.writeXs i v).xa = Vector.ofFn fun j =>
        if j.val / 6 = i.val ∧ (c.xs.toList.getD (j.val / 6) 0#6).getLsbD (j.val % 6) ∧ v.getLsbD (j.val % 6) = false then 0#64 else c.xa[j] := by
      ext j hj : 1
      rw [Core.writeXs_xa c i v hr, Vector.getElem_ofFn]
      refine ite_congr (propext (and_congr_right fun hd => ?_)) (fun _ => rfl) fun _ => rfl
      have hold : c.xs.toList.getD (j / 6) 0#6 = c.xs[i] := by simp [hd]
      rw [hold]
    rw [Core.writeSys_sticky c n i v (by omega), Core.writeXs_frame, hxs, hxa, mtsCore, if_neg (by omega), if_neg (by omega), if_neg (by omega), hi]

theorem mtsCore_flights (c : Core) (n : Nat) (v : Word) : (mtsCore c n v).flights = c.flights := by
  unfold mtsCore
  repeat' split
  all_goals rfl
theorem mtsCore_rest (c : Core) (n : Nat) (v : Word) : (mtsCore c n v).rest = (mtsCore c.rest n v).rest := by
  unfold mtsCore
  by_cases h1 : n = 0x001
  · simp only [if_pos h1]; rfl
  · by_cases h4 : n = 0x004
    · simp only [if_neg h1, if_pos h4]; rfl
    · by_cases h5 : n = 0x005
      · simp only [if_neg h1, if_neg h4, if_pos h5]; rfl
      · simp only [if_neg h1, if_neg h4, if_neg h5]; rfl

/-! ### The landing of the write -/

/-- A core at the start of its next issue cycle, before what is due in it lands; `fs` stays in flight. -/
def Core.ticked (c : Core) (fs : List Flight) : Core :=
  { c with ic := c.ic + 1, blaze := c.blaze + 1, flights := fs,
           wports := c.wports.filter (fun p => decide (c.ic + 1 ≤ p.cyc)), bankUse := c.bankUse.filter (fun u => decide (c.ic + 1 ≤ u.cyc)) }
theorem Core.advance_eq_landAll (fr : Nat) (c : Core) :
    c.advance fr = Core.landAll fr
      { Core.landAll fr (c.ticked (dueFlights (c.ic + 1) c.flights).2) ((dueFlights (c.ic + 1) c.flights).1.filter fun f => f.what.rank == 0) with raised := [] }
      ((dueFlights (c.ic + 1) c.flights).1.filter fun f => f.what.rank != 0) := rfl
theorem Core.landOne_sys (fr : Nat) (c : Core) (f : Flight) (n : BitVec 12) (v : Word) (hw : f.what = .sys n v) (hfl : f.flags = 0#6) :
    (c.landOne fr f).1 = c.writeSys n v := by
  simp [Core.landOne, hw, hfl]

/-- A cycle in which the only result in flight, a write to a system register, lands. -/
theorem Core.advance_sys (fr : Nat) (c : Core) (f : Flight) (n : BitVec 12) (v : Word) (hr : c.raised = []) (h : sysRegInfo n = some (32, true))
    (hf : c.flights = [f]) (hw : f.what = .sys n v) (hfl : f.flags = 0#6) (hc : f.cyc = c.ic + 1) :
    (c.advance fr).rest = (mtsCore c n.toNat v).rest ∧ (c.advance fr).flights = [] := by
  have hrank : f.what.rank = 0 := by rw [hw]; rfl
  have hdue : dueFlights (c.ic + 1) c.flights = ([f], []) := by simp [dueFlights, hf, hc, hrank]
  have h0 : [f].filter (fun f => f.what.rank == 0) = [f] := by simp [hrank]
  have h1 : [f].filter (fun f => f.what.rank != 0) = [] := by simp [hrank]
  have hland : Core.landAll fr (c.ticked []) [f] = mtsCore (c.ticked []) n.toNat v := by
    rw [Core.landAll_cons, Core.landOne_sys fr _ f n v hw hfl, Core.writeSys_eq_mtsCore (c.ticked []) n v hr h]
    rfl
  rw [Core.advance_eq_landAll, hdue, h0, h1, hland]
  constructor
  · show (mtsCore (c.ticked []) n.toNat v).rest = _
    rw [mtsCore_rest, mtsCore_rest c]
    rfl
  · show (mtsCore (c.ticked []) n.toNat v).flights = _
    exact mtsCore_flights _ _ _

theorem Core.issuing_rest (s : State) (h : Quiet s) (u : Issue) (next : DWord) (hv : u.uses.viewW = []) (hj : u.vjoin = false) (ha : u.array = 0)
    (he : u.empty = 0) (hw : u.waits = []) (ht : u.trap = none) : (s.me.issuing u next).rest = s.me.rest := by
  simp [Core.issuing, Core.rest, hv, hj, ha, he, hw, ht, h.empty, h.waits, h.trap, h.held]

/-! ### The instruction -/

theorem cause_mts_writable (d : BitVec 6) (n : BitVec 12) (h : sysRegInfo n = some (32, true)) : (Instr.mts d n).cause = none := by
  simp only [Instr.cause, Instr.violations, h]
  rfl
theorem cause_mts_other (d : BitVec 6) (n : BitVec 12) (h : sysRegInfo n ≠ some (32, true)) : (Instr.mts d n).cause = some 8 := by
  -- the hypothesis picks the rule's second case
  simp only [Instr.cause, Instr.violations]
  rfl

/-- What MTS asks of its issue cycle passes every check. -/
theorem opMts_passes (s : State) (h : Quiet s) (d : BitVec 6) (n : BitVec 12) : Passes s (.mts d n) (opMts d n s (soloAt s (.mts d n))) where
  stall := rfl
  ill := rfl
  excs := rfl
  ports := by rw [soloPlan_seq s _ _ h rfl]; rfl
  banks := rfl
  view := rfl
  blaze := rfl
  drain := by rw [soloPlan_seq s _ _ h rfl]
  sync := rfl

/-- R122: MTS to a writable register on an undisturbed core. -/
theorem exec_mts_writable (s : State) (d : BitVec 6) (n : BitVec 12) (h : Quiet s) (hr : s.me.raised = []) (hn : sysRegInfo n = some (32, true)) :
    ∃ t, exec (.mts d n) s = .next t ∧ Issued s t (after s (.mts d n)) ∧
      ∀ fr k, (later fr k t.me).rest = (mtsCore s.me n.toNat (s.me.rx d)).rest := by
  refine ⟨_, runSolo_seq _ _ s h (cause_mts_writable d n hn) (opMts_passes s h d n) rfl rfl rfl, ?_, fun fr k => ?_⟩
  · exact issued_of_setCore s _ _ (Core.advance_pc _ _) (Core.advance_ic _ _)
  · rw [me_of_setCore]
    generalize hd : (s.core s.turn.val).issuing _ _ = c
    have hrest : c.rest = s.me.rest := by rw [← hd]; exact Core.issuing_rest s h _ _ rfl rfl rfl rfl rfl rfl
    obtain ⟨hland, hidle⟩ := Core.advance_sys s.fresh c (flightAt s.me (soloAt s (.mts d n)) 1 0#6 (.sys n (s.me.rx d))) n (s.me.rx d)
      (by rw [← hd]; exact hr) hn (by rw [← hd]; rfl) rfl rfl (by rw [← hd]; rfl)
    rw [later_idle fr k _ hidle, hland, mtsCore_rest, hrest, ← mtsCore_rest]

/-- Settles O13: the write is the only result in flight and lands as the next issue cycle starts. -/
theorem writeSystem : Obligations.WriteSystem := by
  intro s d n h hr
  exact ⟨exec_mts_writable s d n h hr, cause_mts_other d n⟩

end Sys2Proof.Machine
end

section
/-!
The step of a package in which nothing is due or enabled is the turn of a core; what it marks as stalled (R4, R62, R94).
-/
namespace Sys2Proof.Machine
open Sys2Proof.Spec

/-! ### A step that is a core's turn -/

/-- With no input and nothing due or enabled a step is the turn of the core whose turn it is. -/
theorem step_eq_turnStep (s : State) (hi : s.inputs = []) (hb : s.boot = .ready) (ht : s.tripped = false)
    (hd : (dueEvents s).findSome? (tryEvent s) = none) (hf : (freeEvents s).filterMap (tryEvent s) = []) : step s = .next (turnStep s) := by
  simp [step, hi, hb, stopped, ht, hd, hf, chooseEvent]

/-- On an undisturbed core whose next bundle is the instruction alone, running it alone is the core's turn. -/
theorem runSolo_eq_coreTurn (i : Instr) (s : State) (h : Calm s) (hc : i.cause = none)
    (hfetch : fetchBundle s s.turn.val s.me.pc = .ok [(0, slotOf i, i)] (lenOf i)) : runSolo i (opOf i) s = .next (coreTurn s) := by
  simp [runSolo, coreTurn, h.running, beforeIssue_calm s h, runBundle, hfetch, toItems, hc]

/-- A turn without an issue that leaves its core not running does not mark it as stalled: a stall is a running core's (R94). -/
theorem turnStep_not_stalled (s : State) (hlast : s.turn.val + 1 < 160) (hic : ((coreTurn s).core s.turn.val).ic = s.me.ic)
    (hst : ((coreTurn s).core s.turn.val).st ≠ .running) : ((turnStep s).core s.turn.val).stalled = false := by
  simp only [turnStep, hic, hlast, dif_pos, if_true]
  show (((coreTurn s).setCore s.turn.val _).core s.turn.val).stalled = false
  rw [State.core_setCore_self _ _ _ s.turn.isLt]
  simp [hst]

/-- The state that the statement claims a step to give, where `u` is what the instruction gives. -/
def claimedTurn (s u : State) : State :=
  let v := if (u.core s.turn.val).ic = s.me.ic then u.modCore s.turn.val fun c => { c with raised := [], stalled := true }
    else delayCopies (u.modCore s.turn.val fun c => { c with stalled := false }) s.turn.val s.me.ic (writeBanks s.me)
  if h : s.turn.val + 1 < 160 then { v with turn := ⟨s.turn.val + 1, h⟩ } else endCycle v
theorem claimedTurn_stalled (s u : State) (hlast : s.turn.val + 1 < 160) (hic : (u.core s.turn.val).ic = s.me.ic) :
    ((claimedTurn s u).core s.turn.val).stalled = true := by
  simp only [claimedTurn, hic, hlast, dif_pos, if_true]
  show ((u.setCore s.turn.val _).core s.turn.val).stalled = true
  rw [State.core_setCore_self _ _ _ s.turn.isLt]

/-! ### A branch that ends its group -/

/-- Core 0 at address 0 with `b -1`, whose target −2 is no code target: ADDRESS, which is not resumable, ends the group (R97, R105). -/
def branchOut : State := placeWord State.reset 64 0xFFFFFFFF00009080

theorem branchOut_calm : Calm branchOut := by constructor <;> decide +kernel
theorem branchOut_fetch : fetchBundle branchOut branchOut.turn.val branchOut.me.pc =
    .ok [(0, slotOf (.bra 0xFFFFFFFF#32), .bra 0xFFFFFFFF#32)] (lenOf (.bra 0xFFFFFFFF#32)) := by decide +kernel
theorem branchOut_due : (dueEvents branchOut).findSome? (tryEvent branchOut) = none := Option.isNone_iff_eq_none.1 (by decide +kernel)
theorem branchOut_free : (freeEvents branchOut).filterMap (tryEvent branchOut) = [] := List.isEmpty_iff.1 (by decide +kernel)
theorem branchOut_faults : ((coreTurn branchOut).core branchOut.turn.val).ic = branchOut.me.ic ∧
    ((coreTurn branchOut).core branchOut.turn.val).st = .free := by decide +kernel

/-- Refutes O56: where the instruction faults without an issue, its core runs no longer, and the step does not mark it as stalled. -/
theorem not_stepRuns : ¬ Obligations.StepRuns := by
  intro h
  obtain ⟨hic, hst⟩ := branchOut_faults
  have hclaim : step branchOut = .next (claimedTurn branchOut (coreTurn branchOut)) :=
    h branchOut (.bra 0xFFFFFFFF#32) (coreTurn branchOut) rfl rfl rfl branchOut_due branchOut_free branchOut_calm rfl rfl branchOut_fetch
      (runSolo_eq_coreTurn (.bra 0xFFFFFFFF#32) branchOut branchOut_calm rfl branchOut_fetch)
  rw [step_eq_turnStep branchOut rfl rfl rfl branchOut_due branchOut_free] at hclaim
  have hturn : turnStep branchOut = claimedTurn branchOut (coreTurn branchOut) := Host.Outcome.next.inj hclaim
  have hstall : ((claimedTurn branchOut (coreTurn branchOut)).core branchOut.turn.val).stalled = true :=
    claimedTurn_stalled branchOut _ (by decide) hic
  rw [← hturn, turnStep_not_stalled branchOut (by decide) hic (by rw [hst]; decide)] at hstall
  exact absurd hstall (by decide)

end Sys2Proof.Machine
end
